-- ==== Sys2Proof/Word.lean ====
section
/-! DEFINITION. The word types of the block: bytes, register words, command words, bus addresses, client handles. -/

namespace Sys2Proof

/-- One bus byte or buffer cell (00_scope R9 DATA_BITS, R12). -/
abbrev Byte := BitVec 8

/-- One command word CW (30_encoding R110). -/
abbrev CmdWord := BitVec 32

/-- A 16-bit register (10_state R31). -/
abbrev Half := BitVec 16

/-- The 32-bit event word EV or a snapshot of it (10_state R44). -/
abbrev EvWord := BitVec 32

/-- A 7-bit bus address (10_state R59). -/
abbrev Addr7 := BitVec 7

/-- The opaque slave-client handle held in x[CB]; 0 is no client (10_state R54). -/
abbrev Handle := BitVec 32

end Sys2Proof
end

