-- ==== Sys2Proof/Config.lean ====
section
/-! DEFINITION. The parameters of 00_scope R9, the slave-client oracle of 41_master_api R212, the moves the outside
world chooses (00_scope R18, 43_bus_engine R260), and the free values: `params` and `freeMove`, two opaque constants. -/

namespace Sys2Proof.Config

/-- The error conditions the bus environment may inject: the members of ENV_INJECT (00_scope R9). -/
inductive Injection where
  | berr | arlo | ovr | pecerr | timeout | smbalert | afRx
  deriving DecidableEq, Repr, Inhabited

/-- What the host puts on the command port: the command word and the extra operands that travel beside it
(30_encoding R113). Operands a command does not use are ignored. -/
structure Request where
  /-- the command word CW -/
  word : CmdWord
  /-- WRITE's data bytes -/
  data : List Byte
  /-- READ's timeout_ms -/
  timeoutMs : BitVec 32
  /-- READ's out array, as the host passes it -/
  out : List Byte
  /-- REGISTER_CALLBACKS's handle -/
  handle : Handle
  deriving DecidableEq, Repr, Inhabited

/-- One engine step with the draws of the bus environment (43_bus_engine §2–§4). A Boolean `nack` is the drawn ACK bit
of the ninth clock: false = 0 = ACK, true = 1 = NACK. -/
inductive EngineMove where
  /-- START or repeated START generation (R264) -/
  | start
  /-- the address byte goes out and the remote answers (R265–R267) -/
  | address (nack : Bool)
  /-- transmit load (R268) -/
  | load
  /-- master transmit byte end (R269) -/
  | masterByteEnd (nack : Bool)
  /-- arbitration loss (R270) -/
  | loseArbitration
  /-- receive one byte (R271, R272) -/
  | receive (b : Byte)
  /-- STOP generation (R273) -/
  | stop
  /-- remote START (R275) -/
  | remoteStart
  /-- the remote master's address byte; `otherNack` is the ACK bit of the other devices (R276, R280) -/
  | slaveAddress (a7 : Addr7) (rw : Bool) (otherNack : Bool)
  /-- slave transmit byte end (R277) -/
  | slaveByteEnd (nack : Bool)
  /-- remote repeated START (R278) -/
  | remoteRestart
  /-- remote STOP (R279) -/
  | remoteStop
  /-- error injection (R281, R282) -/
  | inject (e : Injection)
  deriving DecidableEq, Repr, Inhabited

/-- One choice of the nondeterministic schedule: which agent steps next, and with which draws (00_scope R18). -/
inductive Move where
  /-- the host puts a command on the command port -/
  | issue (r : Request)
  /-- the host runs the next micro-step of its command in progress -/
  | host
  /-- one dispatcher invocation -/
  | dispatch
  /-- one engine step -/
  | engine (e : EngineMove)
  deriving DecidableEq, Repr, Inhabited

/-- The client's answer to on_transmit (41_master_api R212); `breaksContract` is a client that blocks or issues a host
command. -/
inductive TxAnswer where
  | answers (n : Nat) (bytes : List Byte) (cs : Nat)
  | breaksContract
  deriving DecidableEq, Repr, Inhabited

/-- The client's answer to on_receive (41_master_api R212). -/
inductive RxAnswer where
  | takes (cs : Nat)
  | breaksContract
  deriving DecidableEq, Repr, Inhabited

/-- The slave-client oracle (41_master_api R212). DESIGN CHOICE (log 6, safe): a client state is named by a natural
number and the initial state cs0 is named 0; what a name stands for is the oracle's own. -/
structure Client where
  tx : Handle → Nat → TxAnswer
  rx : Handle → Nat → List Byte → RxAnswer
  deriving Inhabited

/-- The parameters of 00_scope R9. BUF_CAP and POLL_MS are held as their predecessors, so that every value of this type
is in the domain R9 gives: 1 ≤ BUF_CAP ≤ 32767 and 1 ≤ POLL_MS. -/
structure Params where
  bufCapPred : Fin 32767
  pollMsPred : Nat
  promptDispatch : Bool
  envInject : List Injection
  errEndsTxn : Bool
  client : Client
  deriving Inhabited

/-- BUF_CAP (00_scope R9). -/
def Params.bufCap (p : Params) : Nat := p.bufCapPred.val + 1

/-- POLL_MS (00_scope R9). -/
def Params.pollMs (p : Params) : Nat := p.pollMsPred + 1

/-- Membership in ENV_INJECT (00_scope R9). -/
def Params.injects (p : Params) (e : Injection) : Bool := decide (e ∈ p.envInject)

/-- TIMEOUT_INF, the infinite-wait sentinel (00_scope R9). -/
def timeoutInf : BitVec 32 := 0xFFFFFFFF#32

/-- GC_ENABLE, fixed false (00_scope R9, D32). -/
def gcEnable : Bool := false

/-- OA2_ENABLE and OA2: no second own address, fixed (00_scope R9, D32). -/
def oa2 : Option Addr7 := none

/-- FREE VALUE (log 5, safe): the OPEN parameters and the client oracle of this implementation. Nothing constrains them
beyond their type, so a claim about `exec` or `step` holds for every choice. -/
opaque params : Params

/-- FREE VALUE (log 1, safe): the nondeterministic choice of the next move (43_bus_engine R260), taken where State names
none. -/
opaque freeMove : Nat → Move

end Sys2Proof.Config
end

