-- ==== Sys2Proof/Syntax.lean ====
section
/-! DEFINITION. The commands of the block: one constructor per row of spec/opcode_table.json (30_encoding R114, R115). -/

namespace Sys2Proof

/-- A command with its decoded operands (30_encoding R116, R117). The extra operands of WRITE, READ and
REGISTER_CALLBACKS travel beside the word and are not part of it (R113). -/
inductive Instr where
  /-- SEND_BYTE b (42_primitives R231) -/
  | sendByte (b : Byte)
  /-- RECV_BYTE (R232) -/
  | recvByte
  /-- GEN_START (R233) -/
  | genStart
  /-- GEN_STOP (R234) -/
  | genStop
  /-- SET_ACK e (R235) -/
  | setAck (e : Bool)
  /-- CLEAR_FLAG k, k an EV bit index of 30_encoding R118 (R237) -/
  | clearFlag (k : BitVec 8)
  /-- SET_NOTIFY m (R239) -/
  | setNotify (m : BitVec 3)
  /-- READ_EVENT (R238) -/
  | readEvent
  /-- SET_OWN_ADDR a (R240) -/
  | setOwnAddr (a : Addr7)
  /-- SET_ENABLE e (R241) -/
  | setEnable (e : Bool)
  /-- INIT a7 (41_master_api R190) -/
  | init (a7 : Addr7)
  /-- WRITE a7, stop, wait, len (R191) -/
  | write (a7 : Addr7) (stop wait : Bool) (len : BitVec 15)
  /-- READ a7, stop, len (R200) -/
  | read (a7 : Addr7) (stop : Bool) (len : BitVec 15)
  /-- REGISTER_CALLBACKS (R205) -/
  | registerCallbacks
  /-- STATUS (R206) -/
  | status
  deriving DecidableEq, Repr

/-- P-format commands are engine primitives, H-format commands are the host's (30_encoding R110). -/
def Instr.isPrimitive : Instr → Bool
  | .sendByte _ | .recvByte | .genStart | .genStop | .setAck _ | .clearFlag _ | .setNotify _ | .readEvent
  | .setOwnAddr _ | .setEnable _ => true
  | .init _ | .write _ _ _ _ | .read _ _ _ | .registerCallbacks | .status => false

end Sys2Proof
end

