-- ==== Sys2Proof/WellFormed.lean ====
section
/-! DEFINITION. Which commands are well formed: the one operand whose type admits more than the spec does is
CLEAR_FLAG's bit index (30_encoding R118). -/

namespace Sys2Proof

/-- The EV bit indices CLEAR_FLAG accepts: BERR, ARLO, AF, OVR, PECERR, TIMEOUT, SMBALERT (30_encoding R118,
42_primitives R236). -/
def clearable (k : BitVec 8) : Bool :=
  k == 8#8 || k == 9#8 || k == 10#8 || k == 11#8 || k == 12#8 || k == 14#8 || k == 15#8

/-- A well-formed command: one that some command word carries (30_encoding R114, R115, R118). -/
def Instr.wf : Instr → Bool
  | .clearFlag k => clearable k
  | .sendByte _ | .recvByte | .genStart | .genStop | .setAck _ | .setNotify _ | .readEvent | .setOwnAddr _
  | .setEnable _ | .init _ | .write _ _ _ _ | .read _ _ _ | .registerCallbacks | .status => true

end Sys2Proof
end

