-- ==== Sys2Proof/Decode.lean ====
section
/-! DEFINITION. The decoder of command words, total and refusing by name (30_encoding R110–R122, R125, R126), the
encoder, and the opcode table's mask/match rows. -/

namespace Sys2Proof

/-- Why a word is reserved (30_encoding R120–R122). DESIGN CHOICE (log 26, safe): the spec names one reason, `Class`, and
writes `Reserved(...)` for the others, which are told apart here by the model. -/
inductive Reserved where
  /-- class 0x2–0xF (R120) -/
  | cls
  /-- an unassigned opcode of class 0 or 1 (R121, R122) -/
  | op
  /-- a P-format word with CW[23:8] ≠ 0 (R121) -/
  | zeroField
  /-- an imm8 bit that must be 0 is 1 (R121) -/
  | imm8
  /-- CLEAR_FLAG with an index outside R118 (R121) -/
  | flagIndex
  /-- an H-format field that must be 0 is not (R122) -/
  | hField
  deriving DecidableEq, Repr

/-- `CW[31:28]` (R110). -/
def classOf (w : CmdWord) : BitVec 4 := w.extractLsb' 28 4
/-- `CW[27:24]` (R111, R112). -/
def opOf (w : CmdWord) : BitVec 4 := w.extractLsb' 24 4
/-- `CW[23:8]`, the zero field of the P-format (R111). -/
def zeroOf (w : CmdWord) : BitVec 16 := w.extractLsb' 8 16
/-- `CW[7:0]`, the P-format operand (R111). -/
def immOf (w : CmdWord) : BitVec 8 := w.extractLsb' 0 8
/-- `CW[23:17]` (R112). -/
def addrOf (w : CmdWord) : Addr7 := w.extractLsb' 17 7
/-- `CW[16]`, send_stop (R112). -/
def stopOf (w : CmdWord) : Bool := w.getLsbD 16
/-- `CW[15]`, wait (R112). -/
def waitOf (w : CmdWord) : Bool := w.getLsbD 15
/-- `CW[14:0]`, the length (R112). -/
def lenOf (w : CmdWord) : BitVec 15 := w.extractLsb' 0 15

/-- An operand word that must be 0 for `i` to be meant, else reserved for the reason given. -/
def whenZero (why : Reserved) (z : Bool) (i : Instr) : Except Reserved Instr :=
  if z then .ok i else .error why

/-- P-format words: opcode map and operands of R114, R116; reserved forms of R121. DESIGN CHOICE (log 26, safe): a word
reserved for several causes is given the first of zeroField, op, and imm8 or flagIndex; R121 fixes no order. -/
def decodeP (w : CmdWord) : Except Reserved Instr :=
  if zeroOf w != 0#16 then .error .zeroField
  else if opOf w = 0x1#4 then .ok (.sendByte (immOf w))
  else if opOf w = 0x2#4 then whenZero .imm8 (immOf w == 0#8) .recvByte
  else if opOf w = 0x3#4 then whenZero .imm8 (immOf w == 0#8) .genStart
  else if opOf w = 0x4#4 then whenZero .imm8 (immOf w == 0#8) .genStop
  else if opOf w = 0x5#4 then whenZero .imm8 (w.extractLsb' 1 7 == 0#7) (.setAck (w.getLsbD 0))
  else if opOf w = 0x6#4 then whenZero .flagIndex (clearable (immOf w)) (.clearFlag (immOf w))
  else if opOf w = 0x7#4 then whenZero .imm8 (w.extractLsb' 3 5 == 0#5) (.setNotify (w.extractLsb' 0 3))
  else if opOf w = 0x8#4 then whenZero .imm8 (immOf w == 0#8) .readEvent
  else if opOf w = 0x9#4 then whenZero .imm8 (!w.getLsbD 7) (.setOwnAddr (w.extractLsb' 0 7))
  else if opOf w = 0xA#4 then whenZero .imm8 (w.extractLsb' 1 7 == 0#7) (.setEnable (w.getLsbD 0))
  else .error .op

/-- H-format words: opcode map and operands of R115, R117; reserved forms of R122. DESIGN CHOICE (log 26, safe): an
unassigned opcode is given the reason op whatever its fields hold. -/
def decodeH (w : CmdWord) : Except Reserved Instr :=
  if opOf w = 0x1#4 then whenZero .hField (!stopOf w && !waitOf w && lenOf w == 0#15) (.init (addrOf w))
  else if opOf w = 0x2#4 then .ok (.write (addrOf w) (stopOf w) (waitOf w) (lenOf w))
  else if opOf w = 0x3#4 then whenZero .hField (!waitOf w) (.read (addrOf w) (stopOf w) (lenOf w))
  else if opOf w = 0x4#4 then
    whenZero .hField (addrOf w == 0#7 && !stopOf w && !waitOf w && lenOf w == 0#15) .registerCallbacks
  else if opOf w = 0x5#4 then
    whenZero .hField (addrOf w == 0#7 && !stopOf w && !waitOf w && lenOf w == 0#15) .status
  else .error .op

/-- The total decoder (R126): one command with its operands, or a reserved verdict. -/
def decode (w : CmdWord) : Except Reserved Instr :=
  if classOf w = 0x0#4 then decodeP w
  else if classOf w = 0x1#4 then decodeH w
  else .error .cls

/-- A P-format word from opcode and operand (R111). -/
def wordP (op : BitVec 4) (imm : BitVec 8) : CmdWord := 0x0#4 ++ op ++ 0#16 ++ imm

/-- An H-format word from opcode and fields (R112). -/
def wordH (op : BitVec 4) (a7 : Addr7) (stop wait : Bool) (len : BitVec 15) : CmdWord :=
  0x1#4 ++ op ++ a7 ++ BitVec.ofBool stop ++ BitVec.ofBool wait ++ len

/-- The encoder (R111, R112, R127, R128). -/
def encode : Instr → CmdWord
  | .sendByte b => wordP 0x1#4 b
  | .recvByte => wordP 0x2#4 0#8
  | .genStart => wordP 0x3#4 0#8
  | .genStop => wordP 0x4#4 0#8
  | .setAck e => wordP 0x5#4 ((BitVec.ofBool e).zeroExtend 8)
  | .clearFlag k => wordP 0x6#4 k
  | .setNotify m => wordP 0x7#4 (m.zeroExtend 8)
  | .readEvent => wordP 0x8#4 0#8
  | .setOwnAddr a => wordP 0x9#4 (a.zeroExtend 8)
  | .setEnable e => wordP 0xA#4 ((BitVec.ofBool e).zeroExtend 8)
  | .init a7 => wordH 0x1#4 a7 false false 0#15
  | .write a7 stop wait len => wordH 0x2#4 a7 stop wait len
  | .read a7 stop len => wordH 0x3#4 a7 stop false len
  | .registerCallbacks => wordH 0x4#4 0#7 false false 0#15
  | .status => wordH 0x5#4 0#7 false false 0#15

/-- One row of opcode_table.json: a word `w` is the row's when `w &&& mask = pattern` (and, for CLEAR_FLAG, its index is
one of R118). -/
structure OpRow where
  mnemonic : String
  pattern : CmdWord
  mask : CmdWord
  deriving DecidableEq, Repr

/-- The rows of opcode_table.json, in its order. -/
def opcodeTable : List OpRow :=
  [ ⟨"SEND_BYTE", 0x01000000, 0xFFFFFF00⟩
  , ⟨"RECV_BYTE", 0x02000000, 0xFFFFFFFF⟩
  , ⟨"GEN_START", 0x03000000, 0xFFFFFFFF⟩
  , ⟨"GEN_STOP", 0x04000000, 0xFFFFFFFF⟩
  , ⟨"SET_ACK", 0x05000000, 0xFFFFFFFE⟩
  , ⟨"CLEAR_FLAG", 0x06000000, 0xFFFFFF00⟩
  , ⟨"SET_NOTIFY", 0x07000000, 0xFFFFFFF8⟩
  , ⟨"READ_EVENT", 0x08000000, 0xFFFFFFFF⟩
  , ⟨"SET_OWN_ADDR", 0x09000000, 0xFFFFFF80⟩
  , ⟨"SET_ENABLE", 0x0A000000, 0xFFFFFFFE⟩
  , ⟨"INIT", 0x11000000, 0xFF01FFFF⟩
  , ⟨"WRITE", 0x12000000, 0xFF000000⟩
  , ⟨"READ", 0x13000000, 0xFF008000⟩
  , ⟨"REGISTER_CALLBACKS", 0x14000000, 0xFFFFFFFF⟩
  , ⟨"STATUS", 0x15000000, 0xFFFFFFFF⟩ ]

/-- The mnemonic of a command's row. -/
def Instr.mnemonic : Instr → String
  | .sendByte _ => "SEND_BYTE"
  | .recvByte => "RECV_BYTE"
  | .genStart => "GEN_START"
  | .genStop => "GEN_STOP"
  | .setAck _ => "SET_ACK"
  | .clearFlag _ => "CLEAR_FLAG"
  | .setNotify _ => "SET_NOTIFY"
  | .readEvent => "READ_EVENT"
  | .setOwnAddr _ => "SET_OWN_ADDR"
  | .setEnable _ => "SET_ENABLE"
  | .init _ => "INIT"
  | .write _ _ _ _ => "WRITE"
  | .read _ _ _ => "READ"
  | .registerCallbacks => "REGISTER_CALLBACKS"
  | .status => "STATUS"

/-- What the decoder reads from an instruction numbered as opcode_table.json numbers it. Command words are whole 32-bit
words, not bytes in a memory (R125), so bit `k` of `w` is bit `k` of CW (log 25). -/
def decodeTableWord (nbits w : Nat) : Option Instr :=
  if nbits ≤ 32 ∧ w < 2 ^ 32 then (decode (BitVec.ofNat 32 w)).toOption else none

end Sys2Proof
end

