-- ==== Sys2Proof/Machine/State.lean ====
section
/-! DEFINITION. The state of the block: the six parts of 10_state R30, the slave client's state, and the model's own
port to the outside world; the fault and refusal reasons; the state after power-on reset (70_reset R350). -/

namespace Sys2Proof.Machine

/-! ### Names -/

/-- ControllerState, x[STATE], 3 bits (10_state R33). `unused v` is the value 5 + v: never written, and a rule that
meets it faults BadState. -/
inductive ControllerState where
  | ready | masterTransmitting | masterReceiving | slaveTransmitting | slaveReceiving
  | unused (v : Fin 3)
  deriving DecidableEq, Repr

/-- ErrorCode, x[ERR], 4 bits (60_exceptions R320). The codes 10–15 are never written and have no name here (log 22). -/
inductive ErrorCode where
  | none | outOfCapacity | wrongState | addressNacked | busError | arbitrationLost | overrun | protocolCheckFailed
  | timeout | alertAsserted
  deriving DecidableEq, Repr

/-- The engine phase, x[PHASE] (10_state R53). The values 11–15 are never written and have no name here (log 22). -/
inductive Phase where
  | off | idle | mSb | mAddr | mTx | mRx | mHold | sTx | sRx | sHold | sAwait
  deriving DecidableEq, Repr

/-- The shift-register state, x[SH_STATE] (10_state R52). -/
inductive ShState where
  | empty | busy | full
  deriving DecidableEq, Repr

/-- The named flags of the event word (10_state R44). -/
inductive Flag where
  | sb | addr | btf | stopf | rxne | txe | berr | arlo | af | ovr | pecerr | timeout | smbalert | msl | busy | tra
  | gencall | dualf
  deriving DecidableEq, Repr

/-- Who issues a primitive (10_state R62). -/
inductive Agent where
  | host | dispatcher
  deriving DecidableEq, Repr

/-- The engine primitives (30_encoding R114). -/
inductive Prim where
  | sendByte | recvByte | genStart | genStop | setAck | clearFlag | setNotify | readEvent | setOwnAddr | setEnable
  deriving DecidableEq, Repr

/-- One ACTLOG record `(agent, P, arg)` (10_state R62); a primitive without operand has arg 0 (95_test_vectors §0). -/
structure ActRecord where
  agent : Agent
  prim : Prim
  arg : BitVec 8
  deriving DecidableEq, Repr

/-- The direction of a byte on the wire (10_state R63): `out` is driven by this engine, `inn` by the remote. -/
inductive Dir where
  | out | inn
  deriving DecidableEq, Repr

/-- One WIRELOG symbol (10_state R63). `start` is S, `restart` Sr, `stop` P, `remoteStart` rS, `remoteStop` rP. -/
inductive WireSym where
  | start | restart | stop | remoteStart | remoteStop
  /-- BYTE(dir, b, a), with `nack` the ninth bit a (true = 1 = NACK) -/
  | byte (dir : Dir) (b : Byte) (nack : Bool)
  /-- LOST -/
  | lost
  /-- ERR(e); `afRx` is logged as ERR(AF) (43_bus_engine R282) -/
  | err (e : Config.Injection)
  deriving DecidableEq, Repr

/-- One CBLOG record (10_state R64). -/
inductive CbRecord where
  | tx (n : Nat) (bytes : List Byte)
  | rx (n : Nat) (bytes : List Byte)
  deriving DecidableEq, Repr

/-- The three TransactionBuffers (10_state R56). -/
inductive BufName where
  | mbuf | txbuf | rxbuf
  deriving DecidableEq, Repr

/-- The index of a host micro-step (10_state R60): `m1` is W1, R1, I1, C1 or Q1, `m2` is W2 or R2, and so on. -/
inductive MicroStep where
  | m1 | m2 | m3 | m4 | m5 | m6 | m7 | m8
  deriving DecidableEq, Repr

/-- The result of a host command (00_scope R15, 41_master_api R206). -/
inductive HostResult where
  /-- Ok() -/
  | ok
  /-- Ok(n) of READ -/
  | okCount (n : Nat)
  /-- Ok((STATE, ERR, count)) of STATUS -/
  | okStatus (state : ControllerState) (err : ErrorCode) (count : Nat)
  /-- Err(code) -/
  | err (e : ErrorCode)
  deriving DecidableEq, Repr

/-! ### Faults and refusals -/

/-- Fault reasons (60_exceptions R325, 00_scope R14). All are safe: the machine stops. -/
inductive Fault where
  /-- raised by a buffer read of a cell nothing has written (10_state R56); safe -/
  | unwrittenBuffer
  /-- raised by a rule that meets STATE = 5, 6 or 7 (10_state R33); safe -/
  | badState
  /-- raised by RX_STORE with M_CUR already at or past M_LEN (40_dispatcher R161); no run from reset reaches it (R325);
  safe (log 21) -/
  | cursorOverrun
  /-- the model's own: raised by a WRITE or READ whose micro-step index is none of its own (41_master_api R191, R200);
  no run from reset reaches it; safe (log 11) -/
  | badMicroStep
  deriving DecidableEq, Repr

/-- Refusal reasons (60_exceptions R324, 00_scope R14). All are safe: no step is taken. -/
inductive Refusal where
  /-- an instruction with no meaning yet, by its mnemonic: raised only by an arm of `exec`; safe -/
  | notModelled (mnemonic : String)
  /-- a reserved word, raised when a word is issued (30_encoding R120–R122, 42_primitives R242); safe -/
  | reservedEncoding (why : Reserved)
  /-- a P-format word the host issues on its own (30_encoding R124); safe -/
  | hostPrimitive
  /-- the model's own: an H-format word on the internal command bus, which carries P-format words (R124, log 4); safe -/
  | notPrimitive
  /-- extra operands of the wrong shape (30_encoding R113, 41_master_api R192, R200); safe -/
  | operandShape
  /-- WRITE or READ before INIT (41_master_api R192); safe -/
  | notInitialized
  /-- a second INIT (41_master_api R190); safe -/
  | alreadyInitialized
  /-- a host command while another is in progress (41_master_api R192); safe -/
  | hostBusy
  /-- a buffer access at an index at or beyond BUF_CAP (20_memory R85); safe -/
  | bufferBound
  /-- an on_transmit answer longer than BUF_CAP (41_master_api R213); safe -/
  | callbackOverflow
  /-- an on_transmit answer whose byte list has another length than n (41_master_api R212); safe -/
  | callbackShape
  /-- a client that blocks or issues a host command (41_master_api R212); safe -/
  | callbackContract
  /-- a register number that names no register (10_state R31, 93_implementation_defined I12); raised by the numbered
  view of the register file only; safe -/
  | noSuchRegister
  deriving DecidableEq, Repr

/-! ### The parts of the state (10_state R30) -/

/-- (a) The context registers x[0]–x[13] (10_state R31), and one field of the model's own. -/
structure Context where
  /-- x[0] STATE (R33) -/
  state : ControllerState
  /-- x[1] ERR (R35) -/
  err : ErrorCode
  /-- x[2] RSF (R36) -/
  rsf : Bool
  /-- x[3] PA (R37) -/
  pa : Byte
  /-- x[4] SEND_STOP (R38) -/
  sendStop : Bool
  /-- x[5] M_LEN (R39) -/
  mLen : Half
  /-- x[6] M_CUR (R39) -/
  mCur : Half
  /-- x[7] NACKP (R40) -/
  nackp : Bool
  /-- x[8] M_FINAL (R41) -/
  mFinal : Bool
  /-- x[9] TX_LEN (R42) -/
  txLen : Half
  /-- x[10] TX_CUR (R42) -/
  txCur : Half
  /-- x[11] RX_CUR (R43) -/
  rxCur : Half
  /-- x[12] CB (R54) -/
  cb : Handle
  /-- x[13] INITED (R55) -/
  inited : Bool
  deriving DecidableEq, Repr

/-- (b) The engine registers x[16]–x[23] (10_state R31), and one field of the model's own. -/
structure Engine where
  /-- x[16] CTRL1 (R48) -/
  ctrl1 : Half
  /-- x[17] CTRL2 (R49) -/
  ctrl2 : Half
  /-- x[18] OADDR (R50) -/
  oaddr : Half
  /-- x[19] EV (R44) -/
  ev : EvWord
  /-- x[20] DATA (R51) -/
  data : Byte
  /-- x[21] SHIFT (R52) -/
  shift : Byte
  /-- x[22] SH_STATE (R52) -/
  shState : ShState
  /-- x[23] PHASE (R53) -/
  phase : Phase
  deriving DecidableEq, Repr

/-- The cells of one buffer that hold a byte, by rising index. A cell not listed is unwritten (10_state R56), so no
entry can equal what an unlisted cell reads as. -/
abbrev Memory := List Host.Cell

/-- (c) The three TransactionBuffers (10_state R56). -/
structure Buffers where
  mbuf : Memory
  txbuf : Memory
  rxbuf : Memory
  deriving DecidableEq, Repr

/-- (d) The logs (10_state R62–R64). -/
structure Logs where
  act : List ActRecord
  wire : List WireSym
  cb : List CbRecord
  deriving DecidableEq, Repr

/-- (e) The host agent's local state (10_state R60), and the host's own READ array `out` (30_encoding R113), which
stays the host's after the command has returned. -/
structure HostLocal where
  cmd : Option Config.Request
  step : MicroStep
  polls : Nat
  result : Option HostResult
  out : List Byte
  deriving DecidableEq, Repr

/-- (f) The fault and refusal marks (10_state R65). -/
structure Marks where
  faults : List Fault
  refusals : List Refusal
  deriving DecidableEq, Repr

/-- The model's own fields: the moves chosen from outside and not yet taken, how many free moves were drawn (log 1), and
the internal command bus for a P-format word that runs alone: the word, its issuer, what it returned (log 4). -/
structure Port where
  moves : List Config.Move
  freeCount : Nat
  bus : Option CmdWord
  issuer : Agent
  reply : BitVec 32
  deriving DecidableEq, Repr

/-- The state of the block. -/
structure State where
  ctx : Context
  eng : Engine
  buf : Buffers
  log : Logs
  host : HostLocal
  marks : Marks
  client : Nat
  port : Port
  deriving DecidableEq, Repr

/-- The state after power-on reset (70_reset R350). The port fields, host.step, host.out and
the name 0 of cs0 are the model's (logs 1, 4, 6, 11, 17). -/
def State.reset : State where
  ctx :=
    { state := .ready, err := .none, rsf := false, pa := 0, sendStop := false, mLen := 0, mCur := 0, nackp := false
      mFinal := false, txLen := 0, txCur := 0, rxCur := 0, cb := 0, inited := false }
  eng :=
    { ctrl1 := 0, ctrl2 := 0, oaddr := 0, ev := 0, data := 0, shift := 0, shState := .empty, phase := .off }
  buf := { mbuf := [], txbuf := [], rxbuf := [] }
  log := { act := [], wire := [], cb := [] }
  host := { cmd := none, step := .m1, polls := 0, result := none, out := [] }
  marks := { faults := [], refusals := [] }
  client := 0
  port := { moves := [], freeCount := 0, bus := none, issuer := .dispatcher, reply := 0 }

end Sys2Proof.Machine
end

