-- ==== Sys2Proof/Machine/Operands.lean ====
section
/-! DEFINITION. Operand assembly and the arithmetic on lengths and cursors (20_memory R98, 30_encoding R116, R117), and
the numeric codes of the register file (10_state R33, R52, R53, 60_exceptions R320). -/

namespace Sys2Proof.Machine

/-- `PA = {a7, rw}`: bits 7:1 the address, bit 0 the direction, 0 = write, 1 = read (10_state R37, 20_memory R98 a). -/
def pendingAddress (a7 : Addr7) (rw : Bool) : Byte := a7 ++ BitVec.ofBool rw

/-- `length = zext_16(CW[14:0])` (30_encoding R117). -/
def lengthOf (len : BitVec 15) : Half := len.zeroExtend 16

/-- `T = ceil(timeout_ms / POLL_MS)` (41_master_api R202, 20_memory R98 f). -/
def pollLimit (p : Config.Params) (timeoutMs : BitVec 32) : Nat := (timeoutMs.toNat + p.pollMs - 1) / p.pollMs

/-- `M_CUR + M_FINAL`, the count of a master receive (20_memory R98 e, 41_master_api R204, R206). -/
def Context.count (c : Context) : Nat := c.mCur.toNat + c.mFinal.toNat

/-- The 3-bit encoding of x[STATE] (10_state R33). -/
def ControllerState.code : ControllerState → Nat
  | .ready => 0 | .masterTransmitting => 1 | .masterReceiving => 2 | .slaveTransmitting => 3 | .slaveReceiving => 4
  | .unused v => 5 + v.val

/-- The 4-bit encoding of x[ERR] (60_exceptions R320). -/
def ErrorCode.code : ErrorCode → Nat
  | .none => 0 | .outOfCapacity => 1 | .wrongState => 2 | .addressNacked => 3 | .busError => 4 | .arbitrationLost => 5
  | .overrun => 6 | .protocolCheckFailed => 7 | .timeout => 8 | .alertAsserted => 9

/-- The encoding of x[PHASE] (10_state R53). -/
def Phase.code : Phase → Nat
  | .off => 0 | .idle => 1 | .mSb => 2 | .mAddr => 3 | .mTx => 4 | .mRx => 5 | .mHold => 6 | .sTx => 7 | .sRx => 8
  | .sHold => 9 | .sAwait => 10

/-- The encoding of x[SH_STATE] (10_state R52). -/
def ShState.code : ShState → Nat
  | .empty => 0 | .busy => 1 | .full => 2

end Sys2Proof.Machine
end

