-- ==== Sys2Proof/Machine/Flags.lean ====
section
/-! DEFINITION. Bit fields: the event word's flags (10_state R44), the control bits of CTRL1 and CTRL2 (R48, R49), and
the deliverable predicate over them (60_exceptions R326). -/

namespace Sys2Proof.Machine

/-- Write bit `i` of a register. -/
def putBit {w : Nat} (v : BitVec w) (i : Nat) (b : Bool) : BitVec w :=
  if b then v ||| BitVec.twoPow w i else v &&& ~~~(BitVec.twoPow w i)

/-- The bit position of a flag in the event word (10_state R44). -/
def Flag.idx : Flag → Nat
  | .sb => 0 | .addr => 1 | .btf => 2 | .stopf => 4 | .rxne => 6 | .txe => 7 | .berr => 8 | .arlo => 9 | .af => 10
  | .ovr => 11 | .pecerr => 12 | .timeout => 14 | .smbalert => 15 | .msl => 16 | .busy => 17 | .tra => 18
  | .gencall => 20 | .dualf => 23

/-- The named EV bits (10_state R44): every other bit is reserved and reads 0 (R45). -/
def evDefinedMask : EvWord := 0x0097DFD7#32

/-- The defined bits of CTRL1: PE, START, STOP, ACK (10_state R48). -/
def ctrl1DefinedMask : Half := 0x0701#16

/-- The defined bits of CTRL2: ITERREN, ITEVTEN, ITBUFEN (10_state R49). -/
def ctrl2DefinedMask : Half := 0x0700#16

/-- The defined bits of OADDR: the 7-bit own address (10_state R50). -/
def oaddrDefinedMask : Half := 0x007F#16

/-- `ev.f`, one flag of an event word or of the dispatcher's snapshot (00_scope R11). -/
def evHas (ev : EvWord) (f : Flag) : Bool := ev.getLsbD f.idx

/-- `EV.f`, the live flag (00_scope R11). -/
def Engine.flag (e : Engine) (f : Flag) : Bool := evHas e.ev f

/-- `EV.f <- b`. -/
def Engine.setFlag (e : Engine) (f : Flag) (b : Bool) : Engine := { e with ev := putBit e.ev f.idx b }

/-- `EV.f <- 0` for each flag listed. -/
def Engine.clearFlags (e : Engine) : List Flag → Engine
  | [] => e
  | f :: fs => Engine.clearFlags (e.setFlag f false) fs

/-- `x[CTRL1].PE` (10_state R48). -/
def Engine.pe (e : Engine) : Bool := e.ctrl1.getLsbD 0
/-- `x[CTRL1].START`: a START request is pending (10_state R48). -/
def Engine.startReq (e : Engine) : Bool := e.ctrl1.getLsbD 8
/-- `x[CTRL1].STOP`: a STOP request is pending (10_state R48). -/
def Engine.stopReq (e : Engine) : Bool := e.ctrl1.getLsbD 9
/-- `x[CTRL1].ACK` (10_state R48). -/
def Engine.ackOn (e : Engine) : Bool := e.ctrl1.getLsbD 10
/-- `x[CTRL2].ITERREN` (10_state R49). -/
def Engine.itErrEn (e : Engine) : Bool := e.ctrl2.getLsbD 8
/-- `x[CTRL2].ITEVTEN` (10_state R49). -/
def Engine.itEvtEn (e : Engine) : Bool := e.ctrl2.getLsbD 9
/-- `x[CTRL2].ITBUFEN` (10_state R49). -/
def Engine.itBufEn (e : Engine) : Bool := e.ctrl2.getLsbD 10

/-- `x[CTRL1].PE <- b`. -/
def Engine.setPe (e : Engine) (b : Bool) : Engine := { e with ctrl1 := putBit e.ctrl1 0 b }
/-- `x[CTRL1].START <- b`. -/
def Engine.setStartReq (e : Engine) (b : Bool) : Engine := { e with ctrl1 := putBit e.ctrl1 8 b }
/-- `x[CTRL1].STOP <- b`. -/
def Engine.setStopReq (e : Engine) (b : Bool) : Engine := { e with ctrl1 := putBit e.ctrl1 9 b }
/-- `x[CTRL1].ACK <- b`. -/
def Engine.setAckOn (e : Engine) (b : Bool) : Engine := { e with ctrl1 := putBit e.ctrl1 10 b }

/-- A notification is deliverable (60_exceptions R326). -/
def Engine.deliverable (e : Engine) : Bool :=
  (e.itEvtEn && (e.flag .sb || e.flag .addr || e.flag .btf || e.flag .stopf))
  || (e.itEvtEn && e.itBufEn && (e.flag .rxne || e.flag .txe))
  || (e.itErrEn && (e.flag .berr || e.flag .arlo || e.flag .af || e.flag .ovr || e.flag .pecerr || e.flag .timeout
      || e.flag .smbalert))

end Sys2Proof.Machine
end

