-- ==== Sys2Proof/Machine/Primitives.lean ====
section
/-! DEFINITION. What each engine primitive does to the engine registers (42_primitives R230–R243). Each is a function of
the engine registers alone: a primitive changes nothing else but ACTLOG (R230), which `Ops.issue` appends. -/

namespace Sys2Proof.Machine

/-- SEND_BYTE b (42_primitives R231). -/
def Engine.sendByte (b : Byte) (e : Engine) : Engine :=
  if e.pe then
    match e.phase with
    | .mSb => { e.setFlag .sb false with data := b, phase := .mAddr }
    | .mTx | .sTx => { e.clearFlags [.txe, .btf] with data := b }
    | .off | .idle | .mAddr | .mRx | .mHold | .sRx | .sHold | .sAwait => { e with data := b }
  else e

/-- RECV_BYTE's effect; the value it returns is DATA before it (42_primitives R232). -/
def Engine.recvByte (e : Engine) : Engine :=
  if e.flag .rxne then
    match e.shState with
    | .full => { e.setFlag .btf false with data := e.shift, shState := .empty }
    | .empty | .busy => e.setFlag .rxne false
  else e

/-- GEN_START (42_primitives R233). -/
def Engine.genStart (e : Engine) : Engine :=
  if e.pe then e.setStartReq true else e

/-- GEN_STOP (42_primitives R234). -/
def Engine.genStop (e : Engine) : Engine :=
  if e.pe then
    if e.flag .msl then e.setStopReq true
    else
      match e.phase with
      | .sTx | .sRx | .sHold | .sAwait => { e.clearFlags [.tra, .txe, .btf] with phase := .idle }
      | .off | .idle | .mSb | .mAddr | .mTx | .mRx | .mHold => e
  else e

/-- SET_ACK e (42_primitives R235). -/
def Engine.setAck (b : Bool) (e : Engine) : Engine := e.setAckOn b

/-- CLEAR_FLAG k: `x[EV][k] <- 0` (42_primitives R237). -/
def Engine.clearFlag (k : BitVec 8) (e : Engine) : Engine := { e with ev := putBit e.ev k.toNat false }

/-- SET_NOTIFY m (42_primitives R239, 30_encoding R119). -/
def Engine.setNotify (m : BitVec 3) (e : Engine) : Engine :=
  { e with ctrl2 := putBit (putBit (putBit e.ctrl2 9 (m.getLsbD 0)) 10 (m.getLsbD 1)) 8 (m.getLsbD 2) }

/-- READ_EVENT's effect; the value it returns is EV before it (42_primitives R238). -/
def Engine.readEvent (e : Engine) : Engine := e.clearFlags [.addr, .stopf, .gencall, .dualf]

/-- SET_OWN_ADDR a: `x[OADDR] <- zext_16(a)` (42_primitives R240). -/
def Engine.setOwnAddr (a : Addr7) (e : Engine) : Engine := { e with oaddr := a.zeroExtend 16 }

/-- SET_ENABLE e (42_primitives R241). -/
def Engine.setEnable (b : Bool) (e : Engine) : Engine :=
  if b then
    if e.pe then e else { (e.setPe true).setFlag .busy false with phase := .idle }
  else { e with ctrl1 := 0, ev := 0, shState := .empty, phase := .off }

end Sys2Proof.Machine
end

