-- ==== Sys2Proof/Machine/Ops.lean ====
section
/-! DEFINITION. The shared operations: outcomes of partial operations, buffer access (20_memory R83, R85, 10_state R56),
the numbered register view (R31), issuing primitives (00_scope R13), and the block's only trap-like entry and its
return (60_exceptions R332, R334; 40_dispatcher R151). -/

namespace Sys2Proof.Machine

/-! ### Outcomes -/

/-- How an operation stops short of a next state (00_scope R14). -/
inductive Halt where
  | fault (r : Fault)
  | refuse (r : Refusal)
  deriving DecidableEq, Repr

/-- A result or a stop. -/
abbrev Res (α : Type) := Except Halt α

/-- The step's outcome. -/
def toOutcome : Res State → Host.Outcome State Fault Refusal
  | .ok s => .next s
  | .error (.fault r) => .fault r
  | .error (.refuse r) => .refused r

/-- Run `f` on the result of `r`, if there is one. -/
def andThen {α β : Type} (r : Res α) (f : α → Res β) : Res β :=
  match r with
  | .ok a => f a
  | .error h => .error h

/-! ### One buffer's cells -/

/-- The canonical form: indices strictly rising, so each index is listed once. -/
abbrev Memory.wf (m : Memory) : Prop := m.Pairwise (fun a b => a.1 < b.1)

/-- What the cell at `i` holds; `none` is unwritten (10_state R56). -/
def Memory.read : Memory → Nat → Option Byte
  | [], _ => none
  | (j, b) :: m, i => if i = j then some b else Memory.read m i

/-- Store `v` at `i`, keeping the canonical form. -/
def Memory.write : Memory → Nat → Byte → Memory
  | [], i, v => [(i, v)]
  | (j, b) :: m, i, v =>
    if i < j then (i, v) :: (j, b) :: m
    else if i = j then (i, v) :: m
    else (j, b) :: Memory.write m i v

/-! ### The buffers -/

/-- The cells of a buffer. -/
def Buffers.get (b : Buffers) : BufName → Memory
  | .mbuf => b.mbuf
  | .txbuf => b.txbuf
  | .rxbuf => b.rxbuf

/-- Replace the cells of a buffer. -/
def Buffers.put (b : Buffers) (n : BufName) (m : Memory) : Buffers :=
  match n with
  | .mbuf => { b with mbuf := m }
  | .txbuf => { b with txbuf := m }
  | .rxbuf => { b with rxbuf := m }

/-- One byte of a buffer as a claim reads it: `none` where the cell is unwritten. -/
def State.cell (s : State) (n : BufName) (i : Nat) : Option Byte := (s.buf.get n).read i

/-- `MemRead((B, i), 1)`: refused at or beyond BUF_CAP (20_memory R85), a fault on an unwritten cell (10_state R56). -/
def memRead (p : Config.Params) (n : BufName) (i : Nat) (s : State) : Res Byte :=
  if i < p.bufCap then
    match s.cell n i with
    | some b => .ok b
    | none => .error (.fault .unwrittenBuffer)
  else .error (.refuse .bufferBound)

/-- `MemWrite((B, i), 1, v)`: refused at or beyond BUF_CAP (20_memory R85). -/
def memWrite (p : Config.Params) (n : BufName) (i : Nat) (v : Byte) (s : State) : Res State :=
  if i < p.bufCap then .ok { s with buf := s.buf.put n ((s.buf.get n).write i v) }
  else .error (.refuse .bufferBound)

/-- Read `k` cells from index `i` on. -/
def memReadSeq (p : Config.Params) (n : BufName) (i : Nat) : Nat → State → Res (List Byte)
  | 0, _ => .ok []
  | k + 1, s =>
    andThen (memRead p n i s) fun b => andThen (memReadSeq p n (i + 1) k s) fun bs => .ok (b :: bs)

/-- Write a list of bytes from index `i` on. -/
def memWriteSeq (p : Config.Params) (n : BufName) : Nat → List Byte → State → Res State
  | _, [], s => .ok s
  | i, v :: vs, s => andThen (memWrite p n i v s) fun t => memWriteSeq p n (i + 1) vs t

/-! ### The numbered register view -/

/-- `x[i]` read as a number; numbers 14, 15 and 24 and above name no register (10_state R31). -/
def readReg (s : State) (i : Nat) : Except Refusal Nat :=
  match i with
  | 0 => .ok s.ctx.state.code
  | 1 => .ok s.ctx.err.code
  | 2 => .ok s.ctx.rsf.toNat
  | 3 => .ok s.ctx.pa.toNat
  | 4 => .ok s.ctx.sendStop.toNat
  | 5 => .ok s.ctx.mLen.toNat
  | 6 => .ok s.ctx.mCur.toNat
  | 7 => .ok s.ctx.nackp.toNat
  | 8 => .ok s.ctx.mFinal.toNat
  | 9 => .ok s.ctx.txLen.toNat
  | 10 => .ok s.ctx.txCur.toNat
  | 11 => .ok s.ctx.rxCur.toNat
  | 12 => .ok s.ctx.cb.toNat
  | 13 => .ok s.ctx.inited.toNat
  | 16 => .ok s.eng.ctrl1.toNat
  | 17 => .ok s.eng.ctrl2.toNat
  | 18 => .ok s.eng.oaddr.toNat
  | 19 => .ok s.eng.ev.toNat
  | 20 => .ok s.eng.data.toNat
  | 21 => .ok s.eng.shift.toNat
  | 22 => .ok s.eng.shState.code
  | 23 => .ok s.eng.phase.code
  | _ => .error .noSuchRegister

/-- Read STATE where a rule depends on it: a rule that meets 5, 6 or 7 faults BadState (10_state R33).
DEDUCED (log 7, safe): this is every rule that tests or reports STATE. -/
def withState {α : Type} (s : State) (f : ControllerState → Res α) : Res α :=
  match s.ctx.state with
  | .unused _ => .error (.fault .badState)
  | st => f st

/-! ### Issuing primitives (00_scope R13, 42_primitives R230) -/

/-- `issue P(arg)`: the primitive's engine effect at once, and its ACTLOG record. -/
def issue (a : Agent) (prim : Prim) (arg : BitVec 8) (f : Engine → Engine) (s : State) : State :=
  { s with eng := f s.eng, log := { s.log with act := s.log.act ++ [⟨a, prim, arg⟩] } }

def issueSendByte (a : Agent) (b : Byte) (s : State) : State := issue a .sendByte b (Engine.sendByte b) s
def issueRecvByte (a : Agent) (s : State) : State := issue a .recvByte 0#8 Engine.recvByte s
def issueGenStart (a : Agent) (s : State) : State := issue a .genStart 0#8 Engine.genStart s
def issueGenStop (a : Agent) (s : State) : State := issue a .genStop 0#8 Engine.genStop s
def issueSetAck (a : Agent) (b : Bool) (s : State) : State :=
  issue a .setAck ((BitVec.ofBool b).zeroExtend 8) (Engine.setAck b) s
def issueClearFlag (a : Agent) (k : BitVec 8) (s : State) : State := issue a .clearFlag k (Engine.clearFlag k) s
def issueSetNotify (a : Agent) (m : BitVec 3) (s : State) : State :=
  issue a .setNotify (m.zeroExtend 8) (Engine.setNotify m) s
def issueReadEvent (a : Agent) (s : State) : State := issue a .readEvent 0#8 Engine.readEvent s
def issueSetOwnAddr (a : Agent) (a7 : Addr7) (s : State) : State :=
  issue a .setOwnAddr (a7.zeroExtend 8) (Engine.setOwnAddr a7) s
def issueSetEnable (a : Agent) (b : Bool) (s : State) : State :=
  issue a .setEnable ((BitVec.ofBool b).zeroExtend 8) (Engine.setEnable b) s

/-- CLEAR_FLAG's operand for a named flag: its EV bit index (30_encoding R118). -/
def flagOperand (f : Flag) : BitVec 8 := BitVec.ofNat 8 f.idx

/-! ### Entry to the notification handler, and the return from it -/

/-- Entry (40_dispatcher R151, 60_exceptions R332): SET_NOTIFY(0b111), then READ_EVENT. It saves nothing and changes no
mode; the state it leaves is the one the handler's body starts from. -/
def enterHandler (s : State) : State := issueReadEvent .dispatcher (issueSetNotify .dispatcher 7#3 s)

/-- The snapshot `ev` that READ_EVENT returns at entry (40_dispatcher R151). SET_NOTIFY does not touch EV, so it is the
live EV at the invocation's start. -/
def entrySnapshot (s : State) : EvWord := (issueSetNotify .dispatcher 7#3 s).eng.ev

/-- Return from the handler (60_exceptions R334): nothing is restored, the enables stay as the body left them. -/
def leaveHandler (s : State) : State := s

/-! ### Field writes the rules use -/

/-- `x[STATE] <- S`. -/
def State.setState (s : State) (st : ControllerState) : State := { s with ctx := { s.ctx with state := st } }

/-- `x[ERR] <- e`. -/
def State.setErr (s : State) (e : ErrorCode) : State := { s with ctx := { s.ctx with err := e } }

/-- Append to CBLOG. -/
def State.logCb (s : State) (r : CbRecord) : State := { s with log := { s.log with cb := s.log.cb ++ [r] } }

end Sys2Proof.Machine
end

