-- ==== Sys2Proof/Machine/HostApi.lean ====
section
/-! DEFINITION. The Master Transaction API: the micro-steps of the host commands (41_master_api R190–R206), and the
meanings of the H-format rows. A meaning runs ONE micro-step of the command in progress, the one host.step names; its
extra operands are those latched with the command in host.cmd (10_state R60). -/

namespace Sys2Proof.Machine

/-- The operands latched with the command in progress; none in progress, none latched. -/
def HostLocal.operands (h : HostLocal) : Config.Request :=
  match h.cmd with
  | some r => r
  | none => { word := 0, data := [], timeoutMs := 0, out := [], handle := 0 }

/-- `return r`: the command ends, host.cmd becomes none and host.result becomes r (41_master_api, introduction).
host.step goes back to the first index (log 11). -/
def returnWith (r : HostResult) (s : State) : State :=
  { s with host := { s.host with cmd := none, step := .m1, result := some r } }

/-- Go to a later micro-step. -/
def goTo (k : MicroStep) (s : State) : State := { s with host := { s.host with step := k } }

/-- The refusals WRITE and READ check before any micro-step, but for HostBusy, which the command port checks
(41_master_api R192): NotInitialized, then OperandShape (log 8). -/
def whenAllowed (shapeOk : Bool) (s : State) (k : Res State) : Res State :=
  if s.ctx.inited then if shapeOk then k else .error (.refuse .operandShape)
  else .error (.refuse .notInitialized)

/-- W1 and R1: the capacity check (41_master_api R193, R201). -/
def checkCapacity (p : Config.Params) (length : Half) (s : State) : State :=
  if p.bufCap < length.toNat then returnWith (.err .outOfCapacity) s else goTo .m2 s

/-- W2 and R2: the state check, then the zero-length case, which returns `zero` (41_master_api R194, R201). -/
def checkState (length : Half) (zero : HostResult) (s : State) : Res State :=
  withState s fun st =>
    if st = .ready then
      if length = 0#16 then .ok (returnWith zero s) else .ok (goTo .m3 s)
    else .ok (returnWith (.err .wrongState) s)

/-- The register writes W3 and R3 share: ERR, PA, M_LEN, M_CUR, NACKP, M_FINAL, SEND_STOP (41_master_api R195, R201). -/
def arm (pa : Byte) (mLen : Half) (sendStop : Bool) (s : State) : State :=
  { s with
    ctx := { s.ctx with
      err := .none, pa := pa, mLen := mLen, mCur := 0, nackp := false, mFinal := false, sendStop := sendStop } }

/-- W3: arming a WRITE (41_master_api R195). -/
def armWrite (p : Config.Params) (a7 : Addr7) (length : Half) (sendStop : Bool) (s : State) : Res State :=
  andThen (memWriteSeq p .mbuf 0 (s.host.operands.data.take length.toNat) s) fun t =>
    .ok (goTo .m4 (arm (pendingAddress a7 false) length sendStop t))

/-- R3: arming a READ; the armed length is length − 1 (41_master_api R201, 20_memory R98 b). -/
def armRead (a7 : Addr7) (length : Half) (sendStop : Bool) (s : State) : State :=
  goTo .m4 (arm (pendingAddress a7 true) (length - 1#16) sendStop s)

/-- W4 and R4: entering the role (41_master_api R196, R201). -/
def enterRole (st : ControllerState) (s : State) : State :=
  goTo .m5 { s with ctx := { s.ctx with state := st } }

/-- W5 and R5: the trigger (41_master_api R197). With RSF = 1 it holds until EV.SB = 1: until then the step is not
enabled, and taking it changes nothing (log 2). DEDUCED (log 29, unsafe): where the rules take the requested START away, or
keep it waiting on a slave role, it holds for ever, against R197's last corner case. -/
def trigger (s : State) : State :=
  if s.ctx.rsf then
    if s.eng.flag .sb then
      let t := issueSendByte .host s.ctx.pa { s with ctx := { s.ctx with rsf := false } }
      goTo .m6 (issueSetNotify .host 7#3 t)
    else s
  else goTo .m6 (issueGenStart .host s)

/-- R5: the trigger; host.polls is 0 when R6 is entered (41_master_api R201, R202). -/
def triggerRead (s : State) : State :=
  let t := trigger s
  if t.host.step = .m6 then { t with host := { t.host with polls := 0 } } else t

/-- W6: completion (41_master_api R198). -/
def finishWrite (wait : Bool) (s : State) : Res State :=
  if wait then
    withState s fun st =>
      if st = .ready then
        if s.ctx.err = .none then .ok (returnWith .ok s) else .ok (returnWith (.err s.ctx.err) s)
      else .ok s
  else .ok (returnWith .ok s)

/-- R6: one poll (41_master_api R202). -/
def poll (p : Config.Params) (s : State) : Res State :=
  withState s fun st =>
    if st = .ready then .ok (goTo .m7 s)
    else if s.host.operands.timeoutMs ≠ Config.timeoutInf
        ∧ pollLimit p s.host.operands.timeoutMs ≤ s.host.polls then .ok (goTo .m8 s)
    else .ok { s with host := { s.host with polls := s.host.polls + 1 } }

/-- `out[i] <- bytes[i]`; the rest of the host's array is not written (41_master_api R204). -/
def copyOut (bytes out : List Byte) : List Byte := bytes.take out.length ++ out.drop bytes.length

/-- The copy-out of n bytes and `return Ok(n)` (41_master_api R204). -/
def deliver (p : Config.Params) (n : Nat) (s : State) : Res State :=
  andThen (memReadSeq p .mbuf 0 n s) fun bytes =>
    .ok (returnWith (.okCount n) { s with host := { s.host with out := copyOut bytes s.host.out } })

/-- R7: the result of a READ that saw Ready (41_master_api R204). DEDUCED (log 12): `(STATE = Ready)` there names the
case, it is not tested again. -/
def finishRead (p : Config.Params) (s : State) : Res State :=
  if s.ctx.err = .none then deliver p s.ctx.count s else .ok (returnWith (.err s.ctx.err) s)

/-- R8: the result of a READ that timed out (41_master_api R204). -/
def timeoutRead (p : Config.Params) (s : State) : Res State := deliver p s.ctx.mCur.toNat s

/-- The micro-steps of WRITE (41_master_api R191–R198). -/
def writeStep (p : Config.Params) (a7 : Addr7) (stop wait : Bool) (length : Half) (s : State) : Res State :=
  match s.host.step with
  | .m1 => whenAllowed (s.host.operands.data.length == length.toNat) s (.ok (checkCapacity p length s))
  | .m2 => checkState length .ok s
  | .m3 => armWrite p a7 length stop s
  | .m4 => .ok (enterRole .masterTransmitting s)
  | .m5 => .ok (trigger s)
  | .m6 => finishWrite wait s
  | .m7 | .m8 => .error (.fault .badMicroStep)

/-- The micro-steps of READ (41_master_api R200–R204). -/
def readStep (p : Config.Params) (a7 : Addr7) (stop : Bool) (length : Half) (s : State) : Res State :=
  match s.host.step with
  | .m1 => whenAllowed (decide (length.toNat ≤ s.host.operands.out.length)) s (.ok (checkCapacity p length s))
  | .m2 => checkState length (.okCount 0) s
  | .m3 => .ok (armRead a7 length stop s)
  | .m4 => .ok (enterRole .masterReceiving s)
  | .m5 => .ok (triggerRead s)
  | .m6 => poll p s
  | .m7 => finishRead p s
  | .m8 => timeoutRead p s

/-- I1 (41_master_api R190). -/
def initStep (a7 : Addr7) (s : State) : Res State :=
  if s.ctx.inited then .error (.refuse .alreadyInitialized)
  else
    let t := issueSetNotify .host 7#3 (issueSetAck .host true (issueSetOwnAddr .host a7 (issueSetEnable .host true s)))
    .ok (returnWith .ok { t with ctx := { t.ctx with inited := true } })

/-- INIT (41_master_api R190). -/
def execInit (a7 : Addr7) (s : State) : Host.Outcome State Fault Refusal := toOutcome (initStep a7 s)

/-- WRITE: the next of W1–W6 (41_master_api R191). -/
def execWrite (a7 : Addr7) (stop wait : Bool) (len : BitVec 15) (s : State) : Host.Outcome State Fault Refusal :=
  toOutcome (writeStep Config.params a7 stop wait (lengthOf len) s)

/-- READ: the next of R1–R8 (41_master_api R200). -/
def execRead (a7 : Addr7) (stop : Bool) (len : BitVec 15) (s : State) : Host.Outcome State Fault Refusal :=
  toOutcome (readStep Config.params a7 stop (lengthOf len) s)

/-- REGISTER_CALLBACKS: C1 (41_master_api R205). -/
def execRegisterCallbacks (s : State) : Host.Outcome State Fault Refusal :=
  .next (returnWith .ok { s with ctx := { s.ctx with cb := s.host.operands.handle } })

/-- STATUS: Q1 (41_master_api R206). -/
def execStatus (s : State) : Host.Outcome State Fault Refusal :=
  toOutcome (withState s fun st => .ok (returnWith (.okStatus st s.ctx.err s.ctx.count) s))

end Sys2Proof.Machine
end

