-- ==== Sys2Proof/Machine/PFormat.lean ====
section
/-! DEFINITION. The meanings of the P-format rows: a primitive that runs alone from the internal command bus, issued by
the agent that drives the bus (42_primitives, 30_encoding R124, log 4). Inside an invocation or a host micro-step the
same primitives are issued by `issueSendByte` and its like. -/

namespace Sys2Proof.Machine

/-- The value a primitive returns to its issuer, kept where the issuer reads it (log 4). -/
def withReply (v : BitVec 32) (s : State) : State := { s with port := { s.port with reply := v } }

/-- SEND_BYTE (42_primitives R231). -/
def execSendByte (b : Byte) (s : State) : Host.Outcome State Fault Refusal := .next (issueSendByte s.port.issuer b s)

/-- RECV_BYTE: returns DATA as it was (42_primitives R232). -/
def execRecvByte (s : State) : Host.Outcome State Fault Refusal :=
  .next (withReply (s.eng.data.zeroExtend 32) (issueRecvByte s.port.issuer s))

/-- GEN_START (42_primitives R233). -/
def execGenStart (s : State) : Host.Outcome State Fault Refusal := .next (issueGenStart s.port.issuer s)

/-- GEN_STOP (42_primitives R234). -/
def execGenStop (s : State) : Host.Outcome State Fault Refusal := .next (issueGenStop s.port.issuer s)

/-- SET_ACK (42_primitives R235). -/
def execSetAck (e : Bool) (s : State) : Host.Outcome State Fault Refusal := .next (issueSetAck s.port.issuer e s)

/-- CLEAR_FLAG: a bit index outside 30_encoding R118 is a reserved form (42_primitives R236, R237). -/
def execClearFlag (k : BitVec 8) (s : State) : Host.Outcome State Fault Refusal :=
  if clearable k then .next (issueClearFlag s.port.issuer k s) else .refused (.reservedEncoding .flagIndex)

/-- SET_NOTIFY (42_primitives R239). -/
def execSetNotify (m : BitVec 3) (s : State) : Host.Outcome State Fault Refusal :=
  .next (issueSetNotify s.port.issuer m s)

/-- READ_EVENT: returns EV as it was (42_primitives R238). -/
def execReadEvent (s : State) : Host.Outcome State Fault Refusal :=
  .next (withReply s.eng.ev (issueReadEvent s.port.issuer s))

/-- SET_OWN_ADDR (42_primitives R240). -/
def execSetOwnAddr (a : Addr7) (s : State) : Host.Outcome State Fault Refusal :=
  .next (issueSetOwnAddr s.port.issuer a s)

/-- SET_ENABLE (42_primitives R241). -/
def execSetEnable (e : Bool) (s : State) : Host.Outcome State Fault Refusal :=
  .next (issueSetEnable s.port.issuer e s)

end Sys2Proof.Machine
end

