-- ==== Sys2Proof/Machine/Dispatch.lean ====
section
/-! DEFINITION. The one match over the commands. -/

namespace Sys2Proof.Machine

def exec (i : Instr) (s : State) : Host.Outcome State Fault Refusal :=
  match i with
  | .sendByte b => Sys2Proof.Machine.execSendByte b s
  | .recvByte => Sys2Proof.Machine.execRecvByte s
  | .genStart => Sys2Proof.Machine.execGenStart s
  | .genStop => Sys2Proof.Machine.execGenStop s
  | .setAck e => Sys2Proof.Machine.execSetAck e s
  | .clearFlag k => Sys2Proof.Machine.execClearFlag k s
  | .setNotify m => Sys2Proof.Machine.execSetNotify m s
  | .readEvent => Sys2Proof.Machine.execReadEvent s
  | .setOwnAddr a => Sys2Proof.Machine.execSetOwnAddr a s
  | .setEnable e => Sys2Proof.Machine.execSetEnable e s
  | .init a7 => Sys2Proof.Machine.execInit a7 s
  | .write a7 stop wait len => Sys2Proof.Machine.execWrite a7 stop wait len s
  | .read a7 stop len => Sys2Proof.Machine.execRead a7 stop len s
  | .registerCallbacks => Sys2Proof.Machine.execRegisterCallbacks s
  | .status => Sys2Proof.Machine.execStatus s

end Sys2Proof.Machine
end

