-- ==== Sys2Proof/Machine/EngineSteps.lean ====
section
/-! DEFINITION. The bus engine's byte-level steps with the draws of the bus environment (43_bus_engine R260–R282). Each
step is a function of the engine registers; `none` is "not enabled". The symbols it puts on the wire come with it. -/

namespace Sys2Proof.Machine

/-- What an enabled engine step gives: the engine registers after it and the symbols appended to WIRELOG. -/
abbrev EngineStep := Engine × List WireSym

/-- The master byte boundary predicate MB (43_bus_engine R263). -/
def Engine.mb (e : Engine) : Bool :=
  e.flag .msl &&
    match e.phase with
    | .mSb | .mRx | .mHold => true
    | .mTx => e.shState != .busy
    | .off | .idle | .mAddr | .sTx | .sRx | .sHold | .sAwait => false

/-- The bus is free for a START (43_bus_engine R264). -/
def Engine.busFree (e : Engine) : Bool := !e.flag .busy && e.phase == .idle

/-- START or repeated START generation (43_bus_engine R264). -/
def stepStart (e : Engine) : Option EngineStep :=
  if e.startReq && !e.stopReq && (e.busFree || e.mb) then
    some
      ({ ((((e.setStartReq false).setFlag .sb true).setFlag .msl true).setFlag .busy true).clearFlags
            [.tra, .txe, .btf] with phase := .mSb },
       [if e.busFree then .start else .restart])
  else none

/-- The address byte with the remote's answer (43_bus_engine R265–R267). DEDUCED (log 27, unsafe): it is what DATA holds,
whatever was written there after PA (R265, 20_memory R81). -/
def stepAddress (nack : Bool) (e : Engine) : Option EngineStep :=
  if e.phase = .mAddr then
    some
      (if nack then { (e.setFlag .af true).setFlag .tra (!e.data.getLsbD 0) with phase := .mHold }
       else if e.data.getLsbD 0 then { (e.setFlag .addr true).setFlag .tra false with phase := .mRx }
       else
        { ((e.setFlag .addr true).setFlag .tra true).setFlag .txe true with shState := .empty, phase := .mTx },
       [.byte .out e.data nack])
  else none

/-- Transmit load: DATA to the shift register (43_bus_engine R268). -/
def stepLoad (e : Engine) : Option EngineStep :=
  if ((e.phase == .mTx && !e.startReq && !e.stopReq) || e.phase == .sTx)
      && !e.flag .addr && !e.flag .txe && e.shState == .empty then
    some ({ (e.setFlag .txe true).setFlag .btf false with shift := e.data, shState := .busy }, [])
  else none

/-- Master transmit byte end (43_bus_engine R269). -/
def stepMasterByteEnd (nack : Bool) (e : Engine) : Option EngineStep :=
  if e.phase = .mTx ∧ e.shState = .busy then
    let e1 := { e with shState := .empty }
    some
      (if nack then { (e1.setFlag .af true).clearFlags [.txe, .btf] with phase := .mHold }
       else if e.flag .txe && !e.startReq && !e.stopReq then e1.setFlag .btf true
       else e1,
       [.byte .out e.shift nack])
  else none

/-- Arbitration loss (43_bus_engine R270). -/
def stepLoseArbitration (p : Config.Params) (e : Engine) : Option EngineStep :=
  if p.injects .arlo && (e.phase == .mAddr || (e.phase == .mTx && e.shState == .busy)) then
    some
      ({ (((e.setFlag .arlo true).clearFlags [.msl, .tra, .sb, .txe, .btf]).setStartReq false).setStopReq false with
          shState := .empty, phase := .idle },
       [.lost])
  else none

/-- The engine holds SCL low: SB, ADDR or BTF is set, or it waits in M_HOLD for a START or STOP request
(43_bus_engine R290). -/
def Engine.stretches (e : Engine) : Bool :=
  e.flag .sb || e.flag .addr || e.flag .btf || (e.phase == .mHold && !e.startReq && !e.stopReq)

/-- The receive guard (43_bus_engine R271). -/
def receiveEnabled (p : Config.Params) (e : Engine) : Bool :=
  ((e.phase == .mRx && !e.startReq && !e.stopReq) || e.phase == .sRx)
    && !e.flag .addr && e.shState != .full
    && !(p.promptDispatch && e.flag .rxne && e.itEvtEn && e.itBufEn)

/-- Receive one byte (43_bus_engine R272). -/
def stepReceive (p : Config.Params) (b : Byte) (e : Engine) : Option EngineStep :=
  if receiveEnabled p e then
    let e1 :=
      if e.flag .rxne then { e.setFlag .btf true with shift := b, shState := .full }
      else { e.setFlag .rxne true with data := b }
    some
      (if !e.ackOn && e.phase == .mRx then { e1 with phase := .mHold } else e1,
       [.byte .inn b (!e.ackOn)])
  else none

/-- STOP generation (43_bus_engine R273). -/
def stepStop (e : Engine) : Option EngineStep :=
  if e.stopReq && e.mb then
    some ({ (e.setStopReq false).clearFlags [.msl, .busy, .tra, .txe, .btf, .sb] with phase := .idle }, [.stop])
  else none

/-- Remote START (43_bus_engine R275). -/
def stepRemoteStart (e : Engine) : Option EngineStep :=
  if e.phase = .idle ∧ e.flag .busy = false then
    some ({ e.setFlag .busy true with phase := .sAwait }, [.remoteStart])
  else none

/-- The block's own address is meant (43_bus_engine R276). -/
def Engine.ownMatch (e : Engine) (a7 : Addr7) : Bool := a7 == e.oaddr.extractLsb' 0 7

/-- The general call is meant and enabled (43_bus_engine R276). -/
def generalMatch (a7 : Addr7) (rw : Bool) : Bool := Config.gcEnable && a7 == 0#7 && !rw

/-- The second own address is meant and enabled (43_bus_engine R276). -/
def dualMatch (a7 : Addr7) : Bool := Config.oa2 == some a7

/-- An address byte selects this engine and the engine ACKs it (43_bus_engine R276). -/
def Engine.selected (e : Engine) (a7 : Addr7) (rw : Bool) : Bool :=
  (e.ownMatch a7 || generalMatch a7 rw || dualMatch a7) && e.ackOn

/-- Slave address match, or no match (43_bus_engine R276, R280). -/
def stepSlaveAddress (a7 : Addr7) (rw otherNack : Bool) (e : Engine) : Option EngineStep :=
  if e.phase = .sAwait then
    if e.selected a7 rw then
      let e1 :=
        ((e.setFlag .addr true).setFlag .gencall (generalMatch a7 rw)).setFlag .dualf (dualMatch a7 && !e.ownMatch a7)
      some
        (if rw then { (e1.setFlag .tra true).setFlag .txe true with shState := .empty, phase := .sTx }
         else { e1.setFlag .tra false with phase := .sRx },
         [.byte .inn (a7 ++ BitVec.ofBool rw) false])
    else some ({ e with phase := .idle }, [.byte .inn (a7 ++ BitVec.ofBool rw) otherNack])
  else none

/-- Slave transmit byte end (43_bus_engine R277). -/
def stepSlaveByteEnd (nack : Bool) (e : Engine) : Option EngineStep :=
  if e.phase = .sTx ∧ e.shState = .busy then
    let e1 := { e with shState := .empty }
    some
      (if nack then { (e1.setFlag .af true).clearFlags [.txe, .btf] with phase := .sHold }
       else if e.flag .txe then e1.setFlag .btf true
       else e1,
       [.byte .out e.shift nack])
  else none

/-- The remote master may end or restart its transfer (43_bus_engine R278, R279). -/
def Engine.remoteMayEnd (e : Engine) : Bool :=
  e.flag .busy && !e.flag .msl && (e.phase == .idle || e.phase == .sRx || e.phase == .sHold)

/-- Remote repeated START (43_bus_engine R278). -/
def stepRemoteRestart (e : Engine) : Option EngineStep :=
  if e.remoteMayEnd then some ({ e.clearFlags [.tra, .txe, .btf] with phase := .sAwait }, [.remoteStart])
  else none

/-- Remote STOP (43_bus_engine R279). -/
def stepRemoteStop (e : Engine) : Option EngineStep :=
  if e.remoteMayEnd then
    some
      ({ (if e.phase = .sRx then e.setFlag .stopf true else e).clearFlags
            [.busy, .tra, .txe, .btf, .gencall, .dualf] with phase := .idle },
       [.remoteStop])
  else none

/-- Error injection (43_bus_engine R281, R282). ARLO is no injection step of its own: it is the arbitration loss of
R270. -/
def stepInject (p : Config.Params) (i : Config.Injection) (e : Engine) : Option EngineStep :=
  if p.injects i then
    match i with
    | .berr => if e.flag .busy then some (e.setFlag .berr true, [.err .berr]) else none
    | .arlo => none
    | .ovr => some (e.setFlag .ovr true, [.err .ovr])
    | .pecerr => some (e.setFlag .pecerr true, [.err .pecerr])
    | .timeout => some (e.setFlag .timeout true, [.err .timeout])
    | .smbalert => some (e.setFlag .smbalert true, [.err .smbalert])
    | .afRx => if e.phase = .mRx then some (e.setFlag .af true, [.err .afRx]) else none
  else none

/-- One engine step, none where its guard does not hold; with PE = 0 no step is enabled (43_bus_engine R262). -/
def engineStep (p : Config.Params) (m : Config.EngineMove) (e : Engine) : Option EngineStep :=
  if e.pe then
    match m with
    | .start => stepStart e
    | .address nack => stepAddress nack e
    | .load => stepLoad e
    | .masterByteEnd nack => stepMasterByteEnd nack e
    | .loseArbitration => stepLoseArbitration p e
    | .receive b => stepReceive p b e
    | .stop => stepStop e
    | .remoteStart => stepRemoteStart e
    | .slaveAddress a7 rw otherNack => stepSlaveAddress a7 rw otherNack e
    | .slaveByteEnd nack => stepSlaveByteEnd nack e
    | .remoteRestart => stepRemoteRestart e
    | .remoteStop => stepRemoteStop e
    | .inject i => stepInject p i e
  else none

/-- An engine step on the block: it changes the engine registers and WIRELOG (43_bus_engine R260). -/
def runEngine (p : Config.Params) (m : Config.EngineMove) (s : State) : Option State :=
  match engineStep p m s.eng with
  | some (e, syms) => some { s with eng := e, log := { s.log with wire := s.log.wire ++ syms } }
  | none => none

end Sys2Proof.Machine
end

