-- ==== Sys2Proof/Machine/EventDispatcher.lean ====
section
/-! DEFINITION. The Event Dispatcher: one invocation handles one whole notification (40_dispatcher R150–R178). -/

namespace Sys2Proof.Machine

/-- TERMINATE: end a master transaction with STOP or repeated START (40_dispatcher R158). -/
def terminate (s : State) : State :=
  if s.ctx.sendStop then (issueGenStop .dispatcher s).setState .ready
  else
    (issueGenStart .dispatcher
      (issueSetNotify .dispatcher 0#3 { s with ctx := { s.ctx with rsf := true } })).setState .ready

/-- TX_NEXT: the next master byte, or the end of the write (40_dispatcher R157). -/
def txNext (p : Config.Params) (s : State) : Res State :=
  if s.ctx.mCur < s.ctx.mLen then
    andThen (memRead p .mbuf s.ctx.mCur.toNat s) fun b =>
      let t := issueSendByte .dispatcher b s
      .ok { t with ctx := { t.ctx with mCur := t.ctx.mCur + 1#16 } }
  else .ok (terminate s)

/-- Latch AddressNacked, request a STOP and return to Ready: R155 after its CLEAR_FLAG, and the address path of R164. -/
def addressNacked (s : State) : State :=
  (issueGenStop .dispatcher (s.setErr .addressNacked)).setState .ready

/-- MTX(ev): acknowledge-failure first, then the data flags (40_dispatcher R154–R156). -/
def mtx (p : Config.Params) (ev : EvWord) (s : State) : Res State :=
  if evHas ev .af then .ok (addressNacked (issueClearFlag .dispatcher (flagOperand .af) s))
  else if evHas ev .addr || evHas ev .btf || evHas ev .txe then txNext p s
  else .ok s

/-- MRX on address-matched: the acknowledgment lookahead (40_dispatcher R160). `M_LEN - M_CUR > 0` is unsigned without
wrap-around (20_memory R98), so it is `M_CUR < M_LEN` (log 16). -/
def mrxAddr (s : State) : State :=
  if s.ctx.mCur < s.ctx.mLen then issueSetAck .dispatcher true s
  else
    let u := issueSetAck .dispatcher false s
    { u with ctx := { u.ctx with nackp := true } }

/-- RX_STORE: MRX on receive-data-available with no no-ack pending (40_dispatcher R161). -/
def rxStore (p : Config.Params) (s : State) : Res State :=
  if s.ctx.mLen ≤ s.ctx.mCur then .error (.fault .cursorOverrun)
  else
    andThen (memWrite p .mbuf s.ctx.mCur.toNat s.eng.data (issueRecvByte .dispatcher s)) fun t =>
      let t := { t with ctx := { t.ctx with mCur := t.ctx.mCur + 1#16 } }
      if t.ctx.mCur = t.ctx.mLen then
        let u := issueSetAck .dispatcher false t
        .ok { u with ctx := { u.ctx with nackp := true } }
      else .ok (issueSetAck .dispatcher true t)

/-- FINAL_CAPTURE: store the final byte (40_dispatcher R163). -/
def finalCapture (p : Config.Params) (s : State) : Res State :=
  andThen (memWrite p .mbuf s.ctx.mLen.toNat s.eng.data (issueRecvByte .dispatcher s)) fun t =>
    .ok { t with ctx := { t.ctx with mFinal := true, nackp := false } }

/-- MRX on receive-data-available: R162 when a no-ack was pending at entry, else R161. -/
def mrxData (p : Config.Params) (nackp0 : Bool) (s : State) : Res State :=
  if nackp0 then andThen (finalCapture p s) fun t => .ok (terminate t)
  else rxStore p s

/-- MRX on acknowledge-failure (40_dispatcher R164). -/
def mrxNack (p : Config.Params) (ev : EvWord) (nackp0 : Bool) (s : State) : Res State :=
  let s := issueClearFlag .dispatcher (flagOperand .af) s
  if nackp0 then
    if evHas ev .rxne then .ok s
    else andThen (finalCapture p s) fun t => .ok (terminate t)
  else if !evHas ev .rxne && !evHas ev .addr && s.ctx.mCur == 0#16 then .ok (addressNacked s)
  else .ok s

/-- A byte MRX may take. DEDUCED (log 21, unsafe): with M_CUR = M_LEN and no no-ack pending, the ADDR of the READ has not
been handled (40_dispatcher R179 (b)), so RxNE is no byte of the READ; it stays set (R177), and CursorOverrun is not
reached (R161, 60_exceptions R325). -/
def rxDue (nackp0 : Bool) (c : Context) : Bool := nackp0 || c.mCur != c.mLen

/-- MRX(ev, nackp0): R160, then R161 or R162, then R164 (40_dispatcher R152). DESIGN CHOICE (log 28, unsafe): a received
byte of 20_memory R80 is one RECV_BYTE hands to this handler, as R161 and R162 test RxNE alone; so an RxNE left from an
earlier session counts, and with SB in the same snapshot the byte taken is PA. -/
def mrx (p : Config.Params) (ev : EvWord) (nackp0 : Bool) (s : State) : Res State :=
  let s1 := if evHas ev .addr then mrxAddr s else s
  andThen (if evHas ev .rxne && rxDue nackp0 s.ctx then mrxData p nackp0 s1 else .ok s1) fun s2 =>
    if evHas ev .af then mrxNack p ev nackp0 s2 else .ok s2

/-- The master branch: MASTER_SB (40_dispatcher R153), then the handler STATE selects (R152, R159). DEDUCED (log 27,
unsafe): with SB and a stale ADDR in one snapshot MTX runs as R152 and R156 say, after PA was placed. -/
def masterRole (p : Config.Params) (ev : EvWord) (nackp0 : Bool) (s : State) : Res State :=
  let s := if evHas ev .sb then issueSendByte .dispatcher s.ctx.pa s else s
  match s.ctx.state with
  | .masterTransmitting => mtx p ev s
  | .masterReceiving => mrx p ev nackp0 s
  | .ready | .slaveTransmitting | .slaveReceiving => .ok s
  | .unused _ => .error (.fault .badState)

/-- `call on_transmit` with a client registered: the answer must be given within the contract, have n bytes, and fit
(41_master_api R212, R213; 40_dispatcher R166). DESIGN CHOICE (log 9, safe): the checks are made in that order. -/
def callOnTransmit (p : Config.Params) (s : State) : Res State :=
  match p.client.tx s.ctx.cb s.client with
  | .breaksContract => .error (.refuse .callbackContract)
  | .answers n bytes cs =>
    if bytes.length = n then
      if n ≤ p.bufCap then
        andThen (memWriteSeq p .txbuf 0 bytes (State.logCb { s with client := cs } (.tx n bytes))) fun t =>
          .ok { t with ctx := { t.ctx with txLen := BitVec.ofNat 16 n } }
      else .error (.refuse .callbackOverflow)
    else .error (.refuse .callbackShape)

/-- Slave-transmit address match (40_dispatcher R166). -/
def slaveMatchTx (p : Config.Params) (s : State) : Res State :=
  let t := { s with ctx := { s.ctx with state := .slaveTransmitting, txCur := 0, txLen := 0 } }
  if t.ctx.cb = 0 then .ok t else callOnTransmit p t

/-- Slave-receive address match (40_dispatcher R167). -/
def slaveMatchRx (s : State) : State :=
  { s with ctx := { s.ctx with state := .slaveReceiving, rxCur := 0 } }

/-- SLAVE_MATCH: ev.TRA selects the case (40_dispatcher R165). -/
def slaveMatch (p : Config.Params) (ev : EvWord) (s : State) : Res State :=
  if evHas ev .tra then slaveMatchTx p s else .ok (slaveMatchRx s)

/-- SLAVE_TX_BYTE: the next byte, or the filler 0xFF (40_dispatcher R169). -/
def slaveTxByte (p : Config.Params) (s : State) : Res State :=
  if s.ctx.txCur < s.ctx.txLen then
    andThen (memRead p .txbuf s.ctx.txCur.toNat s) fun b =>
      let t := issueSendByte .dispatcher b s
      .ok { t with ctx := { t.ctx with txCur := t.ctx.txCur + 1#16 } }
  else .ok (issueSendByte .dispatcher 0xFF#8 s)

/-- STX: the slave-transmit handler (40_dispatcher R168). -/
def stx (p : Config.Params) (ev : EvWord) (s : State) : Res State :=
  let s := issueSetAck .dispatcher true s
  if evHas ev .af then .ok ((issueClearFlag .dispatcher (flagOperand .af) s).setState .ready)
  else if evHas ev .btf || evHas ev .txe then slaveTxByte p s
  else .ok s

/-- SRX on receive-data-available (40_dispatcher R170). -/
def srxData (p : Config.Params) (s : State) : Res State :=
  let t := issueRecvByte .dispatcher s
  if s.ctx.rxCur.toNat < p.bufCap then
    andThen (memWrite p .rxbuf s.ctx.rxCur.toNat s.eng.data t) fun u =>
      .ok (issueSetAck .dispatcher true { u with ctx := { u.ctx with rxCur := u.ctx.rxCur + 1#16 } })
  else .ok (issueSetAck .dispatcher false t)

/-- `call on_receive` with a client registered (41_master_api R212). -/
def callOnReceive (p : Config.Params) (bytes : List Byte) (s : State) : Res State :=
  match p.client.rx s.ctx.cb s.client bytes with
  | .takes cs => .ok { s with client := cs }
  | .breaksContract => .error (.refuse .callbackContract)

/-- ON_RECEIVE: deliver the bytes; the CBLOG record is appended even with no client (40_dispatcher R172). -/
def onReceive (p : Config.Params) (s : State) : Res State :=
  andThen (memReadSeq p .rxbuf 0 s.ctx.rxCur.toNat s) fun bytes =>
    andThen (if s.ctx.cb = 0 then .ok s else callOnReceive p bytes s) fun t =>
      .ok (t.logCb (.rx s.ctx.rxCur.toNat bytes))

/-- SRX on stop-condition-detected (40_dispatcher R171). -/
def srxStop (p : Config.Params) (s : State) : Res State :=
  andThen (onReceive p s) fun t =>
    .ok { t with ctx := { t.ctx with rxCur := 0, state := .ready } }

/-- SRX on acknowledge-failure (40_dispatcher R173). -/
def srxNack (s : State) : State :=
  issueSetAck .dispatcher true (issueClearFlag .dispatcher (flagOperand .af) s)

/-- SRX(ev): R170, then R171, then R173 (40_dispatcher R152). -/
def srx (p : Config.Params) (ev : EvWord) (s : State) : Res State :=
  andThen (if evHas ev .rxne then srxData p s else .ok s) fun s1 =>
    andThen (if evHas ev .stopf then srxStop p s1 else .ok s1) fun s2 =>
      .ok (if evHas ev .af then srxNack s2 else s2)

/-- The slave branch: SLAVE_MATCH on ADDR, then the handler of STATE as just written (40_dispatcher R152, R174). DESIGN
CHOICE (log 28, unsafe): a byte of 20_memory R80's session is one RECV_BYTE hands to its handler, so with ADDR and an RxNE of
an earlier session in one snapshot the old byte is stored at RXBUF[0], as R167 and R170 say. -/
def slaveRole (p : Config.Params) (ev : EvWord) (s : State) : Res State :=
  andThen (if evHas ev .addr then slaveMatch p ev s else .ok s) fun t =>
    match t.ctx.state with
    | .slaveTransmitting => stx p ev t
    | .slaveReceiving => srx p ev t
    | .ready | .masterTransmitting | .masterReceiving => .ok t
    | .unused _ => .error (.fault .badState)

/-- With ERR_ENDS_TXN, the BERR and ARLO lines also return STATE to Ready (40_dispatcher R175, R176). -/
def errEnds (p : Config.Params) (s : State) : State :=
  if p.errEndsTxn then s.setState .ready else s

/-- The BERR line of CROSS (40_dispatcher R175). -/
def crossBerr (p : Config.Params) (ev : EvWord) (s : State) : State :=
  if evHas ev .berr then
    errEnds p (issueClearFlag .dispatcher (flagOperand .berr) ((issueGenStop .dispatcher s).setErr .busError))
  else s

/-- The ARLO line of CROSS (40_dispatcher R175). -/
def crossArlo (p : Config.Params) (ev : EvWord) (s : State) : State :=
  if evHas ev .arlo then
    errEnds p (issueClearFlag .dispatcher (flagOperand .arlo) (s.setErr .arbitrationLost))
  else s

/-- A line of CROSS that latches a code and clears its flag (40_dispatcher R175). -/
def crossLatch (ev : EvWord) (f : Flag) (e : ErrorCode) (s : State) : State :=
  if evHas ev f then issueClearFlag .dispatcher (flagOperand f) (s.setErr e) else s

/-- CROSS(ev): BERR, ARLO, OVR, PECERR, TIMEOUT, SMBALERT, in this order (40_dispatcher R175, 60_exceptions R330). -/
def cross (p : Config.Params) (ev : EvWord) (s : State) : State :=
  crossLatch ev .smbalert .alertAsserted
    (crossLatch ev .timeout .timeout
      (crossLatch ev .pecerr .protocolCheckFailed
        (crossLatch ev .ovr .overrun (crossArlo p ev (crossBerr p ev s)))))

/-- The role branch on the master-active flag (40_dispatcher R152). -/
def roleBranch (p : Config.Params) (ev : EvWord) (nackp0 : Bool) (s : State) : Res State :=
  if evHas ev .msl then masterRole p ev nackp0 s else slaveRole p ev s

/-- One invocation (40_dispatcher R150–R152): entry, the role branch, CROSS, return. -/
def invoke (p : Config.Params) (s : State) : Res State :=
  let ev := entrySnapshot s
  let t := enterHandler s
  andThen (roleBranch p ev t.ctx.nackp t) fun u => .ok (leaveHandler (cross p ev u))

end Sys2Proof.Machine
end

