-- ==== Sys2Proof/Machine/Fetch.lean ====
section
/-! DEFINITION. How a command word comes to run and how each agent takes its step: the command port and the host's next
micro-step (41_master_api R192, R209), the internal command bus (30_encoding R124), a dispatcher invocation
(40_dispatcher R150), an engine step (43_bus_engine R260). -/

namespace Sys2Proof.Machine

/-- Which commands come with a host array, the operand `out`: READ alone (30_encoding R113). -/
def bringsArray : Instr → Bool
  | .read _ _ _ => true
  | .sendByte _ | .recvByte | .genStart | .genStop | .setAck _ | .clearFlag _ | .setNotify _ | .readEvent
  | .setOwnAddr _ | .setEnable _ | .init _ | .write _ _ _ _ | .registerCallbacks | .status => false

/-- The host's array once a command is on the port: READ brings its own. DESIGN CHOICE (log 17): a command with no `out`
operand leaves the array of the last READ as it stands. -/
def latchedOut (r : Config.Request) (s : State) : List Byte :=
  match decode r.word with
  | .ok i => if bringsArray i then r.out else s.host.out
  | .error _ => s.host.out

/-- Latch a command as the one in progress, at its first micro-step, its result not yet there (10_state R60, logs 17,
18). -/
def latch (r : Config.Request) (s : State) : State :=
  { s with host := { s.host with cmd := some r, step := .m1, result := none, out := latchedOut r s } }

/-- The host puts a command on the port: a reserved word is refused (30_encoding R120–R122), a bare primitive is refused
(R124), a second command is refused (41_master_api R192); otherwise it is latched and its first micro-step runs
(logs 8, 10). -/
def issueCommand (r : Config.Request) (s : State) : Host.Outcome State Fault Refusal :=
  match decode r.word with
  | .error why => .refused (.reservedEncoding why)
  | .ok i =>
    if i.isPrimitive then .refused .hostPrimitive
    else if s.host.cmd.isSome then .refused .hostBusy
    else exec i (latch r s)

/-- The host's next micro-step: the command in progress is decoded from its latched word. With no command in progress
the step is not enabled (log 2). -/
def hostMove (s : State) : Host.Outcome State Fault Refusal :=
  match s.host.cmd with
  | none => .next s
  | some r =>
    match decode r.word with
    | .error why => .refused (.reservedEncoding why)
    | .ok i => if i.isPrimitive then .refused .hostPrimitive else exec i s

/-- A word that stands alone on the internal command bus runs as its issuer's primitive (30_encoding R124, log 4). -/
def runBus (w : CmdWord) (s : State) : Host.Outcome State Fault Refusal :=
  match decode w with
  | .error why => .refused (.reservedEncoding why)
  | .ok i => if i.isPrimitive then exec i s else .refused .notPrimitive

/-- The dispatcher's step: enabled exactly when a notification is deliverable (40_dispatcher R150, 60_exceptions R326). -/
def dispatchMove (s : State) : Host.Outcome State Fault Refusal :=
  if s.eng.deliverable then toOutcome (invoke Config.params s) else .next s

/-- The engine's step, where it is enabled. -/
def engineMove (m : Config.EngineMove) (s : State) : Host.Outcome State Fault Refusal :=
  match runEngine Config.params m s with
  | some t => .next t
  | none => .next s

/-- The chosen agent takes its step. A step that is not enabled changes nothing (log 2). -/
def perform (m : Config.Move) (s : State) : Host.Outcome State Fault Refusal :=
  match m with
  | .issue r => issueCommand r s
  | .host => hostMove s
  | .dispatch => dispatchMove s
  | .engine e => engineMove e s

/-- The next move and the state without it: the word on the internal bus is no move; the schedule in State comes first,
then a free move (log 1). -/
def nextMove (s : State) : Config.Move × State :=
  match s.port.moves with
  | m :: ms => (m, { s with port := { s.port with moves := ms } })
  | [] => (Config.freeMove s.port.freeCount, { s with port := { s.port with freeCount := s.port.freeCount + 1 } })

/-- What one step does. -/
def advance (s : State) : Host.Outcome State Fault Refusal :=
  match s.port.bus with
  | some w => runBus w { s with port := { s.port with bus := none } }
  | none => perform (nextMove s).1 (nextMove s).2

/-- The extra operands that travel beside a word placed for the next step: as many zero bytes as its length field asks
for, as WRITE's data and READ's array, and zeros (log 3). -/
def zeroOperands (w : CmdWord) : Config.Request :=
  { word := w, data := List.replicate (lenOf w).toNat 0#8, timeoutMs := 0
    out := List.replicate (lenOf w).toNat 0#8, handle := 0 }

/-- Put a word where the next step takes it: a class-0 word on the internal command bus, any other word on the host's
command port, which is then idle (log 3). -/
def placeWord (w : CmdWord) (s : State) : State :=
  if classOf w = 0x0#4 then { s with port := { s.port with bus := some w } }
  else
    { s with
      host := { s.host with cmd := none }
      port := { s.port with bus := none, moves := .issue (zeroOperands w) :: s.port.moves } }

/-- The state without what a step takes from the port: the word on the internal bus, or the next move. -/
def consume (s : State) : State :=
  match s.port.bus with
  | some _ => { s with port := { s.port with bus := none } }
  | none => (nextMove s).2

/-- A fault mark is appended and never cleared (10_state R65). -/
def markFault (r : Fault) (s : State) : State :=
  { s with marks := { s.marks with faults := s.marks.faults ++ [r] } }

/-- A refusal mark is appended and never cleared: the model takes no step for the refused form and records the reason
(60_exceptions R324, 10_state R65). -/
def markRefusal (r : Refusal) (s : State) : State :=
  { s with marks := { s.marks with refusals := s.marks.refusals ++ [r] } }

/-- The state a run is in after an outcome of a step from `s`: a stop leaves everything but the move and the marks as it
was (log 13). -/
def settle (s : State) : Host.Outcome State Fault Refusal → State
  | .next t => t
  | .fault r => markFault r (consume s)
  | .refused r => markRefusal r (consume s)

end Sys2Proof.Machine
end

