-- ==== Sys2Proof/Machine/Step.lean ====
section
/-! DEFINITION. One step of the block, and the placing of a word for the next step. -/

namespace Sys2Proof.Machine

/-- One atomic step of one agent (00_scope R14, R18; 20_memory R91). -/
def step (s : State) : Host.Outcome State Fault Refusal := advance s

/-- `s` with the command word whose bits are `w` placed where the next step takes it. Every command word is 32 bits
(30_encoding R125); the bits above `nbits` are 0. -/
def State.withFetchWord (s : State) (nbits w : Nat) : State := placeWord (BitVec.ofNat 32 (w % 2 ^ nbits)) s

end Sys2Proof.Machine
end

