-- ==== Sys2Proof/Machine/Wire.lean ====
section
/-! DEFINITION. The wire protocol beneath the byte steps (43_bus_engine R284–R290): line levels, frames bit by bit,
arbitration, clock stretching. WIRELOG symbols stand for these (R286); no step of the machine depends on them (R294).
PRESUMED (log 20, safe): the protocol facts are the I2C standard's, as 43_bus_engine §6 itself marks them. -/

namespace Sys2Proof.Machine

/-- The levels of the two lines, true = high (R284). -/
structure Lines where
  sda : Bool
  scl : Bool
  deriving DecidableEq, Repr

/-- Wired-AND: a line is low if any device pulls it low, `false` in the list of drivers (R284). -/
def wiredAnd (drivers : List Bool) : Bool := drivers.all id

/-- Both lines high: the idle bus (R284). -/
def idleLines : Lines := ⟨true, true⟩

/-- The eight data bits, most significant first (R286, 20_memory R82). -/
def dataBits (b : Byte) : List Bool :=
  [b.getLsbD 7, b.getLsbD 6, b.getLsbD 5, b.getLsbD 4, b.getLsbD 3, b.getLsbD 2, b.getLsbD 1, b.getLsbD 0]

/-- One frame: eight data bits, then the acknowledge bit, 0 = ACK, 1 = NACK (R286). -/
def frameBits (b : Byte) (nack : Bool) : List Bool := dataBits b ++ [nack]

/-- What a frame's transmitter drives on SDA: its data bits, and SDA released on the ninth clock (R286). -/
def transmitterDrive (b : Byte) : List Bool := dataBits b ++ [true]

/-- What a frame's receiver drives on SDA: released for the data bits, and on the ninth clock low for ACK or left high for
NACK (R286). -/
def receiverDrive (nack : Bool) : List Bool := [true, true, true, true, true, true, true, true, nack]

/-- What a device drives on SDA over a frame it takes no part in: it leaves the line released (R284, R280). -/
def releasedBits : List Bool := List.replicate 9 true

/-- SDA, clock by clock, with two devices driving it (R284). -/
def wiredBits : List Bool → List Bool → List Bool
  | a :: as, b :: bs => wiredAnd [a, b] :: wiredBits as bs
  | _, _ => []

/-- The deserializer: nine bits give back the byte and the acknowledge bit (R286). -/
def assembleFrame : List Bool → Option (Byte × Bool)
  | [b7, b6, b5, b4, b3, b2, b1, b0, a] =>
    some
      (BitVec.ofBool b7 ++ BitVec.ofBool b6 ++ BitVec.ofBool b5 ++ BitVec.ofBool b4 ++ BitVec.ofBool b3
        ++ BitVec.ofBool b2 ++ BitVec.ofBool b1 ++ BitVec.ofBool b0, a)
  | _ => none

/-- One clock of one bit: SDA changes while SCL is low and is held while SCL is high (R286). -/
def bitClock (b : Bool) : List Lines := [⟨b, false⟩, ⟨b, true⟩, ⟨b, false⟩]

/-- The lines of a bit sequence. -/
def bitsOnLines : List Bool → List Lines
  | [] => []
  | b :: bs => bitClock b ++ bitsOnLines bs

/-- What one device drives on the two lines, moment by moment; `true` releases the line (R284). -/
structure Drive where
  sda : List Bool
  scl : List Bool
  deriving DecidableEq, Repr

/-- The clock of `n` bits as the master drives it: SCL low, released, low, for each bit (R286). -/
def masterClock : Nat → List Bool
  | 0 => []
  | n + 1 => [false, true, false] ++ masterClock n

/-- The SDA bits a device drives, each held over its whole clock (R286). -/
def heldBits : List Bool → List Bool
  | [] => []
  | b :: bs => [b, b, b] ++ heldBits bs

/-- The bits as the master drives them, with all their clocks (R286). -/
def masterDrive (bits : List Bool) : Drive := ⟨heldBits bits, masterClock bits.length⟩

/-- The bits as a device that is not the master drives them: it leaves SCL to the master (R286; a slave that stretches the
clock only holds it low longer, R290). -/
def slaveDrive (bits : List Bool) : Drive := ⟨heldBits bits, List.replicate (3 * bits.length) true⟩

/-- What two devices drive together (R284). -/
def Drive.wired (a b : Drive) : Drive := ⟨wiredBits a.sda b.sda, wiredBits a.scl b.scl⟩

/-- The lines of the bus, moment by moment, under all that is driven on it (R284). -/
def Drive.lines (d : Drive) : List Lines := d.sda.zipWith Lines.mk d.scl

/-- The part a device has in a frame (R286). -/
inductive Part where
  | transmitter | receiver | bystander
  deriving DecidableEq, Repr

/-- What a device drives over a frame: the bits of its part, and all nine clocks if it is the master (R286). -/
def frameDrive (isMaster : Bool) (part : Part) (b : Byte) (nack : Bool) : Drive :=
  let bits :=
    match part with
    | .transmitter => transmitterDrive b
    | .receiver => receiverDrive nack
    | .bystander => releasedBits
  if isMaster then masterDrive bits else slaveDrive bits

/-- A byte of WIRELOG that comes in is an address byte that does not select this engine: `e` stands in S_AWAIT before the
step, and the acknowledge bit is the other devices' (R276, R280, R287). -/
def Engine.passedOver (e : Engine) (b : Byte) : Bool :=
  e.phase == .sAwait && !e.selected (b.extractLsb' 1 7) (b.getLsbD 0)

/-- The part this engine, as it stands before the step, has in a byte of WIRELOG (10_state R63, R276, R280, R286). -/
def Engine.part (e : Engine) (d : Dir) (b : Byte) : Part :=
  match d with
  | .out => .transmitter
  | .inn => if e.passedOver b then .bystander else .receiver

/-- The part the remote at the other end has in the same byte: the master where this engine is a slave, else the addressed
slave (10_state R63, R286). -/
def remotePart : Dir → Part
  | .out => .receiver
  | .inn => .transmitter

/-- The part the other devices on the bus have: they answer an address byte that does not select this engine (R276). -/
def Engine.othersPart (e : Engine) (d : Dir) (b : Byte) : Part :=
  match d with
  | .out => .bystander
  | .inn => if e.passedOver b then .receiver else .bystander

/-- What this engine drives over a byte of WIRELOG: it is the master while MSL = 1 (10_state R44, R286). -/
def Engine.frameDrive (e : Engine) (d : Dir) (b : Byte) (nack : Bool) : Drive :=
  Machine.frameDrive (e.flag .msl) (e.part d b) b nack

/-- What the remote drives over the same byte: it is the master where this engine is not (R286). -/
def Engine.remoteDrive (e : Engine) (d : Dir) (b : Byte) (nack : Bool) : Drive :=
  Machine.frameDrive (!e.flag .msl) (remotePart d) b nack

/-- What the other devices drive over the same byte: no clock (R286), and the acknowledge bit where it is theirs (R276). -/
def Engine.othersDrive (e : Engine) (d : Dir) (b : Byte) (nack : Bool) : Drive :=
  Machine.frameDrive false (e.othersPart d b) b nack

/-- The lines over a byte of WIRELOG, with every device on them (R284, R286). -/
def Engine.busLines (e : Engine) (d : Dir) (b : Byte) (nack : Bool) : List Lines :=
  (((e.frameDrive d b nack).wired (e.remoteDrive d b nack)).wired (e.othersDrive d b nack)).lines

/-- How often SCL rises. -/
def clockPulses : List Bool → Nat
  | a :: b :: ls => (!a && b).toNat + clockPulses (b :: ls)
  | _ => 0

/-- The receiver's sampler: SDA as it stands while SCL is high, taken once for each clock, where SCL rises (R286). -/
def sampleBits : List Lines → List Bool
  | a :: b :: ls => if !a.scl && b.scl then b.sda :: sampleBits (b :: ls) else sampleBits (b :: ls)
  | _ => []

/-- A frame read off the lines: sampled, then deserialized (R286). -/
def readFrame (ls : List Lines) : Option (Byte × Bool) := assembleFrame (sampleBits ls)

/-- SDA changes only while SCL is low: between two moments with SCL high it is the same (R286). -/
def sdaStable : List Lines → Bool
  | a :: b :: ls => (!(a.scl && b.scl) || a.sda == b.sda) && sdaStable (b :: ls)
  | _ => true

/-- START on a free bus: SDA falls while SCL is high (R285). -/
def startLines : List Lines := [⟨true, true⟩, ⟨false, true⟩, ⟨false, false⟩]

/-- Repeated START on a held bus: SDA is released while SCL is low, then as START (R285). -/
def restartLines : List Lines := [⟨true, false⟩, ⟨true, true⟩, ⟨false, true⟩, ⟨false, false⟩]

/-- STOP: SDA rises while SCL is high (R285). -/
def stopLines : List Lines := [⟨false, false⟩, ⟨false, true⟩, ⟨true, true⟩]

/-- The lines of a WIRELOG symbol (10_state R63, R284–R286), whoever drives them; LOST and ERR mark no levels of their own. -/
def WireSym.lines : WireSym → List Lines
  | .start | .remoteStart => startLines
  | .restart => restartLines
  | .stop | .remoteStop => stopLines
  | .byte _ b nack => bitsOnLines (frameBits b nack)
  | .lost | .err _ => []

/-- SDA falls while SCL is high: the START condition (R285). -/
def isStartEdge (a b : Lines) : Bool := a.scl && b.scl && a.sda && !b.sda

/-- SDA rises while SCL is high: the STOP condition (R285). -/
def isStopEdge (a b : Lines) : Bool := a.scl && b.scl && !a.sda && b.sda

/-- How many START edges a sequence of line levels holds. -/
def startEdges : List Lines → Nat
  | a :: b :: ls => (isStartEdge a b).toNat + startEdges (b :: ls)
  | _ => 0

/-- How many STOP edges a sequence of line levels holds. -/
def stopEdges : List Lines → Nat
  | a :: b :: ls => (isStopEdge a b).toNat + stopEdges (b :: ls)
  | _ => 0

/-- The arbitration detector: the first bit where this master releases SDA but samples it low (R289). -/
def arbitrationLostAt : List Bool → List Bool → Option Nat
  | m :: ms, o :: os =>
    if m && !wiredAnd [m, o] then some 0
    else (arbitrationLostAt ms os).map (· + 1)
  | _, _ => none

end Sys2Proof.Machine
end

