-- ==== Sys2Proof/Safety.lean ====
section
/-! DEFINITION. What counts as a good state and a good run: the invariants of 40_dispatcher R179, 10_state R39, R45,
R48–R50, R53, the marks of R65, and the fairness of 43_bus_engine R274. -/

namespace Sys2Proof.Machine

/-- BUF_CAP of this implementation. -/
abbrev cap : Nat := Config.params.bufCap

/-- After a START the engine waits in M_SB as the master, and SB = 1 says so alone; until the address byte has gone out TxE
and BTF stay clear (43_bus_engine R264). -/
structure AddressPhaseSound (e : Engine) : Prop where
  awaits : e.phase = .mSb → e.pe = true ∧ e.flag .sb = true ∧ e.flag .msl = true
  onlySb : e.flag .sb = true → e.phase = .mSb
  cleared : e.phase = .mSb ∨ e.phase = .mAddr → e.flag .txe = false ∧ e.flag .btf = false

/-- Nothing of an earlier transfer is in the way of the address byte: no ADDR, and no byte in the shift register. -/
def NothingLeft (e : Engine) : Prop := e.flag .addr = false ∧ e.shState ≠ .full

/-- From a START until the address byte has gone out, nothing of an earlier transfer is in its way. A START takes such a
thing with it (43_bus_engine R264, log 27), and every other step keeps this. -/
def AddressPhaseQuiet (e : Engine) : Prop := e.phase = .mSb ∨ e.phase = .mAddr → NothingLeft e

/-- After the step from `s` to `t`, the address byte in DATA is the one that was there, or PA, placed after a START
(20_memory R81). -/
def AddressByteIsPa (s t : State) : Prop :=
  t.eng.phase = .mAddr →
    (s.eng.phase = .mAddr ∧ t.eng.data = s.eng.data) ∨ (s.eng.phase = .mSb ∧ t.eng.data = s.ctx.pa)

/-- The byte that the step from `s` to `t` places as the engine waits in M_SB is PA, before it sends any other
(42_primitives R231, 20_memory R81). -/
def PaPlacedFirst (s t : State) : Prop :=
  s.eng.phase = .mSb → t.eng.phase = .mAddr →
    ∃ a l k, t.log.act = s.log.act ++ l ++ ⟨a, .sendByte, s.ctx.pa⟩ :: k ∧ ∀ r ∈ l, r.prim ≠ .sendByte

/-- A byte is still armed: a no-ack is pending for the final one, or M_CUR < M_LEN (40_dispatcher R179 (b)). -/
def ByteArmed (c : Context) : Prop := c.nackp = true ∨ c.mCur < c.mLen

/-- The three buffers are in canonical form. -/
def BuffersCanonical (s : State) : Prop := s.buf.mbuf.wf ∧ s.buf.txbuf.wf ∧ s.buf.rxbuf.wf

/-- Only cells 0 … BUF_CAP − 1 of a buffer hold a byte (00_scope R12, 20_memory R85). -/
def CellsInRange (s : State) : Prop := ∀ n i, cap ≤ i → s.cell n i = none

/-- The reserved bits of EV, CTRL1, CTRL2 and OADDR read 0 (10_state R45, R48–R50). -/
def ReservedBitsZero (e : Engine) : Prop :=
  e.ev &&& ~~~evDefinedMask = 0#32 ∧ e.ctrl1 &&& ~~~ctrl1DefinedMask = 0#16
    ∧ e.ctrl2 &&& ~~~ctrl2DefinedMask = 0#16 ∧ e.oaddr &&& ~~~oaddrDefinedMask = 0#16

/-- PHASE is OFF exactly while PE = 0 (10_state R48, R53). -/
def OffExactlyWhenDisabled (e : Engine) : Prop := e.pe = false ↔ e.phase = .off

/-- The cursor and length bounds of 10_state R39 and 40_dispatcher R179 (d). -/
def CursorBounds (c : Context) : Prop :=
  c.mCur ≤ c.mLen ∧ c.mLen.toNat ≤ cap ∧ c.txCur ≤ c.txLen ∧ c.txLen.toNat ≤ cap ∧ c.rxCur.toNat ≤ cap

/-- STATE is a master role. -/
def ControllerState.isMaster : ControllerState → Bool
  | .masterTransmitting | .masterReceiving => true
  | .ready | .slaveTransmitting | .slaveReceiving | .unused _ => false

/-- STATE is a slave role. -/
def ControllerState.isSlave : ControllerState → Bool
  | .slaveTransmitting | .slaveReceiving => true
  | .ready | .masterTransmitting | .masterReceiving | .unused _ => false

/-- The first `k` cells of a buffer hold a byte. -/
def Written (s : State) (n : BufName) (k : Nat) : Prop := ∀ i, i < k → (s.cell n i).isSome = true

/-- What holds of the host's command in progress: it is a WRITE or READ past its first micro-step that passed its
capacity check; while it arms, STATE is no master role; once armed, the fields it armed stand. -/
def CommandSound (s : State) (r : Config.Request) : Prop :=
  match decode r.word with
  | .ok (.write _ _ _ len) =>
    r.data.length = len.toNat ∧ len.toNat ≤ cap
      ∧ (s.host.step = .m2 ∨ s.host.step = .m3 ∨ s.host.step = .m4 ∨ s.host.step = .m5 ∨ s.host.step = .m6)
      ∧ (s.host.step = .m3 ∨ s.host.step = .m4 → s.ctx.state.isMaster = false)
      ∧ (s.host.step = .m4 → s.ctx.mFinal = false ∧ Written s .mbuf s.ctx.mLen.toNat)
  | .ok (.read _ _ len) =>
    len.toNat ≤ cap ∧ s.host.step ≠ .m1
      ∧ (s.host.step ≠ .m2 → 1 ≤ len.toNat)
      ∧ (s.host.step = .m3 ∨ s.host.step = .m4 → s.ctx.state.isMaster = false)
      ∧ (s.host.step = .m4 → s.ctx.mFinal = false ∧ s.ctx.mLen.toNat < cap)
  | _ => False

/-- The transaction invariant: 10_state R33, R39, R56 and 40_dispatcher R179 (a), (c), (d), with what the buffers must
hold for every later read to find a written cell. -/
structure TransactionSound (s : State) : Prop where
  stateNamed : ∀ v, s.ctx.state ≠ .unused v
  bounds : CursorBounds s.ctx
  noAckPending : s.ctx.nackp = true → s.ctx.mCur = s.ctx.mLen
  finalCaptured : s.ctx.mFinal = true →
    s.ctx.nackp = false ∧ s.ctx.mCur = s.ctx.mLen ∧ s.ctx.mLen.toNat < cap ∧ s.ctx.state.isMaster = false
      ∧ (s.cell .mbuf s.ctx.mLen.toNat).isSome = true
  transmitLoaded : s.ctx.state = .masterTransmitting → Written s .mbuf s.ctx.mLen.toNat
  receiveFits : s.ctx.state = .masterReceiving → s.ctx.mLen.toNat < cap
  masterStored : Written s .mbuf s.ctx.mCur.toNat
  txStored : Written s .txbuf s.ctx.txLen.toNat
  rxStored : Written s .rxbuf s.ctx.rxCur.toNat
  command : ∀ r, s.host.cmd = some r → CommandSound s r

/-- A run is final only with no fault and no refusal recorded (10_state R65, 00_scope R14). -/
def Unmarked (s : State) : Prop := s.marks.faults = [] ∧ s.marks.refusals = []

/-- One step of a run, its stop recorded in the marks (10_state R65). -/
def runStep (s : State) : State := settle s (step s)

/-- The state of a run after `n` steps. -/
def runFor : Nat → State → State
  | 0, s => s
  | n + 1, s => runFor n (runStep s)

/-- The START step is enabled (43_bus_engine R264). -/
def startEnabled (s : State) : Bool := (engineStep Config.params .start s.eng).isSome

/-- The STOP step is enabled (43_bus_engine R273). -/
def stopEnabled (s : State) : Bool := (engineStep Config.params .stop s.eng).isSome

/-- Weak fairness of the START and STOP steps over an infinite run: neither stays enabled for ever
(43_bus_engine R274; taking the step disables it). -/
def WeaklyFair (run : Nat → State) : Prop :=
  (∀ n, ∃ k, n ≤ k ∧ startEnabled (run k) = false) ∧ (∀ n, ∃ k, n ≤ k ∧ stopEnabled (run k) = false)

/-- The repeated START that W5 holds for is still to come and nothing stands in its way: the block is set up, RSF = 1 and
every notification is disabled, the START is requested and no STOP, and this engine is in a master phase as the master
(40_dispatcher R158, 41_master_api R197). -/
structure RepeatedStartDue (s : State) : Prop where
  inited : s.ctx.inited = true
  rsf : s.ctx.rsf = true
  masked : s.eng.itEvtEn = false ∧ s.eng.itBufEn = false ∧ s.eng.itErrEn = false
  noWord : s.port.bus = none
  enabled : s.eng.pe = true
  requested : s.eng.startReq = true ∧ s.eng.stopReq = false
  master : s.eng.flag .msl = true
  phase : s.eng.phase = .mSb ∨ s.eng.phase = .mAddr ∨ s.eng.phase = .mTx ∨ s.eng.phase = .mRx ∨ s.eng.phase = .mHold

/-! ### The terms the statements use -/

/-- The words that decode to the row `m` of the opcode table are exactly those its mask and pattern accept. -/
def RowOf (m : String) (mask pattern : CmdWord) : Prop :=
  ∀ w, (∃ i, decode w = .ok i ∧ i.mnemonic = m) ↔ w &&& mask = pattern

/-- EV keeps every bit but the flags listed. -/
def EvKeptBut (fs : List Flag) (e d : Engine) : Prop :=
  ∀ k, (∀ f ∈ fs, f.idx ≠ k) → d.ev.getLsbD k = e.ev.getLsbD k

/-- CTRL1 keeps every bit but those listed. -/
def Ctrl1KeptBut (bits : List Nat) (e d : Engine) : Prop :=
  ∀ k, k ∉ bits → d.ctrl1.getLsbD k = e.ctrl1.getLsbD k

/-- CTRL2 keeps every bit but the three enables. -/
def Ctrl2KeptButEnables (e d : Engine) : Prop :=
  ∀ k, k ∉ [8, 9, 10] → d.ctrl2.getLsbD k = e.ctrl2.getLsbD k

/-- `t` is `s` after one primitive that ran alone: the engine registers, one ACTLOG record by the bus's issuer and the
reply register may differ, and nothing else does (42_primitives R230). -/
def IssuedAlone (s t : State) (p : Prim) (arg : BitVec 8) : Prop :=
  t = { s with
    eng := t.eng
    port := { s.port with reply := t.port.reply }
    log := { s.log with act := s.log.act ++ [⟨s.port.issuer, p, arg⟩] } }

/-- `t` is `s` after a host command returned `r` and wrote nothing else; where the micro-step index then stands is the
model's own (log 11). -/
def ReturnedOnly (s t : State) (r : HostResult) : Prop :=
  t = { s with host := { s.host with cmd := none, step := t.host.step, result := some r } }

/-- An ACTLOG record of the dispatcher. -/
def did (p : Prim) (arg : BitVec 8) : ActRecord := ⟨.dispatcher, p, arg⟩

/-- The state with records appended to ACTLOG. -/
def State.acted (s : State) (l : List ActRecord) : State :=
  { s with log := { s.log with act := s.log.act ++ l } }

/-- `t` has the cells of `s` but for `v` at index `i` of the buffer `n`. -/
def OneCellWritten (s t : State) (n : BufName) (i : Nat) (v : Byte) : Prop :=
  ∀ k j, t.cell k j = if k = n ∧ j = i then some v else s.cell k j

/-- The master byte boundary, by its phases (43_bus_engine R263). -/
def AtMasterBoundary (e : Engine) : Prop :=
  e.flag .msl = true ∧ (e.phase = .mSb ∨ e.phase = .mRx ∨ e.phase = .mHold ∨ (e.phase = .mTx ∧ e.shState ≠ .busy))

/-- A step with a guard: enabled exactly when the guard holds, and what it then gives. -/
def StepIs (p : Config.Params) (m : Config.EngineMove) (e : Engine) (guard : Prop)
    (effect : Engine → List WireSym → Prop) : Prop :=
  (e.pe = true → guard → ∃ d syms, engineStep p m e = some (d, syms) ∧ effect d syms)
    ∧ (¬ (e.pe = true ∧ guard) → engineStep p m e = none)

end Sys2Proof.Machine
end

