-- ==== Sys2Proof/Certificates/Slice0/Obligations.lean ====
section
/-! DEFINITION. The statements for the provers, in the order of OBLIGATIONS.json. -/

section

open Sys2Proof Sys2Proof.Machine

/-! ### Command encoding -/

/-- Decoding an encoded well-formed command gives it back, with every operand (30_encoding §1–§3). -/
def Obligations.DecodeEncodeRoundTrip : Prop :=
  ∀ i : Instr, i.wf = true → decode (encode i) = .ok i

/-- A word that decodes is the one word of its command, which is well formed (30_encoding §1, §5). -/
def Obligations.EncodeDecodeAgree : Prop :=
  ∀ (w : CmdWord) (i : Instr), decode w = .ok i → i.wf = true ∧ encode i = w

/-- R126: the decoder is total, and no word belongs to two rows of the opcode table. -/
def Obligations.DecoderTotalAndUnambiguous : Prop :=
  (∀ w : CmdWord, (∃ i, decode w = .ok i) ∨ ∃ why, decode w = .error why)
    ∧ (∀ (w : CmdWord) (i : Instr), decode w = .ok i →
        ∃ r ∈ opcodeTable, r.mnemonic = i.mnemonic ∧ w &&& r.mask = r.pattern)
    ∧ (∀ r ∈ opcodeTable, ∀ q ∈ opcodeTable, ∀ w : CmdWord, w &&& r.mask = r.pattern → w &&& q.mask = q.pattern →
        r = q)

/-- R120: a word of class 0x2–0xF is reserved, and issuing it is refused in every state. -/
def Obligations.ReservedClassRefused : Prop :=
  ∀ (r : Config.Request) (s : State), 0x2#4 ≤ classOf r.word →
    decode r.word = .error .cls ∧ perform (.issue r) s = .refused (.reservedEncoding .cls)

/-- R121, R122: the reserved P-format and H-format words, each refused when issued; and no other word of class 0 or 1 is
reserved. -/
def Obligations.ReservedFormsRefused : Prop :=
  ∀ (r : Config.Request) (s : State),
    (classOf r.word = 0x0#4 →
      ((opOf r.word = 0x0#4 ∨ 0xB#4 ≤ opOf r.word ∨ zeroOf r.word ≠ 0#16
          ∨ (opOf r.word ∈ [0x2#4, 0x3#4, 0x4#4, 0x8#4] ∧ immOf r.word ≠ 0#8)
          ∨ (opOf r.word ∈ [0x5#4, 0xA#4] ∧ 0x2#8 ≤ immOf r.word)
          ∨ (opOf r.word = 0x7#4 ∧ 0x8#8 ≤ immOf r.word)
          ∨ (opOf r.word = 0x9#4 ∧ 0x80#8 ≤ immOf r.word)
          ∨ (opOf r.word = 0x6#4 ∧ immOf r.word ∉ [8#8, 9#8, 10#8, 11#8, 12#8, 14#8, 15#8]))
        ↔ ∃ why, decode r.word = .error why))
    ∧ (classOf r.word = 0x1#4 →
      ((opOf r.word = 0x0#4 ∨ 0x6#4 ≤ opOf r.word
          ∨ (opOf r.word = 0x1#4 ∧ (stopOf r.word = true ∨ waitOf r.word = true ∨ lenOf r.word ≠ 0#15))
          ∨ (opOf r.word = 0x3#4 ∧ waitOf r.word = true)
          ∨ (opOf r.word ∈ [0x4#4, 0x5#4] ∧ (addrOf r.word ≠ 0#7 ∨ stopOf r.word = true ∨ waitOf r.word = true
              ∨ lenOf r.word ≠ 0#15)))
        ↔ ∃ why, decode r.word = .error why))
    ∧ ∀ why, decode r.word = .error why → perform (.issue r) s = .refused (.reservedEncoding why)

/-- R124: a primitive word the host issues on its own is refused in every state. -/
def Obligations.BarePrimitiveRefused : Prop :=
  ∀ (r : Config.Request) (i : Instr) (s : State), decode r.word = .ok i → i.isPrimitive = true →
    perform (.issue r) s = .refused .hostPrimitive

/-- R130, R131: the spec's encoding examples, and its examples of reserved words, refused when issued. -/
def Obligations.SpecExampleWords : Prop :=
  (decode 0x01000088#32 = .ok (.sendByte 0x88) ∧ decode 0x05000000#32 = .ok (.setAck false)
    ∧ decode 0x0600000A#32 = .ok (.clearFlag 10) ∧ decode 0x07000000#32 = .ok (.setNotify 0)
    ∧ decode 0x11420000#32 = .ok (.init 0x21) ∧ decode 0x12898002#32 = .ok (.write 0x44 true true 2)
    ∧ decode 0x12888002#32 = .ok (.write 0x44 false true 2) ∧ decode 0x13890006#32 = .ok (.read 0x44 true 6)
    ∧ decode 0x13890001#32 = .ok (.read 0x44 true 1))
  ∧ ∀ w ∈ [0x0B000000#32, 0x01000100#32, 0x05000002#32, 0x06000004#32, 0x13808001#32, 0x20000000#32],
      ∃ why, decode w = .error why ∧ ∀ (r : Config.Request) (s : State), r.word = w →
        perform (.issue r) s = .refused (.reservedEncoding why)

/-! ### A step -/

/-- A step runs the decoded command: from the internal bus, from the host's port at its first micro-step, or the command
in progress at its next one; a word placed by withFetchWord is the very next; and a step of the dispatcher or the engine
is theirs, or nothing where it is not enabled. The moves, the bus latch and what a step clears are the model's own
(logs 1, 2, 3, 4, 10, 18). -/
def Obligations.StepRunsDecodedCommand : Prop :=
  (∀ (s : State) (w : CmdWord) (i : Instr), s.port.bus = some w → decode w = .ok i → i.isPrimitive = true →
      step s = exec i { s with port := { s.port with bus := none } })
  ∧ (∀ (s : State) (r : Config.Request) (ms : List Config.Move) (i : Instr), s.port.bus = none →
      s.port.moves = .issue r :: ms → decode r.word = .ok i → i.isPrimitive = false → s.host.cmd = none →
      step s = exec i (latch r { s with port := { s.port with moves := ms } }))
  ∧ (∀ (s : State) (r : Config.Request) (ms : List Config.Move) (i : Instr), s.port.bus = none →
      s.port.moves = .host :: ms → s.host.cmd = some r → decode r.word = .ok i → i.isPrimitive = false →
      step s = exec i { s with port := { s.port with moves := ms } })
  ∧ (∀ (s : State) (ms : List Config.Move), s.port.bus = none → s.port.moves = .dispatch :: ms →
      step s = let u : State := { s with port := { s.port with moves := ms } }
        if s.eng.deliverable = true then toOutcome (invoke Config.params u) else .next u)
  ∧ (∀ (s : State) (m : Config.EngineMove) (ms : List Config.Move), s.port.bus = none →
      s.port.moves = .engine m :: ms →
      step s = let u : State := { s with port := { s.port with moves := ms } }
        .next ((runEngine Config.params m u).getD u))
  ∧ (∀ (s : State) (w : CmdWord) (i : Instr), decode w = .ok i →
      step (s.withFetchWord 32 w.toNat)
        = if i.isPrimitive then exec i { s with port := { s.port with bus := none } }
          else exec i (latch (zeroOperands w) { s with
            host := { s.host with cmd := none }, port := { s.port with bus := none } }))

/-! ### The primitives -/

/-- R231: SEND_BYTE. -/
def Obligations.SendByteEffect : Prop :=
  RowOf "SEND_BYTE" 0xFFFFFF00 0x01000000
  ∧ (∀ (w : CmdWord) (b : Byte), decode w = .ok (.sendByte b) → b = w.extractLsb' 0 8)
  ∧ ∀ (b : Byte) (s : State), ∃ t, exec (.sendByte b) s = .next t ∧ IssuedAlone s t .sendByte b
      ∧ t.port.reply = s.port.reply
      ∧ if s.eng.pe = false then t.eng = s.eng
        else if s.eng.phase = .mSb then
          t.eng = { s.eng with ev := t.eng.ev, data := b, phase := .mAddr }
            ∧ t.eng.flag .sb = false ∧ EvKeptBut [.sb] s.eng t.eng
        else if s.eng.phase = .mTx ∨ s.eng.phase = .sTx then
          t.eng = { s.eng with ev := t.eng.ev, data := b } ∧ t.eng.flag .txe = false ∧ t.eng.flag .btf = false
            ∧ EvKeptBut [.txe, .btf] s.eng t.eng
        else t.eng = { s.eng with data := b }

/-- R232: RECV_BYTE. -/
def Obligations.RecvByteEffect : Prop :=
  RowOf "RECV_BYTE" 0xFFFFFFFF 0x02000000
  ∧ ∀ s : State, ∃ t, exec .recvByte s = .next t ∧ IssuedAlone s t .recvByte 0
      ∧ t.port.reply = s.eng.data.zeroExtend 32
      ∧ if s.eng.flag .rxne = false then t.eng = s.eng
        else if s.eng.shState = .full then
          t.eng = { s.eng with ev := t.eng.ev, data := s.eng.shift, shState := .empty }
            ∧ t.eng.flag .btf = false ∧ EvKeptBut [.btf] s.eng t.eng
        else
          t.eng = { s.eng with ev := t.eng.ev } ∧ t.eng.flag .rxne = false ∧ EvKeptBut [.rxne] s.eng t.eng

/-- R233, R234: GEN_START and GEN_STOP. -/
def Obligations.GenStartStopEffect : Prop :=
  RowOf "GEN_START" 0xFFFFFFFF 0x03000000 ∧ RowOf "GEN_STOP" 0xFFFFFFFF 0x04000000
  ∧ (∀ s : State, ∃ t, exec .genStart s = .next t ∧ IssuedAlone s t .genStart 0 ∧ t.port.reply = s.port.reply
      ∧ if s.eng.pe = false then t.eng = s.eng
        else t.eng = { s.eng with ctrl1 := t.eng.ctrl1 } ∧ t.eng.startReq = true ∧ Ctrl1KeptBut [8] s.eng t.eng)
  ∧ ∀ s : State, ∃ t, exec .genStop s = .next t ∧ IssuedAlone s t .genStop 0 ∧ t.port.reply = s.port.reply
      ∧ if s.eng.pe = false then t.eng = s.eng
        else if s.eng.flag .msl = true then
          t.eng = { s.eng with ctrl1 := t.eng.ctrl1 } ∧ t.eng.stopReq = true ∧ Ctrl1KeptBut [9] s.eng t.eng
        else if s.eng.phase = .sTx ∨ s.eng.phase = .sRx ∨ s.eng.phase = .sHold ∨ s.eng.phase = .sAwait then
          t.eng = { s.eng with ev := t.eng.ev, phase := .idle } ∧ t.eng.flag .tra = false ∧ t.eng.flag .txe = false
            ∧ t.eng.flag .btf = false ∧ EvKeptBut [.tra, .txe, .btf] s.eng t.eng
        else t.eng = s.eng

/-- R235, R239, R119: SET_ACK and SET_NOTIFY. -/
def Obligations.SetAckNotifyEffect : Prop :=
  RowOf "SET_ACK" 0xFFFFFFFE 0x05000000 ∧ RowOf "SET_NOTIFY" 0xFFFFFFF8 0x07000000
  ∧ (∀ (w : CmdWord) (e : Bool), decode w = .ok (.setAck e) → e = w.getLsbD 0)
  ∧ (∀ (w : CmdWord) (m : BitVec 3), decode w = .ok (.setNotify m) → m = w.extractLsb' 0 3)
  ∧ (∀ (e : Bool) (s : State), ∃ t, exec (.setAck e) s = .next t
      ∧ IssuedAlone s t .setAck ((BitVec.ofBool e).zeroExtend 8) ∧ t.port.reply = s.port.reply
      ∧ t.eng = { s.eng with ctrl1 := t.eng.ctrl1 } ∧ t.eng.ackOn = e ∧ Ctrl1KeptBut [10] s.eng t.eng)
  ∧ ∀ (m : BitVec 3) (s : State), ∃ t, exec (.setNotify m) s = .next t
      ∧ IssuedAlone s t .setNotify (m.zeroExtend 8) ∧ t.port.reply = s.port.reply
      ∧ t.eng = { s.eng with ctrl2 := t.eng.ctrl2 } ∧ t.eng.itEvtEn = m.getLsbD 0 ∧ t.eng.itBufEn = m.getLsbD 1
      ∧ t.eng.itErrEn = m.getLsbD 2 ∧ Ctrl2KeptButEnables s.eng t.eng

/-- R236, R237, R118: CLEAR_FLAG, for exactly the seven error flags. -/
def Obligations.ClearFlagEffect : Prop :=
  (∀ (w : CmdWord) (k : BitVec 8), decode w = .ok (.clearFlag k) ↔
      w &&& 0xFFFFFF00 = 0x06000000 ∧ k = w.extractLsb' 0 8
        ∧ k ∈ [8#8, 9#8, 10#8, 11#8, 12#8, 14#8, 15#8])
  ∧ [Flag.berr, .arlo, .af, .ovr, .pecerr, .timeout, .smbalert].map Flag.idx = [8, 9, 10, 11, 12, 14, 15]
  ∧ ∀ (k : BitVec 8) (s : State),
      if k ∈ [8#8, 9#8, 10#8, 11#8, 12#8, 14#8, 15#8] then
        ∃ t, exec (.clearFlag k) s = .next t ∧ IssuedAlone s t .clearFlag k ∧ t.port.reply = s.port.reply
          ∧ t.eng = { s.eng with ev := t.eng.ev } ∧ t.eng.ev.getLsbD k.toNat = false
          ∧ ∀ j, j ≠ k.toNat → t.eng.ev.getLsbD j = s.eng.ev.getLsbD j
      else ∃ why, exec (.clearFlag k) s = .refused (.reservedEncoding why)

/-- R238: READ_EVENT. -/
def Obligations.ReadEventEffect : Prop :=
  RowOf "READ_EVENT" 0xFFFFFFFF 0x08000000
  ∧ ∀ s : State, ∃ t, exec .readEvent s = .next t ∧ IssuedAlone s t .readEvent 0 ∧ t.port.reply = s.eng.ev
      ∧ t.eng = { s.eng with ev := t.eng.ev } ∧ t.eng.flag .addr = false ∧ t.eng.flag .stopf = false
      ∧ t.eng.flag .gencall = false ∧ t.eng.flag .dualf = false
      ∧ EvKeptBut [.addr, .stopf, .gencall, .dualf] s.eng t.eng

/-- R240, R241: SET_OWN_ADDR and SET_ENABLE. -/
def Obligations.OwnAddrEnableEffect : Prop :=
  RowOf "SET_OWN_ADDR" 0xFFFFFF80 0x09000000 ∧ RowOf "SET_ENABLE" 0xFFFFFFFE 0x0A000000
  ∧ (∀ (w : CmdWord) (a : Addr7), decode w = .ok (.setOwnAddr a) → a = w.extractLsb' 0 7)
  ∧ (∀ (w : CmdWord) (e : Bool), decode w = .ok (.setEnable e) → e = w.getLsbD 0)
  ∧ (∀ (a : Addr7) (s : State), ∃ t, exec (.setOwnAddr a) s = .next t
      ∧ IssuedAlone s t .setOwnAddr (a.zeroExtend 8) ∧ t.port.reply = s.port.reply
      ∧ t.eng = { s.eng with oaddr := t.eng.oaddr } ∧ t.eng.oaddr.toNat = a.toNat)
  ∧ ∀ (e : Bool) (s : State), ∃ t, exec (.setEnable e) s = .next t
      ∧ IssuedAlone s t .setEnable ((BitVec.ofBool e).zeroExtend 8) ∧ t.port.reply = s.port.reply
      ∧ if e = false then t.eng = { s.eng with ctrl1 := 0, ev := 0, shState := .empty, phase := .off }
        else if s.eng.pe = true then t.eng = s.eng
        else
          t.eng = { s.eng with ctrl1 := t.eng.ctrl1, ev := t.eng.ev, phase := .idle } ∧ t.eng.pe = true
            ∧ Ctrl1KeptBut [0] s.eng t.eng ∧ t.eng.flag .busy = false ∧ EvKeptBut [.busy] s.eng t.eng

/-- R230: what a primitive leaves alone. -/
def Obligations.PrimitiveFrame : Prop :=
  ∀ (i : Instr) (s : State), i.isPrimitive = true →
    (∀ f, exec i s ≠ .fault f)
    ∧ ∀ t, exec i s = .next t →
        (∃ p arg, IssuedAlone s t p arg) ∧ t.ctx = s.ctx ∧ t.log.wire = s.log.wire ∧ t.log.cb = s.log.cb
          ∧ t.host = s.host ∧ ∀ n k, t.cell n k = s.cell n k

/-! ### The host commands -/

/-- R190: INIT. -/
def Obligations.InitEffect : Prop :=
  RowOf "INIT" 0xFF01FFFF 0x11000000
  ∧ (∀ (w : CmdWord) (a7 : Addr7), decode w = .ok (.init a7) → a7 = w.extractLsb' 17 7)
  ∧ ∀ (a7 : Addr7) (s : State),
      if s.ctx.inited = true then exec (.init a7) s = .refused .alreadyInitialized
      else ∃ t, exec (.init a7) s = .next t
        ∧ t = { s with
            ctx := { s.ctx with inited := true }
            eng := t.eng
            log := { s.log with act := s.log.act ++
              [⟨.host, .setEnable, 1⟩, ⟨.host, .setOwnAddr, a7.zeroExtend 8⟩, ⟨.host, .setAck, 1⟩,
                ⟨.host, .setNotify, 7⟩] }
            host := { s.host with cmd := none, step := t.host.step, result := some .ok } }
        ∧ t.eng = { s.eng with
            ctrl1 := t.eng.ctrl1, ctrl2 := t.eng.ctrl2, ev := t.eng.ev, oaddr := a7.zeroExtend 16
            phase := if s.eng.pe then s.eng.phase else .idle }
        ∧ t.eng.pe = true ∧ t.eng.ackOn = true ∧ Ctrl1KeptBut [0, 10] s.eng t.eng
        ∧ t.eng.itEvtEn = true ∧ t.eng.itBufEn = true ∧ t.eng.itErrEn = true ∧ Ctrl2KeptButEnables s.eng t.eng
        ∧ (s.eng.pe = true → t.eng.ev = s.eng.ev)
        ∧ (s.eng.pe = false → t.eng.flag .busy = false ∧ EvKeptBut [.busy] s.eng t.eng)

/-- R192, R200, R207: what refuses a WRITE or READ before any micro-step, and a second command of any kind; a refused
command issues nothing and writes nothing but
the refusal mark and the move it used up. No order among the refusals is claimed (log 8), and the mark is the run's
(log 13). -/
def Obligations.HostCommandRefusals : Prop :=
  ∀ (r : Config.Request) (ms : List Config.Move) (s : State), s.port.bus = none → s.port.moves = .issue r :: ms →
    (∀ a7 stop wait len, decode r.word = .ok (.write a7 stop wait len) →
      (s.ctx.inited = false ∨ r.data.length ≠ len.toNat ∨ s.host.cmd ≠ none) →
      ∃ f, step s = .refused f
        ∧ ((f = .notInitialized ∧ s.ctx.inited = false) ∨ (f = .operandShape ∧ r.data.length ≠ len.toNat)
          ∨ (f = .hostBusy ∧ s.host.cmd ≠ none))
        ∧ runStep s = { s with
            port := { s.port with moves := ms }, marks := { s.marks with refusals := s.marks.refusals ++ [f] } })
    ∧ (∀ a7 stop len, decode r.word = .ok (.read a7 stop len) →
      (s.ctx.inited = false ∨ r.out.length < len.toNat ∨ s.host.cmd ≠ none) →
      ∃ f, step s = .refused f
        ∧ ((f = .notInitialized ∧ s.ctx.inited = false) ∨ (f = .operandShape ∧ r.out.length < len.toNat)
          ∨ (f = .hostBusy ∧ s.host.cmd ≠ none))
        ∧ runStep s = { s with
            port := { s.port with moves := ms }, marks := { s.marks with refusals := s.marks.refusals ++ [f] } })
    ∧ (∀ i, decode r.word = .ok i → (i = .registerCallbacks ∨ i = .status ∨ ∃ a7, i = .init a7) →
      s.host.cmd ≠ none →
      ∃ f, step s = .refused f
        ∧ (f = .hostBusy ∨ (f = .alreadyInitialized ∧ s.ctx.inited = true ∧ ∃ a7, i = .init a7))
        ∧ runStep s = { s with
            port := { s.port with moves := ms }, marks := { s.marks with refusals := s.marks.refusals ++ [f] } })

/-- R193, R194: W1 and W2, the precondition checks of WRITE. -/
def Obligations.WritePreconditions : Prop :=
  ∀ (a7 : Addr7) (stop wait : Bool) (len : BitVec 15) (s : State),
    (s.host.step = .m1 → s.ctx.inited = true → s.host.operands.data.length = len.toNat →
      if cap < len.toNat then
        ∃ t, exec (.write a7 stop wait len) s = .next t ∧ ReturnedOnly s t (.err .outOfCapacity)
      else exec (.write a7 stop wait len) s = .next { s with host := { s.host with step := .m2 } })
    ∧ (s.host.step = .m2 → (∀ v, s.ctx.state ≠ .unused v) →
      if s.ctx.state ≠ .ready then
        ∃ t, exec (.write a7 stop wait len) s = .next t ∧ ReturnedOnly s t (.err .wrongState)
      else if len.toNat = 0 then ∃ t, exec (.write a7 stop wait len) s = .next t ∧ ReturnedOnly s t .ok
      else exec (.write a7 stop wait len) s = .next { s with host := { s.host with step := .m3 } })

/-- R195: W3, arming a WRITE. -/
def Obligations.WriteArming : Prop :=
  ∀ (a7 : Addr7) (stop wait : Bool) (len : BitVec 15) (s : State), s.host.step = .m3 →
    s.host.operands.data.length = len.toNat → len.toNat ≤ cap →
    ∃ t, exec (.write a7 stop wait len) s = .next t
      ∧ t = { s with
          ctx := { s.ctx with
            err := .none, pa := t.ctx.pa, mLen := t.ctx.mLen, mCur := 0, nackp := false, mFinal := false
            sendStop := stop }
          buf := t.buf
          host := { s.host with step := .m4 } }
      ∧ t.ctx.pa.toNat = a7.toNat * 2 ∧ t.ctx.mLen.toNat = len.toNat
      ∧ (∀ k, t.cell .mbuf k = if k < len.toNat then s.host.operands.data[k]? else s.cell .mbuf k)
      ∧ ∀ n k, n ≠ .mbuf → t.cell n k = s.cell n k

/-- R196, and R201's R4: entering the role, and the only write of a master STATE. -/
def Obligations.EnterMasterRole : Prop :=
  (∀ (a7 : Addr7) (stop wait : Bool) (len : BitVec 15) (s : State), s.host.step = .m4 →
    exec (.write a7 stop wait len) s = .next { s with
      ctx := { s.ctx with state := .masterTransmitting }, host := { s.host with step := .m5 } })
  ∧ (∀ (a7 : Addr7) (stop : Bool) (len : BitVec 15) (s : State), s.host.step = .m4 →
    exec (.read a7 stop len) s = .next { s with
      ctx := { s.ctx with state := .masterReceiving }, host := { s.host with step := .m5 } })
  ∧ ∀ s t : State, step s = .next t → s.ctx.state ≠ t.ctx.state → t.ctx.state.isMaster = true →
      s.host.step = .m4 ∧ ∃ r, s.host.cmd = some r
        ∧ ((t.ctx.state = .masterTransmitting ∧ ∃ a7 stop wait len, decode r.word = .ok (.write a7 stop wait len))
          ∨ (t.ctx.state = .masterReceiving ∧ ∃ a7 stop len, decode r.word = .ok (.read a7 stop len)))

/-- R197: W5, the trigger. With RSF = 1 and SB = 0 the micro-step is not enabled, which the model shows as a step that
changes nothing (log 2). The hold ends: with the repeated START due, the byte in progress, if there is one, can end and
leaves it due at the byte boundary; there the START step is enabled and stays so until it is taken, so that SB comes in every
run that is fair to that step (R274). The START is no longer due where arbitration is lost or a STOP is requested beside it
(log 29). -/
def Obligations.WriteTrigger : Prop :=
  (∀ s : State, RepeatedStartDue s → ¬ AtMasterBoundary s.eng → ∀ nack,
    ∃ t, runEngine Config.params (if s.eng.phase = .mAddr then .address nack else .masterByteEnd nack) s = some t
      ∧ RepeatedStartDue t ∧ AtMasterBoundary t.eng)
  ∧ (∀ s : State, RepeatedStartDue s → AtMasterBoundary s.eng →
      (∀ n, (∃ k, k ≤ n ∧ (runFor k s).eng.flag .sb = true ∧ (runFor k s).ctx.rsf = true)
        ∨ (startEnabled (runFor n s) = true ∧ (runFor n s).ctx.rsf = true))
      ∧ ((∃ k, (runFor k s).eng.flag .sb = true ∧ (runFor k s).ctx.rsf = true)
        ∨ ¬ WeaklyFair fun n => runFor n s))
  ∧ ∀ (a7 : Addr7) (stop wait : Bool) (len : BitVec 15) (s : State), s.host.step = .m5 →
    if s.ctx.rsf = false then
      exec (.write a7 stop wait len) s = .next { s with
        eng := s.eng.genStart
        log := { s.log with act := s.log.act ++ [⟨.host, .genStart, 0⟩] }
        host := { s.host with step := .m6 } }
    else if s.eng.flag .sb = true then
      exec (.write a7 stop wait len) s = .next { s with
        ctx := { s.ctx with rsf := false }
        eng := (s.eng.sendByte s.ctx.pa).setNotify 7
        log := { s.log with act := s.log.act ++ [⟨.host, .sendByte, s.ctx.pa⟩, ⟨.host, .setNotify, 7⟩] }
        host := { s.host with step := .m6 } }
    else exec (.write a7 stop wait len) s = .next s

/-- R198: W6, the completion of a WRITE. A poll that finds STATE other than Ready changes nothing, the model's reading of a
step that is not enabled (log 2). -/
def Obligations.WriteCompletion : Prop :=
  ∀ (a7 : Addr7) (stop wait : Bool) (len : BitVec 15) (s : State), s.host.step = .m6 →
    (∀ v, s.ctx.state ≠ .unused v) →
    if wait = false then ∃ t, exec (.write a7 stop wait len) s = .next t ∧ ReturnedOnly s t .ok
    else if s.ctx.state ≠ .ready then exec (.write a7 stop wait len) s = .next s
    else if s.ctx.err ≠ .none then
      ∃ t, exec (.write a7 stop wait len) s = .next t ∧ ReturnedOnly s t (.err s.ctx.err)
    else ∃ t, exec (.write a7 stop wait len) s = .next t ∧ ReturnedOnly s t .ok

/-- R201: READ's preconditions, arming, role and trigger. -/
def Obligations.ReadPreconditionsAndArming : Prop :=
  ∀ (a7 : Addr7) (stop : Bool) (len : BitVec 15) (s : State),
    (s.host.step = .m1 → s.ctx.inited = true → len.toNat ≤ s.host.operands.out.length →
      if cap < len.toNat then
        ∃ t, exec (.read a7 stop len) s = .next t ∧ ReturnedOnly s t (.err .outOfCapacity)
      else exec (.read a7 stop len) s = .next { s with host := { s.host with step := .m2 } })
    ∧ (s.host.step = .m2 → (∀ v, s.ctx.state ≠ .unused v) →
      if s.ctx.state ≠ .ready then
        ∃ t, exec (.read a7 stop len) s = .next t ∧ ReturnedOnly s t (.err .wrongState)
      else if len.toNat = 0 then ∃ t, exec (.read a7 stop len) s = .next t ∧ ReturnedOnly s t (.okCount 0)
      else exec (.read a7 stop len) s = .next { s with host := { s.host with step := .m3 } })
    ∧ (s.host.step = .m3 → 1 ≤ len.toNat → ∃ t, exec (.read a7 stop len) s = .next t
      ∧ t = { s with
          ctx := { s.ctx with
            err := .none, pa := t.ctx.pa, mLen := t.ctx.mLen, mCur := 0, nackp := false, mFinal := false
            sendStop := stop }
          host := { s.host with step := .m4 } }
      ∧ t.ctx.pa.toNat = a7.toNat * 2 + 1 ∧ t.ctx.mLen.toNat + 1 = len.toNat)
    ∧ (s.host.step = .m4 → exec (.read a7 stop len) s = .next { s with
      ctx := { s.ctx with state := .masterReceiving }, host := { s.host with step := .m5 } })
    ∧ (s.host.step = .m5 → ∀ (wait : Bool) (u : State), exec (.write a7 stop wait len) s = .next u →
      exec (.read a7 stop len) s
        = .next (if u.host.step = .m6 then { u with host := { u.host with polls := 0 } } else u))

/-- R202: R6, one poll, and host.polls at its entry; T ≤ host.polls is said as timeout_ms ≤ host.polls · POLL_MS. -/
def Obligations.ReadPoll : Prop :=
  (∀ (a7 : Addr7) (stop : Bool) (len : BitVec 15) (s u : State), s.host.step = .m5 →
    exec (.read a7 stop len) s = .next u → u.host.step = .m6 → u.host.polls = 0)
  ∧ ∀ (a7 : Addr7) (stop : Bool) (len : BitVec 15) (s : State), s.host.step = .m6 →
    (∀ v, s.ctx.state ≠ .unused v) →
    if s.ctx.state = .ready then exec (.read a7 stop len) s = .next { s with host := { s.host with step := .m7 } }
    else if s.host.operands.timeoutMs ≠ 0xFFFFFFFF#32
        ∧ s.host.operands.timeoutMs.toNat ≤ s.host.polls * Config.params.pollMs then
      exec (.read a7 stop len) s = .next { s with host := { s.host with step := .m8 } }
    else exec (.read a7 stop len) s = .next { s with host := { s.host with polls := s.host.polls + 1 } }

/-- R204: R7 and R8, the results of a READ and the copy-out; R203: the timeout aborts nothing. R7 does not test STATE again
(log 12), and the array stays the host's after the return (log 17). -/
def Obligations.ReadResult : Prop :=
  ∀ (a7 : Addr7) (stop : Bool) (len : BitVec 15) (s : State),
    (s.host.step = .m7 → s.ctx.err ≠ .none →
      ∃ t, exec (.read a7 stop len) s = .next t ∧ ReturnedOnly s t (.err s.ctx.err))
    ∧ ∀ n : Nat, ((s.host.step = .m7 ∧ s.ctx.err = .none ∧ n = s.ctx.mCur.toNat + s.ctx.mFinal.toNat)
          ∨ (s.host.step = .m8 ∧ n = s.ctx.mCur.toNat)) →
        n ≤ cap → Written s .mbuf n →
        ∃ t, exec (.read a7 stop len) s = .next t
          ∧ t = { s with host := { s.host with
              cmd := none, step := t.host.step, result := some (.okCount n), out := t.host.out } }
          ∧ t.host.out.length = s.host.out.length
          ∧ ∀ k, k < s.host.out.length →
              t.host.out[k]? = if k < n then s.cell .mbuf k else s.host.out[k]?

/-- R205, R206: REGISTER_CALLBACKS and STATUS. -/
def Obligations.RegisterAndStatus : Prop :=
  RowOf "REGISTER_CALLBACKS" 0xFFFFFFFF 0x14000000 ∧ RowOf "STATUS" 0xFFFFFFFF 0x15000000
  ∧ (∀ s : State, ∃ t, exec .registerCallbacks s = .next t
      ∧ t = { s with
          ctx := { s.ctx with cb := s.host.operands.handle }
          host := { s.host with cmd := none, step := t.host.step, result := some .ok } })
  ∧ ∀ s : State, (∀ v, s.ctx.state ≠ .unused v) → ∃ t, exec .status s = .next t
      ∧ ReturnedOnly s t (.okStatus s.ctx.state s.ctx.err (s.ctx.mCur.toNat + s.ctx.mFinal.toNat))

/-- 10_state R33 as the model reads it (log 7): with STATE 5, 6 or 7, every rule that tests or reports STATE faults. -/
def Obligations.UnusedStateFaults : Prop :=
  ∀ (v : Fin 3) (s : State), s.ctx.state = .unused v →
    exec .status s = .fault .badState
    ∧ (∀ (a7 : Addr7) (stop wait : Bool) (len : BitVec 15),
        s.host.step = .m2 ∨ (s.host.step = .m6 ∧ wait = true) → exec (.write a7 stop wait len) s = .fault .badState)
    ∧ (∀ (a7 : Addr7) (stop : Bool) (len : BitVec 15),
        s.host.step = .m2 ∨ s.host.step = .m6 → exec (.read a7 stop len) s = .fault .badState)
    ∧ ∀ (p : Config.Params) (ev : EvWord) (nackp0 : Bool),
        evHas ev .msl = true ∨ evHas ev .addr = false → roleBranch p ev nackp0 s = .error (.fault .badState)

/-- What a host micro-step leaves alone: the slave buffers and cursors, WIRELOG, CBLOG, the marks, the client, and every
cell of MBUF but those W3 loads; and its ACTLOG records are the host's. -/
def Obligations.HostMicroStepFrame : Prop :=
  ∀ (i : Instr) (s t : State), i.isPrimitive = false → exec i s = .next t →
    t.log.wire = s.log.wire ∧ t.log.cb = s.log.cb ∧ t.marks = s.marks ∧ t.client = s.client ∧ t.port = s.port
      ∧ t.ctx.txLen = s.ctx.txLen ∧ t.ctx.txCur = s.ctx.txCur ∧ t.ctx.rxCur = s.ctx.rxCur
      ∧ (∀ n k, n ≠ .mbuf → t.cell n k = s.cell n k)
      ∧ (∀ k, t.cell .mbuf k ≠ s.cell .mbuf k →
          s.host.step = .m3 ∧ ∃ a7 stop wait len, i = .write a7 stop wait len ∧ k < len.toNat)
      ∧ ∃ l, t.log.act = s.log.act ++ l ∧ ∀ r ∈ l, r.agent = .host

/-! ### The dispatcher -/

/-- R326: when a notification is deliverable, bit by bit; and the dispatcher's step is enabled while it is. -/
def Obligations.NotificationDeliverable : Prop :=
  (∀ e : Engine, e.deliverable = true ↔
    ((e.ctrl2.getLsbD 9 = true ∧ (e.ev.getLsbD 0 = true ∨ e.ev.getLsbD 1 = true ∨ e.ev.getLsbD 2 = true
        ∨ e.ev.getLsbD 4 = true))
      ∨ (e.ctrl2.getLsbD 9 = true ∧ e.ctrl2.getLsbD 10 = true ∧ (e.ev.getLsbD 6 = true ∨ e.ev.getLsbD 7 = true))
      ∨ (e.ctrl2.getLsbD 8 = true ∧ (e.ev.getLsbD 8 = true ∨ e.ev.getLsbD 9 = true ∨ e.ev.getLsbD 10 = true
          ∨ e.ev.getLsbD 11 = true ∨ e.ev.getLsbD 12 = true ∨ e.ev.getLsbD 14 = true ∨ e.ev.getLsbD 15 = true))))
  ∧ ∀ s : State, s.eng.deliverable = true → perform .dispatch s = toOutcome (invoke Config.params s)

/-- R151: the entry. SET_NOTIFY(7), then READ_EVENT, whose value is the snapshot; all that comes after reads it. -/
def Obligations.InvocationEntry : Prop :=
  ∀ s : State, ∃ t, enterHandler s = t
    ∧ t = { s with
        eng := t.eng
        log := { s.log with act := s.log.act ++ [did .setNotify 7, did .readEvent 0] } }
    ∧ t.eng = { s.eng with ctrl2 := t.eng.ctrl2, ev := t.eng.ev }
    ∧ t.eng.itEvtEn = true ∧ t.eng.itBufEn = true ∧ t.eng.itErrEn = true
    ∧ t.eng.flag .addr = false ∧ t.eng.flag .stopf = false ∧ t.eng.flag .gencall = false
    ∧ t.eng.flag .dualf = false ∧ EvKeptBut [.addr, .stopf, .gencall, .dualf] s.eng t.eng
    ∧ entrySnapshot s = s.eng.ev
    ∧ ∀ p : Config.Params, invoke p s
        = andThen (roleBranch p s.eng.ev s.ctx.nackp t) fun u => .ok (cross p s.eng.ev u)

/-- R152, R153, R159, R174: the order of an invocation, the PendingAddress sent on SB, and the STATEs no handler runs
for. -/
def Obligations.InvocationOrder : Prop :=
  ∀ (p : Config.Params) (s : State),
    (invoke p s = andThen (roleBranch p s.eng.ev s.ctx.nackp (enterHandler s)) fun u => .ok (cross p s.eng.ev u))
    ∧ ∀ (ev : EvWord) (nackp0 : Bool),
        (evHas ev .msl = true →
          let u := if evHas ev .sb = true then
              { s with eng := s.eng.sendByte s.ctx.pa, log := (s.acted [did .sendByte s.ctx.pa]).log } else s
          (s.ctx.state = .masterTransmitting → roleBranch p ev nackp0 s = mtx p ev u)
          ∧ (s.ctx.state = .masterReceiving → roleBranch p ev nackp0 s = mrx p ev nackp0 u)
          ∧ (s.ctx.state = .ready ∨ s.ctx.state.isSlave = true → roleBranch p ev nackp0 s = .ok u))
        ∧ (evHas ev .msl = false → ∀ u, (if evHas ev .addr = true then slaveMatch p ev s else .ok s) = .ok u →
          (u.ctx.state = .slaveTransmitting → roleBranch p ev nackp0 s = stx p ev u)
          ∧ (u.ctx.state = .slaveReceiving → roleBranch p ev nackp0 s = srx p ev u)
          ∧ (u.ctx.state = .ready ∨ u.ctx.state.isMaster = true → roleBranch p ev nackp0 s = .ok u))

/-- R154–R156: MTX. Acknowledge-failure first, then at most one TX_NEXT. -/
def Obligations.MasterTransmitHandler : Prop :=
  ∀ (p : Config.Params) (ev : EvWord) (s : State),
    if evHas ev .af = true then
      mtx p ev s = .ok { s with
        ctx := { s.ctx with err := .addressNacked, state := .ready }
        eng := (s.eng.clearFlag 10).genStop
        log := (s.acted [did .clearFlag 10, did .genStop 0]).log }
    else if evHas ev .addr = true ∨ evHas ev .btf = true ∨ evHas ev .txe = true then mtx p ev s = txNext p s
    else mtx p ev s = .ok s

/-- R157, R158: TX_NEXT and TERMINATE. After the repeated-start path no notification is deliverable. -/
def Obligations.TransmitNextAndTerminate : Prop :=
  (∀ (p : Config.Params) (s : State) (b : Byte), s.ctx.mCur < s.ctx.mLen → s.ctx.mCur.toNat < p.bufCap →
      s.cell .mbuf s.ctx.mCur.toNat = some b →
      txNext p s = .ok { s with
        ctx := { s.ctx with mCur := s.ctx.mCur + 1 }
        eng := s.eng.sendByte b
        log := (s.acted [did .sendByte b]).log })
  ∧ (∀ (p : Config.Params) (s : State), s.ctx.mLen ≤ s.ctx.mCur → txNext p s = .ok (terminate s))
  ∧ ∀ s : State,
      if s.ctx.sendStop = true then
        terminate s = { s with
          ctx := { s.ctx with state := .ready }
          eng := s.eng.genStop
          log := (s.acted [did .genStop 0]).log }
      else
        terminate s = { s with
          ctx := { s.ctx with rsf := true, state := .ready }
          eng := (s.eng.setNotify 0).genStart
          log := (s.acted [did .setNotify 0, did .genStart 0]).log }
        ∧ (terminate s).eng.deliverable = false

/-- R160, R161: MRX on address-matched and RX_STORE. `M_LEN - M_CUR > 0` is read as M_CUR < M_LEN (log 16). With
M_CUR = M_LEN and no no-ack pending MRX leaves RxNE set, which is how the fault stays unreachable (log 21). -/
def Obligations.MasterReceiveStore : Prop :=
  (∀ s : State, mrxAddr s =
    if s.ctx.mCur.toNat < s.ctx.mLen.toNat then
      { s with eng := s.eng.setAck true, log := (s.acted [did .setAck 1]).log }
    else
      { s with
        ctx := { s.ctx with nackp := true }, eng := s.eng.setAck false, log := (s.acted [did .setAck 0]).log })
  ∧ (∀ (p : Config.Params) (ev : EvWord) (s : State), evHas ev .rxne = true →
      mrx p ev false s = andThen
        (let a := if evHas ev .addr = true then mrxAddr s else s
         if s.ctx.mCur = s.ctx.mLen then .ok a else rxStore p a)
        fun u => if evHas ev .af = true then mrxNack p ev false u else .ok u)
  ∧ (∀ (p : Config.Params) (s : State), s.ctx.mLen ≤ s.ctx.mCur → rxStore p s = .error (.fault .cursorOverrun))
  ∧ ∀ (p : Config.Params) (s : State), s.ctx.mCur < s.ctx.mLen → s.ctx.mCur.toNat < p.bufCap →
      ∃ t, rxStore p s = .ok t ∧ OneCellWritten s t .mbuf s.ctx.mCur.toNat s.eng.data
        ∧ if s.ctx.mCur.toNat + 1 = s.ctx.mLen.toNat then
            t = { s with
              ctx := { s.ctx with mCur := s.ctx.mCur + 1, nackp := true }
              eng := s.eng.recvByte.setAck false
              buf := t.buf
              log := (s.acted [did .recvByte 0, did .setAck 0]).log }
          else
            t = { s with
              ctx := { s.ctx with mCur := s.ctx.mCur + 1 }
              eng := s.eng.recvByte.setAck true
              buf := t.buf
              log := (s.acted [did .recvByte 0, did .setAck 1]).log }

/-- R162–R164: MRX in its order, the final byte of a receive, and MRX on acknowledge-failure. -/
def Obligations.MasterReceiveFinal : Prop :=
  (∀ (p : Config.Params) (ev : EvWord) (s : State),
    let a := if evHas ev .addr = true then mrxAddr s else s
    (evHas ev .rxne = true → mrx p ev true s =
        andThen (mrxData p true a) fun u => if evHas ev .af = true then mrxNack p ev true u else .ok u)
    ∧ (evHas ev .rxne = false → ∀ nackp0 : Bool,
        mrx p ev nackp0 s = if evHas ev .af = true then mrxNack p ev nackp0 a else .ok a))
  ∧ (∀ (p : Config.Params) (s : State), s.ctx.mLen.toNat < p.bufCap →
    ∃ u, finalCapture p s = .ok u ∧ OneCellWritten s u .mbuf s.ctx.mLen.toNat s.eng.data
      ∧ u = { s with
          ctx := { s.ctx with mFinal := true, nackp := false }
          eng := s.eng.recvByte
          buf := u.buf
          log := (s.acted [did .recvByte 0]).log }
      ∧ mrxData p true s = .ok (terminate u))
  ∧ ∀ (p : Config.Params) (ev : EvWord) (nackp0 : Bool) (s : State),
      let c : State := { s with eng := s.eng.clearFlag 10, log := (s.acted [did .clearFlag 10]).log }
      if nackp0 = true then
        (evHas ev .rxne = true → mrxNack p ev nackp0 s = .ok c)
        ∧ (evHas ev .rxne = false → ∀ u, finalCapture p c = .ok u → mrxNack p ev nackp0 s = .ok (terminate u))
      else if evHas ev .rxne = false ∧ evHas ev .addr = false ∧ s.ctx.mCur = 0 then
        mrxNack p ev nackp0 s = .ok { s with
          ctx := { s.ctx with err := .addressNacked, state := .ready }
          eng := (s.eng.clearFlag 10).genStop
          log := (s.acted [did .clearFlag 10, did .genStop 0]).log }
      else mrxNack p ev nackp0 s = .ok c

/-- R165–R167, R213: the slave address match, the call of on_transmit, and the handler that then runs; with the refusals
of R212 for an answer of the wrong shape and for a client outside the contract (no order among several, log 9). -/
def Obligations.SlaveAddressMatch : Prop :=
  ∀ (p : Config.Params) (ev : EvWord) (s : State),
    (evHas ev .tra = false → slaveMatch p ev s
      = .ok { s with ctx := { s.ctx with state := .slaveReceiving, rxCur := 0 } })
    ∧ (evHas ev .tra = true → s.ctx.cb = 0 → slaveMatch p ev s
      = .ok { s with ctx := { s.ctx with state := .slaveTransmitting, txCur := 0, txLen := 0 } })
    ∧ (evHas ev .tra = true → s.ctx.cb ≠ 0 → ∀ n bytes cs,
        p.client.tx s.ctx.cb s.client = .answers n bytes cs → bytes.length = n →
        if p.bufCap < n then slaveMatch p ev s = .error (.refuse .callbackOverflow)
        else ∃ t, slaveMatch p ev s = .ok t
          ∧ t = { s with
              ctx := { s.ctx with state := .slaveTransmitting, txCur := 0, txLen := t.ctx.txLen }
              buf := t.buf
              log := { s.log with cb := s.log.cb ++ [.tx n bytes] }
              client := cs }
          ∧ t.ctx.txLen.toNat = n
          ∧ (∀ k, t.cell .txbuf k = if k < n then bytes[k]? else s.cell .txbuf k)
          ∧ ∀ b k, b ≠ .txbuf → t.cell b k = s.cell b k)
    ∧ (evHas ev .tra = true → s.ctx.cb ≠ 0 → ∀ n bytes cs,
        p.client.tx s.ctx.cb s.client = .answers n bytes cs → bytes.length ≠ n →
        ∃ f, slaveMatch p ev s = .error (.refuse f) ∧ (f = .callbackShape ∨ (f = .callbackOverflow ∧ p.bufCap < n)))
    ∧ (evHas ev .tra = true → s.ctx.cb ≠ 0 → p.client.tx s.ctx.cb s.client = .breaksContract →
        slaveMatch p ev s = .error (.refuse .callbackContract))
    ∧ ∀ (nackp0 : Bool) (u : State), evHas ev .msl = false → evHas ev .addr = true → slaveMatch p ev s = .ok u →
        roleBranch p ev nackp0 s = if evHas ev .tra = true then stx p ev u else srx p ev u

/-- R168, R169: STX and SLAVE_TX_BYTE. -/
def Obligations.SlaveTransmitHandler : Prop :=
  ∀ (p : Config.Params) (ev : EvWord) (s : State),
    if evHas ev .af = true then
      stx p ev s = .ok { s with
        ctx := { s.ctx with state := .ready }
        eng := (s.eng.setAck true).clearFlag 10
        log := (s.acted [did .setAck 1, did .clearFlag 10]).log }
    else if evHas ev .btf = true ∨ evHas ev .txe = true then
      if s.ctx.txCur < s.ctx.txLen then
        ∀ b, s.ctx.txCur.toNat < p.bufCap → s.cell .txbuf s.ctx.txCur.toNat = some b →
          stx p ev s = .ok { s with
            ctx := { s.ctx with txCur := s.ctx.txCur + 1 }
            eng := (s.eng.setAck true).sendByte b
            log := (s.acted [did .setAck 1, did .sendByte b]).log }
      else
        stx p ev s = .ok { s with
          eng := (s.eng.setAck true).sendByte 0xFF
          log := (s.acted [did .setAck 1, did .sendByte 0xFF]).log }
    else stx p ev s = .ok { s with eng := s.eng.setAck true, log := (s.acted [did .setAck 1]).log }

/-- R170: SRX on receive-data-available. -/
def Obligations.SlaveReceiveStore : Prop :=
  ∀ (p : Config.Params) (s : State),
    if s.ctx.rxCur.toNat < p.bufCap then
      ∃ t, srxData p s = .ok t ∧ OneCellWritten s t .rxbuf s.ctx.rxCur.toNat s.eng.data
        ∧ t = { s with
            ctx := { s.ctx with rxCur := s.ctx.rxCur + 1 }
            eng := s.eng.recvByte.setAck true
            buf := t.buf
            log := (s.acted [did .recvByte 0, did .setAck 1]).log }
    else
      srxData p s = .ok { s with
        eng := s.eng.recvByte.setAck false
        log := (s.acted [did .recvByte 0, did .setAck 0]).log }

/-- R171–R173: SRX on stop-condition-detected and on acknowledge-failure, after R170, and ON_RECEIVE; with the refusal of
R212 for a client outside the contract. -/
def Obligations.SlaveReceiveEnd : Prop :=
  (∀ (p : Config.Params) (s : State) (bytes : List Byte), s.ctx.rxCur.toNat ≤ p.bufCap →
      bytes.length = s.ctx.rxCur.toNat → (∀ k, k < bytes.length → s.cell .rxbuf k = bytes[k]?) →
      (s.ctx.cb = 0 → srxStop p s = .ok { s with
        ctx := { s.ctx with rxCur := 0, state := .ready }
        log := { s.log with cb := s.log.cb ++ [.rx s.ctx.rxCur.toNat bytes] } })
      ∧ (s.ctx.cb ≠ 0 → ∀ cs, p.client.rx s.ctx.cb s.client bytes = .takes cs → srxStop p s = .ok { s with
        ctx := { s.ctx with rxCur := 0, state := .ready }
        log := { s.log with cb := s.log.cb ++ [.rx s.ctx.rxCur.toNat bytes] }
        client := cs })
      ∧ (s.ctx.cb ≠ 0 → p.client.rx s.ctx.cb s.client bytes = .breaksContract →
        srxStop p s = .error (.refuse .callbackContract)))
  ∧ ∀ (p : Config.Params) (ev : EvWord) (s s1 s2 : State),
      (if evHas ev .rxne = true then srxData p s else .ok s) = .ok s1 →
      (if evHas ev .stopf = true then srxStop p s1 else .ok s1) = .ok s2 →
      srx p ev s = .ok (if evHas ev .af = true then
        { s2 with
          eng := (s2.eng.clearFlag 10).setAck true
          log := (s2.acted [did .clearFlag 10, did .setAck 1]).log }
        else s2)

/-- R175, R176, R330: the cross-cutting flags, in their order; the last one set wins ERR. -/
def Obligations.CrossCuttingErrors : Prop :=
  ∀ (p : Config.Params) (ev : EvWord) (s : State), ∃ t, cross p ev s = t
    ∧ t = { s with
        ctx := { s.ctx with
          err :=
            if evHas ev .smbalert = true then .alertAsserted
            else if evHas ev .timeout = true then .timeout
            else if evHas ev .pecerr = true then .protocolCheckFailed
            else if evHas ev .ovr = true then .overrun
            else if evHas ev .arlo = true then .arbitrationLost
            else if evHas ev .berr = true then .busError
            else s.ctx.err
          state :=
            if p.errEndsTxn = true ∧ (evHas ev .berr = true ∨ evHas ev .arlo = true) then .ready else s.ctx.state }
        eng := t.eng
        log := (s.acted
          ((if evHas ev .berr = true then [did .genStop 0, did .clearFlag 8] else [])
            ++ (if evHas ev .arlo = true then [did .clearFlag 9] else [])
            ++ (if evHas ev .ovr = true then [did .clearFlag 11] else [])
            ++ (if evHas ev .pecerr = true then [did .clearFlag 12] else [])
            ++ (if evHas ev .timeout = true then [did .clearFlag 14] else [])
            ++ (if evHas ev .smbalert = true then [did .clearFlag 15] else []))).log }
    ∧ (∀ f ∈ [Flag.berr, .arlo, .ovr, .pecerr, .timeout, .smbalert],
        t.eng.flag f = (s.eng.flag f && !evHas ev f))
    ∧ (evHas ev .berr = true → s.eng.pe = true → s.eng.flag .msl = true → t.eng.stopReq = true)
    ∧ t.eng = { (if evHas ev .berr = true then s.eng.genStop else s.eng) with ev := t.eng.ev }
    ∧ EvKeptBut [.berr, .arlo, .ovr, .pecerr, .timeout, .smbalert]
        (if evHas ev .berr = true then s.eng.genStop else s.eng) t.eng

/-- What no invocation changes: the host, the marks, WIRELOG, the registers only the host writes, the own address and
the enable of the engine; STATE only to Ready or a slave role, RSF only to 1, ERR only to a runtime code; its ACTLOG
records are the dispatcher's; and every cell of the buffers but those R161, R163, R166 and R170 store to. -/
def Obligations.DispatcherFrameHolds : Prop :=
  ∀ s t : State, invoke Config.params s = .ok t →
    t.host = s.host ∧ t.marks = s.marks ∧ t.port = s.port ∧ t.log.wire = s.log.wire
      ∧ t.ctx.pa = s.ctx.pa ∧ t.ctx.sendStop = s.ctx.sendStop ∧ t.ctx.mLen = s.ctx.mLen ∧ t.ctx.cb = s.ctx.cb
      ∧ t.ctx.inited = s.ctx.inited ∧ t.eng.pe = s.eng.pe ∧ t.eng.oaddr = s.eng.oaddr
      ∧ (t.ctx.state = s.ctx.state ∨ t.ctx.state = .ready ∨ t.ctx.state.isSlave = true)
      ∧ (t.ctx.rsf = s.ctx.rsf ∨ t.ctx.rsf = true)
      ∧ (t.ctx.err = s.ctx.err ∨ 3 ≤ t.ctx.err.code)
      ∧ (∃ l, t.log.act = s.log.act ++ l ∧ ∀ r ∈ l, r.agent = .dispatcher)
      ∧ (∃ l, t.log.cb = s.log.cb ++ l)
      ∧ (∀ k, t.cell .mbuf k ≠ s.cell .mbuf k →
          s.eng.flag .msl = true ∧ s.ctx.state = .masterReceiving
            ∧ if s.ctx.nackp = true then k = s.ctx.mLen.toNat ∧ (s.eng.flag .rxne = true ∨ s.eng.flag .af = true)
              else k = s.ctx.mCur.toNat ∧ s.eng.flag .rxne = true)
      ∧ (∀ k, t.cell .txbuf k ≠ s.cell .txbuf k →
          s.eng.flag .msl = false ∧ s.eng.flag .addr = true ∧ s.eng.flag .tra = true ∧ s.ctx.cb ≠ 0
            ∧ k < t.ctx.txLen.toNat)
      ∧ ∀ k, t.cell .rxbuf k ≠ s.cell .rxbuf k →
          s.eng.flag .msl = false ∧ s.eng.flag .rxne = true
            ∧ if s.eng.flag .addr = true then k = 0 ∧ s.eng.flag .tra = false
              else k = s.ctx.rxCur.toNat ∧ s.ctx.state = .slaveReceiving

/-! ### The bus engine -/

/-- R262: with PE = 0 no engine step is enabled. R260, R261: an engine step writes the engine registers and WIRELOG
alone, one step's symbols at a time. 10_state R31, R48–R50 and the steps R264–R282: it never writes OADDR or CTRL2, and no
bit of CTRL1 to 1. -/
def Obligations.EngineStepFrame : Prop :=
  ∀ (p : Config.Params) (m : Config.EngineMove) (s : State),
    (s.eng.pe = false → runEngine p m s = none)
    ∧ ∀ t, runEngine p m s = some t →
        (∃ syms, syms.length ≤ 1 ∧ t = { s with
          eng := t.eng, log := { s.log with wire := s.log.wire ++ syms } })
        ∧ t.eng.oaddr = s.eng.oaddr ∧ t.eng.ctrl2 = s.eng.ctrl2
        ∧ ∀ k, t.eng.ctrl1.getLsbD k = true → s.eng.ctrl1.getLsbD k = true

/-- R263, R264, R273: the START or repeated START, and the STOP. -/
def Obligations.EngineStartStop : Prop :=
  ∀ (p : Config.Params) (e : Engine),
    StepIs p .start e
      (e.startReq = true ∧ e.stopReq = false ∧ ((e.flag .busy = false ∧ e.phase = .idle) ∨ AtMasterBoundary e))
      (fun d syms => d = { e with ctrl1 := d.ctrl1, ev := d.ev, phase := .mSb } ∧ d.startReq = false
        ∧ Ctrl1KeptBut [8] e d ∧ d.flag .sb = true ∧ d.flag .msl = true ∧ d.flag .busy = true ∧ d.flag .tra = false
        ∧ d.flag .txe = false ∧ d.flag .btf = false ∧ EvKeptBut [.sb, .msl, .busy, .tra, .txe, .btf] e d
        ∧ d.stretches = true ∧ syms = [if e.flag .busy = false ∧ e.phase = .idle then .start else .restart])
    ∧ StepIs p .stop e (e.stopReq = true ∧ AtMasterBoundary e)
      (fun d syms => d = { e with ctrl1 := d.ctrl1, ev := d.ev, phase := .idle } ∧ d.stopReq = false
        ∧ Ctrl1KeptBut [9] e d ∧ d.flag .msl = false ∧ d.flag .busy = false ∧ d.flag .tra = false
        ∧ d.flag .txe = false ∧ d.flag .btf = false ∧ d.flag .sb = false
        ∧ EvKeptBut [.msl, .busy, .tra, .txe, .btf, .sb] e d ∧ syms = [.stop])

/-- R266, R267: the address byte, ACKed or NACKed. -/
def Obligations.EngineAddressPhase : Prop :=
  ∀ (p : Config.Params) (e : Engine) (nack : Bool),
    StepIs p (.address nack) e (e.phase = .mAddr) (fun d syms =>
      syms = [.byte .out e.data nack]
      ∧ if nack = true then
          d = { e with ev := d.ev, phase := .mHold } ∧ d.flag .af = true ∧ d.flag .tra = !e.data.getLsbD 0
            ∧ EvKeptBut [.af, .tra] e d
        else if e.data.getLsbD 0 = false then
          d = { e with ev := d.ev, shState := .empty, phase := .mTx } ∧ d.flag .addr = true ∧ d.flag .tra = true
            ∧ d.flag .txe = true ∧ EvKeptBut [.addr, .tra, .txe] e d
        else
          d = { e with ev := d.ev, phase := .mRx } ∧ d.flag .addr = true ∧ d.flag .tra = false
            ∧ EvKeptBut [.addr, .tra] e d)

/-- R268, R269, R277: the transmit load and the end of a transmitted byte, in master and slave role. -/
def Obligations.EngineTransmit : Prop :=
  ∀ (p : Config.Params) (e : Engine),
    StepIs p .load e
      (((e.phase = .mTx ∧ e.startReq = false ∧ e.stopReq = false) ∨ e.phase = .sTx) ∧ e.flag .addr = false
        ∧ e.flag .txe = false ∧ e.shState = .empty)
      (fun d syms => d = { e with ev := d.ev, shift := e.data, shState := .busy } ∧ d.flag .txe = true
        ∧ d.flag .btf = false ∧ EvKeptBut [.txe, .btf] e d ∧ syms = [])
    ∧ ∀ nack : Bool,
      StepIs p (.masterByteEnd nack) e (e.phase = .mTx ∧ e.shState = .busy) (fun d syms =>
        syms = [.byte .out e.shift nack]
        ∧ if nack = true then
            d = { e with ev := d.ev, shState := .empty, phase := .mHold } ∧ d.flag .af = true ∧ d.flag .txe = false
              ∧ d.flag .btf = false ∧ EvKeptBut [.af, .txe, .btf] e d
          else if e.flag .txe = true ∧ e.startReq = false ∧ e.stopReq = false then
            d = { e with ev := d.ev, shState := .empty } ∧ d.flag .btf = true ∧ EvKeptBut [.btf] e d
          else d = { e with shState := .empty })
      ∧ StepIs p (.slaveByteEnd nack) e (e.phase = .sTx ∧ e.shState = .busy) (fun d syms =>
        syms = [.byte .out e.shift nack]
        ∧ if nack = true then
            d = { e with ev := d.ev, shState := .empty, phase := .sHold } ∧ d.flag .af = true ∧ d.flag .txe = false
              ∧ d.flag .btf = false ∧ EvKeptBut [.af, .txe, .btf] e d
          else if e.flag .txe = true then
            d = { e with ev := d.ev, shState := .empty } ∧ d.flag .btf = true ∧ EvKeptBut [.btf] e d
          else d = { e with shState := .empty })

/-- R270, R281, R282: arbitration loss and the error injections. -/
def Obligations.EngineErrors : Prop :=
  ∀ (p : Config.Params) (e : Engine),
    StepIs p .loseArbitration e
      (p.injects .arlo = true ∧ (e.phase = .mAddr ∨ (e.phase = .mTx ∧ e.shState = .busy)))
      (fun d syms => d = { e with ctrl1 := d.ctrl1, ev := d.ev, shState := .empty, phase := .idle }
        ∧ d.flag .arlo = true ∧ d.flag .msl = false ∧ d.flag .tra = false ∧ d.flag .sb = false ∧ d.flag .txe = false
        ∧ d.flag .btf = false ∧ EvKeptBut [.arlo, .msl, .tra, .sb, .txe, .btf] e d ∧ d.startReq = false
        ∧ d.stopReq = false ∧ Ctrl1KeptBut [8, 9] e d ∧ syms = [.lost])
    ∧ StepIs p (.inject .berr) e (p.injects .berr = true ∧ e.flag .busy = true)
      (fun d syms => d = { e with ev := d.ev } ∧ d.flag .berr = true ∧ EvKeptBut [.berr] e d ∧ syms = [.err .berr])
    ∧ StepIs p (.inject .afRx) e (p.injects .afRx = true ∧ e.phase = .mRx)
      (fun d syms => d = { e with ev := d.ev } ∧ d.flag .af = true ∧ EvKeptBut [.af] e d ∧ syms = [.err .afRx])
    ∧ ∀ q ∈ [(Config.Injection.ovr, Flag.ovr), (.pecerr, .pecerr), (.timeout, .timeout), (.smbalert, .smbalert)],
      StepIs p (.inject q.1) e (p.injects q.1 = true)
        (fun d syms => d = { e with ev := d.ev } ∧ d.flag q.2 = true ∧ EvKeptBut [q.2] e d ∧ syms = [.err q.1])

/-- R271, R272: receiving one byte, and the acknowledge bit this engine answers. -/
def Obligations.EngineReceive : Prop :=
  ∀ (p : Config.Params) (e : Engine) (b : Byte),
    StepIs p (.receive b) e
      (((e.phase = .mRx ∧ e.startReq = false ∧ e.stopReq = false) ∨ e.phase = .sRx) ∧ e.flag .addr = false
        ∧ e.shState ≠ .full
        ∧ (p.promptDispatch = true → ¬ (e.flag .rxne = true ∧ e.itEvtEn = true ∧ e.itBufEn = true)))
      (fun d syms =>
        let last : Phase := if e.ackOn = false ∧ e.phase = .mRx then .mHold else e.phase
        syms = [.byte .inn b (!e.ackOn)]
        ∧ if e.flag .rxne = false then
            d = { e with ev := d.ev, data := b, phase := last } ∧ d.flag .rxne = true ∧ EvKeptBut [.rxne] e d
          else
            d = { e with ev := d.ev, shift := b, shState := .full, phase := last } ∧ d.flag .btf = true
              ∧ EvKeptBut [.btf] e d)

/-- R275, R278, R279: the remote START, repeated START and STOP. -/
def Obligations.EngineRemoteConditions : Prop :=
  ∀ (p : Config.Params) (e : Engine),
    StepIs p .remoteStart e (e.phase = .idle ∧ e.flag .busy = false)
      (fun d syms => d = { e with ev := d.ev, phase := .sAwait } ∧ d.flag .busy = true ∧ EvKeptBut [.busy] e d
        ∧ syms = [.remoteStart])
    ∧ StepIs p .remoteRestart e
      (e.flag .busy = true ∧ e.flag .msl = false ∧ (e.phase = .idle ∨ e.phase = .sRx ∨ e.phase = .sHold))
      (fun d syms => d = { e with ev := d.ev, phase := .sAwait } ∧ d.flag .tra = false ∧ d.flag .txe = false
        ∧ d.flag .btf = false ∧ EvKeptBut [.tra, .txe, .btf] e d ∧ syms = [.remoteStart])
    ∧ StepIs p .remoteStop e
      (e.flag .busy = true ∧ e.flag .msl = false ∧ (e.phase = .idle ∨ e.phase = .sRx ∨ e.phase = .sHold))
      (fun d syms => d = { e with ev := d.ev, phase := .idle }
        ∧ d.flag .stopf = (e.flag .stopf || e.phase == .sRx) ∧ d.flag .busy = false ∧ d.flag .tra = false
        ∧ d.flag .txe = false ∧ d.flag .btf = false ∧ d.flag .gencall = false ∧ d.flag .dualf = false
        ∧ EvKeptBut [.stopf, .busy, .tra, .txe, .btf, .gencall, .dualf] e d ∧ syms = [.remoteStop])

/-- R276, R280: the slave address match, or no match; the parameters GC_ENABLE, OA2_ENABLE and OA2 stand as R9 fixes
them. -/
def Obligations.EngineSlaveAddress : Prop :=
  ∀ (p : Config.Params) (e : Engine) (a7 : Addr7) (rw otherNack : Bool),
    StepIs p (.slaveAddress a7 rw otherNack) e (e.phase = .sAwait) (fun d syms =>
      let own := a7 == e.oaddr.extractLsb' 0 7
      let gc := Config.gcEnable && a7 == 0#7 && !rw
      let oa2 := Config.oa2 == some a7
      ∃ byte nack, syms = [.byte .inn byte nack] ∧ byte.toNat = a7.toNat * 2 + rw.toNat
      ∧ if (own || gc || oa2) = true ∧ e.ackOn = true then
          nack = false ∧ d.flag .addr = true ∧ d.flag .gencall = gc ∧ d.flag .dualf = (oa2 && !own)
          ∧ d.flag .tra = rw
          ∧ if rw = true then
              d = { e with ev := d.ev, shState := .empty, phase := .sTx } ∧ d.flag .txe = true
                ∧ EvKeptBut [.addr, .gencall, .dualf, .tra, .txe] e d
            else d = { e with ev := d.ev, phase := .sRx } ∧ EvKeptBut [.addr, .gencall, .dualf, .tra] e d
        else nack = otherNack ∧ d = { e with phase := .idle })

/-! ### The wire -/

/-- R285, R286: a frame, sampled from the lines while SCL is high, gives back its byte and acknowledge bit and holds no
START or STOP edge; a START or repeated START holds one START edge, a STOP one STOP edge. R286: the master, this engine
while MSL = 1 and the remote otherwise, generates all nine clocks of a frame, the other devices none; the receiver drives
the ninth bit, and over an address byte that does not select this engine the other devices do and this engine releases SDA
(R276, R280); the wired-AND of what all drive is the frame. R290: when this engine stretches the clock. The lines are the
I2C standard's (log 20). -/
def Obligations.WireFraming : Prop :=
  (∀ (b : Byte) (nack : Bool), (frameBits b nack).length = 9 ∧ assembleFrame (frameBits b nack) = some (b, nack)
    ∧ wiredBits (transmitterDrive b) (receiverDrive nack) = frameBits b nack
    ∧ ∀ d, sampleBits (WireSym.byte d b nack).lines = frameBits b nack
      ∧ readFrame (WireSym.byte d b nack).lines = some (b, nack) ∧ sdaStable (WireSym.byte d b nack).lines = true
      ∧ startEdges (WireSym.byte d b nack).lines = 0 ∧ stopEdges (WireSym.byte d b nack).lines = 0)
  ∧ (∀ (e : Engine) (d : Dir) (b : Byte) (nack : Bool),
      let passed := d = .inn ∧ e.phase = .sAwait ∧ e.selected (b.extractLsb' 1 7) (b.getLsbD 0) = false
      e.busLines d b nack = (WireSym.byte d b nack).lines
      ∧ (e.frameDrive d b nack).sda
        = heldBits (if d = .out then transmitterDrive b else if passed then releasedBits else receiverDrive nack)
      ∧ (e.remoteDrive d b nack).sda = heldBits (if d = .inn then transmitterDrive b else receiverDrive nack)
      ∧ (e.othersDrive d b nack).sda = heldBits (if passed then receiverDrive nack else releasedBits)
      ∧ clockPulses (e.frameDrive d b nack).scl = (if e.flag .msl = true then 9 else 0)
      ∧ clockPulses (e.remoteDrive d b nack).scl = (if e.flag .msl = true then 0 else 9)
      ∧ clockPulses (e.othersDrive d b nack).scl = 0)
  ∧ (∀ (p : Config.Params) (e : Engine) (a7 : Addr7) (rw otherNack : Bool),
      e.pe = true → e.phase = .sAwait →
        ∃ d b nack, engineStep p (.slaveAddress a7 rw otherNack) e = some (d, [.byte .inn b nack])
          ∧ (e.frameDrive .inn b nack).sda
            = heldBits (if d.phase = .idle then releasedBits else receiverDrive false))
  ∧ (∀ bits : List Bool, sampleBits (bitsOnLines bits) = bits ∧ sdaStable (bitsOnLines bits) = true)
  ∧ (∀ e : Engine, e.stretches = true ↔
      e.flag .sb = true ∨ e.flag .addr = true ∨ e.flag .btf = true
        ∨ (e.phase = .mHold ∧ e.startReq = false ∧ e.stopReq = false))
  ∧ (∀ s ∈ [WireSym.start, .restart, .remoteStart], startEdges s.lines = 1 ∧ stopEdges s.lines = 0)
  ∧ ∀ s ∈ [WireSym.stop, .remoteStop], startEdges s.lines = 0 ∧ stopEdges s.lines = 1

/-- R289: arbitration is lost at the first bit this master releases and samples low, and there alone (log 20). -/
def Obligations.ArbitrationDetected : Prop :=
  ∀ (mine others : List Bool) (k : Nat), mine.length = others.length →
    (arbitrationLostAt mine others = some k ↔
      mine[k]? = some true ∧ others[k]? = some false
        ∧ ∀ j, j < k → ¬ (mine[j]? = some true ∧ others[j]? = some false))

/-! ### The whole machine -/

/-- Every step keeps the transaction invariant: STATE named, the cursor bounds, NACKP and M_FINAL as R179 says, every
cell a later read needs written, and a command in progress sound. R179 (b): once MRX has handled ADDR a byte is armed,
and stays so through every step that leaves STATE at MasterReceiving. -/
def Obligations.StepKeepsTransactionSound : Prop :=
  (∀ s t : State, TransactionSound s → step s = .next t →
    TransactionSound t
    ∧ (s.ctx.state = .masterReceiving → t.ctx.state = .masterReceiving → ByteArmed s.ctx → ByteArmed t.ctx))
  ∧ ∀ s t : State, s.ctx.state = .masterReceiving → s.eng.flag .msl = true → s.eng.flag .addr = true →
      invoke Config.params s = .ok t → t.ctx.state = .masterReceiving → ByteArmed t.ctx

/-- Every step keeps the buffers' canonical form, which is the model's own way to hold the cells (log 14), and R85's
bound: no cell at or past BUF_CAP. -/
def Obligations.StepKeepsBuffers : Prop :=
  ∀ s t : State, step s = .next t →
    (BuffersCanonical s → BuffersCanonical t) ∧ (CellsInRange s → CellsInRange t)

/-- Every step keeps the reserved bits of EV, CTRL1, CTRL2 and OADDR zero, PHASE = OFF exactly while PE = 0, and that
after a START the engine waits in M_SB as the master, SB set nowhere else, with TxE and BTF clear until the address byte
has gone out. R81: PA is the byte a step places as the engine waits in M_SB, no byte goes on the wire before the address
byte, and DATA holds PA as it goes out, where no ADDR and no shifted byte of an earlier transfer is in its way; a START that
takes one with it is the one step that puts it there, and what then goes out is log 27's. A word alone on the internal bus
is its issuer's own (log 4). -/
def Obligations.StepKeepsEngineWord : Prop :=
  ∀ s t : State, step s = .next t →
    ((ReservedBitsZero s.eng → ReservedBitsZero t.eng) ∧ (OffExactlyWhenDisabled s.eng → OffExactlyWhenDisabled t.eng)
      ∧ (AddressPhaseSound s.eng → AddressPhaseSound t.eng)
      ∧ (AddressPhaseQuiet s.eng → (t.eng.phase = .mSb → s.eng.phase = .mSb ∨ NothingLeft s.eng) →
          AddressPhaseQuiet t.eng))
    ∧ (AddressPhaseSound s.eng → s.port.bus = none →
        PaPlacedFirst s t ∧ (AddressPhaseQuiet s.eng → AddressByteIsPa s t))
    ∧ (s.eng.phase = .mSb ∨ s.eng.phase = .mAddr →
        ∃ l, t.log.wire = s.log.wire ++ l ∧ ∀ d b n, WireSym.byte d b n ∈ l →
          s.eng.phase = .mAddr ∧ d = .out ∧ b = s.eng.data)

/-- R325: from a sound state no step faults, nor is one refused with BufferBound (R85); and no run from reset records a
fault, whatever moves are chosen and however long it is. That CursorOverrun is among them rests on log 21. -/
def Obligations.NoFaultIsReachable : Prop :=
  (∀ s : State, TransactionSound s → (∀ f, step s ≠ .fault f) ∧ step s ≠ .refused .bufferBound)
  ∧ ∀ (ms : List Config.Move) (n : Nat),
      (runFor n { State.reset with port := { State.reset.port with moves := ms } }).marks.faults = []

/-- R93, R321: STATE leaves Ready for a master role by the host's W4 or R4 alone, and returns to Ready or takes a slave
role by an invocation alone; ERR becomes None by W3 or R3 alone, and a runtime code by an invocation alone. -/
def Obligations.StateAndErrWriters : Prop :=
  ∀ s t : State, step s = .next t →
    (s.ctx.state ≠ t.ctx.state →
      (t.ctx.state.isMaster = true ∧ s.host.step = .m4 ∧ s.host.cmd.isSome = true)
      ∨ ((t.ctx.state = .ready ∨ t.ctx.state.isSlave = true) ∧ s.eng.deliverable = true ∧ t.host = s.host))
    ∧ (s.ctx.err ≠ t.ctx.err →
      (t.ctx.err = .none ∧ s.host.step = .m3 ∧ s.host.cmd.isSome = true)
      ∨ (3 ≤ t.ctx.err.code ∧ s.eng.deliverable = true ∧ t.host = s.host))

/-- R62–R65: every step appends to ACTLOG, WIRELOG and CBLOG and never takes a record away; a step that runs leaves the
marks, and one that stops appends exactly its reason to them, which the model leaves to the run (log 13). -/
def Obligations.LogsAppendOnly : Prop :=
  ∀ s : State,
    (∀ t, step s = .next t → (∃ l, t.log.act = s.log.act ++ l) ∧ (∃ l, t.log.wire = s.log.wire ++ l)
      ∧ (∃ l, t.log.cb = s.log.cb ++ l) ∧ t.marks = s.marks)
    ∧ (∀ t, step s = .next t → runStep s = t)
    ∧ (∀ f, step s = .fault f → (runStep s).marks = ⟨s.marks.faults ++ [f], s.marks.refusals⟩
        ∧ (runStep s).log = s.log)
    ∧ ∀ f, step s = .refused f → (runStep s).marks = ⟨s.marks.faults, s.marks.refusals ++ [f]⟩
        ∧ (runStep s).log = s.log

/-- R350, R351, R31: the values the spec gives for reset, by register number; the buffers, logs, marks and host; no
dispatcher and no engine step is enabled. -/
def Obligations.ResetValues : Prop :=
  (∀ k, readReg State.reset k
      = if k ≤ 13 ∨ (16 ≤ k ∧ k ≤ 23) then .ok 0 else .error .noSuchRegister)
  ∧ (∀ n k, State.reset.cell n k = none)
  ∧ State.reset.log = ⟨[], [], []⟩ ∧ State.reset.marks = ⟨[], []⟩
  ∧ State.reset.host.cmd = none ∧ State.reset.host.polls = 0 ∧ State.reset.host.result = none
  ∧ State.reset.eng.deliverable = false
  ∧ ∀ p m, runEngine p m State.reset = none

/-- The reset state meets every invariant stated. -/
def Obligations.ResetMeetsInvariants : Prop :=
  TransactionSound State.reset ∧ BuffersCanonical State.reset ∧ CellsInRange State.reset
    ∧ ReservedBitsZero State.reset.eng ∧ OffExactlyWhenDisabled State.reset.eng
    ∧ AddressPhaseSound State.reset.eng ∧ AddressPhaseQuiet State.reset.eng ∧ Unmarked State.reset

end
end

