-- ==== Sys2Proof/Laws/Bits.lean ====
section
/-! SUPPORT. Bit fields: what writing one bit does to every bit, to every flag, and to a register's reserved bits. -/

namespace Sys2Proof.Machine

theorem getLsbD_putBit {w : Nat} (v : BitVec w) (i j : Nat) (b : Bool) (hi : i < w) :
    (putBit v i b).getLsbD j = if j = i then b else v.getLsbD j := by
  unfold putBit
  by_cases hj : j = i
  · subst hj; cases b <;> simp [hi]
  · cases b
    · by_cases hjw : j < w
      · simp [hj, hjw]
      · simp [hj, BitVec.getLsbD_of_ge v j (by omega)]
    · have hij : i ≠ j := fun h => hj h.symm
      simp [hj, hij]

theorem getElem_putBit {w : Nat} (v : BitVec w) (i j : Nat) (b : Bool) (hi : i < w) (hj : j < w) :
    (putBit v i b)[j] = if j = i then b else v[j] := by
  have h := getLsbD_putBit v i j b hi
  simpa [BitVec.getLsbD_eq_getElem hj] using h

/-- No bit outside the mask `m` is set. -/
theorem and_not_eq_zero_iff {w : Nat} (v m : BitVec w) :
    v &&& ~~~m = 0#w ↔ ∀ j, v.getLsbD j = true → m.getLsbD j = true := by
  constructor
  · intro h j hj
    have hjw : j < w := by
      by_contra hge
      rw [BitVec.getLsbD_of_ge v j (by omega)] at hj
      exact Bool.noConfusion hj
    have hbit : (v &&& ~~~m).getLsbD j = false := by rw [h]; simp
    simpa [hj, hjw] using hbit
  · intro h
    apply BitVec.eq_of_getLsbD_eq
    intro i hi
    cases hv : v.getLsbD i
    · simp [hv]
    · simp [hv, h i hv]

/-- Writing a bit inside the mask keeps the bits outside it zero. -/
theorem putBit_reserved {w : Nat} (v m : BitVec w) (i : Nat) (b : Bool) (hi : m.getLsbD i = true)
    (h : v &&& ~~~m = 0#w) : putBit v i b &&& ~~~m = 0#w := by
  have hiw : i < w := by
    by_contra hge
    rw [BitVec.getLsbD_of_ge m i (by omega)] at hi
    exact Bool.noConfusion hi
  rw [and_not_eq_zero_iff] at h ⊢
  intro j hj
  rw [getLsbD_putBit v i j b hiw] at hj
  by_cases hji : j = i
  · rw [hji]; exact hi
  · rw [if_neg hji] at hj; exact h j hj

theorem Flag.idx_lt (f : Flag) : f.idx < 32 := by cases f <;> decide

theorem Flag.idx_inj {f g : Flag} (h : f.idx = g.idx) : f = g := by
  cases f <;> cases g <;> first | rfl | exact absurd h (by decide)

theorem Flag.idx_defined (f : Flag) : evDefinedMask.getLsbD f.idx = true := by cases f <;> decide

theorem evHas_putBit (ev : EvWord) (f g : Flag) (b : Bool) :
    evHas (putBit ev f.idx b) g = if g = f then b else evHas ev g := by
  unfold evHas
  rw [getLsbD_putBit _ _ _ _ f.idx_lt]
  by_cases h : g = f
  · simp [h]
  · have hidx : g.idx ≠ f.idx := fun e => h (Flag.idx_inj e)
    simp [h, hidx]

@[simp] theorem Engine.flag_setFlag (e : Engine) (f g : Flag) (b : Bool) :
    (e.setFlag f b).flag g = if g = f then b else e.flag g := evHas_putBit e.ev f g b

@[simp] theorem Engine.flag_clearFlags (fs : List Flag) (e : Engine) (g : Flag) :
    (e.clearFlags fs).flag g = (e.flag g && !fs.contains g) := by
  induction fs generalizing e with
  | nil => simp [Engine.clearFlags]
  | cons f fs ih =>
    rw [Engine.clearFlags, ih, Engine.flag_setFlag]
    by_cases h : g = f
    · simp [h]
    · simp [h]

/-- A flag of an engine whose EV is another's. -/
theorem Engine.flag_of_ev {e d : Engine} (h : e.ev = d.ev) (f : Flag) : e.flag f = d.flag f := by
  simp only [Engine.flag, h]

/-- A flag is a bit of EV, whatever the other registers hold. -/
theorem Engine.flag_mk (c1 c2 o : Half) (ev : EvWord) (d s : Byte) (sh : ShState) (ph : Phase) (f : Flag) :
    (Engine.mk c1 c2 o ev d s sh ph).flag f = evHas ev f := rfl

/-- A flag of a live EV. -/
theorem Engine.evHas_ev (e : Engine) (f : Flag) : evHas e.ev f = e.flag f := rfl

@[simp] theorem Engine.flag_setStartReq (e : Engine) (b : Bool) (f : Flag) : (e.setStartReq b).flag f = e.flag f := rfl
@[simp] theorem Engine.flag_setStopReq (e : Engine) (b : Bool) (f : Flag) : (e.setStopReq b).flag f = e.flag f := rfl

@[simp] theorem Engine.setFlag_ctrl1 (e : Engine) (f : Flag) (b : Bool) : (e.setFlag f b).ctrl1 = e.ctrl1 := rfl
@[simp] theorem Engine.setFlag_ctrl2 (e : Engine) (f : Flag) (b : Bool) : (e.setFlag f b).ctrl2 = e.ctrl2 := rfl
@[simp] theorem Engine.setFlag_oaddr (e : Engine) (f : Flag) (b : Bool) : (e.setFlag f b).oaddr = e.oaddr := rfl
@[simp] theorem Engine.setFlag_data (e : Engine) (f : Flag) (b : Bool) : (e.setFlag f b).data = e.data := rfl
@[simp] theorem Engine.setFlag_shift (e : Engine) (f : Flag) (b : Bool) : (e.setFlag f b).shift = e.shift := rfl
@[simp] theorem Engine.setFlag_shState (e : Engine) (f : Flag) (b : Bool) : (e.setFlag f b).shState = e.shState := rfl
@[simp] theorem Engine.setFlag_phase (e : Engine) (f : Flag) (b : Bool) : (e.setFlag f b).phase = e.phase := rfl

/-- Clearing flags touches EV alone. -/
theorem Engine.clearFlags_eq (fs : List Flag) (e : Engine) :
    e.clearFlags fs = { e with ev := (e.clearFlags fs).ev } := by
  induction fs generalizing e with
  | nil => rfl
  | cons f fs ih => rw [Engine.clearFlags, ih]; rfl

@[simp] theorem Engine.clearFlags_ctrl1 (fs : List Flag) (e : Engine) : (e.clearFlags fs).ctrl1 = e.ctrl1 := by
  rw [Engine.clearFlags_eq]
@[simp] theorem Engine.clearFlags_ctrl2 (fs : List Flag) (e : Engine) : (e.clearFlags fs).ctrl2 = e.ctrl2 := by
  rw [Engine.clearFlags_eq]
@[simp] theorem Engine.clearFlags_oaddr (fs : List Flag) (e : Engine) : (e.clearFlags fs).oaddr = e.oaddr := by
  rw [Engine.clearFlags_eq]
@[simp] theorem Engine.clearFlags_data (fs : List Flag) (e : Engine) : (e.clearFlags fs).data = e.data := by
  rw [Engine.clearFlags_eq]
@[simp] theorem Engine.clearFlags_shift (fs : List Flag) (e : Engine) : (e.clearFlags fs).shift = e.shift := by
  rw [Engine.clearFlags_eq]
@[simp] theorem Engine.clearFlags_shState (fs : List Flag) (e : Engine) : (e.clearFlags fs).shState = e.shState := by
  rw [Engine.clearFlags_eq]
@[simp] theorem Engine.clearFlags_phase (fs : List Flag) (e : Engine) : (e.clearFlags fs).phase = e.phase := by
  rw [Engine.clearFlags_eq]

@[simp] theorem Engine.pe_setPe (e : Engine) (b : Bool) : (e.setPe b).pe = b := by
  simp [Engine.setPe, Engine.pe, getElem_putBit]
@[simp] theorem Engine.startReq_setStartReq (e : Engine) (b : Bool) : (e.setStartReq b).startReq = b := by
  simp [Engine.setStartReq, Engine.startReq, getElem_putBit]
@[simp] theorem Engine.stopReq_setStopReq (e : Engine) (b : Bool) : (e.setStopReq b).stopReq = b := by
  simp [Engine.setStopReq, Engine.stopReq, getElem_putBit]
@[simp] theorem Engine.ackOn_setAckOn (e : Engine) (b : Bool) : (e.setAckOn b).ackOn = b := by
  simp [Engine.setAckOn, Engine.ackOn, getElem_putBit]

@[simp] theorem Engine.pe_setStartReq (e : Engine) (b : Bool) : (e.setStartReq b).pe = e.pe := by
  simp [Engine.setStartReq, Engine.pe, getElem_putBit]
@[simp] theorem Engine.pe_setStopReq (e : Engine) (b : Bool) : (e.setStopReq b).pe = e.pe := by
  simp [Engine.setStopReq, Engine.pe, getElem_putBit]
@[simp] theorem Engine.pe_setAckOn (e : Engine) (b : Bool) : (e.setAckOn b).pe = e.pe := by
  simp [Engine.setAckOn, Engine.pe, getElem_putBit]
@[simp] theorem Engine.ackOn_setStartReq (e : Engine) (b : Bool) : (e.setStartReq b).ackOn = e.ackOn := by
  simp [Engine.setStartReq, Engine.ackOn, getElem_putBit]
@[simp] theorem Engine.ackOn_setStopReq (e : Engine) (b : Bool) : (e.setStopReq b).ackOn = e.ackOn := by
  simp [Engine.setStopReq, Engine.ackOn, getElem_putBit]
@[simp] theorem Engine.startReq_setStopReq (e : Engine) (b : Bool) : (e.setStopReq b).startReq = e.startReq := by
  simp [Engine.setStopReq, Engine.startReq, getElem_putBit]
@[simp] theorem Engine.stopReq_setStartReq (e : Engine) (b : Bool) : (e.setStartReq b).stopReq = e.stopReq := by
  simp [Engine.setStartReq, Engine.stopReq, getElem_putBit]
@[simp] theorem Engine.startReq_setAckOn (e : Engine) (b : Bool) : (e.setAckOn b).startReq = e.startReq := by
  simp [Engine.setAckOn, Engine.startReq, getElem_putBit]
@[simp] theorem Engine.stopReq_setAckOn (e : Engine) (b : Bool) : (e.setAckOn b).stopReq = e.stopReq := by
  simp [Engine.setAckOn, Engine.stopReq, getElem_putBit]

end Sys2Proof.Machine
end

