-- ==== Sys2Proof/Laws/Memory.lean ====
section
/-! SUPPORT. The cells of one buffer: a read after a write, and the canonical form every memory operation keeps. -/

namespace Sys2Proof.Machine

@[simp] theorem Memory.read_nil (i : Nat) : Memory.read [] i = none := rfl

/-- A read after a write gives the value written at its index and what was there everywhere else. -/
theorem Memory.read_write (m : Memory) (i j : Nat) (v : Byte) :
    (m.write i v).read j = if j = i then some v else m.read j := by
  induction m with
  | nil => simp [Memory.write, Memory.read]
  | cons c m ih =>
    obtain ⟨k, b⟩ := c
    unfold Memory.write
    split
    · by_cases h : j = i <;> simp [Memory.read, h]
    · split
      · rename_i hik
        subst hik
        by_cases h : j = i <;> simp [Memory.read, h]
      · rename_i hlt hne
        simp only [Memory.read, ih]
        by_cases h : j = k
        · rw [if_pos h, if_pos h, if_neg (by omega)]
        · simp [h]

@[simp] theorem Memory.read_write_same (m : Memory) (i : Nat) (v : Byte) : (m.write i v).read i = some v := by
  simp [Memory.read_write]

theorem Memory.read_write_other (m : Memory) {i j : Nat} (v : Byte) (h : j ≠ i) :
    (m.write i v).read j = m.read j := by
  simp [Memory.read_write, h]

/-- Every index listed after a write was listed before or is the one written. -/
theorem Memory.mem_write {m : Memory} {i : Nat} {v : Byte} {c : Host.Cell} (h : c ∈ m.write i v) :
    c ∈ m ∨ c.1 = i := by
  induction m with
  | nil => right; simp [Memory.write] at h; simp [h]
  | cons d m ih =>
    obtain ⟨k, b⟩ := d
    unfold Memory.write at h
    split at h
    · rcases List.mem_cons.1 h with h | h
      · right; simp [h]
      · exact Or.inl h
    · split at h
      · rcases List.mem_cons.1 h with h | h
        · right; simp [h]
        · exact Or.inl (List.mem_cons_of_mem _ h)
      · rcases List.mem_cons.1 h with h | h
        · left; rw [h]; exact List.mem_cons_self
        · rcases ih h with h | h
          · exact Or.inl (List.mem_cons_of_mem _ h)
          · exact Or.inr h

theorem Memory.wf_nil : Memory.wf [] := List.Pairwise.nil

/-- A write keeps the canonical form. -/
theorem Memory.wf_write {m : Memory} (h : m.wf) (i : Nat) (v : Byte) : (m.write i v).wf := by
  induction m with
  | nil => exact List.pairwise_singleton _ _
  | cons d m ih =>
    obtain ⟨k, b⟩ := d
    obtain ⟨hk, hm⟩ := List.pairwise_cons.1 h
    unfold Memory.write
    split
    · rename_i hlt
      refine List.pairwise_cons.2 ⟨fun c hc => ?_, h⟩
      rcases List.mem_cons.1 hc with hc | hc
      · simp [hc, hlt]
      · exact Nat.lt_trans hlt (hk c hc)
    · split
      · rename_i hik
        exact List.pairwise_cons.2 ⟨fun c hc => by have := hk c hc; simp only at this ⊢; omega, hm⟩
      · rename_i hlt hne
        refine List.pairwise_cons.2 ⟨fun c hc => ?_, ih hm⟩
        rcases Memory.mem_write hc with hc | hc
        · exact hk c hc
        · simp only; omega

theorem Memory.read_eq_none_of_lt {m : Memory} {i : Nat} (h : ∀ c ∈ m, i < c.1) : m.read i = none := by
  induction m with
  | nil => rfl
  | cons c m ih =>
    obtain ⟨k, b⟩ := c
    have hk : i < k := h (k, b) List.mem_cons_self
    rw [Memory.read, if_neg (by omega)]
    exact ih fun c hc => h c (List.mem_cons_of_mem _ hc)

/-- Two buffers in canonical form that read the same are the same list: equal memories are equal data. -/
theorem Memory.ext {m m' : Memory} (hm : m.wf) (hm' : m'.wf) (h : ∀ i, m.read i = m'.read i) : m = m' := by
  induction m generalizing m' with
  | nil =>
    cases m' with
    | nil => rfl
    | cons c m' =>
      obtain ⟨k, b⟩ := c
      have := h k
      simp [Memory.read] at this
  | cons c m ih =>
    obtain ⟨k, b⟩ := c
    obtain ⟨hk, hm⟩ := List.pairwise_cons.1 hm
    cases m' with
    | nil =>
      have := h k
      simp [Memory.read] at this
    | cons c' m' =>
      obtain ⟨k', b'⟩ := c'
      obtain ⟨hk', hmt⟩ := List.pairwise_cons.1 hm'
      have hkk : k = k' := by
        rcases Nat.lt_trichotomy k k' with hlt | heq | hlt
        · have h1 := h k
          rw [Memory.read, if_pos rfl, Memory.read_eq_none_of_lt] at h1
          · exact absurd h1 (by simp)
          · intro c hc
            rcases List.mem_cons.1 hc with hc | hc
            · simp [hc, hlt]
            · exact Nat.lt_trans hlt (hk' c hc)
        · exact heq
        · have h1 := h k'
          rw [Memory.read_eq_none_of_lt, Memory.read, if_pos rfl] at h1
          · exact absurd h1 (by simp)
          · intro c hc
            rcases List.mem_cons.1 hc with hc | hc
            · simp [hc, hlt]
            · exact Nat.lt_trans hlt (hk c hc)
      subst hkk
      have hb : b = b' := by have := h k; simpa [Memory.read] using this
      subst hb
      congr 1
      refine ih hm hmt fun i => ?_
      have h1 := h i
      by_cases hi : i = k
      · rw [hi, Memory.read_eq_none_of_lt hk, Memory.read_eq_none_of_lt hk']
      · simpa [Memory.read, hi] using h1

@[simp] theorem Buffers.get_put_same (b : Buffers) (n : BufName) (m : Memory) : (b.put n m).get n = m := by
  cases n <;> rfl

theorem Buffers.get_put_other (b : Buffers) {n k : BufName} (m : Memory) (h : k ≠ n) : (b.put n m).get k = b.get k := by
  cases n <;> cases k <;> first | rfl | exact absurd rfl h

end Sys2Proof.Machine
end

