-- ==== Sys2Proof/Laws/State.lean ====
section
/-! SUPPORT. One lemma per part of the state per named update, each true by unfolding the update once. -/

namespace Sys2Proof.Machine

@[simp] theorem State.setState_ctx_state (s : State) (st : ControllerState) : (s.setState st).ctx.state = st := rfl
@[simp] theorem State.setState_ctx_err (s : State) (st : ControllerState) : (s.setState st).ctx.err = s.ctx.err := rfl
@[simp] theorem State.setState_ctx_rsf (s : State) (st : ControllerState) : (s.setState st).ctx.rsf = s.ctx.rsf := rfl
@[simp] theorem State.setState_ctx_pa (s : State) (st : ControllerState) : (s.setState st).ctx.pa = s.ctx.pa := rfl
@[simp] theorem State.setState_ctx_sendStop (s : State) (st : ControllerState) : (s.setState st).ctx.sendStop = s.ctx.sendStop := rfl
@[simp] theorem State.setState_ctx_mLen (s : State) (st : ControllerState) : (s.setState st).ctx.mLen = s.ctx.mLen := rfl
@[simp] theorem State.setState_ctx_mCur (s : State) (st : ControllerState) : (s.setState st).ctx.mCur = s.ctx.mCur := rfl
@[simp] theorem State.setState_ctx_nackp (s : State) (st : ControllerState) : (s.setState st).ctx.nackp = s.ctx.nackp := rfl
@[simp] theorem State.setState_ctx_mFinal (s : State) (st : ControllerState) : (s.setState st).ctx.mFinal = s.ctx.mFinal := rfl
@[simp] theorem State.setState_ctx_txLen (s : State) (st : ControllerState) : (s.setState st).ctx.txLen = s.ctx.txLen := rfl
@[simp] theorem State.setState_ctx_txCur (s : State) (st : ControllerState) : (s.setState st).ctx.txCur = s.ctx.txCur := rfl
@[simp] theorem State.setState_ctx_rxCur (s : State) (st : ControllerState) : (s.setState st).ctx.rxCur = s.ctx.rxCur := rfl
@[simp] theorem State.setState_ctx_cb (s : State) (st : ControllerState) : (s.setState st).ctx.cb = s.ctx.cb := rfl
@[simp] theorem State.setState_ctx_inited (s : State) (st : ControllerState) : (s.setState st).ctx.inited = s.ctx.inited := rfl
@[simp] theorem State.setState_eng (s : State) (st : ControllerState) : (s.setState st).eng = s.eng := rfl
@[simp] theorem State.setState_buf (s : State) (st : ControllerState) : (s.setState st).buf = s.buf := rfl
@[simp] theorem State.setState_log (s : State) (st : ControllerState) : (s.setState st).log = s.log := rfl
@[simp] theorem State.setState_host (s : State) (st : ControllerState) : (s.setState st).host = s.host := rfl
@[simp] theorem State.setState_marks (s : State) (st : ControllerState) : (s.setState st).marks = s.marks := rfl
@[simp] theorem State.setState_client (s : State) (st : ControllerState) : (s.setState st).client = s.client := rfl
@[simp] theorem State.setState_port (s : State) (st : ControllerState) : (s.setState st).port = s.port := rfl

@[simp] theorem State.setErr_ctx_state (s : State) (e : ErrorCode) : (s.setErr e).ctx.state = s.ctx.state := rfl
@[simp] theorem State.setErr_ctx_err (s : State) (e : ErrorCode) : (s.setErr e).ctx.err = e := rfl
@[simp] theorem State.setErr_ctx_rsf (s : State) (e : ErrorCode) : (s.setErr e).ctx.rsf = s.ctx.rsf := rfl
@[simp] theorem State.setErr_ctx_pa (s : State) (e : ErrorCode) : (s.setErr e).ctx.pa = s.ctx.pa := rfl
@[simp] theorem State.setErr_ctx_sendStop (s : State) (e : ErrorCode) : (s.setErr e).ctx.sendStop = s.ctx.sendStop := rfl
@[simp] theorem State.setErr_ctx_mLen (s : State) (e : ErrorCode) : (s.setErr e).ctx.mLen = s.ctx.mLen := rfl
@[simp] theorem State.setErr_ctx_mCur (s : State) (e : ErrorCode) : (s.setErr e).ctx.mCur = s.ctx.mCur := rfl
@[simp] theorem State.setErr_ctx_nackp (s : State) (e : ErrorCode) : (s.setErr e).ctx.nackp = s.ctx.nackp := rfl
@[simp] theorem State.setErr_ctx_mFinal (s : State) (e : ErrorCode) : (s.setErr e).ctx.mFinal = s.ctx.mFinal := rfl
@[simp] theorem State.setErr_ctx_txLen (s : State) (e : ErrorCode) : (s.setErr e).ctx.txLen = s.ctx.txLen := rfl
@[simp] theorem State.setErr_ctx_txCur (s : State) (e : ErrorCode) : (s.setErr e).ctx.txCur = s.ctx.txCur := rfl
@[simp] theorem State.setErr_ctx_rxCur (s : State) (e : ErrorCode) : (s.setErr e).ctx.rxCur = s.ctx.rxCur := rfl
@[simp] theorem State.setErr_ctx_cb (s : State) (e : ErrorCode) : (s.setErr e).ctx.cb = s.ctx.cb := rfl
@[simp] theorem State.setErr_ctx_inited (s : State) (e : ErrorCode) : (s.setErr e).ctx.inited = s.ctx.inited := rfl
@[simp] theorem State.setErr_eng (s : State) (e : ErrorCode) : (s.setErr e).eng = s.eng := rfl
@[simp] theorem State.setErr_buf (s : State) (e : ErrorCode) : (s.setErr e).buf = s.buf := rfl
@[simp] theorem State.setErr_log (s : State) (e : ErrorCode) : (s.setErr e).log = s.log := rfl
@[simp] theorem State.setErr_host (s : State) (e : ErrorCode) : (s.setErr e).host = s.host := rfl
@[simp] theorem State.setErr_marks (s : State) (e : ErrorCode) : (s.setErr e).marks = s.marks := rfl
@[simp] theorem State.setErr_client (s : State) (e : ErrorCode) : (s.setErr e).client = s.client := rfl
@[simp] theorem State.setErr_port (s : State) (e : ErrorCode) : (s.setErr e).port = s.port := rfl

@[simp] theorem State.logCb_ctx (s : State) (r : CbRecord) : (s.logCb r).ctx = s.ctx := rfl
@[simp] theorem State.logCb_eng (s : State) (r : CbRecord) : (s.logCb r).eng = s.eng := rfl
@[simp] theorem State.logCb_buf (s : State) (r : CbRecord) : (s.logCb r).buf = s.buf := rfl
@[simp] theorem State.logCb_log_act (s : State) (r : CbRecord) : (s.logCb r).log.act = s.log.act := rfl
@[simp] theorem State.logCb_log_wire (s : State) (r : CbRecord) : (s.logCb r).log.wire = s.log.wire := rfl
@[simp] theorem State.logCb_log_cb (s : State) (r : CbRecord) : (s.logCb r).log.cb = s.log.cb ++ [r] := rfl
@[simp] theorem State.logCb_host (s : State) (r : CbRecord) : (s.logCb r).host = s.host := rfl
@[simp] theorem State.logCb_marks (s : State) (r : CbRecord) : (s.logCb r).marks = s.marks := rfl
@[simp] theorem State.logCb_client (s : State) (r : CbRecord) : (s.logCb r).client = s.client := rfl
@[simp] theorem State.logCb_port (s : State) (r : CbRecord) : (s.logCb r).port = s.port := rfl

@[simp] theorem issue_ctx (a : Agent) (prim : Prim) (arg : BitVec 8) (f : Engine → Engine) (s : State) : (issue a prim arg f s).ctx = s.ctx := rfl
@[simp] theorem issue_eng (a : Agent) (prim : Prim) (arg : BitVec 8) (f : Engine → Engine) (s : State) : (issue a prim arg f s).eng = f s.eng := rfl
@[simp] theorem issue_buf (a : Agent) (prim : Prim) (arg : BitVec 8) (f : Engine → Engine) (s : State) : (issue a prim arg f s).buf = s.buf := rfl
@[simp] theorem issue_log_act (a : Agent) (prim : Prim) (arg : BitVec 8) (f : Engine → Engine) (s : State) : (issue a prim arg f s).log.act = s.log.act ++ [⟨a, prim, arg⟩] := rfl
@[simp] theorem issue_log_wire (a : Agent) (prim : Prim) (arg : BitVec 8) (f : Engine → Engine) (s : State) : (issue a prim arg f s).log.wire = s.log.wire := rfl
@[simp] theorem issue_log_cb (a : Agent) (prim : Prim) (arg : BitVec 8) (f : Engine → Engine) (s : State) : (issue a prim arg f s).log.cb = s.log.cb := rfl
@[simp] theorem issue_host (a : Agent) (prim : Prim) (arg : BitVec 8) (f : Engine → Engine) (s : State) : (issue a prim arg f s).host = s.host := rfl
@[simp] theorem issue_marks (a : Agent) (prim : Prim) (arg : BitVec 8) (f : Engine → Engine) (s : State) : (issue a prim arg f s).marks = s.marks := rfl
@[simp] theorem issue_client (a : Agent) (prim : Prim) (arg : BitVec 8) (f : Engine → Engine) (s : State) : (issue a prim arg f s).client = s.client := rfl
@[simp] theorem issue_port (a : Agent) (prim : Prim) (arg : BitVec 8) (f : Engine → Engine) (s : State) : (issue a prim arg f s).port = s.port := rfl

/-! Every primitive is issued by `issue`; simp states it so, and the lemmas on `issue` do the rest. -/

@[simp] theorem issueSendByte_eq (a : Agent) (b : Byte) (s : State) :
    issueSendByte a b s = issue a .sendByte b (Engine.sendByte b) s := rfl
@[simp] theorem issueRecvByte_eq (a : Agent) (s : State) :
    issueRecvByte a s = issue a .recvByte 0#8 Engine.recvByte s := rfl
@[simp] theorem issueGenStart_eq (a : Agent) (s : State) :
    issueGenStart a s = issue a .genStart 0#8 Engine.genStart s := rfl
@[simp] theorem issueGenStop_eq (a : Agent) (s : State) :
    issueGenStop a s = issue a .genStop 0#8 Engine.genStop s := rfl
@[simp] theorem issueSetAck_eq (a : Agent) (b : Bool) (s : State) :
    issueSetAck a b s = issue a .setAck ((BitVec.ofBool b).zeroExtend 8) (Engine.setAck b) s := rfl
@[simp] theorem issueClearFlag_eq (a : Agent) (k : BitVec 8) (s : State) :
    issueClearFlag a k s = issue a .clearFlag k (Engine.clearFlag k) s := rfl
@[simp] theorem issueSetNotify_eq (a : Agent) (m : BitVec 3) (s : State) :
    issueSetNotify a m s = issue a .setNotify (m.zeroExtend 8) (Engine.setNotify m) s := rfl
@[simp] theorem issueReadEvent_eq (a : Agent) (s : State) :
    issueReadEvent a s = issue a .readEvent 0#8 Engine.readEvent s := rfl
@[simp] theorem issueSetOwnAddr_eq (a : Agent) (a7 : Addr7) (s : State) :
    issueSetOwnAddr a a7 s = issue a .setOwnAddr (a7.zeroExtend 8) (Engine.setOwnAddr a7) s := rfl
@[simp] theorem issueSetEnable_eq (a : Agent) (b : Bool) (s : State) :
    issueSetEnable a b s = issue a .setEnable ((BitVec.ofBool b).zeroExtend 8) (Engine.setEnable b) s := rfl

@[simp] theorem returnWith_ctx (r : HostResult) (s : State) : (returnWith r s).ctx = s.ctx := rfl
@[simp] theorem returnWith_eng (r : HostResult) (s : State) : (returnWith r s).eng = s.eng := rfl
@[simp] theorem returnWith_buf (r : HostResult) (s : State) : (returnWith r s).buf = s.buf := rfl
@[simp] theorem returnWith_log (r : HostResult) (s : State) : (returnWith r s).log = s.log := rfl
@[simp] theorem returnWith_host_cmd (r : HostResult) (s : State) : (returnWith r s).host.cmd = none := rfl
@[simp] theorem returnWith_host_step (r : HostResult) (s : State) : (returnWith r s).host.step = .m1 := rfl
@[simp] theorem returnWith_host_polls (r : HostResult) (s : State) : (returnWith r s).host.polls = s.host.polls := rfl
@[simp] theorem returnWith_host_result (r : HostResult) (s : State) : (returnWith r s).host.result = some r := rfl
@[simp] theorem returnWith_host_out (r : HostResult) (s : State) : (returnWith r s).host.out = s.host.out := rfl
@[simp] theorem returnWith_marks (r : HostResult) (s : State) : (returnWith r s).marks = s.marks := rfl
@[simp] theorem returnWith_client (r : HostResult) (s : State) : (returnWith r s).client = s.client := rfl
@[simp] theorem returnWith_port (r : HostResult) (s : State) : (returnWith r s).port = s.port := rfl

@[simp] theorem goTo_ctx (k : MicroStep) (s : State) : (goTo k s).ctx = s.ctx := rfl
@[simp] theorem goTo_eng (k : MicroStep) (s : State) : (goTo k s).eng = s.eng := rfl
@[simp] theorem goTo_buf (k : MicroStep) (s : State) : (goTo k s).buf = s.buf := rfl
@[simp] theorem goTo_log (k : MicroStep) (s : State) : (goTo k s).log = s.log := rfl
@[simp] theorem goTo_host_cmd (k : MicroStep) (s : State) : (goTo k s).host.cmd = s.host.cmd := rfl
@[simp] theorem goTo_host_step (k : MicroStep) (s : State) : (goTo k s).host.step = k := rfl
@[simp] theorem goTo_host_polls (k : MicroStep) (s : State) : (goTo k s).host.polls = s.host.polls := rfl
@[simp] theorem goTo_host_result (k : MicroStep) (s : State) : (goTo k s).host.result = s.host.result := rfl
@[simp] theorem goTo_host_out (k : MicroStep) (s : State) : (goTo k s).host.out = s.host.out := rfl
@[simp] theorem goTo_marks (k : MicroStep) (s : State) : (goTo k s).marks = s.marks := rfl
@[simp] theorem goTo_client (k : MicroStep) (s : State) : (goTo k s).client = s.client := rfl
@[simp] theorem goTo_port (k : MicroStep) (s : State) : (goTo k s).port = s.port := rfl

@[simp] theorem arm_ctx_state (pa : Byte) (mLen : Half) (sendStop : Bool) (s : State) : (arm pa mLen sendStop s).ctx.state = s.ctx.state := rfl
@[simp] theorem arm_ctx_err (pa : Byte) (mLen : Half) (sendStop : Bool) (s : State) : (arm pa mLen sendStop s).ctx.err = .none := rfl
@[simp] theorem arm_ctx_rsf (pa : Byte) (mLen : Half) (sendStop : Bool) (s : State) : (arm pa mLen sendStop s).ctx.rsf = s.ctx.rsf := rfl
@[simp] theorem arm_ctx_pa (pa : Byte) (mLen : Half) (sendStop : Bool) (s : State) : (arm pa mLen sendStop s).ctx.pa = pa := rfl
@[simp] theorem arm_ctx_sendStop (pa : Byte) (mLen : Half) (sendStop : Bool) (s : State) : (arm pa mLen sendStop s).ctx.sendStop = sendStop := rfl
@[simp] theorem arm_ctx_mLen (pa : Byte) (mLen : Half) (sendStop : Bool) (s : State) : (arm pa mLen sendStop s).ctx.mLen = mLen := rfl
@[simp] theorem arm_ctx_mCur (pa : Byte) (mLen : Half) (sendStop : Bool) (s : State) : (arm pa mLen sendStop s).ctx.mCur = 0 := rfl
@[simp] theorem arm_ctx_nackp (pa : Byte) (mLen : Half) (sendStop : Bool) (s : State) : (arm pa mLen sendStop s).ctx.nackp = false := rfl
@[simp] theorem arm_ctx_mFinal (pa : Byte) (mLen : Half) (sendStop : Bool) (s : State) : (arm pa mLen sendStop s).ctx.mFinal = false := rfl
@[simp] theorem arm_ctx_txLen (pa : Byte) (mLen : Half) (sendStop : Bool) (s : State) : (arm pa mLen sendStop s).ctx.txLen = s.ctx.txLen := rfl
@[simp] theorem arm_ctx_txCur (pa : Byte) (mLen : Half) (sendStop : Bool) (s : State) : (arm pa mLen sendStop s).ctx.txCur = s.ctx.txCur := rfl
@[simp] theorem arm_ctx_rxCur (pa : Byte) (mLen : Half) (sendStop : Bool) (s : State) : (arm pa mLen sendStop s).ctx.rxCur = s.ctx.rxCur := rfl
@[simp] theorem arm_ctx_cb (pa : Byte) (mLen : Half) (sendStop : Bool) (s : State) : (arm pa mLen sendStop s).ctx.cb = s.ctx.cb := rfl
@[simp] theorem arm_ctx_inited (pa : Byte) (mLen : Half) (sendStop : Bool) (s : State) : (arm pa mLen sendStop s).ctx.inited = s.ctx.inited := rfl
@[simp] theorem arm_eng (pa : Byte) (mLen : Half) (sendStop : Bool) (s : State) : (arm pa mLen sendStop s).eng = s.eng := rfl
@[simp] theorem arm_buf (pa : Byte) (mLen : Half) (sendStop : Bool) (s : State) : (arm pa mLen sendStop s).buf = s.buf := rfl
@[simp] theorem arm_log (pa : Byte) (mLen : Half) (sendStop : Bool) (s : State) : (arm pa mLen sendStop s).log = s.log := rfl
@[simp] theorem arm_host (pa : Byte) (mLen : Half) (sendStop : Bool) (s : State) : (arm pa mLen sendStop s).host = s.host := rfl
@[simp] theorem arm_marks (pa : Byte) (mLen : Half) (sendStop : Bool) (s : State) : (arm pa mLen sendStop s).marks = s.marks := rfl
@[simp] theorem arm_client (pa : Byte) (mLen : Half) (sendStop : Bool) (s : State) : (arm pa mLen sendStop s).client = s.client := rfl
@[simp] theorem arm_port (pa : Byte) (mLen : Half) (sendStop : Bool) (s : State) : (arm pa mLen sendStop s).port = s.port := rfl

@[simp] theorem latch_ctx (r : Config.Request) (s : State) : (latch r s).ctx = s.ctx := rfl
@[simp] theorem latch_eng (r : Config.Request) (s : State) : (latch r s).eng = s.eng := rfl
@[simp] theorem latch_buf (r : Config.Request) (s : State) : (latch r s).buf = s.buf := rfl
@[simp] theorem latch_log (r : Config.Request) (s : State) : (latch r s).log = s.log := rfl
@[simp] theorem latch_host_cmd (r : Config.Request) (s : State) : (latch r s).host.cmd = some r := rfl
@[simp] theorem latch_host_step (r : Config.Request) (s : State) : (latch r s).host.step = .m1 := rfl
@[simp] theorem latch_host_polls (r : Config.Request) (s : State) : (latch r s).host.polls = s.host.polls := rfl
@[simp] theorem latch_host_result (r : Config.Request) (s : State) : (latch r s).host.result = none := rfl
@[simp] theorem latch_host_out (r : Config.Request) (s : State) : (latch r s).host.out = latchedOut r s := rfl
@[simp] theorem latch_marks (r : Config.Request) (s : State) : (latch r s).marks = s.marks := rfl
@[simp] theorem latch_client (r : Config.Request) (s : State) : (latch r s).client = s.client := rfl
@[simp] theorem latch_port (r : Config.Request) (s : State) : (latch r s).port = s.port := rfl

@[simp] theorem withReply_ctx (v : BitVec 32) (s : State) : (withReply v s).ctx = s.ctx := rfl
@[simp] theorem withReply_eng (v : BitVec 32) (s : State) : (withReply v s).eng = s.eng := rfl
@[simp] theorem withReply_buf (v : BitVec 32) (s : State) : (withReply v s).buf = s.buf := rfl
@[simp] theorem withReply_log (v : BitVec 32) (s : State) : (withReply v s).log = s.log := rfl
@[simp] theorem withReply_host (v : BitVec 32) (s : State) : (withReply v s).host = s.host := rfl
@[simp] theorem withReply_marks (v : BitVec 32) (s : State) : (withReply v s).marks = s.marks := rfl
@[simp] theorem withReply_client (v : BitVec 32) (s : State) : (withReply v s).client = s.client := rfl
@[simp] theorem withReply_port_moves (v : BitVec 32) (s : State) : (withReply v s).port.moves = s.port.moves := rfl
@[simp] theorem withReply_port_freeCount (v : BitVec 32) (s : State) : (withReply v s).port.freeCount = s.port.freeCount := rfl
@[simp] theorem withReply_port_bus (v : BitVec 32) (s : State) : (withReply v s).port.bus = s.port.bus := rfl
@[simp] theorem withReply_port_issuer (v : BitVec 32) (s : State) : (withReply v s).port.issuer = s.port.issuer := rfl
@[simp] theorem withReply_port_reply (v : BitVec 32) (s : State) : (withReply v s).port.reply = v := rfl

@[simp] theorem slaveMatchRx_ctx_state (s : State) : (slaveMatchRx s).ctx.state = .slaveReceiving := rfl
@[simp] theorem slaveMatchRx_ctx_err (s : State) : (slaveMatchRx s).ctx.err = s.ctx.err := rfl
@[simp] theorem slaveMatchRx_ctx_rsf (s : State) : (slaveMatchRx s).ctx.rsf = s.ctx.rsf := rfl
@[simp] theorem slaveMatchRx_ctx_pa (s : State) : (slaveMatchRx s).ctx.pa = s.ctx.pa := rfl
@[simp] theorem slaveMatchRx_ctx_sendStop (s : State) : (slaveMatchRx s).ctx.sendStop = s.ctx.sendStop := rfl
@[simp] theorem slaveMatchRx_ctx_mLen (s : State) : (slaveMatchRx s).ctx.mLen = s.ctx.mLen := rfl
@[simp] theorem slaveMatchRx_ctx_mCur (s : State) : (slaveMatchRx s).ctx.mCur = s.ctx.mCur := rfl
@[simp] theorem slaveMatchRx_ctx_nackp (s : State) : (slaveMatchRx s).ctx.nackp = s.ctx.nackp := rfl
@[simp] theorem slaveMatchRx_ctx_mFinal (s : State) : (slaveMatchRx s).ctx.mFinal = s.ctx.mFinal := rfl
@[simp] theorem slaveMatchRx_ctx_txLen (s : State) : (slaveMatchRx s).ctx.txLen = s.ctx.txLen := rfl
@[simp] theorem slaveMatchRx_ctx_txCur (s : State) : (slaveMatchRx s).ctx.txCur = s.ctx.txCur := rfl
@[simp] theorem slaveMatchRx_ctx_rxCur (s : State) : (slaveMatchRx s).ctx.rxCur = 0 := rfl
@[simp] theorem slaveMatchRx_ctx_cb (s : State) : (slaveMatchRx s).ctx.cb = s.ctx.cb := rfl
@[simp] theorem slaveMatchRx_ctx_inited (s : State) : (slaveMatchRx s).ctx.inited = s.ctx.inited := rfl
@[simp] theorem slaveMatchRx_eng (s : State) : (slaveMatchRx s).eng = s.eng := rfl
@[simp] theorem slaveMatchRx_buf (s : State) : (slaveMatchRx s).buf = s.buf := rfl
@[simp] theorem slaveMatchRx_log (s : State) : (slaveMatchRx s).log = s.log := rfl
@[simp] theorem slaveMatchRx_host (s : State) : (slaveMatchRx s).host = s.host := rfl
@[simp] theorem slaveMatchRx_marks (s : State) : (slaveMatchRx s).marks = s.marks := rfl
@[simp] theorem slaveMatchRx_client (s : State) : (slaveMatchRx s).client = s.client := rfl
@[simp] theorem slaveMatchRx_port (s : State) : (slaveMatchRx s).port = s.port := rfl

@[simp] theorem markFault_ctx (r : Fault) (s : State) : (markFault r s).ctx = s.ctx := rfl
@[simp] theorem markFault_eng (r : Fault) (s : State) : (markFault r s).eng = s.eng := rfl
@[simp] theorem markFault_buf (r : Fault) (s : State) : (markFault r s).buf = s.buf := rfl
@[simp] theorem markFault_log (r : Fault) (s : State) : (markFault r s).log = s.log := rfl
@[simp] theorem markFault_host (r : Fault) (s : State) : (markFault r s).host = s.host := rfl
@[simp] theorem markFault_marks_faults (r : Fault) (s : State) : (markFault r s).marks.faults = s.marks.faults ++ [r] := rfl
@[simp] theorem markFault_marks_refusals (r : Fault) (s : State) : (markFault r s).marks.refusals = s.marks.refusals := rfl
@[simp] theorem markFault_client (r : Fault) (s : State) : (markFault r s).client = s.client := rfl
@[simp] theorem markFault_port (r : Fault) (s : State) : (markFault r s).port = s.port := rfl

@[simp] theorem markRefusal_ctx (r : Refusal) (s : State) : (markRefusal r s).ctx = s.ctx := rfl
@[simp] theorem markRefusal_eng (r : Refusal) (s : State) : (markRefusal r s).eng = s.eng := rfl
@[simp] theorem markRefusal_buf (r : Refusal) (s : State) : (markRefusal r s).buf = s.buf := rfl
@[simp] theorem markRefusal_log (r : Refusal) (s : State) : (markRefusal r s).log = s.log := rfl
@[simp] theorem markRefusal_host (r : Refusal) (s : State) : (markRefusal r s).host = s.host := rfl
@[simp] theorem markRefusal_marks_faults (r : Refusal) (s : State) : (markRefusal r s).marks.faults = s.marks.faults := rfl
@[simp] theorem markRefusal_marks_refusals (r : Refusal) (s : State) : (markRefusal r s).marks.refusals = s.marks.refusals ++ [r] := rfl
@[simp] theorem markRefusal_client (r : Refusal) (s : State) : (markRefusal r s).client = s.client := rfl
@[simp] theorem markRefusal_port (r : Refusal) (s : State) : (markRefusal r s).port = s.port := rfl

@[simp] theorem toOutcome_ok (s : State) : toOutcome (.ok s) = .next s := rfl
@[simp] theorem toOutcome_fault (r : Fault) : toOutcome (.error (.fault r)) = .fault r := rfl
@[simp] theorem toOutcome_refuse (r : Refusal) : toOutcome (.error (.refuse r)) = .refused r := rfl

/-- A next state comes from a result. -/
theorem toOutcome_next {r : Res State} {t : State} (h : toOutcome r = .next t) : r = .ok t := by
  cases r with
  | ok s => simpa using h
  | error e => cases e <;> simp at h

/-- A fault comes from a fault. -/
theorem toOutcome_eq_fault {r : Res State} {f : Fault} (h : toOutcome r = .fault f) : r = .error (.fault f) := by
  cases r with
  | ok s => simp at h
  | error e => cases e <;> simp_all

/-- A refusal comes from a refusal. -/
theorem toOutcome_eq_refused {r : Res State} {f : Refusal} (h : toOutcome r = .refused f) :
    r = .error (.refuse f) := by
  cases r with
  | ok s => simp at h
  | error e => cases e <;> simp_all

end Sys2Proof.Machine
end

