-- ==== Sys2Proof/Laws/Ops.lean ====
section
/-! SUPPORT. One lemma per shared operation that says everything it can do. -/

namespace Sys2Proof.Machine

@[simp] theorem andThen_ok {α β : Type} (a : α) (f : α → Res β) : andThen (.ok a) f = f a := rfl
@[simp] theorem andThen_error {α β : Type} (h : Halt) (f : α → Res β) : andThen (.error h) f = .error h := rfl

/-- A sequence answers a result only through a result of its first part. -/
theorem andThen_eq_ok {α β : Type} {r : Res α} {f : α → Res β} {b : β} (h : andThen r f = .ok b) :
    ∃ a, r = .ok a ∧ f a = .ok b := by
  cases r with
  | ok a => exact ⟨a, rfl, h⟩
  | error e => simp at h

/-- A sequence stops in its first part or in its second. -/
theorem andThen_eq_error {α β : Type} {r : Res α} {f : α → Res β} {e : Halt} (h : andThen r f = .error e) :
    r = .error e ∨ ∃ a, r = .ok a ∧ f a = .error e := by
  cases r with
  | ok a => exact .inr ⟨a, rfl, h⟩
  | error d => exact .inl (by simpa using h)

/-- A buffer read answers the byte of a written cell below BUF_CAP, and nothing else. -/
theorem memRead_eq_ok {p : Config.Params} {n : BufName} {i : Nat} {s : State} {b : Byte} :
    memRead p n i s = .ok b ↔ i < p.bufCap ∧ s.cell n i = some b := by
  unfold memRead
  split
  · rename_i h
    cases hc : s.cell n i <;> simp [h]
  · rename_i h
    simp [h]

/-- A buffer read stops at BUF_CAP or at an unwritten cell. -/
theorem memRead_eq_error {p : Config.Params} {n : BufName} {i : Nat} {s : State} {e : Halt}
    (h : memRead p n i s = .error e) :
    (p.bufCap ≤ i ∧ e = .refuse .bufferBound) ∨ (s.cell n i = none ∧ e = .fault .unwrittenBuffer) := by
  unfold memRead at h
  split at h
  · right
    cases hc : s.cell n i with
    | none => rw [hc] at h; simp at h; exact ⟨rfl, h.symm⟩
    | some b => rw [hc] at h; simp at h
  · left
    rename_i hi
    simp at h
    exact ⟨by omega, h.symm⟩

/-- A buffer write answers exactly below BUF_CAP, and what it answers. -/
theorem memWrite_eq_ok {p : Config.Params} {n : BufName} {i : Nat} {v : Byte} {s t : State} :
    memWrite p n i v s = .ok t ↔
      i < p.bufCap ∧ t = { s with buf := s.buf.put n ((s.buf.get n).write i v) } := by
  unfold memWrite
  split
  · rename_i h
    simp [h, eq_comm]
  · rename_i h
    simp [h]

/-- A buffer write stops only at BUF_CAP. -/
theorem memWrite_eq_error {p : Config.Params} {n : BufName} {i : Nat} {v : Byte} {s : State} {e : Halt}
    (h : memWrite p n i v s = .error e) : p.bufCap ≤ i ∧ e = .refuse .bufferBound := by
  unfold memWrite at h
  split at h
  · simp at h
  · rename_i hi
    simp at h
    exact ⟨by omega, h.symm⟩

/-- One cell after a buffer write. -/
theorem cell_put_write (s : State) (n k : BufName) (i j : Nat) (v : Byte) :
    State.cell { s with buf := s.buf.put n ((s.buf.get n).write i v) } k j =
      if k = n ∧ j = i then some v else s.cell k j := by
  unfold State.cell
  by_cases hk : k = n
  · subst hk
    simp [Memory.read_write]
  · simp [hk, Buffers.get_put_other _ _ hk]

/-- Writing a byte list: it fits below BUF_CAP, only that buffer changes, cell by cell, and the form is kept. -/
theorem memWriteSeq_eq_ok {p : Config.Params} {n : BufName} {vs : List Byte} {i : Nat} {s t : State}
    (h : memWriteSeq p n i vs s = .ok t) :
    (vs = [] ∨ i + vs.length ≤ p.bufCap) ∧ t = { s with buf := t.buf }
      ∧ (∀ k, (s.buf.get k).wf → (t.buf.get k).wf)
      ∧ ∀ k j, t.cell k j = if k = n ∧ i ≤ j ∧ j < i + vs.length then vs[j - i]? else s.cell k j := by
  induction vs generalizing i s with
  | nil =>
    simp only [memWriteSeq, Except.ok.injEq] at h
    subst h
    exact ⟨.inl rfl, rfl, fun _ hk => hk, fun k j => by simp⟩
  | cons v vs ih =>
    obtain ⟨u, hu, hrest⟩ := andThen_eq_ok h
    obtain ⟨hi, rfl⟩ := memWrite_eq_ok.1 hu
    obtain ⟨hfit, hframe, hwf, hcell⟩ := ih hrest
    refine ⟨.inr ?_, ?_, fun k hk => hwf k ?_, fun k j => ?_⟩
    · rcases hfit with rfl | hfit
      · simp; omega
      · simp at hfit ⊢; omega
    · rw [hframe]
    · by_cases hkn : k = n
      · subst hkn; simpa using Memory.wf_write hk i v
      · simpa [Buffers.get_put_other _ _ hkn] using hk
    · rw [hcell, cell_put_write]
      by_cases hkn : k = n
      · by_cases hj : j = i
        · subst hj
          simp [hkn]
        · by_cases hin : i ≤ j ∧ j < i + (vs.length + 1)
          · obtain ⟨d, rfl⟩ : ∃ d, j = i + (d + 1) := ⟨j - i - 1, by omega⟩
            have h1 : i + 1 ≤ i + (d + 1) ∧ i + (d + 1) < i + 1 + vs.length := by omega
            have h2 : i + (d + 1) - (i + 1) = d := by omega
            have h3 : i + (d + 1) - i = d + 1 := by omega
            simp [hkn, h1, h2, h3, hin.2]
          · have h1 : ¬ (i + 1 ≤ j ∧ j < i + 1 + vs.length) := by omega
            rw [if_neg (fun h => h1 h.2), if_neg (fun h => hj h.2), if_neg (fun h => hin h.2)]
      · simp [hkn]

/-- Writing a byte list that fits succeeds. -/
theorem memWriteSeq_fits {p : Config.Params} {n : BufName} {vs : List Byte} {i : Nat} {s : State}
    (h : i + vs.length ≤ p.bufCap) : ∃ t, memWriteSeq p n i vs s = .ok t := by
  induction vs generalizing i s with
  | nil => exact ⟨s, rfl⟩
  | cons v vs ih =>
    simp only [List.length_cons] at h
    rw [memWriteSeq, memWrite_eq_ok.2 ⟨by omega, rfl⟩, andThen_ok]
    exact ih (by omega)

/-- Writing a byte list stops only at BUF_CAP. -/
theorem memWriteSeq_eq_error {p : Config.Params} {n : BufName} {vs : List Byte} {i : Nat} {s : State} {e : Halt}
    (h : memWriteSeq p n i vs s = .error e) : p.bufCap < i + vs.length ∧ e = .refuse .bufferBound := by
  induction vs generalizing i s with
  | nil => simp [memWriteSeq] at h
  | cons v vs ih =>
    rcases andThen_eq_error h with h | ⟨u, _, h⟩
    · obtain ⟨hi, he⟩ := memWrite_eq_error h
      exact ⟨by simp; omega, he⟩
    · obtain ⟨hi, he⟩ := ih h
      exact ⟨by simp; omega, he⟩

/-- Reading a run of cells: below BUF_CAP, as many bytes as asked for, each the cell's. -/
theorem memReadSeq_eq_ok {p : Config.Params} {n : BufName} {k i : Nat} {s : State} {bs : List Byte}
    (h : memReadSeq p n i k s = .ok bs) :
    (k = 0 ∨ i + k ≤ p.bufCap) ∧ bs.length = k ∧ ∀ j, j < k → s.cell n (i + j) = bs[j]? := by
  induction k generalizing i bs with
  | zero =>
    simp only [memReadSeq, Except.ok.injEq] at h
    subst h
    simp
  | succ k ih =>
    obtain ⟨b, hb, h⟩ := andThen_eq_ok h
    obtain ⟨cs, hcs, h⟩ := andThen_eq_ok h
    obtain rfl : b :: cs = bs := by simpa using h
    obtain ⟨hi, hcell⟩ := memRead_eq_ok.1 hb
    obtain ⟨hfit, hlen, hrest⟩ := ih hcs
    refine ⟨.inr (by rcases hfit with rfl | hfit <;> omega), by simp [hlen], fun j hj => ?_⟩
    cases j with
    | zero => simpa using hcell
    | succ j =>
      have := hrest j (by omega)
      rw [show i + (j + 1) = i + 1 + j by omega, this]
      simp

/-- Reading a run of written cells below BUF_CAP succeeds. -/
theorem memReadSeq_written {p : Config.Params} {n : BufName} {k i : Nat} {s : State} (hfit : i + k ≤ p.bufCap)
    (hw : ∀ j, i ≤ j → j < i + k → (s.cell n j).isSome = true) : ∃ bs, memReadSeq p n i k s = .ok bs := by
  induction k generalizing i with
  | zero => exact ⟨[], rfl⟩
  | succ k ih =>
    obtain ⟨b, hb⟩ := Option.isSome_iff_exists.1 (hw i (Nat.le_refl i) (by omega))
    obtain ⟨bs, hbs⟩ := ih (i := i + 1) (by omega) fun j h1 h2 => hw j (by omega) (by omega)
    exact ⟨b :: bs, by rw [memReadSeq, memRead_eq_ok.2 ⟨by omega, hb⟩, andThen_ok, hbs, andThen_ok]⟩

/-- A rule that depends on STATE faults BadState on an unused value and runs on any other. -/
theorem withState_eq {α : Type} (s : State) (f : ControllerState → Res α) :
    (∃ v, s.ctx.state = .unused v ∧ withState s f = .error (.fault .badState))
      ∨ ((∀ v, s.ctx.state ≠ .unused v) ∧ withState s f = f s.ctx.state) := by
  unfold withState
  cases h : s.ctx.state <;> simp

theorem enterHandler_ctx (s : State) : (enterHandler s).ctx = s.ctx := rfl
theorem enterHandler_buf (s : State) : (enterHandler s).buf = s.buf := rfl
theorem enterHandler_host (s : State) : (enterHandler s).host = s.host := rfl

/-- The snapshot is the live event word at the invocation's start. -/
@[simp] theorem entrySnapshot_eq (s : State) : entrySnapshot s = s.eng.ev := rfl

end Sys2Proof.Machine
end

