-- ==== Sys2Proof/Laws/Engine.lean ====
section
/-! SUPPORT. What the engine primitives and the engine steps keep: the reserved bits, and PHASE = OFF exactly while
PE = 0; and what an engine step is on the block. -/

namespace Sys2Proof.Machine

/-! ### The bits a step leaves -/

theorem EvKeptBut.refl (fs : List Flag) (e : Engine) : EvKeptBut fs e e := fun _ _ => rfl

/-- The claim depends on the two event words only. -/
theorem EvKeptBut.of_ev {fs : List Flag} {e d c : Engine} (h : EvKeptBut fs e d) (hc : c.ev = d.ev) :
    EvKeptBut fs e c := fun k hk => by rw [hc]; exact h k hk

/-- Writing a listed flag leaves the other bits. -/
theorem EvKeptBut.setFlag {fs : List Flag} {e d : Engine} (h : EvKeptBut fs e d) {f : Flag} (hf : f ∈ fs) (b : Bool) :
    EvKeptBut fs e (d.setFlag f b) := by
  intro k hk
  simp only [Engine.setFlag]
  rw [getLsbD_putBit _ _ _ _ f.idx_lt, if_neg (fun h => hk f hf h.symm)]
  exact h k hk

/-- Clearing listed flags leaves the other bits. -/
theorem EvKeptBut.clearFlags {fs gs : List Flag} {e d : Engine} (h : EvKeptBut fs e d) (hg : ∀ f ∈ gs, f ∈ fs) :
    EvKeptBut fs e (d.clearFlags gs) := by
  induction gs generalizing d with
  | nil => exact h
  | cons g gs ih =>
    exact ih (h.setFlag (hg g List.mem_cons_self) false) fun f hf => hg f (List.mem_cons_of_mem _ hf)

theorem Ctrl1KeptBut.refl (bits : List Nat) (e : Engine) : Ctrl1KeptBut bits e e := fun _ _ => rfl

/-- Writing a listed bit of CTRL1 leaves the others. -/
theorem Ctrl1KeptBut.putBit {bits : List Nat} {e d c : Engine} (h : Ctrl1KeptBut bits e d) {i : Nat} {b : Bool}
    (hi : i ∈ bits) (hw : i < 16) (hc : c.ctrl1 = Machine.putBit d.ctrl1 i b) : Ctrl1KeptBut bits e c := by
  intro k hk
  rw [hc, getLsbD_putBit _ _ _ _ hw, if_neg (by rintro rfl; exact hk hi)]
  exact h k hk

/-- SET_NOTIFY writes the three enables and no other bit of CTRL2 (42_primitives R239). -/
theorem setNotify_bits (e : Engine) (m : BitVec 3) :
    (e.setNotify m).itEvtEn = m.getLsbD 0 ∧ (e.setNotify m).itBufEn = m.getLsbD 1
      ∧ (e.setNotify m).itErrEn = m.getLsbD 2 ∧ Ctrl2KeptButEnables e (e.setNotify m) := by
  refine ⟨?_, ?_, ?_, fun k hk => ?_⟩
  · simp only [Engine.itEvtEn, Engine.setNotify]
    rw [getLsbD_putBit _ _ _ _ (by decide), getLsbD_putBit _ _ _ _ (by decide), getLsbD_putBit _ _ _ _ (by decide)]
    simp
  · simp only [Engine.itBufEn, Engine.setNotify]
    rw [getLsbD_putBit _ _ _ _ (by decide), getLsbD_putBit _ _ _ _ (by decide)]
    simp
  · simp only [Engine.itErrEn, Engine.setNotify]
    rw [getLsbD_putBit _ _ _ _ (by decide)]
    simp
  · simp only [List.mem_cons, List.not_mem_nil, or_false, not_or] at hk
    simp only [Engine.setNotify]
    rw [getLsbD_putBit _ _ _ _ (by decide), getLsbD_putBit _ _ _ _ (by decide), getLsbD_putBit _ _ _ _ (by decide),
      if_neg hk.1, if_neg hk.2.2, if_neg hk.2.1]

/-! ### The primitives, case by case -/

theorem sendByte_disabled {e : Engine} (h : e.pe = false) (b : Byte) : e.sendByte b = e := by
  simp [Engine.sendByte, h]

theorem sendByte_address {e : Engine} (h : e.pe = true) (hp : e.phase = .mSb) (b : Byte) :
    e.sendByte b = { e.setFlag .sb false with data := b, phase := .mAddr } := by
  simp [Engine.sendByte, h, hp]

theorem sendByte_transmit {e : Engine} (h : e.pe = true) (hp : e.phase = .mTx ∨ e.phase = .sTx) (b : Byte) :
    e.sendByte b = { e.clearFlags [.txe, .btf] with data := b } := by
  rcases hp with hp | hp <;> simp [Engine.sendByte, h, hp]

theorem sendByte_other {e : Engine} (h : e.pe = true) (h1 : e.phase ≠ .mSb) (h2 : ¬ (e.phase = .mTx ∨ e.phase = .sTx))
    (b : Byte) : e.sendByte b = { e with data := b } := by
  unfold Engine.sendByte
  rw [if_pos h]
  split <;> first | rfl | simp_all

theorem genStop_release {e : Engine} (h : e.pe = true) (hm : e.flag .msl = false)
    (hp : e.phase = .sTx ∨ e.phase = .sRx ∨ e.phase = .sHold ∨ e.phase = .sAwait) :
    e.genStop = { e.clearFlags [.tra, .txe, .btf] with phase := .idle } := by
  rcases hp with hp | hp | hp | hp <;> simp [Engine.genStop, h, hm, hp]

theorem genStop_other {e : Engine} (h : e.pe = true) (hm : e.flag .msl = false)
    (hp : ¬ (e.phase = .sTx ∨ e.phase = .sRx ∨ e.phase = .sHold ∨ e.phase = .sAwait)) : e.genStop = e := by
  unfold Engine.genStop
  rw [if_pos h, hm]
  simp only [Bool.false_eq_true, if_false]
  split <;> first | rfl | simp_all

/-! ### Reserved bits -/

/-- The claim depends on the four registers only. -/
theorem ReservedBitsZero.congr {e d : Engine} (h : ReservedBitsZero e) (h1 : d.ev = e.ev) (h2 : d.ctrl1 = e.ctrl1)
    (h3 : d.ctrl2 = e.ctrl2) (h4 : d.oaddr = e.oaddr) : ReservedBitsZero d := by
  unfold ReservedBitsZero at *
  rw [h1, h2, h3, h4]
  exact h

theorem ReservedBitsZero.setFlag {e : Engine} (h : ReservedBitsZero e) (f : Flag) (b : Bool) :
    ReservedBitsZero (e.setFlag f b) :=
  ⟨putBit_reserved _ _ _ _ f.idx_defined h.1, h.2.1, h.2.2.1, h.2.2.2⟩

theorem ReservedBitsZero.clearFlags {e : Engine} (h : ReservedBitsZero e) (fs : List Flag) :
    ReservedBitsZero (e.clearFlags fs) := by
  induction fs generalizing e with
  | nil => exact h
  | cons f fs ih => exact ih (h.setFlag f false)

theorem ReservedBitsZero.setPe {e : Engine} (h : ReservedBitsZero e) (b : Bool) : ReservedBitsZero (e.setPe b) :=
  ⟨h.1, putBit_reserved _ _ _ _ (by decide) h.2.1, h.2.2.1, h.2.2.2⟩

theorem ReservedBitsZero.setStartReq {e : Engine} (h : ReservedBitsZero e) (b : Bool) :
    ReservedBitsZero (e.setStartReq b) :=
  ⟨h.1, putBit_reserved _ _ _ _ (by decide) h.2.1, h.2.2.1, h.2.2.2⟩

theorem ReservedBitsZero.setStopReq {e : Engine} (h : ReservedBitsZero e) (b : Bool) :
    ReservedBitsZero (e.setStopReq b) :=
  ⟨h.1, putBit_reserved _ _ _ _ (by decide) h.2.1, h.2.2.1, h.2.2.2⟩

theorem ReservedBitsZero.setAckOn {e : Engine} (h : ReservedBitsZero e) (b : Bool) :
    ReservedBitsZero (e.setAckOn b) :=
  ⟨h.1, putBit_reserved _ _ _ _ (by decide) h.2.1, h.2.2.1, h.2.2.2⟩

theorem sendByte_reserved {e : Engine} (h : ReservedBitsZero e) (b : Byte) : ReservedBitsZero (e.sendByte b) := by
  unfold Engine.sendByte
  split
  · split
    · exact (h.setFlag .sb false).congr rfl rfl rfl rfl
    · exact (h.clearFlags [.txe, .btf]).congr rfl rfl rfl rfl
    · exact (h.clearFlags [.txe, .btf]).congr rfl rfl rfl rfl
    all_goals exact h.congr rfl rfl rfl rfl
  · exact h

theorem recvByte_reserved {e : Engine} (h : ReservedBitsZero e) : ReservedBitsZero e.recvByte := by
  unfold Engine.recvByte
  split
  · split
    · exact (h.setFlag .btf false).congr rfl rfl rfl rfl
    all_goals exact h.setFlag .rxne false
  · exact h

theorem genStart_reserved {e : Engine} (h : ReservedBitsZero e) : ReservedBitsZero e.genStart := by
  unfold Engine.genStart
  split
  · exact h.setStartReq true
  · exact h

theorem genStop_reserved {e : Engine} (h : ReservedBitsZero e) : ReservedBitsZero e.genStop := by
  unfold Engine.genStop
  split
  · split
    · exact h.setStopReq true
    · split
      all_goals first | exact h | exact (h.clearFlags [.tra, .txe, .btf]).congr rfl rfl rfl rfl
  · exact h

theorem setAck_reserved {e : Engine} (h : ReservedBitsZero e) (b : Bool) : ReservedBitsZero (e.setAck b) :=
  h.setAckOn b

theorem clearFlag_reserved {e : Engine} (h : ReservedBitsZero e) (k : BitVec 8) :
    ReservedBitsZero (e.clearFlag k) := by
  refine ⟨?_, h.2.1, h.2.2.1, h.2.2.2⟩
  have h1 := (and_not_eq_zero_iff _ _).1 h.1
  refine (and_not_eq_zero_iff _ _).2 fun j hj => h1 j ?_
  simp only [Engine.clearFlag, putBit] at hj
  simp only [Bool.false_eq_true, if_false, BitVec.getLsbD_and, Bool.and_eq_true] at hj
  exact hj.1

theorem setNotify_reserved {e : Engine} (h : ReservedBitsZero e) (m : BitVec 3) :
    ReservedBitsZero (e.setNotify m) :=
  ⟨h.1, h.2.1,
    putBit_reserved _ _ _ _ (by decide)
      (putBit_reserved _ _ _ _ (by decide) (putBit_reserved _ _ _ _ (by decide) h.2.2.1)),
    h.2.2.2⟩

theorem readEvent_reserved {e : Engine} (h : ReservedBitsZero e) : ReservedBitsZero e.readEvent :=
  h.clearFlags _

theorem setOwnAddr_reserved {e : Engine} (h : ReservedBitsZero e) (a : Addr7) :
    ReservedBitsZero (e.setOwnAddr a) := by
  refine ⟨h.1, h.2.1, h.2.2.1, (and_not_eq_zero_iff _ _).2 fun j hj => ?_⟩
  have hj7 : j < 7 := by
    by_contra hge
    simp [Engine.setOwnAddr, BitVec.getLsbD_of_ge a j (by omega)] at hj
  have : ∀ k : Fin 7, oaddrDefinedMask.getLsbD k.val = true := by decide
  exact this ⟨j, hj7⟩

theorem setEnable_reserved {e : Engine} (h : ReservedBitsZero e) (b : Bool) :
    ReservedBitsZero (e.setEnable b) := by
  unfold Engine.setEnable
  split
  · split
    · exact h
    · exact ((h.setPe true).setFlag .busy false).congr rfl rfl rfl rfl
  · exact ⟨by simp, by simp, h.2.2.1, h.2.2.2⟩

/-- Every engine step keeps the reserved bits zero. -/
theorem engineStep_reserved {p : Config.Params} {m : Config.EngineMove} {e : Engine} {r : EngineStep}
    (hr : engineStep p m e = some r) (h : ReservedBitsZero e) : ReservedBitsZero r.1 := by
  unfold engineStep at hr
  split at hr
  case isFalse => simp at hr
  cases m with
  | start =>
    simp only [stepStart, Option.ite_none_right_eq_some, Option.some.injEq] at hr
    obtain ⟨-, rfl⟩ := hr
    exact (((((h.setStartReq false).setFlag .sb true).setFlag .msl true).setFlag .busy true).clearFlags _).congr
      rfl rfl rfl rfl
  | address nack =>
    simp only [stepAddress, Option.ite_none_right_eq_some, Option.some.injEq] at hr
    obtain ⟨-, rfl⟩ := hr
    dsimp only
    split
    · exact ((h.setFlag .af true).setFlag .tra _).congr rfl rfl rfl rfl
    · split
      · exact ((h.setFlag .addr true).setFlag .tra false).congr rfl rfl rfl rfl
      · exact (((h.setFlag .addr true).setFlag .tra true).setFlag .txe true).congr rfl rfl rfl rfl
  | load =>
    simp only [stepLoad, Option.ite_none_right_eq_some, Option.some.injEq] at hr
    obtain ⟨-, rfl⟩ := hr
    exact ((h.setFlag .txe true).setFlag .btf false).congr rfl rfl rfl rfl
  | masterByteEnd nack =>
    simp only [stepMasterByteEnd, Option.ite_none_right_eq_some, Option.some.injEq] at hr
    obtain ⟨-, rfl⟩ := hr
    have h1 : ReservedBitsZero { e with shState := .empty } := h.congr rfl rfl rfl rfl
    dsimp only
    split
    · exact ((h1.setFlag .af true).clearFlags [.txe, .btf]).congr rfl rfl rfl rfl
    · split
      · exact h1.setFlag .btf true
      · exact h1
  | loseArbitration =>
    simp only [stepLoseArbitration, Option.ite_none_right_eq_some, Option.some.injEq] at hr
    obtain ⟨-, rfl⟩ := hr
    exact ((((h.setFlag .arlo true).clearFlags _).setStartReq false).setStopReq false).congr rfl rfl rfl rfl
  | receive b =>
    simp only [stepReceive, Option.ite_none_right_eq_some, Option.some.injEq] at hr
    obtain ⟨-, rfl⟩ := hr
    have h1 : ReservedBitsZero (if e.flag .rxne then { e.setFlag .btf true with shift := b, shState := .full }
        else { e.setFlag .rxne true with data := b }) := by
      split
      · exact (h.setFlag .btf true).congr rfl rfl rfl rfl
      · exact (h.setFlag .rxne true).congr rfl rfl rfl rfl
    dsimp only
    split
    · exact h1.congr rfl rfl rfl rfl
    · exact h1
  | stop =>
    simp only [stepStop, Option.ite_none_right_eq_some, Option.some.injEq] at hr
    obtain ⟨-, rfl⟩ := hr
    exact ((h.setStopReq false).clearFlags _).congr rfl rfl rfl rfl
  | remoteStart =>
    simp only [stepRemoteStart, Option.ite_none_right_eq_some, Option.some.injEq] at hr
    obtain ⟨-, rfl⟩ := hr
    exact (h.setFlag .busy true).congr rfl rfl rfl rfl
  | slaveAddress a7 rw otherNack =>
    simp only [stepSlaveAddress, Option.ite_none_right_eq_some] at hr
    obtain ⟨-, hr⟩ := hr
    split at hr
    · obtain rfl := (Option.some.inj hr).symm
      have h1 := (((h.setFlag .addr true).setFlag .gencall (generalMatch a7 rw)).setFlag .dualf
        (dualMatch a7 && !e.ownMatch a7))
      dsimp only
      split
      · exact ((h1.setFlag .tra true).setFlag .txe true).congr rfl rfl rfl rfl
      · exact (h1.setFlag .tra false).congr rfl rfl rfl rfl
    · obtain rfl := (Option.some.inj hr).symm
      exact h.congr rfl rfl rfl rfl
  | slaveByteEnd nack =>
    simp only [stepSlaveByteEnd, Option.ite_none_right_eq_some, Option.some.injEq] at hr
    obtain ⟨-, rfl⟩ := hr
    have h1 : ReservedBitsZero { e with shState := .empty } := h.congr rfl rfl rfl rfl
    dsimp only
    split
    · exact ((h1.setFlag .af true).clearFlags [.txe, .btf]).congr rfl rfl rfl rfl
    · split
      · exact h1.setFlag .btf true
      · exact h1
  | remoteRestart =>
    simp only [stepRemoteRestart, Option.ite_none_right_eq_some, Option.some.injEq] at hr
    obtain ⟨-, rfl⟩ := hr
    exact (h.clearFlags _).congr rfl rfl rfl rfl
  | remoteStop =>
    simp only [stepRemoteStop, Option.ite_none_right_eq_some, Option.some.injEq] at hr
    obtain ⟨-, rfl⟩ := hr
    dsimp only
    split
    · exact ((h.setFlag .stopf true).clearFlags _).congr rfl rfl rfl rfl
    · exact (h.clearFlags _).congr rfl rfl rfl rfl
  | inject i =>
    simp only [stepInject, Option.ite_none_right_eq_some] at hr
    obtain ⟨-, hr⟩ := hr
    cases i with
    | berr =>
      simp only [Option.ite_none_right_eq_some, Option.some.injEq] at hr
      obtain ⟨-, rfl⟩ := hr
      exact h.setFlag .berr true
    | arlo => simp at hr
    | ovr => obtain rfl := (Option.some.inj hr).symm; exact h.setFlag .ovr true
    | pecerr => obtain rfl := (Option.some.inj hr).symm; exact h.setFlag .pecerr true
    | timeout => obtain rfl := (Option.some.inj hr).symm; exact h.setFlag .timeout true
    | smbalert => obtain rfl := (Option.some.inj hr).symm; exact h.setFlag .smbalert true
    | afRx =>
      simp only [Option.ite_none_right_eq_some, Option.some.injEq] at hr
      obtain ⟨-, rfl⟩ := hr
      exact h.setFlag .af true

/-! ### An engine step on the block -/

/-- An engine step changes the engine registers and appends to WIRELOG, and nothing else. -/
theorem runEngine_eq_some {p : Config.Params} {m : Config.EngineMove} {s t : State} (h : runEngine p m s = some t) :
    ∃ r, engineStep p m s.eng = some r
      ∧ t = { s with eng := r.1, log := { s.log with wire := s.log.wire ++ r.2 } } := by
  unfold runEngine at h
  split at h
  · rename_i e syms heq
    exact ⟨(e, syms), heq, (Option.some.inj h).symm⟩
  · simp at h

/-- With PE = 0 no engine step is enabled (43_bus_engine R262). -/
theorem engineStep_disabled {p : Config.Params} {m : Config.EngineMove} {e : Engine} (h : e.pe = false) :
    engineStep p m e = none := by
  simp [engineStep, h]

/-! ### PE and PHASE -/

@[simp] theorem Engine.pe_setFlag (e : Engine) (f : Flag) (b : Bool) : (e.setFlag f b).pe = e.pe := rfl
@[simp] theorem Engine.pe_clearFlags (e : Engine) (fs : List Flag) : (e.clearFlags fs).pe = e.pe := by
  simp only [Engine.pe, Engine.clearFlags_ctrl1]

/-- PE depends on CTRL1 only. -/
theorem Engine.pe_of_ctrl1 {e d : Engine} (h : d.ctrl1 = e.ctrl1) : d.pe = e.pe := by
  simp only [Engine.pe, h]

theorem sendByte_off {e : Engine} (h : OffExactlyWhenDisabled e) (b : Byte) :
    OffExactlyWhenDisabled (e.sendByte b) := by
  unfold Engine.sendByte
  split
  · rename_i hpe
    split <;>
      first
      | exact h
      | exact ⟨fun hf => absurd (hf.symm.trans hpe) (by decide), fun hf => absurd hf (by simp_all)⟩
  · exact h

theorem recvByte_off {e : Engine} (h : OffExactlyWhenDisabled e) : OffExactlyWhenDisabled e.recvByte := by
  unfold Engine.recvByte
  split
  · split <;> exact h
  · exact h

theorem genStart_off {e : Engine} (h : OffExactlyWhenDisabled e) : OffExactlyWhenDisabled e.genStart := by
  unfold Engine.genStart
  split
  · unfold OffExactlyWhenDisabled at *
    rw [Engine.pe_setStartReq]
    exact h
  · exact h

theorem genStop_off {e : Engine} (h : OffExactlyWhenDisabled e) : OffExactlyWhenDisabled e.genStop := by
  unfold Engine.genStop
  split
  · rename_i hpe
    split
    · unfold OffExactlyWhenDisabled at *
      rw [Engine.pe_setStopReq]
      exact h
    · split <;>
        first
        | exact h
        | exact ⟨fun hf => absurd (hf.symm.trans ((Engine.pe_of_ctrl1 (by simp)).trans hpe)) (by decide),
            fun hf => absurd hf (by simp)⟩
  · exact h

theorem setAck_off {e : Engine} (h : OffExactlyWhenDisabled e) (b : Bool) : OffExactlyWhenDisabled (e.setAck b) := by
  unfold OffExactlyWhenDisabled at *
  rw [Engine.setAck, Engine.pe_setAckOn]
  exact h

theorem readEvent_off {e : Engine} (h : OffExactlyWhenDisabled e) : OffExactlyWhenDisabled e.readEvent := by
  unfold OffExactlyWhenDisabled Engine.readEvent at *
  rw [Engine.pe_clearFlags, Engine.clearFlags_phase]
  exact h

theorem setEnable_off {e : Engine} (h : OffExactlyWhenDisabled e) (b : Bool) :
    OffExactlyWhenDisabled (e.setEnable b) := by
  unfold Engine.setEnable
  split
  · split
    · exact h
    · refine ⟨fun hf => absurd hf ?_, fun hf => absurd hf (by simp)⟩
      rw [Engine.pe_of_ctrl1 (e := e.setPe true) (by simp), Engine.pe_setPe]
      decide
  · exact ⟨fun _ => rfl, fun _ => by simp [Engine.pe]⟩

/-- An enabled engine step leaves PE at 1. -/
theorem engineStep_pe {p : Config.Params} {m : Config.EngineMove} {e : Engine} {r : EngineStep}
    (hr : engineStep p m e = some r) : r.1.pe = true := by
  unfold engineStep at hr
  split at hr
  case isFalse => simp at hr
  rename_i hpe
  have hpe0 : e.ctrl1[0] = true := by simpa [Engine.pe] using hpe
  cases m <;>
    simp only [stepStart, stepAddress, stepLoad, stepMasterByteEnd, stepLoseArbitration, stepReceive, stepStop,
      stepRemoteStart, stepSlaveAddress, stepSlaveByteEnd, stepRemoteRestart, stepRemoteStop, stepInject] at hr <;>
    (repeat' split at hr) <;>
    first
    | (simp at hr; done)
    | (obtain rfl := (Option.some.inj hr).symm
       simp [Engine.pe, Engine.setStartReq, Engine.setStopReq, getElem_putBit, hpe0])

/-- An enabled engine step never turns PHASE to OFF. -/
theorem engineStep_phase {p : Config.Params} {m : Config.EngineMove} {e : Engine} {r : EngineStep}
    (hr : engineStep p m e = some r) (h : e.phase ≠ .off) : r.1.phase ≠ .off := by
  unfold engineStep at hr
  split at hr
  case isFalse => simp at hr
  cases m <;>
    simp only [stepStart, stepAddress, stepLoad, stepMasterByteEnd, stepLoseArbitration, stepReceive, stepStop,
      stepRemoteStart, stepSlaveAddress, stepSlaveByteEnd, stepRemoteRestart, stepRemoteStop, stepInject] at hr <;>
    (repeat' split at hr) <;>
    first
    | (simp at hr; done)
    | (obtain rfl := (Option.some.inj hr).symm
       simp [h])

/-- Every engine step keeps PHASE = OFF exactly while PE = 0. -/
theorem engineStep_off {p : Config.Params} {m : Config.EngineMove} {e : Engine} {r : EngineStep}
    (hr : engineStep p m e = some r) (h : OffExactlyWhenDisabled e) : OffExactlyWhenDisabled r.1 := by
  have hpe : e.pe = true := by
    cases hp : e.pe
    · rw [engineStep_disabled hp] at hr; exact absurd hr (by simp)
    · rfl
  have hph : e.phase ≠ .off := fun hoff => absurd (h.2 hoff) (by simp [hpe])
  exact ⟨fun hf => absurd hf (by simp [engineStep_pe hr]), fun hf => absurd hf (engineStep_phase hr hph)⟩

/-! ### The address byte after a START (20_memory R81) -/

/-- What a primitive does about the address phase: it stays sound and quiet, and no START and no address byte comes but
from M_SB. -/
structure AddressFrame (e d : Engine) : Prop where
  sound : AddressPhaseSound e → AddressPhaseSound d
  quiet : AddressPhaseQuiet e → AddressPhaseQuiet d
  places : e.phase ≠ .mSb → d.phase ≠ .mSb ∧ (d.phase = .mAddr → e.phase = .mAddr)

theorem AddressFrame.refl (e : Engine) : AddressFrame e e := ⟨id, id, fun h => ⟨h, id⟩⟩

theorem AddressFrame.trans {e d c : Engine} (h : AddressFrame e d) (k : AddressFrame d c) : AddressFrame e c where
  sound := k.sound ∘ h.sound
  quiet := k.quiet ∘ h.quiet
  places hp := ⟨(k.places (h.places hp).1).1, (h.places hp).2 ∘ (k.places (h.places hp).1).2⟩

/-- A change within a phase that sets none of the flags it watches and leaves SB and MSL. -/
theorem AddressFrame.within {e d : Engine} (hp : d.phase = e.phase) (hpe : d.pe = e.pe) (hsb : d.flag .sb = e.flag .sb)
    (hmsl : d.flag .msl = e.flag .msl) (hfl : ∀ f ∈ [Flag.addr, .txe, .btf], e.flag f = false → d.flag f = false)
    (hsh : e.shState ≠ .full → d.shState ≠ .full) : AddressFrame e d where
  sound h :=
    { awaits := by rw [hp, hpe, hsb, hmsl]; exact h.awaits
      onlySb := by rw [hp, hsb]; exact h.onlySb
      cleared := by
        rw [hp]
        exact fun ha => ⟨hfl _ (by simp) (h.cleared ha).1, hfl _ (by simp) (h.cleared ha).2⟩ }
  quiet h := by
    unfold AddressPhaseQuiet
    rw [hp]
    exact fun ha => ⟨hfl _ (by simp) (h ha).1, hsh (h ha).2⟩
  places he := by rw [hp]; exact ⟨he, id⟩

/-- A change that leaves EV, PE, PHASE and the shift register. -/
theorem AddressFrame.same {e d : Engine} (hp : d.phase = e.phase) (hpe : d.pe = e.pe) (hev : d.ev = e.ev)
    (hsh : d.shState = e.shState) : AddressFrame e d :=
  .within hp hpe (Engine.flag_of_ev hev _) (Engine.flag_of_ev hev _)
    (fun f _ h => (Engine.flag_of_ev hev f).trans h) (hsh ▸ id)

/-- Clearing flags other than SB and MSL. -/
theorem AddressFrame.clears (e : Engine) {fs : List Flag} (h1 : Flag.sb ∉ fs) (h2 : Flag.msl ∉ fs) :
    AddressFrame e (e.clearFlags fs) :=
  .within (by simp) (by simp) (by simp [h1]) (by simp [h2]) (fun f _ h => by simp [h]) (by simp)

/-- A change to a phase that is neither M_SB nor M_ADDR, with SB clear. -/
theorem AddressPhaseSound.elsewhere {d : Engine} (h1 : d.phase ≠ .mSb) (h2 : d.phase ≠ .mAddr) (h3 : d.flag .sb = false) :
    AddressPhaseSound d :=
  ⟨fun h => absurd h h1, fun h => absurd (h3.symm.trans h) (by decide), fun h => (h.elim h1 h2).elim⟩

theorem AddressPhaseQuiet.elsewhere {d : Engine} (h1 : d.phase ≠ .mSb) (h2 : d.phase ≠ .mAddr) : AddressPhaseQuiet d :=
  fun h => (h.elim h1 h2).elim

/-- Outside M_SB the flag SB is clear. -/
theorem AddressPhaseSound.noSb {e : Engine} (h : AddressPhaseSound e) (hp : e.phase ≠ .mSb) : e.flag .sb = false := by
  cases hs : e.flag .sb
  · rfl
  · exact absurd (h.onlySb hs) hp

theorem sendByte_addressFrame (e : Engine) (b : Byte) : AddressFrame e (e.sendByte b) := by
  cases hpe : e.pe
  · rw [sendByte_disabled hpe]; exact .refl e
  · by_cases hp : e.phase = .mSb
    · rw [sendByte_address hpe hp]
      refine ⟨fun h => ⟨fun h => by simp at h, fun h => ?_, fun _ => ?_⟩, fun h _ => ?_, fun h => absurd hp h⟩
      · exact absurd ((Engine.flag_setFlag e .sb .sb false).symm.trans h) (by simp)
      · obtain ⟨h1, h2⟩ := h.cleared (.inl hp)
        exact ⟨(Engine.flag_setFlag e .sb .txe false).trans (by simp [h1]),
          (Engine.flag_setFlag e .sb .btf false).trans (by simp [h2])⟩
      · exact ⟨(Engine.flag_setFlag e .sb .addr false).trans (by simp [(h (.inl hp)).1]), (h (.inl hp)).2⟩
    · by_cases hx : e.phase = .mTx ∨ e.phase = .sTx
      · rw [sendByte_transmit hpe hx]
        exact (AddressFrame.clears e (fs := [.txe, .btf]) (by decide) (by decide)).trans (.same rfl rfl rfl rfl)
      · rw [sendByte_other hpe hp hx]
        exact .same rfl rfl rfl rfl

theorem recvByte_addressFrame (e : Engine) : AddressFrame e e.recvByte := by
  unfold Engine.recvByte
  split
  · split
    · refine .within rfl rfl ?_ ?_ (fun f _ h => ?_) fun h => by simp
      · exact (Engine.flag_setFlag e .btf .sb false).trans (by simp)
      · exact (Engine.flag_setFlag e .btf .msl false).trans (by simp)
      · exact (Engine.flag_setFlag e .btf f false).trans (by simp [h])
    all_goals exact .clears e (fs := [.rxne]) (by decide) (by decide)
  · exact .refl e

theorem genStart_addressFrame (e : Engine) : AddressFrame e e.genStart := by
  unfold Engine.genStart
  split
  · exact .same rfl (Engine.pe_setStartReq _ _) rfl rfl
  · exact .refl e

theorem genStop_addressFrame (e : Engine) : AddressFrame e e.genStop := by
  unfold Engine.genStop
  split
  · split
    · exact .same rfl (Engine.pe_setStopReq _ _) rfl rfl
    · split
      case h_1 | h_2 | h_3 | h_4 =>
        refine ⟨fun h => .elsewhere (by simp) (by simp) ?_, fun _ => .elsewhere (by simp) (by simp),
          fun _ => ⟨by simp, fun h => by simp at h⟩⟩
        refine (Engine.flag_clearFlags [.tra, .txe, .btf] e .sb).trans ?_
        simp [h.noSb, *]
      all_goals exact .refl e
  · exact .refl e

theorem setAck_addressFrame (e : Engine) (b : Bool) : AddressFrame e (e.setAck b) :=
  .same rfl (Engine.pe_setAckOn e b) rfl rfl

theorem setNotify_addressFrame (e : Engine) (m : BitVec 3) : AddressFrame e (e.setNotify m) := .same rfl rfl rfl rfl

theorem clearFlag_addressFrame (e : Engine) {k : BitVec 8} (h1 : k.toNat ≠ 0) (h2 : k.toNat ≠ 16) :
    AddressFrame e (e.clearFlag k) := by
  have hbit : ∀ f : Flag, (e.clearFlag k).flag f = if f.idx = k.toNat then false else e.flag f := by
    intro f
    simp only [Engine.flag, evHas, Engine.clearFlag, putBit, Bool.false_eq_true, if_false, BitVec.getLsbD_and,
      BitVec.getLsbD_not, BitVec.getLsbD_twoPow]
    have := f.idx_lt
    split <;> simp_all [eq_comm]
  refine .within rfl rfl ((hbit .sb).trans (if_neg (Ne.symm h1))) ((hbit .msl).trans (if_neg (Ne.symm h2)))
    (fun f _ h => ?_) id
  rw [hbit, h]; simp

theorem readEvent_addressFrame (e : Engine) : AddressFrame e e.readEvent := .clears e (by decide) (by decide)

theorem setOwnAddr_addressFrame (e : Engine) (a : Addr7) : AddressFrame e (e.setOwnAddr a) := .same rfl rfl rfl rfl

theorem setEnable_addressFrame (e : Engine) (b : Bool) : AddressFrame e (e.setEnable b) := by
  unfold Engine.setEnable
  split
  · split
    · exact .refl e
    · rename_i hpe
      refine ⟨fun h => .elsewhere (by simp) (by simp) ?_, fun _ => .elsewhere (by simp) (by simp),
        fun _ => ⟨by simp, fun h => by simp at h⟩⟩
      have hp : e.phase ≠ .mSb := fun hp => hpe (h.awaits hp).1
      exact (Engine.flag_setFlag (e.setPe true) .busy .sb false).trans (h.noSb hp)
  · exact ⟨fun _ => .elsewhere (by simp) (by simp) (by simp [Engine.flag, evHas]),
      fun _ => .elsewhere (by simp) (by simp), fun _ => ⟨by simp, fun h => by simp at h⟩⟩

/-- An engine step keeps the address phase sound, and quiet unless it is a START that takes something left of an earlier
transfer with it; it places no address byte and changes none. -/
theorem engineStep_address {p : Config.Params} {m : Config.EngineMove} {e : Engine} {r : EngineStep}
    (hr : engineStep p m e = some r) :
    (AddressPhaseSound e → AddressPhaseSound r.1)
      ∧ (AddressPhaseQuiet e → (r.1.phase = .mSb → e.phase = .mSb ∨ NothingLeft e) → AddressPhaseQuiet r.1)
      ∧ (r.1.phase = .mAddr → e.phase = .mAddr ∧ r.1.data = e.data) := by
  have hpe := engineStep_pe hr
  unfold engineStep at hr
  split at hr
  case isFalse => simp at hr
  cases m with
  | start =>
    simp only [stepStart, Option.ite_none_right_eq_some, Option.some.injEq] at hr
    obtain ⟨hg, rfl⟩ := hr
    let d := (((e.setStartReq false).setFlag .sb true).setFlag .msl true).setFlag .busy true
    have hf : ∀ f, (d.clearFlags [.tra, .txe, .btf]).flag f
        = if f ∈ [Flag.tra, .txe, .btf] then false else if f ∈ [Flag.sb, .msl, .busy] then true else e.flag f := by
      intro f
      cases f <;> simp [d]
    refine ⟨fun _ => ⟨fun _ => ⟨hpe, hf .sb, hf .msl⟩, fun _ => rfl, fun _ => ⟨hf .txe, hf .btf⟩⟩, fun hq hl _ => ?_,
      fun h => absurd h (by simp)⟩
    have hn : NothingLeft e := (hl rfl).elim (fun hp => hq (.inl hp)) id
    refine ⟨(hf .addr).trans hn.1, ?_⟩
    show (d.clearFlags [.tra, .txe, .btf]).shState ≠ .full
    rw [Engine.clearFlags_shState]
    exact hn.2
  | _ =>
    simp only [stepAddress, stepLoad, stepMasterByteEnd, stepLoseArbitration, stepReceive, stepStop,
      stepRemoteStart, stepSlaveAddress, stepSlaveByteEnd, stepRemoteRestart, stepRemoteStop, stepInject] at hr
    (repeat' split at hr) <;>
    first
    | (simp at hr; done)
    | (obtain rfl := (Option.some.inj hr).symm
       refine ⟨fun h => ⟨fun hs => ⟨hpe, ?_⟩, fun hs => ?_, fun hs => hs.elim (fun hs => ?_) fun hs => ?_⟩,
         fun hq _ hs => hs.elim (fun hs => ?_) fun hs => ?_, fun ha => ?_⟩ <;>
       have h1 := fun h : AddressPhaseSound e => h.awaits <;>
       have h2 := fun h : AddressPhaseSound e => h.onlySb <;>
       have h3 := fun h : AddressPhaseSound e => h.cleared <;>
       simp_all [AddressPhaseQuiet, NothingLeft, receiveEnabled, Engine.mb, Engine.remoteMayEnd, Engine.flag_mk, Engine.evHas_ev])

/-- At a master byte boundary with a START requested and no STOP, an engine step performs the START, and SB = 1, or leaves
the request, the boundary and the enables (43_bus_engine R264, R271, R274). -/
theorem engineStep_held {p : Config.Params} {m : Config.EngineMove} {e : Engine} {r : EngineStep}
    (hr : engineStep p m e = some r) (hs : e.startReq = true) (ht : e.stopReq = false) (hb : e.mb = true) :
    r.1.flag .sb = true
      ∨ (r.1.ctrl1 = e.ctrl1 ∧ r.1.ctrl2 = e.ctrl2 ∧ r.1.phase = e.phase ∧ r.1.shState = e.shState
        ∧ r.1.flag .msl = e.flag .msl) := by
  have hm : e.flag .msl = true := by
    unfold Engine.mb at hb
    simp only [Bool.and_eq_true] at hb
    exact hb.1
  unfold engineStep at hr
  split at hr
  case isFalse => simp at hr
  cases m <;>
    simp only [stepStart, stepAddress, stepLoad, stepMasterByteEnd, stepLoseArbitration, stepReceive, stepStop,
      stepRemoteStart, stepSlaveAddress, stepSlaveByteEnd, stepRemoteRestart, stepRemoteStop, stepInject] at hr <;>
    (repeat' split at hr) <;>
    first
    | (simp at hr; done)
    | (obtain rfl := (Option.some.inj hr).symm
       cases hp : e.phase <;> simp_all [receiveEnabled, Engine.mb, Engine.remoteMayEnd, Engine.flag_mk, Engine.evHas_ev])

/-! ### DATA while the address byte is on its way -/

/-- With no byte in the shift register DATA stays as it is, and none comes into it: so every primitive but SEND_BYTE. -/
def DataStays (e d : Engine) : Prop := e.shState ≠ .full → d.shState ≠ .full ∧ d.data = e.data

theorem DataStays.refl (e : Engine) : DataStays e e := fun h => ⟨h, rfl⟩

theorem DataStays.of_eq {e d : Engine} (h1 : d.shState = e.shState) (h2 : d.data = e.data) : DataStays e d :=
  fun h => ⟨h1 ▸ h, h2⟩

theorem DataStays.trans {e d c : Engine} (h : DataStays e d) (k : DataStays d c) : DataStays e c :=
  fun hf => ⟨(k (h hf).1).1, (k (h hf).1).2.trans (h hf).2⟩

theorem DataStays.recvByte (e : Engine) : DataStays e e.recvByte := by
  intro h
  unfold Engine.recvByte
  split
  · split
    · rename_i hf; exact absurd hf h
    all_goals exact ⟨h, rfl⟩
  · exact ⟨h, rfl⟩

theorem DataStays.genStop (e : Engine) : DataStays e e.genStop := by
  unfold Engine.genStop
  split
  · split
    · exact .of_eq rfl rfl
    · split <;> exact .of_eq (by simp) (by simp)
  · exact .refl e

theorem DataStays.genStart (e : Engine) : DataStays e e.genStart := by
  unfold Engine.genStart
  split
  · exact .of_eq rfl rfl
  · exact .refl e

/-! ### For claims about one step -/

/-- The master byte boundary as a claim reads it. -/
theorem Engine.mb_iff (e : Engine) : e.mb = true ↔ AtMasterBoundary e := by
  unfold Engine.mb AtMasterBoundary
  cases e.phase <;> simp

/-- With PE = 1 a move is one guarded function; then it is enabled exactly where its guard holds. -/
theorem stepIs_of {p : Config.Params} {m : Config.EngineMove} {e : Engine} {guard : Prop}
    {effect : Engine → List WireSym → Prop} (f : Option EngineStep) (hf : e.pe = true → engineStep p m e = f)
    (h1 : guard → ∃ d syms, f = some (d, syms) ∧ effect d syms) (h2 : ¬ guard → f = none) :
    StepIs p m e guard effect := by
  refine ⟨fun hp hg => ?_, fun h => ?_⟩
  · rw [hf hp]; exact h1 hg
  · by_cases hp : e.pe = true
    · rw [hf hp]; exact h2 fun hg => h ⟨hp, hg⟩
    · exact engineStep_disabled (by simpa using hp)

/-- GEN_STOP writes no flag but TRA, TXE and BTF (42_primitives R234). -/
theorem genStop_flag {e : Engine} {f : Flag} (h1 : f ≠ .tra) (h2 : f ≠ .txe) (h3 : f ≠ .btf) :
    e.genStop.flag f = e.flag f := by
  unfold Engine.genStop
  split
  · split
    · rfl
    · split <;> first
        | rfl
        | exact (Engine.flag_clearFlags [.tra, .txe, .btf] e f).trans (by simp [h1, h2, h3])
  · rfl

/-- CLEAR_FLAG of a named flag clears that flag alone (42_primitives R237). -/
theorem clearFlag_flag (e : Engine) (f g : Flag) :
    (e.clearFlag (flagOperand f)).flag g = if f = g then false else e.flag g := by
  have h : e.clearFlag (flagOperand f) = e.setFlag f false := by
    unfold Engine.clearFlag Engine.setFlag
    cases f <;> rfl
  rw [h, Engine.flag_setFlag]
  simp only [eq_comm]

end Sys2Proof.Machine
end

