-- ==== Sys2Proof/Laws/Transaction.lean ====
section
/-! SUPPORT. The transaction invariant through the dispatcher: one lemma per handler (40_dispatcher R179). -/

namespace Sys2Proof.Machine

/-! ### What the invariant depends on -/

/-- The claim on the command in progress survives a step that keeps the micro-step index and, while STATE is no master
role, keeps it none and leaves M_LEN, M_FINAL and the written cells of MBUF. -/
theorem CommandSound.mono {s t : State} {r : Config.Request} (h : CommandSound s r) (hs : t.host.step = s.host.step)
    (hm : s.ctx.state.isMaster = false → t.ctx.state.isMaster = false ∧ t.ctx.mFinal = s.ctx.mFinal
      ∧ t.ctx.mLen = s.ctx.mLen ∧ ∀ i, (s.cell .mbuf i).isSome = true → (t.cell .mbuf i).isSome = true) :
    CommandSound t r := by
  unfold CommandSound at *
  split
  · rename_i a7 stop wait len heq
    rw [heq] at h
    obtain ⟨h1, h2, h3, h4, h5⟩ := h
    rw [← hs] at h3 h4 h5
    refine ⟨h1, h2, h3, fun hk => (hm (h4 hk)).1, fun hk => ?_⟩
    obtain ⟨-, hf, hl, hc⟩ := hm (h4 (.inr hk))
    rw [hf, hl]
    exact ⟨(h5 hk).1, fun i hi => hc i ((h5 hk).2 i hi)⟩
  · rename_i a7 stop len heq
    rw [heq] at h
    obtain ⟨h1, h2, h3, h4, h5⟩ := h
    rw [← hs] at h2 h3 h4 h5
    refine ⟨h1, h2, h3, fun hk => (hm (h4 hk)).1, fun hk => ?_⟩
    obtain ⟨-, hf, hl, -⟩ := hm (h4 (.inr hk))
    rw [hf, hl]
    exact h5 hk
  · rename_i hw hr
    split at h
    · rename_i heq; exact absurd heq (hw _ _ _ _)
    · rename_i heq; exact absurd heq (hr _ _ _)
    · exact h

/-- The invariant depends on the context, the buffers and the host's local state alone. -/
theorem TransactionSound.congr {s t : State} (h : TransactionSound s) (hc : t.ctx = s.ctx) (hb : t.buf = s.buf)
    (hh : t.host = s.host) : TransactionSound t := by
  obtain ⟨ctx, eng, buf, log, host, marks, client, port⟩ := t
  obtain rfl : ctx = s.ctx := hc
  obtain rfl : buf = s.buf := hb
  obtain rfl : host = s.host := hh
  exact ⟨h.1, h.2, h.3, h.4, h.5, h.6, h.7, h.8, h.9, h.10⟩

/-- Two states with the same buffers have the same cells. -/
theorem cell_of_buf {s t : State} (h : t.buf = s.buf) (n : BufName) (i : Nat) : t.cell n i = s.cell n i := by
  unfold State.cell
  rw [h]

/-- While a WRITE or READ arms, STATE is no master role, so a master handler never runs between W2 and W4. -/
theorem TransactionSound.of_ctx {s t : State} (h : TransactionSound s) (hb : t.buf = s.buf) (hh : t.host = s.host)
    (hstate : ∀ v, t.ctx.state ≠ .unused v) (hbound : CursorBounds t.ctx)
    (hnack : t.ctx.nackp = true → t.ctx.mCur = t.ctx.mLen)
    (hfin : t.ctx.mFinal = s.ctx.mFinal) (hlen : t.ctx.mLen = s.ctx.mLen)
    (hfinal : t.ctx.mFinal = true → t.ctx.nackp = false ∧ t.ctx.mCur = t.ctx.mLen ∧ t.ctx.state.isMaster = false)
    (hmaster : t.ctx.state.isMaster = true → t.ctx.state = s.ctx.state)
    (hcur : t.ctx.mCur.toNat ≤ s.ctx.mCur.toNat ∨ s.ctx.state = .masterTransmitting)
    (htx : t.ctx.txLen.toNat ≤ s.ctx.txLen.toNat) (hrx : t.ctx.rxCur.toNat ≤ s.ctx.rxCur.toNat) : TransactionSound t where
  stateNamed := hstate
  bounds := hbound
  noAckPending := hnack
  finalCaptured hf := by
    obtain ⟨h1, h2, h3⟩ := hfinal hf
    obtain ⟨-, -, h4, -, h5⟩ := h.finalCaptured (hfin ▸ hf)
    rw [hlen, cell_of_buf hb]
    exact ⟨h1, hlen ▸ h2, h4, h3, h5⟩
  transmitLoaded hs i hi := by
    have := hmaster (by rw [hs]; rfl)
    rw [cell_of_buf hb]
    exact h.transmitLoaded (this ▸ hs) i (hlen ▸ hi)
  receiveFits hs := by
    have := hmaster (by rw [hs]; rfl)
    rw [hlen]
    exact h.receiveFits (this ▸ hs)
  masterStored i hi := by
    rw [cell_of_buf hb]
    rcases hcur with hcur | hs
    · exact h.masterStored i (by omega)
    · refine h.transmitLoaded hs i ?_
      have : t.ctx.mCur.toNat ≤ t.ctx.mLen.toNat := hbound.1
      rw [hlen] at this
      omega
  txStored i hi := by rw [cell_of_buf hb]; exact h.txStored i (by omega)
  rxStored i hi := by rw [cell_of_buf hb]; exact h.rxStored i (by omega)
  command r hr := by
    rw [hh] at hr
    refine (h.command r hr).mono (by rw [hh]) fun hm => ⟨?_, hfin, hlen, fun i hi => by rw [cell_of_buf hb]; exact hi⟩
    cases hm' : t.ctx.state.isMaster
    · rfl
    · rw [hmaster hm'] at hm'; rw [hm'] at hm; exact absurd hm (by decide)

/-- Ending a transaction or a session: STATE becomes Ready, ERR and RSF become anything. -/
theorem TransactionSound.toReady {s t : State} (h : TransactionSound s) (hb : t.buf = s.buf) (hh : t.host = s.host)
    {err : ErrorCode} {rsf : Bool} (hc : t.ctx = { s.ctx with state := .ready, err := err, rsf := rsf }) :
    TransactionSound t := by
  refine h.of_ctx hb hh ?_ ?_ ?_ ?_ ?_ ?_ ?_ ?_ ?_ ?_ <;> rw [hc]
  · simp
  · exact h.bounds
  · exact h.noAckPending
  · exact fun hf => ⟨(h.finalCaptured hf).1, (h.finalCaptured hf).2.1, rfl⟩
  · exact fun hm => absurd hm (by simp [ControllerState.isMaster])
  · exact .inl (Nat.le_refl _)

/-- Latching an ErrorCode. -/
theorem TransactionSound.withErr {s t : State} (h : TransactionSound s) (hb : t.buf = s.buf) (hh : t.host = s.host)
    {err : ErrorCode} (hc : t.ctx = { s.ctx with err := err }) : TransactionSound t := by
  refine h.of_ctx hb hh ?_ ?_ ?_ ?_ ?_ ?_ ?_ ?_ ?_ ?_ <;> rw [hc]
  · exact h.stateNamed
  · exact h.bounds
  · exact h.noAckPending
  · exact fun hf => ⟨(h.finalCaptured hf).1, (h.finalCaptured hf).2.1, (h.finalCaptured hf).2.2.2.1⟩
  · exact fun _ => rfl
  · exact .inl (Nat.le_refl _)

/-- A primitive issued by either agent. -/
theorem TransactionSound.issue {s : State} (h : TransactionSound s) (a : Agent) (p : Prim) (arg : BitVec 8)
    (f : Engine → Engine) : TransactionSound (Machine.issue a p arg f s) := h.congr rfl rfl rfl

/-! ### The master handlers -/

theorem terminate_sound {s : State} (h : TransactionSound s) : TransactionSound (terminate s) := by
  unfold terminate
  split
  · exact h.toReady (err := s.ctx.err) (rsf := s.ctx.rsf) rfl rfl rfl
  · exact h.toReady (err := s.ctx.err) (rsf := true) rfl rfl rfl

theorem addressNacked_sound {s : State} (h : TransactionSound s) : TransactionSound (addressNacked s) :=
  h.toReady (err := .addressNacked) (rsf := s.ctx.rsf) rfl rfl rfl

theorem txNext_sound {p : Config.Params} {s t : State} (h : TransactionSound s)
    (hst : s.ctx.state = .masterTransmitting) (ht : txNext p s = .ok t) : TransactionSound t := by
  unfold txNext at ht
  split at ht
  · rename_i hlt
    obtain ⟨b, -, ht⟩ := andThen_eq_ok ht
    obtain rfl := Except.ok.inj ht
    have hb := h.bounds
    refine h.of_ctx rfl rfl h.stateNamed ?_ ?_ rfl rfl ?_ (fun _ => rfl) (.inr hst) (Nat.le_refl _) (Nat.le_refl _)
    · refine ⟨?_, hb.2⟩
      show s.ctx.mCur + 1#16 ≤ s.ctx.mLen
      bv_omega
    · intro hn
      have := h.noAckPending hn
      exact absurd hlt (by rw [this]; exact BitVec.lt_irrefl _)
    · intro hf
      have := (h.finalCaptured hf).2.1
      exact absurd hlt (by rw [this]; exact BitVec.lt_irrefl _)
  · obtain rfl := Except.ok.inj ht
    exact terminate_sound h

theorem mtx_sound {p : Config.Params} {ev : EvWord} {s t : State} (h : TransactionSound s)
    (hst : s.ctx.state = .masterTransmitting) (ht : mtx p ev s = .ok t) : TransactionSound t := by
  unfold mtx at ht
  split at ht
  · obtain rfl := Except.ok.inj ht
    exact addressNacked_sound (h.issue _ _ _ _)
  · split at ht
    · exact txNext_sound h hst ht
    · obtain rfl := Except.ok.inj ht
      exact h

theorem mrxAddr_sound {s : State} (h : TransactionSound s) (hst : s.ctx.state = .masterReceiving) :
    TransactionSound (mrxAddr s) := by
  have hfin : s.ctx.mFinal = true → False := by
    intro hf
    have := (h.finalCaptured hf).2.2.2.1
    rw [hst] at this
    exact absurd this (by decide)
  have hb := h.bounds
  unfold mrxAddr
  split
  · rename_i hlt
    exact h.of_ctx rfl rfl h.stateNamed hb h.noAckPending rfl rfl (fun hf => (hfin hf).elim) (fun _ => rfl)
      (.inl (Nat.le_refl _)) (Nat.le_refl _) (Nat.le_refl _)
  · rename_i hge
    have hge : ¬ s.ctx.mCur < s.ctx.mLen := hge
    have heq : s.ctx.mCur = s.ctx.mLen := by
      have := hb.1
      bv_omega
    exact h.of_ctx rfl rfl h.stateNamed hb (fun _ => heq) rfl rfl (fun hf => (hfin hf).elim) (fun _ => rfl)
      (.inl (Nat.le_refl _)) (Nat.le_refl _) (Nat.le_refl _)

/-- A byte stored in MBUF writes one more cell and no other. -/
theorem isSome_cell_write {s : State} (n k : BufName) (i j : Nat) (v : Byte) (h : (s.cell k j).isSome = true) :
    (State.cell { s with buf := s.buf.put n ((s.buf.get n).write i v) } k j).isSome = true := by
  rw [cell_put_write]
  split
  · rfl
  · exact h

theorem rxStore_sound {p : Config.Params} {s t : State} (h : TransactionSound s)
    (hst : s.ctx.state = .masterReceiving) (hn : s.ctx.nackp = false) (ht : rxStore p s = .ok t) :
    TransactionSound t ∧ t.ctx.state = .masterReceiving := by
  unfold rxStore at ht
  split at ht
  · exact absurd ht (by simp)
  · rename_i hlt
    obtain ⟨u, hu, ht⟩ := andThen_eq_ok ht
    obtain ⟨hcap, rfl⟩ := memWrite_eq_ok.1 hu
    have hb := h.bounds
    have hfin : s.ctx.mFinal = false := by
      cases hf : s.ctx.mFinal
      · rfl
      · have := (h.finalCaptured hf).2.2.2.1
        rw [hst] at this
        exact absurd this (by decide)
    have key : ∀ (np : Bool) (e : Engine) (l : Logs), (np = true → s.ctx.mCur + 1#16 = s.ctx.mLen) →
        TransactionSound { s with
          ctx := { s.ctx with mCur := s.ctx.mCur + 1#16, nackp := np }
          eng := e, log := l
          buf := s.buf.put .mbuf ((s.buf.get .mbuf).write s.ctx.mCur.toNat s.eng.data) } := by
      intro np e l hnp
      refine ⟨h.stateNamed, ⟨?_, hb.2⟩, hnp, fun hf => ?_, fun hs => ?_, fun _ => h.receiveFits hst, ?_, ?_, ?_, ?_⟩
      · show s.ctx.mCur + 1#16 ≤ s.ctx.mLen
        bv_omega
      · exact absurd (hfin.symm.trans hf) (by decide)
      · exact absurd (hst.symm.trans hs) (by decide)
      · intro i hi
        by_cases hi' : i = s.ctx.mCur.toNat
        · subst hi'
          exact (congrArg Option.isSome (cell_put_write s .mbuf .mbuf _ _ s.eng.data)).trans (by simp)
        · refine isSome_cell_write .mbuf .mbuf _ _ _ (h.masterStored i ?_)
          have : i < (s.ctx.mCur + 1#16).toNat := hi
          bv_omega
      · exact fun i hi => isSome_cell_write .mbuf .txbuf _ _ _ (h.txStored i hi)
      · exact fun i hi => isSome_cell_write .mbuf .rxbuf _ _ _ (h.rxStored i hi)
      · exact fun r hr => (h.command r hr).mono rfl fun hm =>
          absurd (hst ▸ hm : ControllerState.isMaster .masterReceiving = false) (by decide)
    dsimp only at ht
    split at ht
    · rename_i heq
      obtain rfl := Except.ok.inj ht
      exact ⟨key true _ _ fun _ => heq, hst⟩
    · obtain rfl := Except.ok.inj ht
      exact ⟨key s.ctx.nackp _ _ fun hp => absurd (hn.symm.trans hp) (by decide), hst⟩

/-- The final-byte path: FINAL_CAPTURE, then TERMINATE, with a no-ack pending. -/
theorem final_sound {p : Config.Params} {s t : State} (h : TransactionSound s)
    (hst : s.ctx.state = .masterReceiving) (hn : s.ctx.nackp = true) (ht : finalCapture p s = .ok t) :
    TransactionSound (terminate t) := by
  unfold finalCapture at ht
  obtain ⟨u, hu, ht⟩ := andThen_eq_ok ht
  obtain ⟨hcap, rfl⟩ := memWrite_eq_ok.1 hu
  obtain rfl := Except.ok.inj ht
  have key : ∀ (rsf : Bool) (e : Engine) (l : Logs),
      TransactionSound { s with
        ctx := { s.ctx with state := .ready, rsf := rsf, mFinal := true, nackp := false }
        eng := e, log := l
        buf := s.buf.put .mbuf ((s.buf.get .mbuf).write s.ctx.mLen.toNat s.eng.data) } := by
    intro rsf e l
    refine ⟨fun v => by simp, h.bounds, fun hf => absurd hf (by simp),
      fun _ => ⟨rfl, h.noAckPending hn, h.receiveFits hst, rfl, ?_⟩, fun hs => absurd hs (by simp),
      fun hs => absurd hs (by simp), ?_, ?_, ?_, ?_⟩
    · exact (congrArg Option.isSome (cell_put_write s .mbuf .mbuf _ _ s.eng.data)).trans (by simp)
    · exact fun i hi => isSome_cell_write .mbuf .mbuf _ _ _ (h.masterStored i hi)
    · exact fun i hi => isSome_cell_write .mbuf .txbuf _ _ _ (h.txStored i hi)
    · exact fun i hi => isSome_cell_write .mbuf .rxbuf _ _ _ (h.rxStored i hi)
    · exact fun r hr => (h.command r hr).mono rfl fun hm =>
        absurd (hst ▸ hm : ControllerState.isMaster .masterReceiving = false) (by decide)
  unfold terminate
  split
  · exact key s.ctx.rsf _ _
  · exact key true _ _

theorem mrxNack_sound {p : Config.Params} {ev : EvWord} {nackp0 : Bool} {s t : State} (h : TransactionSound s)
    (hfinal : nackp0 = true → evHas ev .rxne = false → s.ctx.state = .masterReceiving ∧ s.ctx.nackp = true)
    (ht : mrxNack p ev nackp0 s = .ok t) : TransactionSound t := by
  unfold mrxNack at ht
  split at ht
  · rename_i hn
    split at ht
    · obtain rfl := Except.ok.inj ht
      exact h.issue _ _ _ _
    · rename_i hrx
      obtain ⟨u, hu, ht⟩ := andThen_eq_ok ht
      obtain rfl := Except.ok.inj ht
      obtain ⟨hst, hnp⟩ := hfinal hn (by simpa using hrx)
      exact final_sound (h.issue _ _ _ _) hst hnp hu
  · dsimp only at ht
    split at ht
    · obtain rfl := Except.ok.inj ht
      exact addressNacked_sound (h.issue _ _ _ _)
    · obtain rfl := Except.ok.inj ht
      exact h.issue _ _ _ _

/-- The acknowledgment lookahead writes ACK and NACKP alone. -/
theorem mrxAddr_keeps (s : State) :
    (mrxAddr s).buf = s.buf ∧ (mrxAddr s).ctx.mCur = s.ctx.mCur ∧ (mrxAddr s).ctx.mLen = s.ctx.mLen
      ∧ (mrxAddr s).ctx.state = s.ctx.state := by
  unfold mrxAddr
  split <;> exact ⟨rfl, rfl, rfl, rfl⟩

theorem mrxAddr_nackp {s : State} (h : s.ctx.nackp = true) : (mrxAddr s).ctx.nackp = true := by
  unfold mrxAddr
  split
  · exact h
  · rfl

/-- With a further byte armed, MRX's address test leaves NACKP. -/
theorem mrxAddr_armed {s : State} (h : s.ctx.mCur < s.ctx.mLen) : (mrxAddr s).ctx.nackp = s.ctx.nackp := by
  unfold mrxAddr
  rw [if_pos h]
  rfl

/-- With no no-ack pending, a byte MRX takes is one below M_LEN (40_dispatcher R179 (b), (d)). -/
theorem TransactionSound.rxDue_lt {s : State} (h : TransactionSound s) (hn : s.ctx.nackp = false)
    (hd : rxDue s.ctx.nackp s.ctx = true) : s.ctx.mCur < s.ctx.mLen := by
  have hb := h.bounds.1
  simp only [rxDue, hn, Bool.false_or, bne_iff_ne, ne_eq] at hd
  bv_omega

theorem mrx_sound {p : Config.Params} {ev : EvWord} {s t : State} (h : TransactionSound s)
    (hst : s.ctx.state = .masterReceiving) (ht : mrx p ev s.ctx.nackp s = .ok t) : TransactionSound t := by
  unfold mrx at ht
  set s1 := if evHas ev .addr then mrxAddr s else s with hs1
  have h1 : TransactionSound s1 := by
    rw [hs1]; split
    · exact mrxAddr_sound h hst
    · exact h
  have hst1 : s1.ctx.state = .masterReceiving := by
    rw [hs1]; split
    · rw [(mrxAddr_keeps s).2.2.2, hst]
    · exact hst
  have hn1 : s.ctx.nackp = true → s1.ctx.nackp = true := by
    intro hn
    rw [hs1]; split
    · exact mrxAddr_nackp hn
    · exact hn
  obtain ⟨s2, h2, ht⟩ := andThen_eq_ok ht
  have h2s : TransactionSound s2 := by
    split at h2
    · rename_i hrx
      have hdue : rxDue s.ctx.nackp s.ctx = true := ((Bool.and_eq_true ..).mp hrx).2
      unfold mrxData at h2
      split at h2
      · rename_i hn
        obtain ⟨u, hu, h2⟩ := andThen_eq_ok h2
        obtain rfl := Except.ok.inj h2
        exact final_sound h1 hst1 (hn1 hn) hu
      · rename_i hn
        refine (rxStore_sound h1 hst1 ?_ h2).1
        have hn : s.ctx.nackp = false := by simpa using hn
        rw [hs1]
        split
        · rw [mrxAddr_armed (h.rxDue_lt hn hdue), hn]
        · exact hn
    · obtain rfl := Except.ok.inj h2
      exact h1
  split at ht
  · refine mrxNack_sound h2s (fun hn hrx => ?_) ht
    rw [if_neg (by simp [hrx])] at h2
    obtain rfl := Except.ok.inj h2
    exact ⟨hst1, hn1 hn⟩
  · obtain rfl := Except.ok.inj ht
    exact h2s

theorem masterRole_sound {p : Config.Params} {ev : EvWord} {s t : State} (h : TransactionSound s)
    (ht : masterRole p ev s.ctx.nackp s = .ok t) : TransactionSound t := by
  unfold masterRole at ht
  set s1 := if evHas ev .sb then issueSendByte .dispatcher s.ctx.pa s else s with hs1
  have hc : s1.ctx = s.ctx := by rw [hs1]; split <;> rfl
  have h1 : TransactionSound s1 := by
    rw [hs1]; split
    · exact h.issue _ _ _ _
    · exact h
  dsimp only at ht
  split at ht
  · exact mtx_sound h1 ‹_› ht
  · rw [← hc] at ht
    exact mrx_sound h1 ‹_› ht
  · obtain rfl := Except.ok.inj ht; exact h1
  · obtain rfl := Except.ok.inj ht; exact h1
  · obtain rfl := Except.ok.inj ht; exact h1
  · exact absurd ht (by simp)

/-! ### The slave handlers -/

theorem slaveMatchRx_sound {s : State} (h : TransactionSound s) : TransactionSound (slaveMatchRx s) := by
  have hb := h.bounds
  refine h.of_ctx rfl rfl (fun v => by simp [slaveMatchRx]) ⟨hb.1, hb.2.1, hb.2.2.1, hb.2.2.2.1, Nat.zero_le _⟩
    h.noAckPending rfl rfl (fun hf => ⟨(h.finalCaptured hf).1, (h.finalCaptured hf).2.1, rfl⟩)
    (fun hm => absurd hm (by simp [slaveMatchRx, ControllerState.isMaster])) (.inl (Nat.le_refl _)) (Nat.le_refl _)
    (Nat.zero_le _)

/-- Entering slave transmit with an empty buffer. -/
theorem slaveTx_reset_sound {s : State} (h : TransactionSound s) :
    TransactionSound { s with ctx := { s.ctx with state := .slaveTransmitting, txCur := 0, txLen := 0 } } := by
  have hb := h.bounds
  refine h.of_ctx rfl rfl (fun v => by simp) ⟨hb.1, hb.2.1, BitVec.le_refl _, Nat.zero_le _, hb.2.2.2.2⟩
    h.noAckPending rfl rfl (fun hf => ⟨(h.finalCaptured hf).1, (h.finalCaptured hf).2.1, rfl⟩)
    (fun hm => absurd hm (by simp [ControllerState.isMaster])) (.inl (Nat.le_refl _)) (Nat.zero_le _)
    (Nat.le_refl _)

theorem callOnTransmit_sound {s t : State} (h : TransactionSound s) (hst : s.ctx.state = .slaveTransmitting)
    (hcur : s.ctx.txCur = 0) (ht : callOnTransmit Config.params s = .ok t) :
    TransactionSound t ∧ t.ctx.state = .slaveTransmitting := by
  unfold callOnTransmit at ht
  split at ht
  · exact absurd ht (by simp)
  · rename_i n bytes cs heq
    split at ht
    · rename_i hlen
      split at ht
      · rename_i hn
        obtain ⟨u, hu, ht⟩ := andThen_eq_ok ht
        obtain rfl := Except.ok.inj ht
        obtain ⟨-, hframe, -, hcell⟩ := memWriteSeq_eq_ok hu
        have hctx : u.ctx = s.ctx := by have h1 := congrArg State.ctx hframe; exact h1
        have hhost : u.host = s.host := by have h1 := congrArg State.host hframe; exact h1
        have hmb : ∀ i, u.cell .mbuf i = s.cell .mbuf i := fun i => (hcell _ i).trans (if_neg (by simp))
        have hrb : ∀ i, u.cell .rxbuf i = s.cell .rxbuf i := fun i => (hcell _ i).trans (if_neg (by simp))
        have hsmall : n < 2 ^ 16 := by
          have : Config.params.bufCap ≤ 32767 := Config.params.bufCapPred.isLt
          omega
        have htn : (BitVec.ofNat 16 n).toNat = n := by rw [BitVec.toNat_ofNat]; exact Nat.mod_eq_of_lt hsmall
        have hb := h.bounds
        refine ⟨⟨?_, ?_, ?_, ?_, ?_, ?_, ?_, ?_, ?_, ?_⟩, ?_⟩
        · rw [hctx]; exact h.stateNamed
        · rw [hctx]
          refine ⟨hb.1, hb.2.1, ?_, ?_, hb.2.2.2.2⟩
          · show s.ctx.txCur ≤ _
            rw [hcur]; exact Nat.zero_le _
          · exact (Nat.le_of_eq htn).trans hn
        · rw [hctx]; exact h.noAckPending
        · intro hf
          rw [hctx] at hf ⊢
          obtain ⟨h1, h2, h3, h4, h5⟩ := h.finalCaptured hf
          exact ⟨h1, h2, h3, h4, (congrArg Option.isSome (hmb _)).trans h5⟩
        · intro hs
          rw [hctx] at hs
          exact absurd (hst.symm.trans hs) (by decide)
        · intro hs
          rw [hctx] at hs
          exact absurd (hst.symm.trans hs) (by decide)
        · rw [hctx]
          exact fun i hi => (congrArg Option.isSome (hmb i)).trans (h.masterStored i hi)
        · intro i hi
          have hi : i < n := by
            have : i < (BitVec.ofNat 16 n).toNat := hi
            omega
          refine (congrArg Option.isSome (hcell .txbuf i)).trans ?_
          rw [if_pos ⟨rfl, Nat.zero_le _, by omega⟩]
          simp [hlen, hi]
        · rw [hctx]
          exact fun i hi => (congrArg Option.isSome (hrb i)).trans (h.rxStored i hi)
        · intro r hr
          refine (h.command r (hhost ▸ hr)).mono (congrArg HostLocal.step hhost) fun hm => ?_
          rw [hctx]
          exact ⟨hm, rfl, rfl, fun i hi => (congrArg Option.isSome (hmb i)).trans hi⟩
        · rw [hctx]; exact hst
      · exact absurd ht (by simp)
    · exact absurd ht (by simp)

theorem slaveMatch_sound {ev : EvWord} {s t : State} (h : TransactionSound s)
    (ht : slaveMatch Config.params ev s = .ok t) : TransactionSound t := by
  unfold slaveMatch at ht
  split at ht
  · unfold slaveMatchTx at ht
    dsimp only at ht
    split at ht
    · obtain rfl := Except.ok.inj ht
      exact slaveTx_reset_sound h
    · exact (callOnTransmit_sound (slaveTx_reset_sound h) rfl rfl ht).1
  · obtain rfl := Except.ok.inj ht
    exact slaveMatchRx_sound h

theorem stx_sound {p : Config.Params} {ev : EvWord} {s t : State} (h : TransactionSound s)
    (ht : stx p ev s = .ok t) : TransactionSound t := by
  unfold stx at ht
  split at ht
  · obtain rfl := Except.ok.inj ht
    exact h.toReady (err := s.ctx.err) (rsf := s.ctx.rsf) rfl rfl rfl
  · split at ht
    · unfold slaveTxByte at ht
      dsimp only at ht
      split at ht
      · rename_i hlt
        obtain ⟨b, -, ht⟩ := andThen_eq_ok ht
        obtain rfl := Except.ok.inj ht
        have hb := h.bounds
        refine h.of_ctx rfl rfl h.stateNamed ⟨hb.1, hb.2.1, ?_, hb.2.2.2⟩ h.noAckPending rfl rfl
          (fun hf => ⟨(h.finalCaptured hf).1, (h.finalCaptured hf).2.1, (h.finalCaptured hf).2.2.2.1⟩) (fun _ => rfl)
          (.inl (Nat.le_refl _)) (Nat.le_refl _) (Nat.le_refl _)
        show s.ctx.txCur + 1#16 ≤ s.ctx.txLen
        have hlt : s.ctx.txCur < s.ctx.txLen := hlt
        bv_omega
      · obtain rfl := Except.ok.inj ht
        exact (h.issue _ _ _ _).issue _ _ _ _
    · obtain rfl := Except.ok.inj ht
      exact h.issue _ _ _ _

theorem srxData_sound {s t : State} (h : TransactionSound s) (ht : srxData Config.params s = .ok t) :
    TransactionSound t ∧ t.ctx.state = s.ctx.state := by
  unfold srxData at ht
  dsimp only at ht
  split at ht
  · rename_i hlt
    obtain ⟨u, hu, ht⟩ := andThen_eq_ok ht
    obtain ⟨hcap, rfl⟩ := memWrite_eq_ok.1 hu
    obtain rfl := Except.ok.inj ht
    have hb := h.bounds
    have hsmall : Config.params.bufCap ≤ 32767 := Config.params.bufCapPred.isLt
    have hinc : (s.ctx.rxCur + 1#16).toNat = s.ctx.rxCur.toNat + 1 := by bv_omega
    refine ⟨⟨h.stateNamed, ⟨hb.1, hb.2.1, hb.2.2.1, hb.2.2.2.1, ?_⟩, h.noAckPending, fun hf => ?_, fun hs i hi => ?_,
      h.receiveFits, fun i hi => ?_, fun i hi => ?_, fun i hi => ?_, fun r hr => ?_⟩, rfl⟩
    · show (s.ctx.rxCur + 1#16).toNat ≤ _
      rw [hinc]; exact hlt
    · obtain ⟨h1, h2, h3, h4, h5⟩ := h.finalCaptured hf
      exact ⟨h1, h2, h3, h4, isSome_cell_write (s := s) .rxbuf .mbuf _ _ _ h5⟩
    · exact isSome_cell_write (s := s) .rxbuf .mbuf _ _ _ (h.transmitLoaded hs i hi)
    · exact isSome_cell_write (s := s) .rxbuf .mbuf _ _ _ (h.masterStored i hi)
    · exact isSome_cell_write (s := s) .rxbuf .txbuf _ _ _ (h.txStored i hi)
    · by_cases hi' : i = s.ctx.rxCur.toNat
      · subst hi'
        exact (congrArg Option.isSome (cell_put_write s .rxbuf .rxbuf _ _ s.eng.data)).trans (by simp)
      · refine isSome_cell_write (s := s) .rxbuf .rxbuf _ _ _ (h.rxStored i ?_)
        have : i < (s.ctx.rxCur + 1#16).toNat := hi
        omega
    · exact (h.command r hr).mono rfl fun hm =>
        ⟨hm, rfl, rfl, fun i hi => isSome_cell_write (s := s) .rxbuf .mbuf _ _ _ hi⟩
  · obtain rfl := Except.ok.inj ht
    exact ⟨(h.issue _ _ _ _).issue _ _ _ _, rfl⟩

theorem onReceive_sound {p : Config.Params} {s t : State} (h : TransactionSound s) (ht : onReceive p s = .ok t) :
    TransactionSound t := by
  unfold onReceive at ht
  obtain ⟨bytes, -, ht⟩ := andThen_eq_ok ht
  obtain ⟨u, hu, ht⟩ := andThen_eq_ok ht
  obtain rfl := Except.ok.inj ht
  split at hu
  · obtain rfl := Except.ok.inj hu
    exact h.congr rfl rfl rfl
  · unfold callOnReceive at hu
    split at hu
    · obtain rfl := Except.ok.inj hu
      exact h.congr rfl rfl rfl
    · exact absurd hu (by simp)

theorem srxStop_sound {p : Config.Params} {s t : State} (h : TransactionSound s) (ht : srxStop p s = .ok t) :
    TransactionSound t := by
  unfold srxStop at ht
  obtain ⟨u, hu, ht⟩ := andThen_eq_ok ht
  obtain rfl := Except.ok.inj ht
  have h1 := onReceive_sound h hu
  have hb := h1.bounds
  exact h1.of_ctx rfl rfl (fun v => by simp) ⟨hb.1, hb.2.1, hb.2.2.1, hb.2.2.2.1, Nat.zero_le _⟩ h1.noAckPending rfl
    rfl (fun hf => ⟨(h1.finalCaptured hf).1, (h1.finalCaptured hf).2.1, rfl⟩)
    (fun hm => absurd hm (by simp [ControllerState.isMaster])) (.inl (Nat.le_refl _)) (Nat.le_refl _) (Nat.zero_le _)

theorem srx_sound {ev : EvWord} {s t : State} (h : TransactionSound s) (ht : srx Config.params ev s = .ok t) :
    TransactionSound t := by
  unfold srx at ht
  obtain ⟨s1, h1, ht⟩ := andThen_eq_ok ht
  obtain ⟨s2, h2, ht⟩ := andThen_eq_ok ht
  obtain rfl := Except.ok.inj ht
  have hs1 : TransactionSound s1 := by
    split at h1
    · exact (srxData_sound h h1).1
    · obtain rfl := Except.ok.inj h1; exact h
  have hs2 : TransactionSound s2 := by
    split at h2
    · exact srxStop_sound hs1 h2
    · obtain rfl := Except.ok.inj h2; exact hs1
  split
  · exact (hs2.issue _ _ _ _).issue _ _ _ _
  · exact hs2

theorem slaveRole_sound {ev : EvWord} {s t : State} (h : TransactionSound s)
    (ht : slaveRole Config.params ev s = .ok t) : TransactionSound t := by
  unfold slaveRole at ht
  obtain ⟨u, hu, ht⟩ := andThen_eq_ok ht
  have hs : TransactionSound u := by
    split at hu
    · exact slaveMatch_sound h hu
    · obtain rfl := Except.ok.inj hu; exact h
  split at ht
  · exact stx_sound hs ht
  · exact srx_sound hs ht
  · obtain rfl := Except.ok.inj ht; exact hs
  · obtain rfl := Except.ok.inj ht; exact hs
  · obtain rfl := Except.ok.inj ht; exact hs
  · exact absurd ht (by simp)

/-! ### The cross-cutting errors and the whole invocation -/

theorem errEnds_sound {p : Config.Params} {s : State} (h : TransactionSound s) : TransactionSound (errEnds p s) := by
  unfold errEnds
  split
  · exact h.toReady (err := s.ctx.err) (rsf := s.ctx.rsf) rfl rfl rfl
  · exact h

theorem crossLatch_sound {ev : EvWord} {f : Flag} {e : ErrorCode} {s : State} (h : TransactionSound s) :
    TransactionSound (crossLatch ev f e s) := by
  unfold crossLatch
  split
  · exact h.withErr (err := e) rfl rfl rfl
  · exact h

theorem cross_sound {p : Config.Params} {ev : EvWord} {s : State} (h : TransactionSound s) :
    TransactionSound (cross p ev s) := by
  have h1 : TransactionSound (crossBerr p ev s) := by
    unfold crossBerr
    split
    · exact errEnds_sound (h.withErr (err := .busError) rfl rfl rfl)
    · exact h
  have h2 : TransactionSound (crossArlo p ev (crossBerr p ev s)) := by
    unfold crossArlo
    split
    · exact errEnds_sound (h1.withErr (err := .arbitrationLost) rfl rfl rfl)
    · exact h1
  exact crossLatch_sound (crossLatch_sound (crossLatch_sound (crossLatch_sound h2)))

/-- One dispatcher invocation keeps the transaction invariant. -/
theorem invoke_sound {s t : State} (h : TransactionSound s) (ht : invoke Config.params s = .ok t) :
    TransactionSound t := by
  unfold invoke at ht
  have h0 : TransactionSound (enterHandler s) := h.congr rfl rfl rfl
  obtain ⟨u, hu, ht⟩ := andThen_eq_ok ht
  obtain rfl := Except.ok.inj ht
  refine cross_sound ?_
  unfold roleBranch at hu
  split at hu
  · exact masterRole_sound h0 hu
  · exact slaveRole_sound h0 hu

end Sys2Proof.Machine
end

