-- ==== Sys2Proof/Laws/Dispatcher.lean ====
section
/-! SUPPORT. What one dispatcher invocation leaves alone, and what it keeps: one relation, carried through every
handler. -/

namespace Sys2Proof.Machine

/-! ### Buffers -/

/-- A buffer write keeps the canonical form of all three buffers. -/
theorem BuffersCanonical.memWrite {p : Config.Params} {n : BufName} {i : Nat} {v : Byte} {s t : State}
    (h : BuffersCanonical s) (ht : memWrite p n i v s = .ok t) : BuffersCanonical t := by
  obtain ⟨-, rfl⟩ := memWrite_eq_ok.1 ht
  obtain ⟨h1, h2, h3⟩ := h
  cases n
  · exact ⟨Memory.wf_write h1 _ _, h2, h3⟩
  · exact ⟨h1, Memory.wf_write h2 _ _, h3⟩
  · exact ⟨h1, h2, Memory.wf_write h3 _ _⟩

/-- A buffer write stays below BUF_CAP. -/
theorem CellsInRange.memWrite {n : BufName} {i : Nat} {v : Byte} {s t : State} (h : CellsInRange s)
    (ht : memWrite Config.params n i v s = .ok t) : CellsInRange t := by
  obtain ⟨hi, rfl⟩ := memWrite_eq_ok.1 ht
  intro k j hj
  rw [cell_put_write, if_neg, h k j hj]
  rintro ⟨-, rfl⟩
  exact absurd hi (by show ¬ _; unfold cap at hj; omega)

/-- What a write of a byte list keeps. -/
theorem memWriteSeq_keeps {n : BufName} {vs : List Byte} {i : Nat} {s t : State}
    (ht : memWriteSeq Config.params n i vs s = .ok t) :
    (BuffersCanonical s → BuffersCanonical t) ∧ (CellsInRange s → CellsInRange t) := by
  induction vs generalizing i s with
  | nil =>
    obtain rfl := Except.ok.inj ht
    exact ⟨id, id⟩
  | cons v vs ih =>
    obtain ⟨u, hu, hrest⟩ := andThen_eq_ok ht
    exact ⟨fun h => (ih hrest).1 (h.memWrite hu), fun h => (ih hrest).2 (h.memWrite hu)⟩

/-! ### The relation -/

/-- What a dispatcher step does to the engine registers at most. -/
structure EngineFrame (e d : Engine) : Prop where
  reserved : ReservedBitsZero e → ReservedBitsZero d
  off : OffExactlyWhenDisabled e → OffExactlyWhenDisabled d
  pe : d.pe = e.pe
  oaddr : d.oaddr = e.oaddr
  address : AddressFrame e d

theorem EngineFrame.refl (e : Engine) : EngineFrame e e := ⟨id, id, rfl, rfl, .refl e⟩

theorem EngineFrame.sendByte (e : Engine) (b : Byte) : EngineFrame e (e.sendByte b) := by
  refine ⟨(sendByte_reserved · b), (sendByte_off · b), ?_, ?_, sendByte_addressFrame e b⟩ <;>
  · unfold Engine.sendByte
    split
    · split <;> rfl
    · rfl

theorem EngineFrame.recvByte (e : Engine) : EngineFrame e e.recvByte := by
  refine ⟨recvByte_reserved, recvByte_off, ?_, ?_, recvByte_addressFrame e⟩ <;>
  · unfold Engine.recvByte
    split
    · split <;> rfl
    · rfl

theorem EngineFrame.genStart (e : Engine) : EngineFrame e e.genStart := by
  refine ⟨genStart_reserved, genStart_off, ?_, ?_, genStart_addressFrame e⟩ <;>
  · unfold Engine.genStart
    split
    · first | rfl | simp
    · rfl

theorem EngineFrame.genStop (e : Engine) : EngineFrame e e.genStop := by
  refine ⟨genStop_reserved, genStop_off, ?_, ?_, genStop_addressFrame e⟩ <;>
  · unfold Engine.genStop
    split
    · split
      · first | rfl | simp
      · split <;> rfl
    · rfl

theorem EngineFrame.setAck (e : Engine) (b : Bool) : EngineFrame e (e.setAck b) :=
  ⟨(setAck_reserved · b), (setAck_off · b), Engine.pe_setAckOn e b, rfl, setAck_addressFrame e b⟩

theorem EngineFrame.clearFlag (e : Engine) {f : Flag} (h1 : f ≠ .sb) (h2 : f ≠ .msl) :
    EngineFrame e (e.clearFlag (flagOperand f)) :=
  ⟨(clearFlag_reserved · _), id, rfl, rfl,
    clearFlag_addressFrame e (by cases f <;> simp_all [flagOperand, Flag.idx])
      (by cases f <;> simp_all [flagOperand, Flag.idx])⟩

theorem EngineFrame.setNotify (e : Engine) (m : BitVec 3) : EngineFrame e (e.setNotify m) :=
  ⟨(setNotify_reserved · m), id, rfl, rfl, setNotify_addressFrame e m⟩

theorem EngineFrame.readEvent (e : Engine) : EngineFrame e e.readEvent :=
  ⟨readEvent_reserved, readEvent_off, by simp [Engine.readEvent], by simp [Engine.readEvent],
    readEvent_addressFrame e⟩

/-- What a dispatcher handler does to the block at most. -/
structure DispatcherFrame (s t : State) : Prop where
  host : t.host = s.host
  port : t.port = s.port
  marks : t.marks = s.marks
  wire : t.log.wire = s.log.wire
  act : ∃ l, t.log.act = s.log.act ++ l ∧ ∀ r ∈ l, r.agent = .dispatcher
  cbLog : ∃ l, t.log.cb = s.log.cb ++ l
  pa : t.ctx.pa = s.ctx.pa
  sendStop : t.ctx.sendStop = s.ctx.sendStop
  mLen : t.ctx.mLen = s.ctx.mLen
  cb : t.ctx.cb = s.ctx.cb
  inited : t.ctx.inited = s.ctx.inited
  rsf : t.ctx.rsf = s.ctx.rsf ∨ t.ctx.rsf = true
  state : t.ctx.state = s.ctx.state ∨ t.ctx.state = .ready ∨ t.ctx.state.isSlave = true
  err : t.ctx.err = s.ctx.err ∨ 3 ≤ t.ctx.err.code
  eng : EngineFrame s.eng t.eng
  canonical : BuffersCanonical s → BuffersCanonical t
  inRange : CellsInRange s → CellsInRange t

theorem DispatcherFrame.refl (s : State) : DispatcherFrame s s :=
  ⟨rfl, rfl, rfl, rfl, ⟨[], by simp, by simp⟩, ⟨[], by simp⟩, rfl, rfl, rfl, rfl, rfl, .inl rfl, .inl rfl, .inl rfl,
    .refl _, id, id⟩

theorem DispatcherFrame.trans {s t u : State} (h : DispatcherFrame s t) (k : DispatcherFrame t u) :
    DispatcherFrame s u where
  host := k.host.trans h.host
  port := k.port.trans h.port
  marks := k.marks.trans h.marks
  wire := k.wire.trans h.wire
  act := by
    obtain ⟨l, hl, hl'⟩ := h.act
    obtain ⟨m, hm, hm'⟩ := k.act
    refine ⟨l ++ m, by rw [hm, hl, List.append_assoc], fun r hr => ?_⟩
    rcases List.mem_append.1 hr with hr | hr
    · exact hl' r hr
    · exact hm' r hr
  cbLog := by
    obtain ⟨l, hl⟩ := h.cbLog
    obtain ⟨m, hm⟩ := k.cbLog
    exact ⟨l ++ m, by rw [hm, hl, List.append_assoc]⟩
  pa := k.pa.trans h.pa
  sendStop := k.sendStop.trans h.sendStop
  mLen := k.mLen.trans h.mLen
  cb := k.cb.trans h.cb
  inited := k.inited.trans h.inited
  rsf := by
    rcases k.rsf with hk | hk
    · rw [hk]; exact h.rsf
    · exact .inr hk
  state := by
    rcases k.state with hk | hk
    · rw [hk]; exact h.state
    · exact .inr hk
  err := by
    rcases k.err with hk | hk
    · rw [hk]; exact h.err
    · exact .inr hk
  eng := ⟨k.eng.1 ∘ h.eng.1, k.eng.2 ∘ h.eng.2, k.eng.3.trans h.eng.3, k.eng.4.trans h.eng.4,
    h.eng.address.trans k.eng.address⟩
  canonical := k.canonical ∘ h.canonical
  inRange := k.inRange ∘ h.inRange

/-- A primitive the dispatcher issues. -/
theorem DispatcherFrame.issue (s : State) (p : Prim) (arg : BitVec 8) {f : Engine → Engine}
    (hf : EngineFrame s.eng (f s.eng)) : DispatcherFrame s (Machine.issue .dispatcher p arg f s) :=
  ⟨rfl, rfl, rfl, rfl, ⟨[⟨.dispatcher, p, arg⟩], rfl, by simp⟩, ⟨[], by simp [Machine.issue]⟩, rfl, rfl, rfl, rfl,
    rfl, .inl rfl, .inl rfl, .inl rfl, hf, id, id⟩

/-- A handler's writes to the context. -/
theorem DispatcherFrame.withCtx (s : State) {c : Context} (hpa : c.pa = s.ctx.pa)
    (hss : c.sendStop = s.ctx.sendStop) (hml : c.mLen = s.ctx.mLen) (hcb : c.cb = s.ctx.cb)
    (hin : c.inited = s.ctx.inited) (hrsf : c.rsf = s.ctx.rsf ∨ c.rsf = true)
    (hst : c.state = s.ctx.state ∨ c.state = .ready ∨ c.state.isSlave = true)
    (herr : c.err = s.ctx.err ∨ 3 ≤ c.err.code) : DispatcherFrame s { s with ctx := c } :=
  ⟨rfl, rfl, rfl, rfl, ⟨[], by simp, by simp⟩, ⟨[], by simp⟩, hpa, hss, hml, hcb, hin, hrsf, hst, herr,
    .refl _, id, id⟩

/-- A handler's writes to the context that leave STATE, RSF and ERR. -/
theorem DispatcherFrame.withCursors (s : State) {c : Context} (hpa : c.pa = s.ctx.pa)
    (hss : c.sendStop = s.ctx.sendStop) (hml : c.mLen = s.ctx.mLen) (hcb : c.cb = s.ctx.cb)
    (hin : c.inited = s.ctx.inited) (hrsf : c.rsf = s.ctx.rsf) (hst : c.state = s.ctx.state)
    (herr : c.err = s.ctx.err) : DispatcherFrame s { s with ctx := c } :=
  .withCtx s hpa hss hml hcb hin (.inl hrsf) (.inl hst) (.inl herr)

theorem DispatcherFrame.setReady (s : State) : DispatcherFrame s (s.setState .ready) :=
  .withCtx s rfl rfl rfl rfl rfl (.inl rfl) (.inr (.inl rfl)) (.inl rfl)

theorem DispatcherFrame.setErr (s : State) (e : ErrorCode) (he : 3 ≤ e.code) : DispatcherFrame s (s.setErr e) :=
  .withCtx s rfl rfl rfl rfl rfl (.inl rfl) (.inl rfl) (.inr he)

theorem DispatcherFrame.memWrite {n : BufName} {i : Nat} {v : Byte} {s t : State}
    (h : memWrite Config.params n i v s = .ok t) : DispatcherFrame s t := by
  have h1 := fun hc : BuffersCanonical s => hc.memWrite h
  have h2 := fun hc : CellsInRange s => hc.memWrite h
  obtain ⟨-, rfl⟩ := memWrite_eq_ok.1 h
  exact ⟨rfl, rfl, rfl, rfl, ⟨[], by simp, by simp⟩, ⟨[], by simp⟩, rfl, rfl, rfl, rfl, rfl, .inl rfl, .inl rfl,
    .inl rfl, .refl _, h1, h2⟩

theorem DispatcherFrame.memWriteSeq {n : BufName} {vs : List Byte} {i : Nat} {s t : State}
    (h : memWriteSeq Config.params n i vs s = .ok t) : DispatcherFrame s t := by
  induction vs generalizing i s with
  | nil =>
    obtain rfl := Except.ok.inj h
    exact .refl s
  | cons v vs ih =>
    obtain ⟨u, hu, hrest⟩ := andThen_eq_ok h
    exact (DispatcherFrame.memWrite hu).trans (ih hrest)

/-! ### The handlers -/

theorem terminate_frame (s : State) : DispatcherFrame s (terminate s) := by
  unfold terminate
  split
  · exact (DispatcherFrame.issue s .genStop 0 (.genStop _)).trans (.setReady _)
  · exact ((DispatcherFrame.withCtx s (c := { s.ctx with rsf := true }) rfl rfl rfl rfl rfl (.inr rfl) (.inl rfl)
      (.inl rfl)).trans ((DispatcherFrame.issue _ .setNotify 0 (.setNotify _ 0)).trans
        (.issue _ .genStart 0 (.genStart _)))).trans (.setReady _)

theorem txNext_frame {s t : State} (h : txNext Config.params s = .ok t) : DispatcherFrame s t := by
  unfold txNext at h
  split at h
  · obtain ⟨b, -, h⟩ := andThen_eq_ok h
    obtain rfl := Except.ok.inj h
    exact (DispatcherFrame.issue s .sendByte b (.sendByte _ b)).trans
      (.withCursors _ rfl rfl rfl rfl rfl rfl rfl rfl)
  · obtain rfl := Except.ok.inj h
    exact terminate_frame s

theorem addressNacked_frame (s : State) : DispatcherFrame s (addressNacked s) :=
  ((DispatcherFrame.setErr s .addressNacked (by decide)).trans (.issue _ .genStop 0 (.genStop _))).trans (.setReady _)

theorem clearFlag_frame (s : State) (f : Flag) (h : f ≠ .sb ∧ f ≠ .msl := by decide) :
    DispatcherFrame s (issueClearFlag .dispatcher (flagOperand f) s) :=
  .issue s .clearFlag (flagOperand f) (.clearFlag _ h.1 h.2)

theorem setAck_frame (s : State) (b : Bool) : DispatcherFrame s (issueSetAck .dispatcher b s) :=
  .issue s .setAck _ (.setAck _ b)

theorem sendByte_frame (s : State) (b : Byte) : DispatcherFrame s (issueSendByte .dispatcher b s) :=
  .issue s .sendByte b (.sendByte _ b)

theorem recvByte_frame (s : State) : DispatcherFrame s (issueRecvByte .dispatcher s) :=
  .issue s .recvByte 0 (.recvByte _)

theorem mtx_frame {ev : EvWord} {s t : State} (h : mtx Config.params ev s = .ok t) : DispatcherFrame s t := by
  unfold mtx at h
  split at h
  · obtain rfl := Except.ok.inj h
    exact (clearFlag_frame s .af).trans (addressNacked_frame _)
  · split at h
    · exact txNext_frame h
    · obtain rfl := Except.ok.inj h
      exact .refl s

theorem mrxAddr_frame (s : State) : DispatcherFrame s (mrxAddr s) := by
  unfold mrxAddr
  split
  · exact setAck_frame s true
  · exact (setAck_frame s false).trans (.withCursors _ rfl rfl rfl rfl rfl rfl rfl rfl)

theorem rxStore_frame {s t : State} (h : rxStore Config.params s = .ok t) : DispatcherFrame s t := by
  unfold rxStore at h
  split at h
  · exact absurd h (by simp)
  · obtain ⟨u, hu, h⟩ := andThen_eq_ok h
    have h1 : DispatcherFrame s { u with ctx := { u.ctx with mCur := u.ctx.mCur + 1#16 } } :=
      ((recvByte_frame s).trans (.memWrite hu)).trans (.withCursors _ rfl rfl rfl rfl rfl rfl rfl rfl)
    dsimp only at h
    split at h
    · obtain rfl := Except.ok.inj h
      exact (h1.trans (setAck_frame _ false)).trans (.withCursors _ rfl rfl rfl rfl rfl rfl rfl rfl)
    · obtain rfl := Except.ok.inj h
      exact h1.trans (setAck_frame _ true)

theorem finalCapture_frame {s t : State} (h : finalCapture Config.params s = .ok t) : DispatcherFrame s t := by
  unfold finalCapture at h
  obtain ⟨u, hu, h⟩ := andThen_eq_ok h
  obtain rfl := Except.ok.inj h
  exact ((recvByte_frame s).trans (.memWrite hu)).trans (.withCursors _ rfl rfl rfl rfl rfl rfl rfl rfl)

theorem mrxData_frame {nackp0 : Bool} {s t : State} (h : mrxData Config.params nackp0 s = .ok t) :
    DispatcherFrame s t := by
  unfold mrxData at h
  split at h
  · obtain ⟨u, hu, h⟩ := andThen_eq_ok h
    obtain rfl := Except.ok.inj h
    exact (finalCapture_frame hu).trans (terminate_frame u)
  · exact rxStore_frame h

theorem mrxNack_frame {ev : EvWord} {nackp0 : Bool} {s t : State} (h : mrxNack Config.params ev nackp0 s = .ok t) :
    DispatcherFrame s t := by
  unfold mrxNack at h
  dsimp only at h
  split at h
  · split at h
    · obtain rfl := Except.ok.inj h
      exact clearFlag_frame s .af
    · obtain ⟨u, hu, h⟩ := andThen_eq_ok h
      obtain rfl := Except.ok.inj h
      exact ((clearFlag_frame s .af).trans (finalCapture_frame hu)).trans (terminate_frame u)
  · split at h
    · obtain rfl := Except.ok.inj h
      exact (clearFlag_frame s .af).trans (addressNacked_frame _)
    · obtain rfl := Except.ok.inj h
      exact clearFlag_frame s .af

theorem mrx_frame {ev : EvWord} {nackp0 : Bool} {s t : State} (h : mrx Config.params ev nackp0 s = .ok t) :
    DispatcherFrame s t := by
  unfold mrx at h
  dsimp only at h
  obtain ⟨u, hu, h⟩ := andThen_eq_ok h
  have h1 : DispatcherFrame s (if evHas ev .addr then mrxAddr s else s) := by
    split
    · exact mrxAddr_frame s
    · exact .refl s
  have h2 : DispatcherFrame s u := by
    split at hu
    · exact h1.trans (mrxData_frame hu)
    · obtain rfl := Except.ok.inj hu
      exact h1
  split at h
  · exact h2.trans (mrxNack_frame h)
  · obtain rfl := Except.ok.inj h
    exact h2

/-- MASTER_SB (40_dispatcher R153). -/
abbrev afterMasterSb (ev : EvWord) (s : State) : State :=
  if evHas ev .sb then issueSendByte .dispatcher s.ctx.pa s else s

/-- What the master branch does after MASTER_SB. -/
theorem masterRole_rest_frame {ev : EvWord} {nackp0 : Bool} {s t : State}
    (h : masterRole Config.params ev nackp0 s = .ok t) : DispatcherFrame (afterMasterSb ev s) t := by
  unfold masterRole at h
  dsimp only at h
  split at h
  · exact mtx_frame h
  · exact mrx_frame h
  · obtain rfl := Except.ok.inj h; exact .refl _
  · obtain rfl := Except.ok.inj h; exact .refl _
  · obtain rfl := Except.ok.inj h; exact .refl _
  · exact absurd h (by simp)

theorem masterRole_frame {ev : EvWord} {nackp0 : Bool} {s t : State}
    (h : masterRole Config.params ev nackp0 s = .ok t) : DispatcherFrame s t := by
  refine DispatcherFrame.trans ?_ (masterRole_rest_frame h)
  unfold afterMasterSb
  split
  · exact sendByte_frame s _
  · exact .refl s

theorem callOnTransmit_frame {s t : State} (h : callOnTransmit Config.params s = .ok t) : DispatcherFrame s t := by
  unfold callOnTransmit at h
  split at h
  · exact absurd h (by simp)
  · rename_i n bytes cs heq
    split at h
    · split at h
      · obtain ⟨u, hu, h⟩ := andThen_eq_ok h
        obtain rfl := Except.ok.inj h
        have h1 : DispatcherFrame s (State.logCb { s with client := cs } (.tx n bytes)) :=
          ⟨rfl, rfl, rfl, rfl, ⟨[], by simp, by simp⟩, ⟨[.tx n bytes], rfl⟩, rfl, rfl, rfl, rfl, rfl, .inl rfl,
            .inl rfl, .inl rfl, .refl _, id, id⟩
        exact (h1.trans (.memWriteSeq hu)).trans (.withCursors _ rfl rfl rfl rfl rfl rfl rfl rfl)
      · exact absurd h (by simp)
    · exact absurd h (by simp)

theorem slaveMatch_frame {ev : EvWord} {s t : State} (h : slaveMatch Config.params ev s = .ok t) :
    DispatcherFrame s t := by
  unfold slaveMatch at h
  split at h
  · unfold slaveMatchTx at h
    have h1 : DispatcherFrame s { s with ctx := { s.ctx with state := .slaveTransmitting, txCur := 0, txLen := 0 } } :=
      .withCtx s rfl rfl rfl rfl rfl (.inl rfl) (.inr (.inr rfl)) (.inl rfl)
    dsimp only at h
    split at h
    · obtain rfl := Except.ok.inj h
      exact h1
    · exact h1.trans (callOnTransmit_frame h)
  · obtain rfl := Except.ok.inj h
    exact .withCtx s rfl rfl rfl rfl rfl (.inl rfl) (.inr (.inr rfl)) (.inl rfl)

/-- SLAVE_MATCH leaves STATE at the slave role its direction selects (40_dispatcher R165–R167). -/
theorem slaveMatch_state {p : Config.Params} {ev : EvWord} {s u : State} (h : slaveMatch p ev s = .ok u) :
    u.ctx.state = if evHas ev .tra = true then .slaveTransmitting else .slaveReceiving := by
  unfold slaveMatch at h
  split at h
  · rename_i ht
    rw [if_pos ht]
    unfold slaveMatchTx at h
    dsimp only at h
    split at h
    · obtain rfl := Except.ok.inj h; rfl
    · unfold callOnTransmit at h
      split at h
      · simp at h
      · split at h
        · split at h
          · obtain ⟨v, hv, h⟩ := andThen_eq_ok h
            obtain rfl := Except.ok.inj h
            obtain ⟨-, hf, -, -⟩ := memWriteSeq_eq_ok hv
            show v.ctx.state = _
            rw [hf]; rfl
          · simp at h
        · simp at h
  · rename_i ht
    rw [if_neg ht]
    obtain rfl := Except.ok.inj h; rfl

theorem slaveTxByte_frame {s t : State} (h : slaveTxByte Config.params s = .ok t) : DispatcherFrame s t := by
  unfold slaveTxByte at h
  split at h
  · obtain ⟨b, -, h⟩ := andThen_eq_ok h
    obtain rfl := Except.ok.inj h
    exact (sendByte_frame s b).trans (.withCursors _ rfl rfl rfl rfl rfl rfl rfl rfl)
  · obtain rfl := Except.ok.inj h
    exact sendByte_frame s _

theorem stx_frame {ev : EvWord} {s t : State} (h : stx Config.params ev s = .ok t) : DispatcherFrame s t := by
  unfold stx at h
  dsimp only at h
  split at h
  · obtain rfl := Except.ok.inj h
    exact ((setAck_frame s true).trans (clearFlag_frame _ .af)).trans (.setReady _)
  · split at h
    · exact (setAck_frame s true).trans (slaveTxByte_frame h)
    · obtain rfl := Except.ok.inj h
      exact setAck_frame s true

theorem srxData_frame {s t : State} (h : srxData Config.params s = .ok t) : DispatcherFrame s t := by
  unfold srxData at h
  dsimp only at h
  split at h
  · obtain ⟨u, hu, h⟩ := andThen_eq_ok h
    obtain rfl := Except.ok.inj h
    have h1 : DispatcherFrame s { u with ctx := { u.ctx with rxCur := u.ctx.rxCur + 1#16 } } :=
      ((recvByte_frame s).trans (.memWrite hu)).trans (.withCursors _ rfl rfl rfl rfl rfl rfl rfl rfl)
    exact h1.trans (setAck_frame _ true)
  · obtain rfl := Except.ok.inj h
    exact (recvByte_frame s).trans (setAck_frame _ false)

theorem onReceive_frame {s t : State} (h : onReceive Config.params s = .ok t) : DispatcherFrame s t := by
  unfold onReceive at h
  obtain ⟨bytes, -, h⟩ := andThen_eq_ok h
  obtain ⟨u, hu, h⟩ := andThen_eq_ok h
  obtain rfl := Except.ok.inj h
  have h1 : DispatcherFrame s u := by
    split at hu
    · obtain rfl := Except.ok.inj hu
      exact .refl s
    · unfold callOnReceive at hu
      split at hu
      · obtain rfl := Except.ok.inj hu
        exact ⟨rfl, rfl, rfl, rfl, ⟨[], by simp, by simp⟩, ⟨[], by simp⟩, rfl, rfl, rfl, rfl, rfl, .inl rfl,
          .inl rfl, .inl rfl, .refl _, id, id⟩
      · exact absurd hu (by simp)
  refine h1.trans ⟨rfl, rfl, rfl, rfl, ⟨[], by simp, by simp⟩, ⟨[.rx s.ctx.rxCur.toNat bytes], rfl⟩, rfl, rfl, rfl,
    rfl, rfl, .inl rfl, .inl rfl, .inl rfl, .refl _, id, id⟩

theorem srx_frame {ev : EvWord} {s t : State} (h : srx Config.params ev s = .ok t) : DispatcherFrame s t := by
  unfold srx at h
  obtain ⟨s1, h1, h⟩ := andThen_eq_ok h
  obtain ⟨s2, h2, h⟩ := andThen_eq_ok h
  obtain rfl := Except.ok.inj h
  have hs1 : DispatcherFrame s s1 := by
    split at h1
    · exact srxData_frame h1
    · obtain rfl := Except.ok.inj h1; exact .refl s
  have hs2 : DispatcherFrame s1 s2 := by
    split at h2
    · unfold srxStop at h2
      obtain ⟨u, hu, h2⟩ := andThen_eq_ok h2
      obtain rfl := Except.ok.inj h2
      exact (onReceive_frame hu).trans
        (.withCtx _ rfl rfl rfl rfl rfl (.inl rfl) (.inr (.inl rfl)) (.inl rfl))
    · obtain rfl := Except.ok.inj h2; exact .refl s1
  refine (hs1.trans hs2).trans ?_
  split
  · exact (clearFlag_frame s2 .af).trans (setAck_frame _ true)
  · exact .refl s2

theorem slaveRole_frame {ev : EvWord} {s t : State} (h : slaveRole Config.params ev s = .ok t) :
    DispatcherFrame s t := by
  unfold slaveRole at h
  obtain ⟨u, hu, h⟩ := andThen_eq_ok h
  have h1 : DispatcherFrame s u := by
    split at hu
    · exact slaveMatch_frame hu
    · obtain rfl := Except.ok.inj hu; exact .refl s
  split at h
  · exact h1.trans (stx_frame h)
  · exact h1.trans (srx_frame h)
  · obtain rfl := Except.ok.inj h; exact h1
  · obtain rfl := Except.ok.inj h; exact h1
  · obtain rfl := Except.ok.inj h; exact h1
  · exact absurd h (by simp)

theorem errEnds_frame (p : Config.Params) (s : State) : DispatcherFrame s (errEnds p s) := by
  unfold errEnds
  split
  · exact .setReady s
  · exact .refl s

theorem crossLatch_frame (ev : EvWord) (f : Flag) (e : ErrorCode) (s : State) (he : 3 ≤ e.code)
    (hf : f ≠ .sb ∧ f ≠ .msl := by decide) :
    DispatcherFrame s (crossLatch ev f e s) := by
  unfold crossLatch
  split
  · exact (DispatcherFrame.setErr s e he).trans (clearFlag_frame _ f hf)
  · exact .refl s

theorem cross_frame (p : Config.Params) (ev : EvWord) (s : State) : DispatcherFrame s (cross p ev s) := by
  have h1 : DispatcherFrame s (crossBerr p ev s) := by
    unfold crossBerr
    split
    · exact (((DispatcherFrame.issue s .genStop 0 (.genStop _)).trans (.setErr _ .busError (by decide))).trans
        (clearFlag_frame _ .berr)).trans (errEnds_frame p _)
    · exact .refl s
  have h2 : DispatcherFrame (crossBerr p ev s) (crossArlo p ev (crossBerr p ev s)) := by
    unfold crossArlo
    split
    · exact ((DispatcherFrame.setErr _ .arbitrationLost (by decide)).trans (clearFlag_frame _ .arlo)).trans
        (errEnds_frame p _)
    · exact .refl _
  exact ((((h1.trans h2).trans (crossLatch_frame ev .ovr .overrun _ (by decide))).trans
    (crossLatch_frame ev .pecerr .protocolCheckFailed _ (by decide))).trans
    (crossLatch_frame ev .timeout .timeout _ (by decide))).trans
    (crossLatch_frame ev .smbalert .alertAsserted _ (by decide))

/-- The entry keeps PE and PHASE (40_dispatcher R151). -/
theorem enterHandler_engine (s : State) :
    (enterHandler s).eng.pe = s.eng.pe ∧ (enterHandler s).eng.phase = s.eng.phase := by
  refine ⟨?_, ?_⟩ <;> simp [enterHandler, Engine.readEvent] <;> rfl

/-- What one whole invocation leaves alone and keeps. -/
theorem invoke_frame {s t : State} (h : invoke Config.params s = .ok t) : DispatcherFrame s t := by
  unfold invoke at h
  obtain ⟨u, hu, h⟩ := andThen_eq_ok h
  obtain rfl := Except.ok.inj h
  have h0 : DispatcherFrame s (enterHandler s) :=
    (DispatcherFrame.issue s .setNotify _ (.setNotify _ 7)).trans (.issue _ .readEvent 0 (.readEvent _))
  have h1 : DispatcherFrame (enterHandler s) u := by
    unfold roleBranch at hu
    split at hu
    · exact masterRole_frame hu
    · exact slaveRole_frame hu
  exact (h0.trans h1).trans (cross_frame _ _ u)

end Sys2Proof.Machine
end

