-- ==== Sys2Proof/Laws/Host.lean ====
section
/-! SUPPORT. The transaction invariant through the host's micro-steps, and what a command word that runs alone does. -/

namespace Sys2Proof.Machine

/-! ### The invariant without its clause on the command in progress -/

/-- The host with no command in progress. -/
def idleHost (s : State) : State := { s with host := { s.host with cmd := none } }

/-- The invariant, but for its clause on the command in progress. -/
abbrev BaseSound (s : State) : Prop := TransactionSound (idleHost s)

theorem TransactionSound.base {s : State} (h : TransactionSound s) : BaseSound s :=
  ⟨h.1, h.2, h.3, h.4, h.5, h.6, h.7, h.8, h.9, fun r hr => absurd hr (by simp [idleHost])⟩

/-- The invariant from its two halves. -/
theorem TransactionSound.of_base {s : State} (h : BaseSound s)
    (hc : ∀ r, s.host.cmd = some r → CommandSound s r) : TransactionSound s :=
  ⟨h.1, h.2, h.3, h.4, h.5, h.6, h.7, h.8, h.9, hc⟩

/-- The first half does not see the host. -/
theorem BaseSound.congr {s t : State} (h : BaseSound s) (hc : t.ctx = s.ctx) (hb : t.buf = s.buf) : BaseSound t := by
  obtain ⟨ctx, eng, buf, log, host, marks, client, port⟩ := t
  obtain rfl : ctx = s.ctx := hc
  obtain rfl : buf = s.buf := hb
  exact ⟨h.1, h.2, h.3, h.4, h.5, h.6, h.7, h.8, h.9, fun r hr => absurd hr (by simp [idleHost])⟩

/-- A command that returns leaves no command in progress. -/
theorem returnWith_sound {s : State} (h : BaseSound s) (r : HostResult) : TransactionSound (returnWith r s) :=
  TransactionSound.of_base (h.congr rfl rfl) fun q hq => absurd hq (by simp)

/-- Latching a command keeps the first half. -/
theorem latch_base {s : State} (h : TransactionSound s) (r : Config.Request) : BaseSound (latch r s) :=
  h.base.congr rfl rfl

/-! ### WRITE -/

@[simp] theorem lengthOf_toNat (len : BitVec 15) : (lengthOf len).toNat = len.toNat := by
  unfold lengthOf
  rw [BitVec.zeroExtend_eq_setWidth, BitVec.toNat_setWidth]
  exact Nat.mod_eq_of_lt (by have := len.isLt; omega)

theorem operands_of_cmd {h : HostLocal} {r : Config.Request} (hr : h.cmd = some r) : h.operands = r := by
  unfold HostLocal.operands
  rw [hr]

/-- The claim on a WRITE in progress, unfolded at its word. -/
theorem commandSound_write {s : State} {r : Config.Request} {a7 : Addr7} {stop wait : Bool} {len : BitVec 15}
    (hd : decode r.word = .ok (.write a7 stop wait len)) :
    CommandSound s r ↔ r.data.length = len.toNat ∧ len.toNat ≤ cap
      ∧ (s.host.step = .m2 ∨ s.host.step = .m3 ∨ s.host.step = .m4 ∨ s.host.step = .m5 ∨ s.host.step = .m6)
      ∧ (s.host.step = .m3 ∨ s.host.step = .m4 → s.ctx.state.isMaster = false)
      ∧ (s.host.step = .m4 → s.ctx.mFinal = false ∧ Written s .mbuf s.ctx.mLen.toNat) := by
  unfold CommandSound
  rw [hd]

/-- The claim on a READ in progress, unfolded at its word. -/
theorem commandSound_read {s : State} {r : Config.Request} {a7 : Addr7} {stop : Bool} {len : BitVec 15}
    (hd : decode r.word = .ok (.read a7 stop len)) :
    CommandSound s r ↔ len.toNat ≤ cap ∧ s.host.step ≠ .m1 ∧ (s.host.step ≠ .m2 → 1 ≤ len.toNat)
      ∧ (s.host.step = .m3 ∨ s.host.step = .m4 → s.ctx.state.isMaster = false)
      ∧ (s.host.step = .m4 → s.ctx.mFinal = false ∧ s.ctx.mLen.toNat < cap) := by
  unfold CommandSound
  rw [hd]

/-- What checking STATE answers. -/
theorem checkState_eq_ok {length : Half} {zero : HostResult} {s t : State} (h : checkState length zero s = .ok t) :
    (s.ctx.state = .ready ∧ length = 0#16 ∧ t = returnWith zero s)
      ∨ (s.ctx.state = .ready ∧ length ≠ 0#16 ∧ t = goTo .m3 s)
      ∨ (s.ctx.state ≠ .ready ∧ t = returnWith (.err .wrongState) s) := by
  unfold checkState at h
  rcases withState_eq s fun st => if st = .ready then
      if length = 0#16 then .ok (returnWith zero s) else .ok (goTo .m3 s)
    else .ok (returnWith (.err .wrongState) s) with ⟨v, -, he⟩ | ⟨-, he⟩
  · rw [he] at h; exact absurd h (by simp)
  · rw [he] at h
    split at h
    · split at h
      · exact .inl ⟨‹_›, ‹_›, (Except.ok.inj h).symm⟩
      · exact .inr (.inl ⟨‹_›, ‹_›, (Except.ok.inj h).symm⟩)
    · exact .inr (.inr ⟨‹_›, (Except.ok.inj h).symm⟩)

/-- The capacity check. -/
theorem checkCapacity_cases (p : Config.Params) (length : Half) (s : State) :
    (p.bufCap < length.toNat ∧ checkCapacity p length s = returnWith (.err .outOfCapacity) s)
      ∨ (length.toNat ≤ p.bufCap ∧ checkCapacity p length s = goTo .m2 s) := by
  unfold checkCapacity
  split
  · exact .inl ⟨‹_›, rfl⟩
  · exact .inr ⟨by omega, rfl⟩

/-- What admitting a command answers. -/
theorem whenAllowed_eq_ok {b : Bool} {s t : State} {k : Res State} (h : whenAllowed b s k = .ok t) :
    s.ctx.inited = true ∧ b = true ∧ k = .ok t := by
  unfold whenAllowed at h
  split at h
  · split at h
    · exact ⟨‹_›, ‹_›, h⟩
    · exact absurd h (by simp)
  · exact absurd h (by simp)

/-- The trigger touches RSF, the engine, ACTLOG and the micro-step index alone. -/
theorem trigger_frame (s : State) :
    (trigger s).buf = s.buf ∧ (trigger s).marks = s.marks ∧ (trigger s).client = s.client
      ∧ (trigger s).port = s.port ∧ (trigger s).host.cmd = s.host.cmd ∧ (trigger s).host.polls = s.host.polls
      ∧ (trigger s).host.result = s.host.result ∧ (trigger s).host.out = s.host.out
      ∧ (trigger s).ctx = { s.ctx with rsf := (trigger s).ctx.rsf }
      ∧ ((trigger s).host.step = .m6 ∨ trigger s = s) := by
  unfold trigger
  split
  · split
    · exact ⟨rfl, rfl, rfl, rfl, rfl, rfl, rfl, rfl, rfl, .inl rfl⟩
    · exact ⟨rfl, rfl, rfl, rfl, rfl, rfl, rfl, rfl, rfl, .inr rfl⟩
  · exact ⟨rfl, rfl, rfl, rfl, rfl, rfl, rfl, rfl, rfl, .inl rfl⟩

/-- Dropping RSF keeps the first half of the invariant. -/
theorem BaseSound.withRsf {s t : State} (h : BaseSound s) (hb : t.buf = s.buf) {b : Bool}
    (hc : t.ctx = { s.ctx with rsf := b }) : BaseSound t := by
  obtain ⟨ctx, eng, buf, log, host, marks, client, port⟩ := t
  obtain rfl : ctx = { s.ctx with rsf := b } := hc
  obtain rfl : buf = s.buf := hb
  exact ⟨h.1, h.2, h.3, h.4, h.5, h.6, h.7, h.8, h.9, fun r hr => absurd hr (by simp [idleHost])⟩

/-- Arming writes the transaction registers; before it, MBUF was loaded. -/
theorem arm_base {s u : State} (h : BaseSound s) (hu : u = { s with buf := u.buf })
    (hcell : ∀ n i, (s.cell n i).isSome = true → (u.cell n i).isSome = true) (hst : s.ctx.state.isMaster = false)
    (pa : Byte) (mLen : Half) (sendStop : Bool) (k : MicroStep) (hlen : mLen.toNat ≤ cap) :
    BaseSound (goTo k (arm pa mLen sendStop u)) := by
  have hctx : u.ctx = s.ctx := by have h1 := congrArg State.ctx hu; exact h1
  have hb := h.bounds
  refine ⟨?_, ?_, ?_, ?_, ?_, ?_, ?_, ?_, ?_, fun r hr => absurd hr (by simp [idleHost])⟩
  · intro v hv
    exact h.stateNamed v ((congrArg Context.state hctx).symm.trans hv)
  · refine ⟨Nat.zero_le _, hlen, ?_, ?_, ?_⟩
    · show u.ctx.txCur ≤ u.ctx.txLen
      rw [hctx]; exact hb.2.2.1
    · show u.ctx.txLen.toNat ≤ _
      rw [hctx]; exact hb.2.2.2.1
    · show u.ctx.rxCur.toNat ≤ _
      rw [hctx]; exact hb.2.2.2.2
  · exact fun hn => absurd hn (by simp [idleHost])
  · exact fun hn => absurd hn (by simp [idleHost])
  · intro hs
    have hs : u.ctx.state = .masterTransmitting := hs
    rw [hctx] at hs
    rw [hs] at hst
    exact absurd hst (by decide)
  · intro hs
    have hs : u.ctx.state = .masterReceiving := hs
    rw [hctx] at hs
    rw [hs] at hst
    exact absurd hst (by decide)
  · exact fun i hi => absurd hi (Nat.not_lt_zero i)
  · intro i hi
    have hi : i < u.ctx.txLen.toNat := hi
    rw [hctx] at hi
    exact hcell .txbuf i (h.txStored i hi)
  · intro i hi
    have hi : i < u.ctx.rxCur.toNat := hi
    rw [hctx] at hi
    exact hcell .rxbuf i (h.rxStored i hi)

/-- Entering a master role: the armed fields are what the role needs. -/
theorem enterRole_base {s : State} (h : BaseSound s) (st : ControllerState) (hst : st.isMaster = true)
    (hf : s.ctx.mFinal = false) (htx : st = .masterTransmitting → Written s .mbuf s.ctx.mLen.toNat)
    (hrx : st = .masterReceiving → s.ctx.mLen.toNat < cap) : BaseSound (enterRole st s) := by
  refine ⟨?_, h.bounds, h.noAckPending, ?_, fun hs => htx hs, fun hs => hrx hs, h.masterStored, h.txStored,
    h.rxStored, fun r hr => absurd hr (by simp [idleHost])⟩
  · rintro v rfl
    exact absurd hst (by simp [ControllerState.isMaster])
  · exact fun hn => absurd (hf.symm.trans hn) (by decide)

/-- Every micro-step of WRITE keeps the invariant; its first one is taken as soon as the command is latched. -/
theorem writeStep_sound {a7 : Addr7} {stop wait : Bool} {len : BitVec 15} {r : Config.Request} {s t : State}
    (hr : s.host.cmd = some r) (hd : decode r.word = .ok (.write a7 stop wait len)) (hb : BaseSound s)
    (h : s.host.step = .m1 ∨ TransactionSound s)
    (ht : writeStep Config.params a7 stop wait (lengthOf len) s = .ok t) : TransactionSound t := by
  have hcs : s.host.step ≠ .m1 → CommandSound s r := fun hne => (h.resolve_left hne).command r hr
  rw [commandSound_write hd] at hcs
  have keep : ∀ u : State, BaseSound u → u.host.cmd = some r → CommandSound u r → TransactionSound u :=
    fun u hu hur hc => TransactionSound.of_base hu fun q hq => by
      obtain rfl := Option.some.inj (hur.symm.trans hq); exact hc
  unfold writeStep at ht
  split at ht
  · obtain ⟨-, hshape, ht⟩ := whenAllowed_eq_ok ht
    obtain rfl := Except.ok.inj ht
    rw [operands_of_cmd hr] at hshape
    rcases checkCapacity_cases Config.params (lengthOf len) s with ⟨-, he⟩ | ⟨hle, he⟩ <;> rw [he]
    · exact returnWith_sound hb _
    · refine keep _ (hb.congr rfl rfl) hr ((commandSound_write hd).2 ⟨by simpa using hshape, by simpa using hle,
        .inl rfl, fun hk => ?_, fun hk => ?_⟩)
      · exact absurd hk (by simp)
      · exact absurd hk (by simp)
  · rename_i hs
    obtain ⟨h1, h2, -⟩ := hcs (by simp [hs])
    rcases checkState_eq_ok ht with ⟨-, -, rfl⟩ | ⟨hst, -, rfl⟩ | ⟨-, rfl⟩
    · exact returnWith_sound hb _
    · refine keep _ (hb.congr rfl rfl) hr ((commandSound_write hd).2 ⟨h1, h2, .inr (.inl rfl), fun _ => ?_,
        fun hk => absurd hk (by simp)⟩)
      show s.ctx.state.isMaster = false
      rw [hst]; rfl
    · exact returnWith_sound hb _
  · rename_i hs
    obtain ⟨h1, h2, -, h4, -⟩ := hcs (by simp [hs])
    have hst := h4 (.inl hs)
    unfold armWrite at ht
    obtain ⟨u, hu, ht⟩ := andThen_eq_ok ht
    obtain rfl := Except.ok.inj ht
    rw [operands_of_cmd hr] at hu
    obtain ⟨-, hframe, -, hcell⟩ := memWriteSeq_eq_ok hu
    have hctx : u.ctx = s.ctx := by have h1 := congrArg State.ctx hframe; exact h1
    have hhost : u.host = s.host := by have h1 := congrArg State.host hframe; exact h1
    have hlen : (r.data.take (lengthOf len).toNat).length = len.toNat := by simp [h1]
    have hmono : ∀ n i, (s.cell n i).isSome = true → (u.cell n i).isSome = true := by
      intro n i hi
      rw [hcell]
      split
      · rename_i hin
        simp only [hlen] at hin
        simp [h1]
        omega
      · exact hi
    refine keep _ (arm_base hb hframe hmono hst _ _ _ _ (by simpa using h2)) ?_ ((commandSound_write hd).2
      ⟨h1, h2, .inr (.inr (.inl rfl)), fun _ => ?_, fun _ => ⟨rfl, fun i hi => ?_⟩⟩)
    · show u.host.cmd = _
      rw [hhost]; exact hr
    · show u.ctx.state.isMaster = false
      rw [hctx]; exact hst
    · have hi : i < len.toNat := by simpa using hi
      refine (congrArg Option.isSome (hcell .mbuf i)).trans ?_
      rw [hlen, if_pos ⟨rfl, Nat.zero_le _, by omega⟩]
      simp [h1, hi]
  · rename_i hs
    obtain ⟨h1, h2, -, -, h5⟩ := hcs (by simp [hs])
    obtain rfl := Except.ok.inj ht
    refine keep _ (enterRole_base hb _ rfl (h5 hs).1 (fun _ => (h5 hs).2) (fun h => by simp at h)) hr
      ((commandSound_write hd).2 ⟨h1, h2, .inr (.inr (.inr (.inl rfl))), fun hk => absurd hk ?_, fun hk => absurd hk ?_⟩)
    · simp [enterRole]
    · simp [enterRole]
  · rename_i hs
    obtain ⟨h1, h2, h3, h4, h5⟩ := hcs (by simp [hs])
    obtain rfl := Except.ok.inj ht
    obtain ⟨hbuf, -, -, -, hcmd, -, -, -, hctx, hstep⟩ := trigger_frame s
    refine keep _ (hb.withRsf hbuf hctx) (hcmd.trans hr) ?_
    rcases hstep with hstep | heq
    · exact (commandSound_write hd).2 ⟨h1, h2, by simp [hstep], by simp [hstep], by simp [hstep]⟩
    · rw [heq]; exact (commandSound_write hd).2 ⟨h1, h2, h3, h4, h5⟩
  · rename_i hs
    unfold finishWrite at ht
    split at ht
    · rcases withState_eq s fun st => if st = .ready then
          if s.ctx.err = .none then .ok (returnWith .ok s) else .ok (returnWith (.err s.ctx.err) s)
        else .ok s with ⟨v, -, he⟩ | ⟨-, he⟩
      · rw [he] at ht; exact absurd ht (by simp)
      · rw [he] at ht
        split at ht
        · split at ht
          · obtain rfl := Except.ok.inj ht; exact returnWith_sound hb _
          · obtain rfl := Except.ok.inj ht; exact returnWith_sound hb _
        · obtain rfl := Except.ok.inj ht
          exact h.resolve_left (by simp [hs])
    · obtain rfl := Except.ok.inj ht; exact returnWith_sound hb _
  · exact absurd ht (by simp)
  · exact absurd ht (by simp)

/-! ### READ -/

theorem deliver_sound {p : Config.Params} {n : Nat} {s t : State} (hb : BaseSound s) (ht : deliver p n s = .ok t) :
    TransactionSound t := by
  unfold deliver at ht
  obtain ⟨bytes, -, ht⟩ := andThen_eq_ok ht
  obtain rfl := Except.ok.inj ht
  have h1 : BaseSound { s with host := { s.host with out := copyOut bytes s.host.out } } := hb.congr rfl rfl
  exact returnWith_sound h1 _

/-- What one poll answers. -/
theorem poll_eq_ok {p : Config.Params} {s t : State} (h : poll p s = .ok t) :
    (s.ctx.state = .ready ∧ t = goTo .m7 s) ∨ (s.ctx.state ≠ .ready ∧ t = goTo .m8 s)
      ∨ (s.ctx.state ≠ .ready ∧ t = { s with host := { s.host with polls := s.host.polls + 1 } }) := by
  unfold poll at h
  rcases withState_eq s fun st => if st = .ready then .ok (goTo .m7 s)
    else if s.host.operands.timeoutMs ≠ Config.timeoutInf
        ∧ pollLimit p s.host.operands.timeoutMs ≤ s.host.polls then .ok (goTo .m8 s)
    else .ok { s with host := { s.host with polls := s.host.polls + 1 } } with ⟨v, -, he⟩ | ⟨-, he⟩
  · rw [he] at h; exact absurd h (by simp)
  · rw [he] at h
    split at h
    · exact .inl ⟨‹_›, (Except.ok.inj h).symm⟩
    · split at h
      · exact .inr (.inl ⟨‹_›, (Except.ok.inj h).symm⟩)
      · exact .inr (.inr ⟨‹_›, (Except.ok.inj h).symm⟩)

/-- Every micro-step of READ keeps the invariant; its first one is taken as soon as the command is latched. -/
theorem readStep_sound {a7 : Addr7} {stop : Bool} {len : BitVec 15} {r : Config.Request} {s t : State}
    (hr : s.host.cmd = some r) (hd : decode r.word = .ok (.read a7 stop len)) (hb : BaseSound s)
    (h : s.host.step = .m1 ∨ TransactionSound s)
    (ht : readStep Config.params a7 stop (lengthOf len) s = .ok t) : TransactionSound t := by
  have hcs : s.host.step ≠ .m1 → CommandSound s r := fun hne => (h.resolve_left hne).command r hr
  rw [commandSound_read hd] at hcs
  have keep : ∀ u : State, BaseSound u → u.host.cmd = some r → CommandSound u r → TransactionSound u :=
    fun u hu hur hc => TransactionSound.of_base hu fun q hq => by
      obtain rfl := Option.some.inj (hur.symm.trans hq); exact hc
  unfold readStep at ht
  split at ht
  · obtain ⟨-, -, ht⟩ := whenAllowed_eq_ok ht
    obtain rfl := Except.ok.inj ht
    rcases checkCapacity_cases Config.params (lengthOf len) s with ⟨-, he⟩ | ⟨hle, he⟩ <;> rw [he]
    · exact returnWith_sound hb _
    · exact keep _ (hb.congr rfl rfl) hr ((commandSound_read hd).2 ⟨by simpa using hle, by simp, by simp, by simp,
        by simp⟩)
  · rename_i hs
    obtain ⟨h1, -⟩ := hcs (by simp [hs])
    rcases checkState_eq_ok ht with ⟨-, -, rfl⟩ | ⟨hst, hne, rfl⟩ | ⟨-, rfl⟩
    · exact returnWith_sound hb _
    · refine keep _ (hb.congr rfl rfl) hr ((commandSound_read hd).2 ⟨h1, by simp, fun _ => ?_, fun _ => ?_, by simp⟩)
      · by_contra hlt
        have h0 : len.toNat = 0 := by omega
        exact hne (BitVec.eq_of_toNat_eq (by simpa using h0))
      · show s.ctx.state.isMaster = false
        rw [hst]; rfl
    · exact returnWith_sound hb _
  · rename_i hs
    obtain ⟨h1, -, h3, h4, -⟩ := hcs (by simp [hs])
    have hst := h4 (.inl hs)
    have hpos := h3 (by simp [hs])
    have hm : (lengthOf len - 1#16).toNat = len.toNat - 1 := by
      have := lengthOf_toNat len
      bv_omega
    obtain rfl := Except.ok.inj ht
    refine keep _ (arm_base (u := s) hb rfl (fun _ _ hi => hi) hst _ _ _ _ (by rw [hm]; omega)) hr
      ((commandSound_read hd).2 ⟨h1, by simp [armRead], fun _ => hpos, fun _ => hst, fun _ => ⟨rfl, ?_⟩⟩)
    show (lengthOf len - 1#16).toNat < cap
    rw [hm]; omega
  · rename_i hs
    obtain ⟨h1, -, h3, -, h5⟩ := hcs (by simp [hs])
    obtain rfl := Except.ok.inj ht
    exact keep _ (enterRole_base hb _ rfl (h5 hs).1 (fun h => by simp at h) (fun _ => (h5 hs).2)) hr
      ((commandSound_read hd).2 ⟨h1, by simp [enterRole], fun _ => h3 (by simp [hs]), by simp [enterRole],
        by simp [enterRole]⟩)
  · rename_i hs
    obtain ⟨h1, h2, h3, h4, h5⟩ := hcs (by simp [hs])
    obtain rfl := Except.ok.inj ht
    obtain ⟨hbuf, -, -, -, hcmd, -, -, -, hctx, hstep⟩ := trigger_frame s
    have h6 : BaseSound (trigger s) := hb.withRsf hbuf hctx
    unfold triggerRead
    dsimp only
    split
    · rename_i hm6
      exact keep _ (h6.congr rfl rfl) (hcmd.trans hr) ((commandSound_read hd).2 ⟨h1, by simp [hm6],
        fun _ => h3 (by simp [hs]), by simp [hm6], by simp [hm6]⟩)
    · rename_i hm6
      rw [hstep.resolve_left hm6]
      exact h.resolve_left (by simp [hs])
  · rename_i hs
    obtain ⟨h1, h2, h3, h4, h5⟩ := hcs (by simp [hs])
    have h3 := h3 (by simp [hs])
    rcases poll_eq_ok ht with ⟨-, rfl⟩ | ⟨-, rfl⟩ | ⟨-, rfl⟩
    · exact keep _ (hb.congr rfl rfl) hr ((commandSound_read hd).2 ⟨h1, by simp, fun _ => h3, by simp, by simp⟩)
    · exact keep _ (hb.congr rfl rfl) hr ((commandSound_read hd).2 ⟨h1, by simp, fun _ => h3, by simp, by simp⟩)
    · exact keep _ (hb.congr rfl rfl) hr ((commandSound_read hd).2 ⟨h1, h2, fun _ => h3, h4, h5⟩)
  · unfold finishRead at ht
    split at ht
    · exact deliver_sound hb ht
    · obtain rfl := Except.ok.inj ht; exact returnWith_sound hb _
  · exact deliver_sound hb ht

/-! ### Every command -/

/-- A primitive word that runs alone is its primitive issued by the bus's issuer, with what it returns; the reply
register keeps its value where the primitive returns nothing. -/
theorem exec_primitive_eq {i : Instr} {s t : State} (hi : i.isPrimitive = true) (h : exec i s = .next t) :
    ∃ p arg f v, t = withReply v (issue s.port.issuer p arg f s) := by
  have keep : ∀ (p : Prim) (arg : BitVec 8) (f : Engine → Engine), Host.Outcome.next (φ := Fault) (ρ := Refusal)
      (issue s.port.issuer p arg f s) = .next t → ∃ p arg f v, t = withReply v (issue s.port.issuer p arg f s) := by
    intro p arg f he
    refine ⟨p, arg, f, s.port.reply, ?_⟩
    injection he with he
    rw [← he]; rfl
  cases i with
  | sendByte b => exact keep _ _ _ h
  | recvByte => injection h with he; exact ⟨_, _, _, _, he.symm⟩
  | genStart => exact keep _ _ _ h
  | genStop => exact keep _ _ _ h
  | setAck e => exact keep _ _ _ h
  | clearFlag k =>
    simp only [exec, execClearFlag] at h
    split at h
    · exact keep _ _ _ h
    · exact absurd h (by simp)
  | setNotify m => exact keep _ _ _ h
  | readEvent => injection h with he; exact ⟨_, _, _, _, he.symm⟩
  | setOwnAddr a => exact keep _ _ _ h
  | setEnable e => exact keep _ _ _ h
  | init | write | read | registerCallbacks | status => exact absurd hi (by simp [Instr.isPrimitive])

/-- What INIT answers. -/
theorem initStep_eq_ok {a7 : Addr7} {s t : State} (h : initStep a7 s = .ok t) :
    s.ctx.inited = false ∧ t.buf = s.buf ∧ t.ctx = { s.ctx with inited := true } ∧ t.host.cmd = none
      ∧ t.marks = s.marks ∧ t.port = s.port ∧ t.client = s.client := by
  unfold initStep at h
  split at h
  · exact absurd h (by simp)
  · rename_i hi
    obtain rfl := Except.ok.inj h
    exact ⟨by simpa using hi, rfl, rfl, rfl, rfl, rfl, rfl⟩

/-- A host command keeps the invariant in every micro-step. -/
theorem exec_host_sound {i : Instr} {r : Config.Request} {s t : State} (hi : i.isPrimitive = false)
    (hr : s.host.cmd = some r) (hd : decode r.word = .ok i) (hb : BaseSound s)
    (h : s.host.step = .m1 ∨ TransactionSound s) (ht : exec i s = .next t) : TransactionSound t := by
  cases i with
  | init a7 =>
    obtain ⟨-, hbuf, hctx, hcmd, -⟩ := initStep_eq_ok (toOutcome_next ht)
    refine TransactionSound.of_base ?_ fun q hq => absurd (hcmd.symm.trans hq) (by simp)
    obtain ⟨ctx, eng, buf, log, host, marks, client, port⟩ := t
    obtain rfl : ctx = { s.ctx with inited := true } := hctx
    obtain rfl : buf = s.buf := hbuf
    exact ⟨hb.1, hb.2, hb.3, hb.4, hb.5, hb.6, hb.7, hb.8, hb.9, fun r hr => absurd hr (by simp [idleHost])⟩
  | write a7 stop wait len => exact writeStep_sound hr hd hb h (toOutcome_next ht)
  | read a7 stop len => exact readStep_sound hr hd hb h (toOutcome_next ht)
  | registerCallbacks =>
    injection ht with ht
    subst ht
    refine returnWith_sound ?_ _
    exact ⟨hb.1, hb.2, hb.3, hb.4, hb.5, hb.6, hb.7, hb.8, hb.9, fun r hr => absurd hr (by simp [idleHost])⟩
  | status =>
    have ht := toOutcome_next ht
    rcases withState_eq s fun st => (Except.ok (returnWith (.okStatus st s.ctx.err s.ctx.count) s) : Res State) with
      ⟨v, -, he⟩ | ⟨-, he⟩
    · rw [he] at ht; exact absurd ht (by simp)
    · rw [he] at ht
      obtain rfl := Except.ok.inj ht
      exact returnWith_sound hb _
  | sendByte | recvByte | genStart | genStop | setAck | clearFlag | setNotify | readEvent | setOwnAddr | setEnable =>
    exact absurd hi (by simp [Instr.isPrimitive])

/-! ### For claims about one micro-step -/

/-- The address byte a command arms: the address shifted left, the direction in bit 0 (20_memory R96). -/
theorem pendingAddress_toNat (a7 : Addr7) (b : Bool) : (pendingAddress a7 b).toNat = a7.toNat * 2 + b.toNat := by
  revert a7
  cases b <;> decide

/-- The length operand is 0 exactly as a number. -/
theorem lengthOf_eq_zero (len : BitVec 15) : lengthOf len = 0#16 ↔ len.toNat = 0 := by
  constructor
  · intro h; rw [← lengthOf_toNat, h]; rfl
  · intro h; apply BitVec.eq_of_toNat_eq; rw [lengthOf_toNat, h]; rfl

/-- With STATE named, a rule that depends on it goes on. -/
theorem withState_named {α : Type} {s : State} (f : ControllerState → Res α) (h : ∀ v, s.ctx.state ≠ .unused v) :
    withState s f = f s.ctx.state := by
  rcases withState_eq s f with ⟨v, hv, -⟩ | ⟨-, he⟩
  · exact absurd hv (h v)
  · exact he

/-- The copy-out keeps the length of the host's array. -/
theorem copyOut_length (bytes out : List Byte) : (copyOut bytes out).length = out.length := by
  simp only [copyOut, List.length_append, List.length_take, List.length_drop]
  omega

/-- The copy-out, element by element (41_master_api R204). -/
theorem copyOut_getElem? (bytes out : List Byte) {k : Nat} (hk : k < out.length) :
    (copyOut bytes out)[k]? = if k < bytes.length then bytes[k]? else out[k]? := by
  unfold copyOut
  rw [List.getElem?_append]
  split
  · rename_i h
    simp only [List.length_take, lt_min_iff] at h
    rw [if_pos h.2, List.getElem?_take, if_pos h.1]
  · rename_i h
    simp only [List.length_take, lt_min_iff, not_and] at h
    have h2 := h hk
    rw [if_neg h2, List.getElem?_drop]
    congr 1
    simp only [List.length_take]
    omega

/-- BUF_CAP fits the length registers (00_scope R9). -/
theorem bufCap_le (p : Config.Params) : 1 ≤ p.bufCap ∧ p.bufCap ≤ 32767 := by
  have h := p.bufCapPred.isLt
  unfold Config.Params.bufCap
  omega

end Sys2Proof.Machine
end

