-- ==== Sys2Proof/Laws/Step.lean ====
section
/-! SUPPORT. What a step can do, said once; and where the handlers stop, from a sound transaction state. -/

namespace Sys2Proof.Machine

/-! ### A step, by the agent that takes it -/

/-- Taking the next move touches the port alone. -/
theorem nextMove_frame (s : State) : (nextMove s).2 = { s with port := (nextMove s).2.port } := by
  unfold nextMove
  split <;> rfl

/-- Choosing a move leaves the internal bus. -/
theorem nextMove_bus (s : State) : (nextMove s).2.port.bus = s.port.bus := by
  unfold nextMove
  split <;> rfl

/-- The six things a step can be: a step not enabled, a primitive on the internal bus, the first micro-step of a command
just issued, the next micro-step of the command in progress, a dispatcher invocation, an engine step. -/
theorem step_next {s t : State} (h : step s = .next t) :
    ∃ u : State, u = { s with port := u.port } ∧ u.port.bus = none ∧
      (t = u
        ∨ (∃ i, i.isPrimitive = true ∧ s.port.bus ≠ none ∧ exec i u = .next t)
        ∨ (∃ r i, decode r.word = .ok i ∧ i.isPrimitive = false ∧ u.host.cmd = none ∧ exec i (latch r u) = .next t)
        ∨ (∃ r i, u.host.cmd = some r ∧ decode r.word = .ok i ∧ i.isPrimitive = false ∧ exec i u = .next t)
        ∨ (u.eng.deliverable = true ∧ invoke Config.params u = .ok t)
        ∨ (∃ m, runEngine Config.params m u = some t)) := by
  unfold step advance at h
  split at h
  · rename_i w hw
    refine ⟨{ s with port := { s.port with bus := none } }, rfl, rfl, .inr (.inl ?_)⟩
    unfold runBus at h
    split at h
    · exact absurd h (by simp)
    · rename_i i hi
      split at h
      · exact ⟨i, ‹_›, by simp [hw], h⟩
      · exact absurd h (by simp)
  · rename_i hw
    refine ⟨(nextMove s).2, nextMove_frame s, (nextMove_bus s).trans hw, ?_⟩
    clear hw
    generalize (nextMove s).2 = u at *
    unfold perform at h
    split at h
    · rename_i r _
      unfold issueCommand at h
      split at h
      · exact absurd h (by simp)
      · rename_i i hi
        split at h
        · exact absurd h (by simp)
        · split at h
          · exact absurd h (by simp)
          · exact .inr (.inr (.inl ⟨r, i, hi, by simp_all, by simp_all, h⟩))
    · unfold hostMove at h
      split at h
      · injection h with h; exact .inl h.symm
      · rename_i r hr
        split at h
        · exact absurd h (by simp)
        · rename_i i hi
          split at h
          · exact absurd h (by simp)
          · exact .inr (.inr (.inr (.inl ⟨r, i, hr, hi, by simp_all, h⟩)))
    · unfold dispatchMove at h
      split at h
      · exact .inr (.inr (.inr (.inr (.inl ⟨‹_›, toOutcome_next h⟩))))
      · injection h with h; exact .inl h.symm
    · rename_i m _
      unfold engineMove at h
      split at h
      · rename_i v hv
        injection h with h
        exact .inr (.inr (.inr (.inr (.inr ⟨m, h ▸ hv⟩))))
      · injection h with h; exact .inl h.symm

/-- Where a step can fault: in a command or in an invocation. -/
theorem step_fault {s : State} {f : Fault} (h : step s = .fault f) :
    ∃ u : State, u = { s with port := u.port } ∧
      ((∃ i, i.isPrimitive = true ∧ exec i u = .fault f)
        ∨ (∃ r i, decode r.word = .ok i ∧ i.isPrimitive = false ∧ u.host.cmd = none ∧ exec i (latch r u) = .fault f)
        ∨ (∃ r i, u.host.cmd = some r ∧ decode r.word = .ok i ∧ i.isPrimitive = false ∧ exec i u = .fault f)
        ∨ (u.eng.deliverable = true ∧ invoke Config.params u = .error (.fault f))) := by
  unfold step advance at h
  split at h
  · refine ⟨{ s with port := { s.port with bus := none } }, rfl, .inl ?_⟩
    unfold runBus at h
    split at h
    · exact absurd h (by simp)
    · rename_i i hi
      split at h
      · exact ⟨i, ‹_›, h⟩
      · exact absurd h (by simp)
  · refine ⟨(nextMove s).2, nextMove_frame s, ?_⟩
    generalize (nextMove s).2 = u at *
    unfold perform at h
    split at h
    · rename_i r _
      unfold issueCommand at h
      split at h
      · exact absurd h (by simp)
      · rename_i i hi
        split at h
        · exact absurd h (by simp)
        · split at h
          · exact absurd h (by simp)
          · exact .inr (.inl ⟨r, i, hi, by simp_all, by simp_all, h⟩)
    · unfold hostMove at h
      split at h
      · exact absurd h (by simp)
      · rename_i r hr
        split at h
        · exact absurd h (by simp)
        · rename_i i hi
          split at h
          · exact absurd h (by simp)
          · exact .inr (.inr (.inl ⟨r, i, hr, hi, by simp_all, h⟩))
    · unfold dispatchMove at h
      split at h
      · exact .inr (.inr (.inr ⟨‹_›, toOutcome_eq_fault h⟩))
      · exact absurd h (by simp)
    · unfold engineMove at h
      split at h
      · exact absurd h (by simp)
      · exact absurd h (by simp)

/-- Where a step can be refused: at the decoder, at the port, in a command or in an invocation. -/
theorem step_refused {s : State} {f : Refusal} (h : step s = .refused f) :
    ∃ u : State, u = { s with port := u.port } ∧
      ((∃ why, f = .reservedEncoding why) ∨ f = .hostPrimitive ∨ f = .notPrimitive ∨ f = .hostBusy
        ∨ (∃ i, i.isPrimitive = true ∧ exec i u = .refused f)
        ∨ (∃ r i, decode r.word = .ok i ∧ i.isPrimitive = false ∧ u.host.cmd = none
            ∧ exec i (latch r u) = .refused f)
        ∨ (∃ r i, u.host.cmd = some r ∧ decode r.word = .ok i ∧ i.isPrimitive = false ∧ exec i u = .refused f)
        ∨ (u.eng.deliverable = true ∧ invoke Config.params u = .error (.refuse f))) := by
  unfold step advance at h
  split at h
  · refine ⟨{ s with port := { s.port with bus := none } }, rfl, ?_⟩
    unfold runBus at h
    split at h
    · injection h with h; exact .inl ⟨_, h.symm⟩
    · rename_i i hi
      split at h
      · exact .inr (.inr (.inr (.inr (.inl ⟨i, ‹_›, h⟩))))
      · injection h with h; exact .inr (.inr (.inl h.symm))
  · refine ⟨(nextMove s).2, nextMove_frame s, ?_⟩
    generalize (nextMove s).2 = u at *
    unfold perform at h
    split at h
    · rename_i r _
      unfold issueCommand at h
      split at h
      · injection h with h; exact .inl ⟨_, h.symm⟩
      · rename_i i hi
        split at h
        · injection h with h; exact .inr (.inl h.symm)
        · split at h
          · injection h with h; exact .inr (.inr (.inr (.inl h.symm)))
          · exact .inr (.inr (.inr (.inr (.inr (.inl ⟨r, i, hi, by simp_all, by simp_all, h⟩)))))
    · unfold hostMove at h
      split at h
      · exact absurd h (by simp)
      · rename_i r hr
        split at h
        · injection h with h; exact .inl ⟨_, h.symm⟩
        · rename_i i hi
          split at h
          · injection h with h; exact .inr (.inl h.symm)
          · exact .inr (.inr (.inr (.inr (.inr (.inr (.inl ⟨r, i, hr, hi, by simp_all, h⟩))))))
    · unfold dispatchMove at h
      split at h
      · exact .inr (.inr (.inr (.inr (.inr (.inr (.inr ⟨‹_›, toOutcome_eq_refused h⟩))))))
      · exact absurd h (by simp)
    · unfold engineMove at h
      split at h
      · exact absurd h (by simp)
      · exact absurd h (by simp)

/-! ### Where the handlers stop -/

/-- The refusals of a client outside its contract (41_master_api R212, R213). -/
def ClientStop (e : Halt) : Prop :=
  e = .refuse .callbackContract ∨ e = .refuse .callbackShape ∨ e = .refuse .callbackOverflow

theorem txNext_stops {s : State} {e : Halt} (h : TransactionSound s) (hst : s.ctx.state = .masterTransmitting) :
    txNext Config.params s ≠ .error e := by
  unfold txNext
  split
  · rename_i hlt
    have hb := h.bounds
    have hlt : s.ctx.mCur.toNat < s.ctx.mLen.toNat := hlt
    obtain ⟨b, hb'⟩ := Option.isSome_iff_exists.1 (h.transmitLoaded hst _ hlt)
    have hcap : s.ctx.mLen.toNat ≤ Config.params.bufCap := hb.2.1
    rw [memRead_eq_ok.2 ⟨by omega, hb'⟩]
    simp
  · simp

theorem mtx_stops {ev : EvWord} {s : State} {e : Halt} (h : TransactionSound s)
    (hst : s.ctx.state = .masterTransmitting) : mtx Config.params ev s ≠ .error e := by
  unfold mtx
  split
  · simp
  · split
    · exact txNext_stops h hst
    · simp

theorem rxStore_stops {s : State} {e : Halt} (h : TransactionSound s) (hlt : s.ctx.mCur < s.ctx.mLen) :
    rxStore Config.params s ≠ .error e := by
  intro ht
  unfold rxStore at ht
  split at ht
  · rename_i hle
    exact absurd hlt (BitVec.not_lt.2 hle)
  · rcases andThen_eq_error ht with ht | ⟨u, hu, ht⟩
    · obtain ⟨hcap, -⟩ := memWrite_eq_error ht
      have h2 : s.ctx.mLen.toNat ≤ Config.params.bufCap := h.bounds.2.1
      have hlt : s.ctx.mCur.toNat < s.ctx.mLen.toNat := by bv_omega
      omega
    · dsimp only at ht
      split at ht <;> exact absurd ht (by simp)

theorem finalCapture_stops {s : State} {e : Halt} (h : s.ctx.mLen.toNat < cap) :
    finalCapture Config.params s ≠ .error e := by
  unfold finalCapture
  intro ht
  rcases andThen_eq_error ht with ht | ⟨u, hu, ht⟩
  · obtain ⟨hcap, -⟩ := memWrite_eq_error ht
    unfold cap at h
    omega
  · exact absurd ht (by simp)

theorem mrxNack_stops {ev : EvWord} {nackp0 : Bool} {s : State} {e : Halt} (h : s.ctx.mLen.toNat < cap) :
    mrxNack Config.params ev nackp0 s ≠ .error e := by
  unfold mrxNack
  intro ht
  dsimp only at ht
  split at ht
  · split at ht
    · exact absurd ht (by simp)
    · rcases andThen_eq_error ht with ht | ⟨u, hu, ht⟩
      · exact finalCapture_stops (s := issueClearFlag .dispatcher (flagOperand .af) s) h ht
      · exact absurd ht (by simp)
  · split at ht <;> exact absurd ht (by simp)

/-- MRX never stops: a byte it takes has room, for the final byte (R162) and for the one before (R179 (b)). -/
theorem mrx_stops {ev : EvWord} {s : State} {e : Halt} (h : TransactionSound s)
    (hst : s.ctx.state = .masterReceiving) : mrx Config.params ev s.ctx.nackp s ≠ .error e := by
  intro ht
  unfold mrx at ht
  dsimp only at ht
  have h1 : TransactionSound (if evHas ev .addr then mrxAddr s else s) := by
    split
    · exact mrxAddr_sound h hst
    · exact h
  have hcur : (if evHas ev .addr then mrxAddr s else s).ctx.mCur = s.ctx.mCur := by
    split
    · exact (mrxAddr_keeps s).2.1
    · rfl
  have hlen : (if evHas ev .addr then mrxAddr s else s).ctx.mLen = s.ctx.mLen := by
    split
    · exact (mrxAddr_keeps s).2.2.1
    · rfl
  generalize (if evHas ev .addr then mrxAddr s else s) = s1 at *
  rcases andThen_eq_error ht with ht | ⟨u, hu, ht⟩
  · split at ht
    · rename_i hrx
      have hdue : rxDue s.ctx.nackp s.ctx = true := ((Bool.and_eq_true ..).mp hrx).2
      unfold mrxData at ht
      split at ht
      · rcases andThen_eq_error ht with ht | ⟨u, hu, ht⟩
        · exact absurd ht (finalCapture_stops (by rw [hlen]; exact h.receiveFits hst))
        · exact absurd ht (by simp)
      · rename_i hn
        refine absurd ht (rxStore_stops h1 ?_)
        rw [hcur, hlen]
        exact h.rxDue_lt (by simpa using hn) hdue
    · exact absurd ht (by simp)
  · split at ht
    · refine absurd ht (mrxNack_stops ?_)
      have hu' : DispatcherFrame s1 u := by
        split at hu
        · exact mrxData_frame hu
        · obtain rfl := Except.ok.inj hu; exact .refl _
      rw [hu'.mLen, hlen]
      exact h.receiveFits hst
    · exact absurd ht (by simp)

theorem slaveMatch_stops {ev : EvWord} {s : State} {e : Halt} (ht : slaveMatch Config.params ev s = .error e) :
    ClientStop e := by
  unfold slaveMatch at ht
  split at ht
  · unfold slaveMatchTx at ht
    dsimp only at ht
    split at ht
    · exact absurd ht (by simp)
    · unfold callOnTransmit at ht
      split at ht
      · exact .inl (Except.error.inj ht).symm
      · split at ht
        · split at ht
          · rcases andThen_eq_error ht with ht | ⟨u, hu, ht⟩
            · obtain ⟨hcap, -⟩ := memWriteSeq_eq_error ht
              omega
            · exact absurd ht (by simp)
          · exact .inr (.inr (Except.error.inj ht).symm)
        · exact .inr (.inl (Except.error.inj ht).symm)
  · exact absurd ht (by simp)

theorem stx_stops {ev : EvWord} {s : State} {e : Halt} (h : TransactionSound s) :
    stx Config.params ev s ≠ .error e := by
  unfold stx
  dsimp only
  split
  · simp
  · split
    · unfold slaveTxByte
      split
      · rename_i hlt
        have hlt : s.ctx.txCur.toNat < s.ctx.txLen.toNat := hlt
        have hcap : s.ctx.txLen.toNat ≤ Config.params.bufCap := h.bounds.2.2.2.1
        obtain ⟨b, hb⟩ := Option.isSome_iff_exists.1 (h.txStored _ hlt)
        have hr : memRead Config.params .txbuf s.ctx.txCur.toNat (issueSetAck .dispatcher true s) = .ok b :=
          memRead_eq_ok.2 ⟨by omega, hb⟩
        exact fun ht => absurd ((congrArg (andThen · _) hr).symm.trans ht) (by simp)
      · simp
    · simp

theorem onReceive_stops {s : State} {e : Halt} (h : TransactionSound s)
    (ht : onReceive Config.params s = .error e) : ClientStop e := by
  unfold onReceive at ht
  have hcap : s.ctx.rxCur.toNat ≤ Config.params.bufCap := h.bounds.2.2.2.2
  obtain ⟨bs, hbs⟩ := memReadSeq_written (p := Config.params) (n := .rxbuf) (i := 0) (k := s.ctx.rxCur.toNat) (s := s)
    (by omega) fun j _ hj => h.rxStored j (by omega)
  rw [hbs, andThen_ok] at ht
  rcases andThen_eq_error ht with ht | ⟨u, hu, ht⟩
  · split at ht
    · exact absurd ht (by simp)
    · unfold callOnReceive at ht
      split at ht
      · exact absurd ht (by simp)
      · exact .inl (Except.error.inj ht).symm
  · exact absurd ht (by simp)

theorem srx_stops {ev : EvWord} {s : State} {e : Halt} (h : TransactionSound s)
    (ht : srx Config.params ev s = .error e) : ClientStop e := by
  unfold srx at ht
  rcases andThen_eq_error ht with ht | ⟨s1, h1, ht⟩
  · split at ht
    · unfold srxData at ht
      dsimp only at ht
      split at ht
      · rcases andThen_eq_error ht with ht | ⟨u, hu, ht⟩
        · obtain ⟨hcap, -⟩ := memWrite_eq_error ht
          omega
        · exact absurd ht (by simp)
      · exact absurd ht (by simp)
    · exact absurd ht (by simp)
  · have hs1 : TransactionSound s1 := by
      split at h1
      · exact (srxData_sound h h1).1
      · obtain rfl := Except.ok.inj h1; exact h
    rcases andThen_eq_error ht with ht | ⟨s2, h2, ht⟩
    · split at ht
      · unfold srxStop at ht
        rcases andThen_eq_error ht with ht | ⟨u, hu, ht⟩
        · exact onReceive_stops hs1 ht
        · exact absurd ht (by simp)
      · exact absurd ht (by simp)
    · exact absurd ht (by simp)

theorem slaveRole_stops {ev : EvWord} {s : State} {e : Halt} (h : TransactionSound s)
    (ht : slaveRole Config.params ev s = .error e) : ClientStop e := by
  unfold slaveRole at ht
  rcases andThen_eq_error ht with ht | ⟨u, hu, ht⟩
  · split at ht
    · exact slaveMatch_stops ht
    · exact absurd ht (by simp)
  · have hs : TransactionSound u := by
      split at hu
      · exact slaveMatch_sound h hu
      · obtain rfl := Except.ok.inj hu; exact h
    split at ht
    · exact absurd ht (stx_stops hs)
    · exact srx_stops hs ht
    · exact absurd ht (by simp)
    · exact absurd ht (by simp)
    · exact absurd ht (by simp)
    · rename_i v hv
      exact absurd hv (hs.stateNamed v)

/-- Where an invocation stops, from a sound state: at a client outside its contract. -/
theorem invoke_stops {s : State} {e : Halt} (h : TransactionSound s) (ht : invoke Config.params s = .error e) :
    ClientStop e := by
  unfold invoke at ht
  have h0 : TransactionSound (enterHandler s) := h.congr rfl rfl rfl
  rcases andThen_eq_error ht with ht | ⟨u, hu, ht⟩
  · unfold roleBranch at ht
    split at ht
    · unfold masterRole at ht
      set s1 := if evHas (entrySnapshot s) .sb then issueSendByte .dispatcher (enterHandler s).ctx.pa (enterHandler s)
        else enterHandler s with hs1
      have hc : s1.ctx = s.ctx := by rw [hs1]; split <;> rfl
      have h1 : TransactionSound s1 := by
        rw [hs1]; split
        · exact h0.issue _ _ _ _
        · exact h0
      dsimp only at ht
      split at ht
      · exact absurd ht (mtx_stops h1 ‹_›)
      · rename_i hst
        rw [show (enterHandler s).ctx.nackp = s1.ctx.nackp by rw [hc]; rfl] at ht
        exact absurd ht (mrx_stops h1 hst)
      · exact absurd ht (by simp)
      · exact absurd ht (by simp)
      · exact absurd ht (by simp)
      · rename_i v hv
        exact absurd hv (h1.stateNamed v)
    · exact slaveRole_stops h0 ht
  · exact absurd ht (by simp)

/-- Copying out cells that are written and below BUF_CAP succeeds. -/
theorem deliver_stops {n : Nat} {s : State} {e : Halt} (hn : n ≤ cap) (hw : Written s .mbuf n) :
    deliver Config.params n s ≠ .error e := by
  unfold deliver
  obtain ⟨bs, hbs⟩ := memReadSeq_written (p := Config.params) (n := .mbuf) (i := 0) (k := n) (s := s)
    (by unfold cap at hn; omega) fun j _ hj => hw j (by omega)
  rw [hbs]
  simp

/-- Where a micro-step of WRITE stops: at its admission alone. -/
theorem writeStep_stops {a7 : Addr7} {stop wait : Bool} {len : BitVec 15} {r : Config.Request} {s : State} {e : Halt}
    (hr : s.host.cmd = some r) (hd : decode r.word = .ok (.write a7 stop wait len)) (hb : BaseSound s)
    (h : s.host.step = .m1 ∨ TransactionSound s)
    (ht : writeStep Config.params a7 stop wait (lengthOf len) s = .error e) :
    s.host.step = .m1 ∧ (e = .refuse .operandShape ∨ e = .refuse .notInitialized) := by
  have hcs : s.host.step ≠ .m1 → CommandSound s r := fun hne => (h.resolve_left hne).command r hr
  rw [commandSound_write hd] at hcs
  have hnamed : ∀ v, s.ctx.state ≠ .unused v := hb.stateNamed
  unfold writeStep at ht
  split at ht
  · unfold whenAllowed at ht
    split at ht
    · split at ht
      · exact absurd ht (by simp)
      · exact ⟨‹_›, .inl (Except.error.inj ht).symm⟩
    · exact ⟨‹_›, .inr (Except.error.inj ht).symm⟩
  · unfold checkState at ht
    rcases withState_eq s fun st => if st = .ready then
        if lengthOf len = 0#16 then .ok (returnWith .ok s) else .ok (goTo .m3 s)
      else .ok (returnWith (.err .wrongState) s) with ⟨v, hv, -⟩ | ⟨-, he⟩
    · exact absurd hv (hnamed v)
    · rw [he] at ht
      split at ht
      · split at ht <;> exact absurd ht (by simp)
      · exact absurd ht (by simp)
  · rename_i hs
    obtain ⟨h1, h2, -⟩ := hcs (by simp [hs])
    unfold armWrite at ht
    rcases andThen_eq_error ht with ht | ⟨u, hu, ht⟩
    · obtain ⟨hcap, -⟩ := memWriteSeq_eq_error ht
      rw [operands_of_cmd hr] at hcap
      unfold cap at h2
      simp at hcap
      omega
    · exact absurd ht (by simp)
  · exact absurd ht (by simp)
  · exact absurd ht (by simp)
  · unfold finishWrite at ht
    split at ht
    · rcases withState_eq s fun st => if st = .ready then
          if s.ctx.err = .none then .ok (returnWith .ok s) else .ok (returnWith (.err s.ctx.err) s)
        else .ok s with ⟨v, hv, -⟩ | ⟨-, he⟩
      · exact absurd hv (hnamed v)
      · rw [he] at ht
        split at ht
        · split at ht <;> exact absurd ht (by simp)
        · exact absurd ht (by simp)
    · exact absurd ht (by simp)
  · rename_i hs
    obtain ⟨-, -, h3, -⟩ := hcs (by simp [hs])
    simp [hs] at h3
  · rename_i hs
    obtain ⟨-, -, h3, -⟩ := hcs (by simp [hs])
    simp [hs] at h3

/-- Where a micro-step of READ stops: at its admission alone. -/
theorem readStep_stops {a7 : Addr7} {stop : Bool} {len : BitVec 15} {s : State} {e : Halt} (hb : BaseSound s)
    (ht : readStep Config.params a7 stop (lengthOf len) s = .error e) :
    s.host.step = .m1 ∧ (e = .refuse .operandShape ∨ e = .refuse .notInitialized) := by
  have hnamed : ∀ v, s.ctx.state ≠ .unused v := hb.stateNamed
  have hbd : CursorBounds s.ctx := hb.bounds
  have hcur : s.ctx.mCur.toNat ≤ s.ctx.mLen.toNat := hbd.1
  unfold readStep at ht
  split at ht
  · unfold whenAllowed at ht
    split at ht
    · split at ht
      · exact absurd ht (by simp)
      · exact ⟨‹_›, .inl (Except.error.inj ht).symm⟩
    · exact ⟨‹_›, .inr (Except.error.inj ht).symm⟩
  · unfold checkState at ht
    rcases withState_eq s fun st => if st = .ready then
        if lengthOf len = 0#16 then .ok (returnWith (.okCount 0) s) else .ok (goTo .m3 s)
      else .ok (returnWith (.err .wrongState) s) with ⟨v, hv, -⟩ | ⟨-, he⟩
    · exact absurd hv (hnamed v)
    · rw [he] at ht
      split at ht
      · split at ht <;> exact absurd ht (by simp)
      · exact absurd ht (by simp)
  · exact absurd ht (by simp)
  · exact absurd ht (by simp)
  · exact absurd ht (by simp)
  · unfold poll at ht
    rcases withState_eq s fun st => if st = .ready then .ok (goTo .m7 s)
      else if s.host.operands.timeoutMs ≠ Config.timeoutInf
          ∧ pollLimit Config.params s.host.operands.timeoutMs ≤ s.host.polls then .ok (goTo .m8 s)
      else .ok { s with host := { s.host with polls := s.host.polls + 1 } } with ⟨v, hv, -⟩ | ⟨-, he⟩
    · exact absurd hv (hnamed v)
    · rw [he] at ht
      split at ht
      · exact absurd ht (by simp)
      · split at ht <;> exact absurd ht (by simp)
  · unfold finishRead at ht
    split at ht
    · refine absurd ht (deliver_stops ?_ ?_)
      · unfold Context.count
        cases hf : s.ctx.mFinal
        · simp only [Bool.toNat_false, Nat.add_zero]; exact hcur.trans hbd.2.1
        · obtain ⟨-, heq, hlt, -⟩ := hb.finalCaptured hf
          have heq : s.ctx.mCur = s.ctx.mLen := heq
          have hlt : s.ctx.mLen.toNat < cap := hlt
          rw [heq]; simpa using hlt
      · intro i hi
        unfold Context.count at hi
        cases hf : s.ctx.mFinal
        · rw [hf] at hi
          exact hb.masterStored i (by show i < s.ctx.mCur.toNat; simpa using hi)
        · obtain ⟨-, heq, -, -, hcell⟩ := hb.finalCaptured hf
          have heq : s.ctx.mCur = s.ctx.mLen := heq
          by_cases hi' : i = s.ctx.mLen.toNat
          · rw [hi']; exact hcell
          · refine hb.masterStored i ?_
            show i < s.ctx.mCur.toNat
            rw [hf, heq] at hi
            rw [heq]
            simp at hi
            omega
    · exact absurd ht (by simp)
  · exact absurd ht (deliver_stops (hcur.trans hbd.2.1) hb.masterStored)

/-- A primitive that runs alone never faults; only CLEAR_FLAG has a reserved form here. -/
theorem exec_primitive_stops {i : Instr} {s : State} (hi : i.isPrimitive = true) :
    (∀ f, exec i s ≠ .fault f) ∧ ∀ f, exec i s = .refused f → f = .reservedEncoding .flagIndex := by
  cases i with
  | clearFlag k =>
    simp only [exec, execClearFlag]
    split
    · exact ⟨by simp, by simp⟩
    · exact ⟨by simp, fun f hf => by injection hf with hf; exact hf.symm⟩
  | init | write | read | registerCallbacks | status => exact absurd hi (by simp [Instr.isPrimitive])
  | sendByte | recvByte | genStart | genStop | setAck | setNotify | readEvent | setOwnAddr | setEnable =>
    exact ⟨fun f hf => by injection hf, fun f hf => by injection hf⟩

/-- Where a host command stops, from a sound state: at its admission alone. -/
theorem exec_host_stops {i : Instr} {r : Config.Request} {s : State} (hi : i.isPrimitive = false)
    (hr : s.host.cmd = some r) (hd : decode r.word = .ok i) (hb : BaseSound s)
    (h : s.host.step = .m1 ∨ TransactionSound s) :
    (∀ f, exec i s ≠ .fault f)
      ∧ ∀ f, exec i s = .refused f → f = .operandShape ∨ f = .notInitialized ∨ f = .alreadyInitialized := by
  have hnamed : ∀ v, s.ctx.state ≠ .unused v := hb.stateNamed
  have stop : ∀ (k : Res State), (∀ e, k = .error e →
        e = .refuse .operandShape ∨ e = .refuse .notInitialized ∨ e = .refuse .alreadyInitialized) →
      exec i s = toOutcome k → (∀ f, exec i s ≠ .fault f)
        ∧ ∀ f, exec i s = .refused f → f = .operandShape ∨ f = .notInitialized ∨ f = .alreadyInitialized := by
    intro k hk he
    rw [he]
    refine ⟨fun f hf => ?_, fun f hf => ?_⟩
    · rcases hk _ (toOutcome_eq_fault hf) with h1 | h1 | h1 <;> exact absurd h1 (by simp)
    · rcases hk _ (toOutcome_eq_refused hf) with h1 | h1 | h1
      · injection h1 with h1; exact .inl h1
      · injection h1 with h1; exact .inr (.inl h1)
      · injection h1 with h1; exact .inr (.inr h1)
  cases i with
  | init a7 =>
    refine stop (initStep a7 s) (fun e he => ?_) rfl
    unfold initStep at he
    split at he
    · exact .inr (.inr (Except.error.inj he).symm)
    · exact absurd he (by simp)
  | write a7 st wait len =>
    refine stop _ (fun e he => ?_) rfl
    rcases (writeStep_stops hr hd hb h he).2 with h1 | h1
    · exact .inl h1
    · exact .inr (.inl h1)
  | read a7 st len =>
    refine stop _ (fun e he => ?_) rfl
    rcases (readStep_stops hb he).2 with h1 | h1
    · exact .inl h1
    · exact .inr (.inl h1)
  | registerCallbacks => exact ⟨fun f hf => by injection hf, fun f hf => by injection hf⟩
  | status =>
    refine stop _ (fun e he => ?_) rfl
    rcases withState_eq s fun st => (Except.ok (returnWith (.okStatus st s.ctx.err s.ctx.count) s) : Res State) with
      ⟨v, hv, -⟩ | ⟨-, h1⟩
    · exact absurd hv (hnamed v)
    · rw [h1] at he; exact absurd he (by simp)
  | sendByte | recvByte | genStart | genStop | setAck | clearFlag | setNotify | readEvent | setOwnAddr | setEnable =>
    exact absurd hi (by simp [Instr.isPrimitive])

/-! ### One move, run -/

/-- A state that differs by its port alone. -/
theorem port_only {s u : State} (h : u = { s with port := u.port }) :
    u.ctx = s.ctx ∧ u.eng = s.eng ∧ u.buf = s.buf ∧ u.log = s.log ∧ u.host = s.host ∧ u.marks = s.marks
      ∧ u.client = s.client := by
  rw [h]
  exact ⟨rfl, rfl, rfl, rfl, rfl, rfl, rfl⟩

/-- The step that takes a command the host issues. -/
theorem step_issue {s : State} {r : Config.Request} {ms : List Config.Move} (hb : s.port.bus = none)
    (hm : s.port.moves = .issue r :: ms) : step s = issueCommand r { s with port := { s.port with moves := ms } } := by
  simp [step, advance, hb, nextMove, hm, perform]

/-- A run past a refused move: the move is used up and the reason recorded. -/
theorem runStep_refused {s : State} {m : Config.Move} {ms : List Config.Move} {f : Refusal} (hb : s.port.bus = none)
    (hm : s.port.moves = m :: ms) (h : step s = .refused f) : runStep s = { s with
      port := { s.port with moves := ms }, marks := { s.marks with refusals := s.marks.refusals ++ [f] } } := by
  simp [runStep, h, settle, consume, hb, nextMove, hm, markRefusal]

end Sys2Proof.Machine
end

