-- ==== Sys2Proof/Laws/Invocation.lean ====
section
/-! SUPPORT. What one invocation does to DATA while the address byte is on its way (20_memory R81), and to the byte armed in
MasterReceiving (40_dispatcher R179 (b)). -/

namespace Sys2Proof.Machine

/-! ### DATA, handler by handler -/

theorem DataStays.memWrite {p : Config.Params} {n : BufName} {i : Nat} {v : Byte} {s t : State}
    (h : memWrite p n i v s = .ok t) : DataStays s.eng t.eng := by
  obtain ⟨-, rfl⟩ := memWrite_eq_ok.1 h
  exact .refl _

theorem DataStays.clearFlag (e : Engine) (k : BitVec 8) : DataStays e (e.clearFlag k) := .of_eq rfl rfl

theorem DataStays.setAck (e : Engine) (b : Bool) : DataStays e (e.setAck b) := .of_eq rfl rfl

theorem terminate_data (s : State) : DataStays s.eng (terminate s).eng := by
  unfold terminate
  split
  · exact .genStop s.eng
  · exact (DataStays.of_eq (d := s.eng.setNotify 0#3) rfl rfl).trans (.genStart _)

theorem addressNacked_data (s : State) : DataStays s.eng (addressNacked s).eng := .genStop s.eng

/-- The flags a transmit handler answers are clear in a snapshot. -/
def NothingToSend (ev : EvWord) : Prop := evHas ev .addr = false ∧ evHas ev .btf = false ∧ evHas ev .txe = false

theorem mtx_data {p : Config.Params} {ev : EvWord} {s t : State} (hq : NothingToSend ev) (h : mtx p ev s = .ok t) :
    DataStays s.eng t.eng := by
  unfold mtx at h
  rw [hq.1, hq.2.1, hq.2.2] at h
  split at h
  · obtain rfl := Except.ok.inj h
    exact (DataStays.clearFlag s.eng _).trans (.genStop _)
  · obtain rfl := Except.ok.inj h
    exact .refl _

theorem mrxAddr_data (s : State) : DataStays s.eng (mrxAddr s).eng := by
  unfold mrxAddr
  split <;> exact .setAck s.eng _

theorem rxStore_data {p : Config.Params} {s t : State} (h : rxStore p s = .ok t) : DataStays s.eng t.eng := by
  unfold rxStore at h
  split at h
  · exact absurd h (by simp)
  · obtain ⟨u, hu, h⟩ := andThen_eq_ok h
    have h1 : DataStays s.eng u.eng := (DataStays.recvByte s.eng).trans (.memWrite hu)
    dsimp only at h
    split at h <;> obtain rfl := Except.ok.inj h <;> exact h1.trans (.setAck u.eng _)

theorem finalCapture_data {p : Config.Params} {s t : State} (h : finalCapture p s = .ok t) :
    DataStays s.eng t.eng := by
  unfold finalCapture at h
  obtain ⟨u, hu, h⟩ := andThen_eq_ok h
  obtain rfl := Except.ok.inj h
  exact (DataStays.recvByte s.eng).trans (.memWrite hu)

theorem mrxData_data {p : Config.Params} {nackp0 : Bool} {s t : State} (h : mrxData p nackp0 s = .ok t) :
    DataStays s.eng t.eng := by
  unfold mrxData at h
  split at h
  · obtain ⟨u, hu, h⟩ := andThen_eq_ok h
    obtain rfl := Except.ok.inj h
    exact (finalCapture_data hu).trans (terminate_data u)
  · exact rxStore_data h

theorem mrxNack_data {p : Config.Params} {ev : EvWord} {nackp0 : Bool} {s t : State}
    (h : mrxNack p ev nackp0 s = .ok t) : DataStays s.eng t.eng := by
  have h1 := DataStays.clearFlag s.eng (flagOperand .af)
  unfold mrxNack at h
  dsimp only at h
  split at h
  · split at h
    · obtain rfl := Except.ok.inj h; exact h1
    · obtain ⟨u, hu, h⟩ := andThen_eq_ok h
      obtain rfl := Except.ok.inj h
      have h2 := finalCapture_data hu
      exact (h1.trans h2).trans (terminate_data u)
  · split at h <;> obtain rfl := Except.ok.inj h
    · exact h1.trans (.genStop _)
    · exact h1

theorem mrx_data {p : Config.Params} {ev : EvWord} {nackp0 : Bool} {s t : State} (h : mrx p ev nackp0 s = .ok t) :
    DataStays s.eng t.eng := by
  unfold mrx at h
  dsimp only at h
  obtain ⟨u, hu, h⟩ := andThen_eq_ok h
  have h1 : DataStays s.eng (if evHas ev .addr then mrxAddr s else s).eng := by
    split
    · exact mrxAddr_data s
    · exact .refl _
  have h2 : DataStays s.eng u.eng := by
    split at hu
    · exact h1.trans (mrxData_data hu)
    · obtain rfl := Except.ok.inj hu; exact h1
  split at h
  · exact h2.trans (mrxNack_data h)
  · obtain rfl := Except.ok.inj h; exact h2

/-- After MASTER_SB a master handler with nothing to send leaves DATA. -/
theorem masterRole_rest_data {p : Config.Params} {ev : EvWord} {nackp0 : Bool} {s t : State} (hq : NothingToSend ev)
    (h : masterRole p ev nackp0 s = .ok t) : DataStays (afterMasterSb ev s).eng t.eng := by
  unfold masterRole at h
  dsimp only at h
  split at h
  · exact mtx_data hq h
  · exact mrx_data h
  · obtain rfl := Except.ok.inj h; exact .refl _
  · obtain rfl := Except.ok.inj h; exact .refl _
  · obtain rfl := Except.ok.inj h; exact .refl _
  · exact absurd h (by simp)

theorem stx_data {p : Config.Params} {ev : EvWord} {s t : State} (hq : NothingToSend ev) (h : stx p ev s = .ok t) :
    DataStays s.eng t.eng := by
  unfold stx at h
  rw [hq.2.1, hq.2.2] at h
  have h1 := DataStays.setAck s.eng true
  dsimp only at h
  split at h <;> obtain rfl := Except.ok.inj h
  · exact h1.trans (.clearFlag _ _)
  · exact h1

theorem srxData_data {p : Config.Params} {s t : State} (h : srxData p s = .ok t) : DataStays s.eng t.eng := by
  unfold srxData at h
  dsimp only at h
  split at h
  · obtain ⟨u, hu, h⟩ := andThen_eq_ok h
    obtain rfl := Except.ok.inj h
    exact ((DataStays.recvByte s.eng).trans (.memWrite hu)).trans (.setAck u.eng _)
  · obtain rfl := Except.ok.inj h
    exact (DataStays.recvByte s.eng).trans (.setAck _ _)

/-- ON_RECEIVE leaves the engine registers. -/
theorem onReceive_eng {p : Config.Params} {s t : State} (h : onReceive p s = .ok t) : t.eng = s.eng := by
  unfold onReceive at h
  obtain ⟨bytes, -, h⟩ := andThen_eq_ok h
  obtain ⟨u, hu, h⟩ := andThen_eq_ok h
  obtain rfl := Except.ok.inj h
  show u.eng = s.eng
  split at hu
  · obtain rfl := Except.ok.inj hu; rfl
  · unfold callOnReceive at hu
    split at hu
    · obtain rfl := Except.ok.inj hu; rfl
    · exact absurd hu (by simp)

theorem srx_data {p : Config.Params} {ev : EvWord} {s t : State} (h : srx p ev s = .ok t) :
    DataStays s.eng t.eng := by
  unfold srx at h
  obtain ⟨s1, h1, h⟩ := andThen_eq_ok h
  obtain ⟨s2, h2, h⟩ := andThen_eq_ok h
  obtain rfl := Except.ok.inj h
  have hs1 : DataStays s.eng s1.eng := by
    split at h1
    · exact srxData_data h1
    · obtain rfl := Except.ok.inj h1; exact .refl _
  have hs2 : s2.eng = s1.eng := by
    split at h2
    · unfold srxStop at h2
      obtain ⟨u, hu, h2⟩ := andThen_eq_ok h2
      obtain rfl := Except.ok.inj h2
      exact (onReceive_eng hu :)
    · obtain rfl := Except.ok.inj h2; rfl
  rw [← hs2] at hs1
  split
  · exact (hs1.trans (.clearFlag _ _)).trans (.setAck _ true)
  · exact hs1

/-- The slave branch with nothing to send leaves DATA. -/
theorem slaveRole_data {p : Config.Params} {ev : EvWord} {s t : State} (hq : NothingToSend ev)
    (h : slaveRole p ev s = .ok t) : DataStays s.eng t.eng := by
  unfold slaveRole at h
  rw [hq.1] at h
  obtain ⟨u, hu, h⟩ := andThen_eq_ok h
  obtain rfl := Except.ok.inj hu
  split at h
  · exact stx_data hq h
  · exact srx_data h
  · obtain rfl := Except.ok.inj h; exact .refl _
  · obtain rfl := Except.ok.inj h; exact .refl _
  · obtain rfl := Except.ok.inj h; exact .refl _
  · exact absurd h (by simp)

theorem errEnds_eng (p : Config.Params) (s : State) : (errEnds p s).eng = s.eng := by
  unfold errEnds
  split <;> rfl

theorem cross_data (p : Config.Params) (ev : EvWord) (s : State) : DataStays s.eng (cross p ev s).eng := by
  have h1 : DataStays s.eng (crossBerr p ev s).eng := by
    unfold crossBerr
    split
    · rw [errEnds_eng]; exact (DataStays.genStop s.eng).trans (.clearFlag _ _)
    · exact .refl _
  have h2 : ∀ u : State, DataStays u.eng (crossArlo p ev u).eng := by
    intro u
    unfold crossArlo
    split
    · rw [errEnds_eng]; exact .clearFlag u.eng _
    · exact .refl _
  have h3 : ∀ (f : Flag) (c : ErrorCode) (u : State), DataStays u.eng (crossLatch ev f c u).eng := by
    intro f c u
    unfold crossLatch
    split
    · exact .clearFlag u.eng _
    · exact .refl _
  exact ((((h1.trans (h2 _)).trans (h3 _ _ _)).trans (h3 _ _ _)).trans (h3 _ _ _)).trans (h3 _ _ _)

/-- The entry leaves DATA and the shift register. -/
theorem enterHandler_data (s : State) : DataStays s.eng (enterHandler s).eng :=
  .of_eq (by simp [enterHandler, Engine.readEvent]; rfl) (by simp [enterHandler, Engine.readEvent]; rfl)

/-! ### The byte armed -/

/-- CROSS leaves the registers of the transaction but STATE and ERR. -/
theorem cross_ctx (p : Config.Params) (ev : EvWord) (s : State) :
    (cross p ev s).ctx = { s.ctx with state := (cross p ev s).ctx.state, err := (cross p ev s).ctx.err } := by
  have h0 : ∀ u : State, (errEnds p u).ctx = { u.ctx with state := (errEnds p u).ctx.state } := by
    intro u; unfold errEnds; split <;> rfl
  have h1 : (crossBerr p ev s).ctx
      = { s.ctx with state := (crossBerr p ev s).ctx.state, err := (crossBerr p ev s).ctx.err } := by
    unfold crossBerr
    split
    · rw [h0]; rfl
    · rfl
  have h2 : ∀ u : State, (crossArlo p ev u).ctx
      = { u.ctx with state := (crossArlo p ev u).ctx.state, err := (crossArlo p ev u).ctx.err } := by
    intro u; unfold crossArlo
    split
    · rw [h0]; rfl
    · rfl
  have h3 : ∀ (f : Flag) (c : ErrorCode) (u : State), (crossLatch ev f c u).ctx
      = { u.ctx with err := (crossLatch ev f c u).ctx.err } := by
    intro f c u; unfold crossLatch; split <;> rfl
  unfold cross
  rw [h3, h3, h3, h3, h2, h1]

/-- The address test leaves a byte armed, whatever stood before it. -/
theorem mrxAddr_byteArmed (s : State) : ByteArmed (mrxAddr s).ctx := by
  unfold mrxAddr
  split
  · exact .inr ‹_›
  · exact .inl rfl

/-- RX_STORE leaves a byte armed. -/
theorem rxStore_byteArmed {p : Config.Params} {s t : State} (h : rxStore p s = .ok t) : ByteArmed t.ctx := by
  unfold rxStore at h
  split at h
  · exact absurd h (by simp)
  · rename_i hlt
    obtain ⟨u, hu, h⟩ := andThen_eq_ok h
    obtain ⟨-, rfl⟩ := memWrite_eq_ok.1 hu
    dsimp only at h
    split at h
    · obtain rfl := Except.ok.inj h
      exact .inl rfl
    · rename_i hne
      obtain rfl := Except.ok.inj h
      refine .inr ?_
      have hne : ¬ s.ctx.mCur + 1#16 = s.ctx.mLen := hne
      show s.ctx.mCur + 1#16 < s.ctx.mLen
      bv_omega

theorem terminate_state (s : State) : (terminate s).ctx.state = .ready := by
  unfold terminate
  split <;> rfl

/-- MRX on acknowledge-failure either ends the transaction or leaves the context. -/
theorem mrxNack_ctx {p : Config.Params} {ev : EvWord} {nackp0 : Bool} {s t : State} (h : mrxNack p ev nackp0 s = .ok t) :
    t.ctx.state = .ready ∨ t.ctx = s.ctx := by
  unfold mrxNack at h
  dsimp only at h
  split at h
  · split at h
    · obtain rfl := Except.ok.inj h; exact .inr rfl
    · obtain ⟨u, -, h⟩ := andThen_eq_ok h
      obtain rfl := Except.ok.inj h
      exact .inl (terminate_state u)
  · split at h <;> obtain rfl := Except.ok.inj h
    · exact .inl rfl
    · exact .inr rfl

/-- MRX keeps a byte armed, and arms one on ADDR, unless it ends the transaction (40_dispatcher R179 (b)). -/
theorem mrx_byteArmed {p : Config.Params} {ev : EvWord} {nackp0 : Bool} {s t : State} (h : mrx p ev nackp0 s = .ok t)
    (ha : evHas ev .addr = true ∨ ByteArmed s.ctx) : t.ctx.state = .ready ∨ ByteArmed t.ctx := by
  unfold mrx at h
  dsimp only at h
  obtain ⟨u, hu, h⟩ := andThen_eq_ok h
  have h1 : ByteArmed (if evHas ev .addr then mrxAddr s else s).ctx := by
    split
    · exact mrxAddr_byteArmed s
    · exact ha.resolve_left ‹_›
  have h2 : u.ctx.state = .ready ∨ ByteArmed u.ctx := by
    split at hu
    · unfold mrxData at hu
      split at hu
      · obtain ⟨v, -, hu⟩ := andThen_eq_ok hu
        obtain rfl := Except.ok.inj hu
        exact .inl (terminate_state v)
      · exact .inr (rxStore_byteArmed hu)
    · obtain rfl := Except.ok.inj hu; exact .inr h1
  split at h
  · rcases mrxNack_ctx h with h3 | h3
    · exact .inl h3
    · rw [h3]; exact h2
  · obtain rfl := Except.ok.inj h; exact h2

/-- While STATE stays at MasterReceiving an invocation keeps a byte armed, and one that handles ADDR arms one
(40_dispatcher R179 (b)). -/
theorem invoke_byteArmed {s t : State} (h : invoke Config.params s = .ok t) (hs : s.ctx.state = .masterReceiving)
    (ht : t.ctx.state = .masterReceiving)
    (ha : (s.eng.flag .msl = true ∧ s.eng.flag .addr = true) ∨ ByteArmed s.ctx) : ByteArmed t.ctx := by
  unfold invoke at h
  obtain ⟨u, hu, h⟩ := andThen_eq_ok h
  obtain rfl := Except.ok.inj h
  have hus : u.ctx.state = .masterReceiving := by
    rcases (cross_frame Config.params (entrySnapshot s) u).state with h1 | h1 | h1
    · exact h1.symm.trans ht
    · exact absurd (h1.symm.trans ht) (by decide)
    · exact absurd (ht ▸ h1 : ControllerState.isSlave .masterReceiving = true) (by decide)
  have key : ByteArmed u.ctx := by
    unfold roleBranch at hu
    split at hu
    · have hstate : (afterMasterSb (entrySnapshot s) (enterHandler s)).ctx = s.ctx := by
        unfold afterMasterSb; split <;> rfl
      unfold masterRole at hu
      dsimp only at hu
      change (match (afterMasterSb (entrySnapshot s) (enterHandler s)).ctx.state with
        | .masterTransmitting => mtx _ _ (afterMasterSb (entrySnapshot s) (enterHandler s))
        | .masterReceiving => mrx _ _ _ (afterMasterSb (entrySnapshot s) (enterHandler s))
        | .ready | .slaveTransmitting | .slaveReceiving => .ok (afterMasterSb (entrySnapshot s) (enterHandler s))
        | .unused _ => .error (.fault .badState)) = .ok u at hu
      rw [hstate, hs] at hu
      have h1 := mrx_byteArmed hu (ha.imp And.right fun h => by rw [hstate]; exact h)
      exact h1.resolve_left (by rw [hus]; decide)
    · rename_i hm
      have ha : ByteArmed s.ctx := ha.resolve_left fun h => hm h.1
      unfold slaveRole at hu
      obtain ⟨v, hv, hu⟩ := andThen_eq_ok hu
      split at hv
      · have h1 := slaveMatch_state hv
        have h2 : u.ctx.state = v.ctx.state ∨ u.ctx.state = .ready ∨ u.ctx.state.isSlave = true := by
          split at hu
          · exact (stx_frame hu).state
          · exact (srx_frame hu).state
          · obtain rfl := Except.ok.inj hu; exact .inl rfl
          · obtain rfl := Except.ok.inj hu; exact .inl rfl
          · obtain rfl := Except.ok.inj hu; exact .inl rfl
          · exact absurd hu (by simp)
        rw [hus, h1] at h2
        split at h2 <;> simp [ControllerState.isSlave] at h2
      · obtain rfl := Except.ok.inj hv
        rw [show (enterHandler s).ctx.state = .masterReceiving from hs] at hu
        obtain rfl := Except.ok.inj hu
        exact ha
  show ByteArmed (cross Config.params (entrySnapshot s) u).ctx
  rw [cross_ctx]
  exact key

end Sys2Proof.Machine
end

