-- ==== Sys2Proof/Laws/Frames.lean ====
section
/-! SUPPORT. What one host micro-step, one primitive on the internal bus and one engine step leave alone and keep. -/

namespace Sys2Proof.Machine

/-- What the engine registers keep through every primitive. -/
structure EngineKept (e d : Engine) : Prop where
  reserved : ReservedBitsZero e → ReservedBitsZero d
  off : OffExactlyWhenDisabled e → OffExactlyWhenDisabled d
  address : AddressPhaseSound e → AddressPhaseSound d
  quiet : AddressPhaseQuiet e → AddressPhaseQuiet d

theorem EngineKept.refl (e : Engine) : EngineKept e e := ⟨id, id, id, id⟩

theorem EngineKept.trans {e d c : Engine} (h : EngineKept e d) (k : EngineKept d c) : EngineKept e c :=
  ⟨k.1 ∘ h.1, k.2 ∘ h.2, k.3 ∘ h.3, k.4 ∘ h.4⟩

theorem EngineFrame.kept {e d : Engine} (h : EngineFrame e d) : EngineKept e d :=
  ⟨h.reserved, h.off, h.address.sound, h.address.quiet⟩

theorem EngineKept.setOwnAddr (e : Engine) (a : Addr7) : EngineKept e (e.setOwnAddr a) :=
  ⟨(setOwnAddr_reserved · a), id, (setOwnAddr_addressFrame e a).sound, (setOwnAddr_addressFrame e a).quiet⟩

theorem EngineKept.setEnable (e : Engine) (b : Bool) : EngineKept e (e.setEnable b) :=
  ⟨(setEnable_reserved · b), (setEnable_off · b), (setEnable_addressFrame e b).sound, (setEnable_addressFrame e b).quiet⟩

theorem EngineKept.clearFlag (e : Engine) {k : BitVec 8} (h : clearable k = true) : EngineKept e (e.clearFlag k) := by
  have hk : k.toNat ≠ 0 ∧ k.toNat ≠ 16 := by
    revert h
    revert k
    decide
  have ha := clearFlag_addressFrame e hk.1 hk.2
  exact ⟨(clearFlag_reserved · k), id, ha.sound, ha.quiet⟩

/-! ### The address byte after a START -/

theorem AddressByteIsPa.kept {s t : State} (h1 : t.eng.phase = s.eng.phase) (h2 : t.eng.data = s.eng.data) :
    AddressByteIsPa s t := fun ha => .inl ⟨h1 ▸ ha, h2⟩

/-- A step that leaves PHASE places no address byte. -/
theorem PaPlacedFirst.kept {s t : State} (h : t.eng.phase = s.eng.phase) : PaPlacedFirst s t :=
  fun h1 h2 => absurd (h1.symm.trans (h.symm.trans h2)) (by decide)

theorem AddressByteIsPa.same {s t : State} (h : t.eng = s.eng) : AddressByteIsPa s t := .kept (by rw [h]) (by rw [h])

/-- With nothing left of an earlier transfer, an invocation sends PA after a START and leaves the address byte on its way
(40_dispatcher R153, 20_memory R81). -/
theorem invoke_address {s t : State} (ha : AddressPhaseSound s.eng) (hl : AddressPhaseQuiet s.eng)
    (h : invoke Config.params s = .ok t) : AddressByteIsPa s t := by
  intro hf
  have hplaces := (invoke_frame h).eng.address.places
  by_cases hp : s.eng.phase = .mSb ∨ s.eng.phase = .mAddr
  · obtain ⟨h2, h3⟩ := ha.cleared hp
    obtain ⟨h1, h4⟩ := hl hp
    have hq : NothingToSend (entrySnapshot s) := ⟨h1, h3, h2⟩
    unfold invoke at h
    obtain ⟨u, hu, h⟩ := andThen_eq_ok h
    obtain rfl := Except.ok.inj h
    have hfull := enterHandler_data s h4
    have hcross := cross_data Config.params (entrySnapshot s) u
    rcases hp with hp | hp
    · obtain ⟨hpe, hsb, hmsl⟩ := ha.awaits hp
      rw [roleBranch, if_pos (show evHas (entrySnapshot s) .msl = true from hmsl)] at hu
      have hrest := (masterRole_rest_data hq hu).trans hcross
      rw [afterMasterSb, if_pos (show evHas (entrySnapshot s) .sb = true from hsb)] at hrest
      have hsend : ((enterHandler s).eng.sendByte s.ctx.pa)
          = { (enterHandler s).eng.setFlag .sb false with data := s.ctx.pa, phase := .mAddr } :=
        sendByte_address ((enterHandler_engine s).1.trans hpe) ((enterHandler_engine s).2.trans hp) _
      have hrest : DataStays ((enterHandler s).eng.sendByte s.ctx.pa) _ := hrest
      rw [hsend] at hrest
      exact .inr ⟨hp, (hrest hfull.1).2⟩
    · have hsb : evHas (entrySnapshot s) .sb = false := ha.noSb (by rw [hp]; decide)
      have hrole : DataStays (enterHandler s).eng u.eng := by
        unfold roleBranch at hu
        split at hu
        · have h5 := masterRole_rest_data hq hu
          rwa [afterMasterSb, hsb] at h5
        · exact slaveRole_data hq hu
      exact .inl ⟨hp, ((hrole.trans hcross) hfull.1).2.trans hfull.2⟩
  · exact absurd ((hplaces fun h => hp (.inl h)).2 hf) fun h => hp (.inr h)

/-- An invocation that finds the engine in M_SB places PA before it sends any other byte (40_dispatcher R153). -/
theorem invoke_placed {s t : State} (ha : AddressPhaseSound s.eng) (h : invoke Config.params s = .ok t) :
    PaPlacedFirst s t := by
  intro hp _
  obtain ⟨-, hsb, hmsl⟩ := ha.awaits hp
  unfold invoke at h
  obtain ⟨u, hu, h⟩ := andThen_eq_ok h
  obtain rfl := Except.ok.inj h
  rw [roleBranch, if_pos (show evHas (entrySnapshot s) .msl = true from hmsl)] at hu
  obtain ⟨k, hk, -⟩ := ((masterRole_rest_frame hu).trans (cross_frame _ (entrySnapshot s) u)).act
  rw [afterMasterSb, if_pos (show evHas (entrySnapshot s) .sb = true from hsb)] at hk
  refine ⟨.dispatcher, [did .setNotify 7#8, did .readEvent 0#8], k, hk.trans ?_, by simp [did]⟩
  simp [issueSendByte, enterHandler, issueReadEvent, issueSetNotify, issue, did]

/-- What a host micro-step does to the block at most. -/
structure HostFrame (s t : State) : Prop where
  port : t.port = s.port
  marks : t.marks = s.marks
  client : t.client = s.client
  wire : t.log.wire = s.log.wire
  cbLog : t.log.cb = s.log.cb
  act : ∃ l, t.log.act = s.log.act ++ l ∧ ∀ r ∈ l, r.agent = .host
  txLen : t.ctx.txLen = s.ctx.txLen
  txCur : t.ctx.txCur = s.ctx.txCur
  rxCur : t.ctx.rxCur = s.ctx.rxCur
  txbuf : t.buf.txbuf = s.buf.txbuf
  rxbuf : t.buf.rxbuf = s.buf.rxbuf
  rsf : t.ctx.rsf = s.ctx.rsf ∨ t.ctx.rsf = false
  err : t.ctx.err = s.ctx.err ∨ (s.host.step = .m3 ∧ t.ctx.err = .none)
  state : t.ctx.state = s.ctx.state ∨ (s.host.step = .m4 ∧ t.ctx.state.isMaster = true)
  eng : EngineKept s.eng t.eng
  canonical : BuffersCanonical s → BuffersCanonical t
  inRange : CellsInRange s → CellsInRange t
  address : AddressPhaseSound s.eng → AddressByteIsPa s t
  armed : s.host.step = .m3 ∨ (ByteArmed t.ctx ↔ ByteArmed s.ctx)
  placed : PaPlacedFirst s t

theorem HostFrame.refl (s : State) : HostFrame s s :=
  ⟨rfl, rfl, rfl, rfl, rfl, ⟨[], by simp, by simp⟩, rfl, rfl, rfl, rfl, rfl, .inl rfl, .inl rfl, .inl rfl, .refl _,
    id, id, fun _ => .same rfl, .inr .rfl, .kept rfl⟩

/-- A micro-step that moves the host alone. -/
theorem HostFrame.hostOnly (s : State) (h : HostLocal) : HostFrame s { s with host := h } :=
  ⟨rfl, rfl, rfl, rfl, rfl, ⟨[], by simp, by simp⟩, rfl, rfl, rfl, rfl, rfl, .inl rfl, .inl rfl, .inl rfl, .refl _,
    id, id, fun _ => .same rfl, .inr .rfl, .kept rfl⟩

theorem checkState_hostFrame {length : Half} {zero : HostResult} {s t : State} (h : checkState length zero s = .ok t) :
    HostFrame s t := by
  rcases checkState_eq_ok h with ⟨-, -, rfl⟩ | ⟨-, -, rfl⟩ | ⟨-, rfl⟩ <;> exact .hostOnly s _

theorem checkCapacity_hostFrame (p : Config.Params) (length : Half) (s : State) :
    HostFrame s (checkCapacity p length s) := by
  rcases checkCapacity_cases p length s with ⟨-, h⟩ | ⟨-, h⟩ <;> rw [h] <;> exact .hostOnly s _

/-- Writing a byte list leaves the other buffers alone. -/
theorem memWriteSeq_other {p : Config.Params} {n k : BufName} {vs : List Byte} {i : Nat} {s t : State} (hk : k ≠ n)
    (h : memWriteSeq p n i vs s = .ok t) : t.buf.get k = s.buf.get k := by
  induction vs generalizing i s with
  | nil => obtain rfl := Except.ok.inj h; rfl
  | cons v vs ih =>
    obtain ⟨w, hw, hrest⟩ := andThen_eq_ok h
    obtain ⟨-, rfl⟩ := memWrite_eq_ok.1 hw
    exact (ih hrest).trans (Buffers.get_put_other _ _ hk)

theorem armWrite_hostFrame {a7 : Addr7} {length : Half} {stop : Bool} {s t : State}
    (hs : s.host.step = .m3) (h : armWrite Config.params a7 length stop s = .ok t) : HostFrame s t := by
  unfold armWrite at h
  obtain ⟨u, hu, h⟩ := andThen_eq_ok h
  obtain rfl := Except.ok.inj h
  have hk := memWriteSeq_keeps hu
  have hbuf := fun n hn => memWriteSeq_other (k := n) hn hu
  obtain ⟨-, hframe, -, -⟩ := memWriteSeq_eq_ok hu
  have h1 : ∀ {α : Type} (f : State → α), (∀ x b, f { x with buf := b } = f x) → f u = f s := by
    intro α f hf
    rw [hframe]
    exact hf s u.buf
  have hctx := h1 State.ctx fun _ _ => rfl
  have hlog := h1 State.log fun _ _ => rfl
  refine ⟨h1 State.port fun _ _ => rfl, h1 State.marks fun _ _ => rfl, h1 State.client fun _ _ => rfl,
    congrArg Logs.wire hlog, congrArg Logs.cb hlog, ⟨[], ?_, by simp⟩, (by rw [← hctx]; rfl),
    (by rw [← hctx]; rfl), (by rw [← hctx]; rfl), hbuf .txbuf (by decide), hbuf .rxbuf (by decide),
    .inl ((by rw [← hctx]; rfl)), .inr ⟨hs, rfl⟩, .inl ((by rw [← hctx]; rfl)), ?_, hk.1, hk.2,
    fun _ => .same (h1 State.eng fun _ _ => rfl), .inl hs,
    .kept (congrArg Engine.phase (h1 State.eng fun _ _ => rfl))⟩
  · rw [List.append_nil]; exact congrArg Logs.act hlog
  · show EngineKept s.eng u.eng
    rw [h1 State.eng fun _ _ => rfl]; exact .refl _

/-- SET_ENABLE(1) goes to IDLE, or leaves PHASE and DATA. -/
theorem setEnable_keeps (e : Engine) :
    (e.setEnable true).phase = .idle ∨ ((e.setEnable true).phase = e.phase ∧ (e.setEnable true).data = e.data) := by
  cases hpe : e.pe
  · exact .inl (by simp [Engine.setEnable, hpe])
  · exact .inr (by simp [Engine.setEnable, hpe])

/-- GEN_START leaves PHASE and DATA. -/
theorem genStart_keeps (e : Engine) : e.genStart.phase = e.phase ∧ e.genStart.data = e.data := by
  unfold Engine.genStart
  split <;> exact ⟨rfl, rfl⟩

theorem trigger_hostFrame (s : State) : HostFrame s (trigger s) := by
  unfold trigger
  split
  · split
    · refine ⟨rfl, rfl, rfl, rfl, rfl, ⟨[⟨.host, .sendByte, s.ctx.pa⟩, ⟨.host, .setNotify, 7#8⟩], ?_, by simp⟩, rfl,
        rfl, rfl, rfl, rfl, .inr rfl, .inl rfl, .inl rfl, ?_, id, id, ?_, .inr .rfl,
        fun _ _ => ⟨.host, [], [⟨.host, .setNotify, 7#8⟩], by simp [goTo, issueSendByte, issueSetNotify, issue], by simp⟩⟩
      · simp [goTo]
      · exact (EngineFrame.sendByte s.eng s.ctx.pa).kept.trans (EngineFrame.setNotify _ 7#3).kept
      · intro ha hf
        have hp := ha.onlySb ‹_›
        refine .inr ⟨hp, ?_⟩
        show ((s.eng.sendByte s.ctx.pa).setNotify 7#3).data = _
        rw [sendByte_address (ha.awaits hp).1 hp]
        rfl
    · exact .refl s
  · exact ⟨rfl, rfl, rfl, rfl, rfl, ⟨[⟨.host, .genStart, 0#8⟩], rfl, by simp⟩, rfl, rfl, rfl, rfl, rfl, .inl rfl,
      .inl rfl, .inl rfl, (EngineFrame.genStart s.eng).kept, id, id,
      fun _ => .kept (genStart_keeps s.eng).1 (genStart_keeps s.eng).2, .inr .rfl, .kept (genStart_keeps s.eng).1⟩

/-- Moving the host after a micro-step. -/
theorem HostFrame.thenHost {s t : State} (h : HostFrame s t) (k : HostLocal) : HostFrame s { t with host := k } :=
  ⟨h.1, h.2, h.3, h.4, h.5, h.6, h.7, h.8, h.9, h.10, h.11, h.12, h.13, h.14, h.15, h.16, h.17, h.18, h.19, h.20⟩

theorem triggerRead_hostFrame (s : State) : HostFrame s (triggerRead s) := by
  unfold triggerRead
  dsimp only
  split
  · exact (trigger_hostFrame s).thenHost _
  · exact trigger_hostFrame s

theorem deliver_hostFrame {p : Config.Params} {n : Nat} {s t : State} (h : deliver p n s = .ok t) :
    HostFrame s t := by
  unfold deliver at h
  obtain ⟨bytes, -, h⟩ := andThen_eq_ok h
  obtain rfl := Except.ok.inj h
  exact .hostOnly s _

/-- W6 waits, or returns. -/
theorem finishWrite_eq_ok {wait : Bool} {s t : State} (h : finishWrite wait s = .ok t) :
    t = s ∨ ∃ r, t = returnWith r s := by
  unfold finishWrite at h
  split at h
  · rcases withState_eq s fun st => if st = .ready then
        if s.ctx.err = .none then .ok (returnWith .ok s) else .ok (returnWith (.err s.ctx.err) s)
      else .ok s with ⟨v, -, he⟩ | ⟨-, he⟩
    · rw [he] at h; exact absurd h (by simp)
    · rw [he] at h
      split at h
      · split at h <;> obtain rfl := Except.ok.inj h <;> exact .inr ⟨_, rfl⟩
      · exact .inl (Except.ok.inj h).symm
  · exact .inr ⟨_, (Except.ok.inj h).symm⟩

theorem writeStep_hostFrame {a7 : Addr7} {stop wait : Bool} {length : Half} {s t : State}
    (h : writeStep Config.params a7 stop wait length s = .ok t) : HostFrame s t := by
  unfold writeStep at h
  split at h
  · obtain ⟨-, -, h⟩ := whenAllowed_eq_ok h
    obtain rfl := Except.ok.inj h
    exact checkCapacity_hostFrame _ _ s
  · exact checkState_hostFrame h
  · rename_i hs
    exact armWrite_hostFrame hs h
  · rename_i hs
    obtain rfl := Except.ok.inj h
    exact ⟨rfl, rfl, rfl, rfl, rfl, ⟨[], by simp [enterRole], by simp⟩, rfl, rfl, rfl, rfl, rfl, .inl rfl, .inl rfl,
      .inr ⟨hs, rfl⟩, .refl _, id, id, fun _ => .same rfl, .inr .rfl, .kept rfl⟩
  · obtain rfl := Except.ok.inj h
    exact trigger_hostFrame s
  · rcases finishWrite_eq_ok h with rfl | ⟨r, rfl⟩
    · exact .refl t
    · exact .hostOnly s _
  · exact absurd h (by simp)
  · exact absurd h (by simp)

theorem readStep_hostFrame {a7 : Addr7} {stop : Bool} {length : Half} {s t : State}
    (h : readStep Config.params a7 stop length s = .ok t) : HostFrame s t := by
  unfold readStep at h
  split at h
  · obtain ⟨-, -, h⟩ := whenAllowed_eq_ok h
    obtain rfl := Except.ok.inj h
    exact checkCapacity_hostFrame _ _ s
  · exact checkState_hostFrame h
  · rename_i hs
    obtain rfl := Except.ok.inj h
    exact ⟨rfl, rfl, rfl, rfl, rfl, ⟨[], by simp [armRead], by simp⟩, rfl, rfl, rfl, rfl, rfl, .inl rfl, .inr ⟨hs, rfl⟩,
      .inl rfl, .refl _, id, id, fun _ => .same rfl, .inl hs, .kept rfl⟩
  · rename_i hs
    obtain rfl := Except.ok.inj h
    exact ⟨rfl, rfl, rfl, rfl, rfl, ⟨[], by simp [enterRole], by simp⟩, rfl, rfl, rfl, rfl, rfl, .inl rfl, .inl rfl,
      .inr ⟨hs, rfl⟩, .refl _, id, id, fun _ => .same rfl, .inr .rfl, .kept rfl⟩
  · obtain rfl := Except.ok.inj h
    exact triggerRead_hostFrame s
  · rcases poll_eq_ok h with ⟨-, rfl⟩ | ⟨-, rfl⟩ | ⟨-, rfl⟩ <;> exact .hostOnly s _
  · unfold finishRead at h
    split at h
    · exact deliver_hostFrame h
    · obtain rfl := Except.ok.inj h; exact .hostOnly s _
  · exact deliver_hostFrame h

/-- What a host command's micro-step leaves alone and keeps. -/
theorem exec_host_frame {i : Instr} {s t : State} (hi : i.isPrimitive = false) (h : exec i s = .next t) :
    HostFrame s t := by
  cases i with
  | init a7 =>
    have h := toOutcome_next h
    unfold initStep at h
    split at h
    · exact absurd h (by simp)
    · obtain rfl := Except.ok.inj h
      refine ⟨rfl, rfl, rfl, rfl, rfl, ⟨[⟨.host, .setEnable, 1#8⟩, ⟨.host, .setOwnAddr, a7.zeroExtend 8⟩,
        ⟨.host, .setAck, 1#8⟩, ⟨.host, .setNotify, 7#8⟩], ?_, by simp⟩, rfl, rfl, rfl, rfl, rfl, .inl rfl, .inl rfl,
        .inl rfl, ?_, id, id, ?_, .inr .rfl, ?_⟩
      · simp [returnWith]
      · exact (((EngineKept.setEnable s.eng true).trans (.setOwnAddr _ a7)).trans (EngineFrame.setAck _ true).kept).trans
          (EngineFrame.setNotify _ 7#3).kept
      · rcases setEnable_keeps s.eng with hp | ⟨h1, h2⟩
        · exact fun _ ha => absurd (ha.symm.trans hp) (by decide)
        · exact fun _ => .kept h1 h2
      · rcases setEnable_keeps s.eng with hp | ⟨h1, -⟩
        · exact fun _ ha => absurd (ha.symm.trans hp) (by decide)
        · exact .kept h1
  | write a7 stop wait len => exact writeStep_hostFrame (toOutcome_next h)
  | read a7 stop len => exact readStep_hostFrame (toOutcome_next h)
  | registerCallbacks =>
    injection h with h
    subst h
    exact ⟨rfl, rfl, rfl, rfl, rfl, ⟨[], by simp [returnWith], by simp⟩, rfl, rfl, rfl, rfl, rfl, .inl rfl, .inl rfl,
      .inl rfl, .refl _, id, id, fun _ => .same rfl, .inr .rfl, .kept rfl⟩
  | status =>
    have h := toOutcome_next h
    rcases withState_eq s fun st => (Except.ok (returnWith (.okStatus st s.ctx.err s.ctx.count) s) : Res State) with
      ⟨v, -, h1⟩ | ⟨-, h1⟩
    · rw [h1] at h; exact absurd h (by simp)
    · rw [h1] at h
      obtain rfl := Except.ok.inj h
      exact .hostOnly s _
  | sendByte | recvByte | genStart | genStop | setAck | clearFlag | setNotify | readEvent | setOwnAddr | setEnable =>
    exact absurd hi (by simp [Instr.isPrimitive])

/-- After a micro-step the hold of W5 stands as it did: the engine, RSF and INITED are as they were. -/
def Holds (s t : State) : Prop := t.eng = s.eng ∧ t.ctx.rsf = s.ctx.rsf ∧ t.ctx.inited = s.ctx.inited

theorem Holds.refl (s : State) : Holds s s := ⟨rfl, rfl, rfl⟩

theorem armWrite_holds {a7 : Addr7} {length : Half} {stop : Bool} {s t : State}
    (h : armWrite Config.params a7 length stop s = .ok t) : Holds s t := by
  unfold armWrite at h
  obtain ⟨u, hu, h⟩ := andThen_eq_ok h
  obtain rfl := Except.ok.inj h
  obtain ⟨-, hframe, -, -⟩ := memWriteSeq_eq_ok hu
  rw [hframe]
  exact ⟨rfl, rfl, rfl⟩

/-- While RSF = 1 and SB = 0 the trigger holds (41_master_api R197). -/
theorem trigger_held {s : State} (hr : s.ctx.rsf = true) (hb : s.eng.flag .sb = false) : trigger s = s := by
  simp [trigger, hr, hb]

/-- While RSF = 1 and SB = 0 no host micro-step of a block that is set up touches the engine or RSF: W5 and R5 hold, and
INIT is refused (41_master_api R190, R197). -/
theorem exec_host_held {i : Instr} {s t : State} (hi : i.isPrimitive = false) (h : exec i s = .next t)
    (hn : s.ctx.inited = true) (hr : s.ctx.rsf = true) (hb : s.eng.flag .sb = false) : Holds s t := by
  have h5 : Holds s (triggerRead s) := by
    unfold triggerRead
    rw [trigger_held hr hb]
    dsimp only
    split <;> exact ⟨rfl, rfl, rfl⟩
  cases i with
  | init a7 => simp [exec, execInit, initStep, hn] at h
  | write a7 stop wait len =>
    have h := toOutcome_next h
    unfold writeStep at h
    split at h
    · obtain ⟨-, -, h⟩ := whenAllowed_eq_ok h
      obtain rfl := Except.ok.inj h
      unfold checkCapacity
      split <;> exact ⟨rfl, rfl, rfl⟩
    · rcases checkState_eq_ok h with ⟨-, -, rfl⟩ | ⟨-, -, rfl⟩ | ⟨-, rfl⟩ <;> exact ⟨rfl, rfl, rfl⟩
    · exact armWrite_holds h
    · obtain rfl := Except.ok.inj h; exact ⟨rfl, rfl, rfl⟩
    · obtain rfl := Except.ok.inj h; rw [trigger_held hr hb]; exact .refl s
    · rcases finishWrite_eq_ok h with rfl | ⟨r, rfl⟩
      · exact .refl t
      · exact ⟨rfl, rfl, rfl⟩
    · exact absurd h (by simp)
    · exact absurd h (by simp)
  | read a7 stop len =>
    have hd : ∀ {n}, deliver Config.params n s = .ok t → Holds s t := by
      intro n h
      unfold deliver at h
      obtain ⟨bytes, -, h⟩ := andThen_eq_ok h
      obtain rfl := Except.ok.inj h
      exact ⟨rfl, rfl, rfl⟩
    have h := toOutcome_next h
    unfold readStep at h
    split at h
    · obtain ⟨-, -, h⟩ := whenAllowed_eq_ok h
      obtain rfl := Except.ok.inj h
      unfold checkCapacity
      split <;> exact ⟨rfl, rfl, rfl⟩
    · rcases checkState_eq_ok h with ⟨-, -, rfl⟩ | ⟨-, -, rfl⟩ | ⟨-, rfl⟩ <;> exact ⟨rfl, rfl, rfl⟩
    · obtain rfl := Except.ok.inj h; exact ⟨rfl, rfl, rfl⟩
    · obtain rfl := Except.ok.inj h; exact ⟨rfl, rfl, rfl⟩
    · obtain rfl := Except.ok.inj h; exact h5
    · rcases poll_eq_ok h with ⟨-, rfl⟩ | ⟨-, rfl⟩ | ⟨-, rfl⟩ <;> exact ⟨rfl, rfl, rfl⟩
    · unfold finishRead at h
      split at h
      · exact hd h
      · obtain rfl := Except.ok.inj h; exact ⟨rfl, rfl, rfl⟩
    · exact hd h
  | registerCallbacks => injection h with h; subst h; exact ⟨rfl, rfl, rfl⟩
  | status =>
    have h := toOutcome_next h
    rcases withState_eq s fun st => (Except.ok (returnWith (.okStatus st s.ctx.err s.ctx.count) s) : Res State) with
      ⟨v, -, h1⟩ | ⟨-, h1⟩
    · rw [h1] at h; exact absurd h (by simp)
    · rw [h1] at h
      obtain rfl := Except.ok.inj h
      exact ⟨rfl, rfl, rfl⟩
  | sendByte | recvByte | genStart | genStop | setAck | clearFlag | setNotify | readEvent | setOwnAddr | setEnable =>
    exact absurd hi (by simp [Instr.isPrimitive])

/-- What a primitive on the internal bus keeps of the engine registers. -/
theorem exec_primitive_kept {i : Instr} {s t : State} (hi : i.isPrimitive = true) (h : exec i s = .next t) :
    EngineKept s.eng t.eng := by
  cases i with
  | sendByte b => injection h with h; subst h; exact (EngineFrame.sendByte s.eng b).kept
  | recvByte => injection h with h; subst h; exact (EngineFrame.recvByte s.eng).kept
  | genStart => injection h with h; subst h; exact (EngineFrame.genStart s.eng).kept
  | genStop => injection h with h; subst h; exact (EngineFrame.genStop s.eng).kept
  | setAck e => injection h with h; subst h; exact (EngineFrame.setAck s.eng e).kept
  | clearFlag k =>
    simp only [exec, execClearFlag] at h
    split at h
    · injection h with h; subst h; exact .clearFlag s.eng ‹_›
    · exact absurd h (by simp)
  | setNotify m => injection h with h; subst h; exact (EngineFrame.setNotify s.eng m).kept
  | readEvent => injection h with h; subst h; exact (EngineFrame.readEvent s.eng).kept
  | setOwnAddr a => injection h with h; subst h; exact .setOwnAddr s.eng a
  | setEnable e => injection h with h; subst h; exact .setEnable s.eng e
  | init | write | read | registerCallbacks | status => exact absurd hi (by simp [Instr.isPrimitive])

/-- What an engine step keeps of the engine registers. -/
theorem runEngine_kept {p : Config.Params} {m : Config.EngineMove} {s t : State} (h : runEngine p m s = some t) :
    (ReservedBitsZero s.eng → ReservedBitsZero t.eng) ∧ (OffExactlyWhenDisabled s.eng → OffExactlyWhenDisabled t.eng)
      ∧ (AddressPhaseSound s.eng → AddressPhaseSound t.eng)
      ∧ (AddressPhaseQuiet s.eng → (t.eng.phase = .mSb → s.eng.phase = .mSb ∨ NothingLeft s.eng) →
          AddressPhaseQuiet t.eng) := by
  obtain ⟨r, hr, rfl⟩ := runEngine_eq_some h
  exact ⟨engineStep_reserved hr, engineStep_off hr, (engineStep_address hr).1, (engineStep_address hr).2.1⟩

end Sys2Proof.Machine
end

