-- ==== Sys2Proof/Laws/Cells.lean ====
section
/-! SUPPORT. Which buffer cells an invocation and a host micro-step may change, and that they change no other. -/

namespace Sys2Proof.Machine

/-- The cells of `s` and `t` agree outside the cells `A` names. -/
def CellsKept (A : BufName → Nat → Prop) (s t : State) : Prop := ∀ n k, ¬ A n k → t.cell n k = s.cell n k

/-- The one cell `i` of the buffer `n`. -/
def OneCell (n : BufName) (i : Nat) : BufName → Nat → Prop := fun m k => m = n ∧ k = i

theorem CellsKept.of_buf {A : BufName → Nat → Prop} {s t : State} (h : t.buf = s.buf) : CellsKept A s t :=
  fun n k _ => by unfold State.cell; rw [h]

theorem CellsKept.trans {A : BufName → Nat → Prop} {s t u : State} (h : CellsKept A s t) (k : CellsKept A t u) :
    CellsKept A s u := fun n j hA => (k n j hA).trans (h n j hA)

theorem CellsKept.mono {A B : BufName → Nat → Prop} {s t : State} (h : CellsKept A s t) (hAB : ∀ n k, A n k → B n k) :
    CellsKept B s t := fun n k hB => h n k fun hA => hB (hAB n k hA)

/-- A buffer write changes its one cell at most. -/
theorem CellsKept.memWrite {p : Config.Params} {n : BufName} {i : Nat} {v : Byte} {s t : State}
    (h : memWrite p n i v s = .ok t) : CellsKept (OneCell n i) s t := by
  obtain ⟨-, rfl⟩ := memWrite_eq_ok.1 h
  exact fun m k hA => (cell_put_write s n m i k v).trans (if_neg hA)

/-- A buffer write between updates that touch no buffer. -/
theorem CellsKept.stored {p : Config.Params} {n : BufName} {i : Nat} {v : Byte} {s a u t : State}
    (h : Machine.memWrite p n i v a = .ok u) (ha : a.buf = s.buf) (ht : t.buf = u.buf) :
    CellsKept (OneCell n i) s t :=
  (CellsKept.of_buf ha).trans ((CellsKept.memWrite h).trans (.of_buf ht))

/-! ### The dispatcher's handlers -/

theorem terminate_buf (s : State) : (terminate s).buf = s.buf := by
  unfold terminate
  split <;> rfl

theorem txNext_buf {p : Config.Params} {s t : State} (h : txNext p s = .ok t) : t.buf = s.buf := by
  unfold txNext at h
  split at h
  · obtain ⟨b, -, h⟩ := andThen_eq_ok h
    obtain rfl := Except.ok.inj h; rfl
  · obtain rfl := Except.ok.inj h; exact terminate_buf s

theorem mtx_buf {p : Config.Params} {ev : EvWord} {s t : State} (h : mtx p ev s = .ok t) : t.buf = s.buf := by
  unfold mtx at h
  split at h
  · obtain rfl := Except.ok.inj h; rfl
  · split at h
    · exact txNext_buf h
    · obtain rfl := Except.ok.inj h; rfl

theorem rxStore_cells {p : Config.Params} {s t : State} (h : rxStore p s = .ok t) :
    CellsKept (OneCell .mbuf s.ctx.mCur.toNat) s t := by
  unfold rxStore at h
  split at h
  · exact absurd h (by simp)
  · obtain ⟨u, hu, h⟩ := andThen_eq_ok h
    dsimp only at h
    split at h <;>
    · obtain rfl := Except.ok.inj h
      exact .stored hu rfl rfl

theorem finalCapture_cells {p : Config.Params} {s t : State} (h : finalCapture p s = .ok t) :
    CellsKept (OneCell .mbuf s.ctx.mLen.toNat) s t := by
  unfold finalCapture at h
  obtain ⟨u, hu, h⟩ := andThen_eq_ok h
  obtain rfl := Except.ok.inj h
  exact .stored hu rfl rfl

/-- FINAL_CAPTURE and TERMINATE together change the cell of the final byte at most. -/
theorem finalByte_cells {p : Config.Params} {s t : State}
    (h : andThen (finalCapture p s) (fun u => .ok (terminate u)) = .ok t) :
    CellsKept (OneCell .mbuf s.ctx.mLen.toNat) s t := by
  obtain ⟨u, hu, h⟩ := andThen_eq_ok h
  obtain rfl := Except.ok.inj h
  exact (finalCapture_cells hu).trans (.of_buf (terminate_buf u))

/-- The cell an MRX with the snapshot `ev` may store to. -/
def ReceiveCell (ev : EvWord) (s : State) : BufName → Nat → Prop := fun n k =>
  n = .mbuf ∧ if s.ctx.nackp = true then k = s.ctx.mLen.toNat ∧ (evHas ev .rxne = true ∨ evHas ev .af = true)
    else k = s.ctx.mCur.toNat ∧ evHas ev .rxne = true

theorem mrx_cells {ev : EvWord} {s t : State} (h : mrx Config.params ev s.ctx.nackp s = .ok t) :
    CellsKept (ReceiveCell ev s) s t := by
  unfold mrx at h
  obtain ⟨u, hu, hk⟩ := andThen_eq_ok h
  clear h
  have h1 : (if evHas ev .addr then mrxAddr s else s).buf = s.buf
      ∧ (if evHas ev .addr then mrxAddr s else s).ctx.mCur = s.ctx.mCur
      ∧ (if evHas ev .addr then mrxAddr s else s).ctx.mLen = s.ctx.mLen := by
    split
    · exact ⟨(mrxAddr_keeps s).1, (mrxAddr_keeps s).2.1, (mrxAddr_keeps s).2.2.1⟩
    · exact ⟨rfl, rfl, rfl⟩
  obtain ⟨hb, hcur, hlen⟩ := h1
  generalize (if evHas ev .addr then mrxAddr s else s) = a at *
  have hdata : CellsKept (ReceiveCell ev s) s u ∧ u.ctx.mLen = s.ctx.mLen := by
    split at hu
    · rename_i hr
      have hr := ((Bool.and_eq_true ..).mp hr).1
      refine ⟨CellsKept.trans (.of_buf hb) ?_, (mrxData_frame hu).mLen.trans hlen⟩
      unfold mrxData at hu
      split at hu
      · rename_i hn
        refine (finalByte_cells hu).mono fun n k hk => ⟨hk.1, ?_⟩
        rw [if_pos hn, ← hlen]; exact ⟨hk.2, .inl hr⟩
      · rename_i hn
        refine (rxStore_cells hu).mono fun n k hk => ⟨hk.1, ?_⟩
        rw [if_neg hn, ← hcur]; exact ⟨hk.2, hr⟩
    · obtain rfl := Except.ok.inj hu; exact ⟨.of_buf hb, hlen⟩
  refine hdata.1.trans ?_
  split at hk
  · rename_i ha
    unfold mrxNack at hk
    dsimp only at hk
    split at hk
    · rename_i hn
      split at hk
      · obtain rfl := Except.ok.inj hk; exact .of_buf rfl
      · refine CellsKept.trans (t := issueClearFlag .dispatcher (flagOperand .af) u) (.of_buf rfl)
          ((finalByte_cells hk).mono fun n k hc => ⟨hc.1, ?_⟩)
        rw [if_pos hn, ← hdata.2]; exact ⟨hc.2, .inr ha⟩
    · split at hk <;> obtain rfl := Except.ok.inj hk <;> exact .of_buf rfl
  · obtain rfl := Except.ok.inj hk; exact .of_buf rfl

/-- STX sends, and writes no buffer and no TX_LEN. -/
theorem stx_keeps {p : Config.Params} {ev : EvWord} {s t : State} (h : stx p ev s = .ok t) :
    t.buf = s.buf ∧ t.ctx.txLen = s.ctx.txLen := by
  unfold stx at h
  dsimp only at h
  split at h
  · obtain rfl := Except.ok.inj h; exact ⟨rfl, rfl⟩
  · split at h
    · unfold slaveTxByte at h
      split at h
      · obtain ⟨b, -, h⟩ := andThen_eq_ok h
        obtain rfl := Except.ok.inj h; exact ⟨rfl, rfl⟩
      · obtain rfl := Except.ok.inj h; exact ⟨rfl, rfl⟩
    · obtain rfl := Except.ok.inj h; exact ⟨rfl, rfl⟩

theorem onReceive_buf {p : Config.Params} {s t : State} (h : onReceive p s = .ok t) : t.buf = s.buf := by
  unfold onReceive at h
  obtain ⟨bytes, -, h⟩ := andThen_eq_ok h
  obtain ⟨u, hu, h⟩ := andThen_eq_ok h
  obtain rfl := Except.ok.inj h
  show u.buf = s.buf
  split at hu
  · obtain rfl := Except.ok.inj hu; rfl
  · unfold callOnReceive at hu
    split at hu
    · obtain rfl := Except.ok.inj hu; rfl
    · exact absurd hu (by simp)

/-- The cell an SRX with the snapshot `ev` may store to. -/
def SlaveReceiveCell (ev : EvWord) (s : State) : BufName → Nat → Prop := fun n k =>
  n = .rxbuf ∧ k = s.ctx.rxCur.toNat ∧ evHas ev .rxne = true

theorem srx_cells {p : Config.Params} {ev : EvWord} {s t : State} (h : srx p ev s = .ok t) :
    CellsKept (SlaveReceiveCell ev s) s t := by
  unfold srx at h
  obtain ⟨s1, h1, h⟩ := andThen_eq_ok h
  obtain ⟨s2, h2, h⟩ := andThen_eq_ok h
  obtain rfl := Except.ok.inj h
  have hs1 : CellsKept (SlaveReceiveCell ev s) s s1 := by
    split at h1
    · rename_i hr
      unfold srxData at h1
      dsimp only at h1
      split at h1
      · obtain ⟨u, hu, h1⟩ := andThen_eq_ok h1
        obtain rfl := Except.ok.inj h1
        exact CellsKept.mono (.stored hu rfl rfl) fun n k hk => ⟨hk.1, hk.2, hr⟩
      · obtain rfl := Except.ok.inj h1; exact .of_buf rfl
    · obtain rfl := Except.ok.inj h1; exact .of_buf rfl
  have hs2 : s2.buf = s1.buf := by
    split at h2
    · unfold srxStop at h2
      obtain ⟨u, hu, h2⟩ := andThen_eq_ok h2
      obtain rfl := Except.ok.inj h2
      have hb := onReceive_buf hu
      exact hb
    · obtain rfl := Except.ok.inj h2; rfl
  refine hs1.trans (.of_buf ?_)
  split
  · exact hs2
  · exact hs2

/-- What a slave-transmit match may store to: the answer of a registered client, below the TX_LEN it leaves. -/
theorem slaveMatchTx_cells {p : Config.Params} {s t : State} (h : slaveMatchTx p s = .ok t) :
    CellsKept (fun n k => n = .txbuf ∧ s.ctx.cb ≠ 0 ∧ k < t.ctx.txLen.toNat) s t := by
  unfold slaveMatchTx at h
  dsimp only at h
  split at h
  · obtain rfl := Except.ok.inj h; exact .of_buf rfl
  · rename_i hcb
    unfold callOnTransmit at h
    split at h
    · exact absurd h (by simp)
    · rename_i n bytes cs _
      split at h
      · rename_i hl
        split at h
        · rename_i hn
          obtain ⟨u, hu, h⟩ := andThen_eq_ok h
          obtain rfl := Except.ok.inj h
          obtain ⟨-, -, -, hcell⟩ := memWriteSeq_eq_ok hu
          intro b k hA
          refine (hcell b k).trans (if_neg ?_)
          rintro ⟨rfl, -, hk⟩
          refine hA ⟨rfl, hcb, ?_⟩
          show k < (BitVec.ofNat 16 n).toNat
          rw [BitVec.toNat_ofNat, Nat.mod_eq_of_lt (by have := bufCap_le p; omega)]
          omega
        · exact absurd h (by simp)
      · exact absurd h (by simp)

/-- What the slave branch may store to. -/
def SlaveCell (ev : EvWord) (s t : State) : BufName → Nat → Prop
  | .mbuf, _ => False
  | .txbuf, k => evHas ev .addr = true ∧ evHas ev .tra = true ∧ s.ctx.cb ≠ 0 ∧ k < t.ctx.txLen.toNat
  | .rxbuf, k => evHas ev .rxne = true
    ∧ if evHas ev .addr = true then k = 0 ∧ evHas ev .tra = false
      else k = s.ctx.rxCur.toNat ∧ s.ctx.state = .slaveReceiving

theorem slaveRole_cells {p : Config.Params} {ev : EvWord} {s t : State} (h : slaveRole p ev s = .ok t) :
    CellsKept (SlaveCell ev s t) s t := by
  unfold slaveRole at h
  obtain ⟨u, hu, h⟩ := andThen_eq_ok h
  by_cases ha : evHas ev .addr = true
  · rw [if_pos ha] at hu
    have hst := slaveMatch_state hu
    unfold slaveMatch at hu
    by_cases ht : evHas ev .tra = true
    · rw [if_pos ht] at hu hst
      rw [hst] at h
      obtain ⟨hb, hl⟩ := stx_keeps h
      refine CellsKept.trans ((slaveMatchTx_cells hu).mono fun n k hk => ?_) (.of_buf hb)
      obtain ⟨rfl, hcb, hk⟩ := hk
      exact ⟨ha, ht, hcb, hl ▸ hk⟩
    · rw [if_neg ht] at hu hst
      obtain rfl := Except.ok.inj hu
      rw [hst] at h
      refine CellsKept.trans (t := slaveMatchRx s) (.of_buf rfl) ((srx_cells h).mono fun n k hk => ?_)
      obtain ⟨rfl, hk, hr⟩ := hk
      refine ⟨hr, ?_⟩
      rw [if_pos ha]
      exact ⟨hk, by simpa using ht⟩
  · rw [if_neg ha] at hu
    obtain rfl := Except.ok.inj hu
    split at h
    · exact .of_buf (stx_keeps h).1
    · rename_i hst
      refine (srx_cells h).mono fun n k hk => ?_
      obtain ⟨rfl, hk, hr⟩ := hk
      refine ⟨hr, ?_⟩
      rw [if_neg ha]
      exact ⟨hk, hst⟩
    · obtain rfl := Except.ok.inj h; exact .of_buf rfl
    · obtain rfl := Except.ok.inj h; exact .of_buf rfl
    · obtain rfl := Except.ok.inj h; exact .of_buf rfl
    · exact absurd h (by simp)

/-- What the master branch may store to. -/
theorem masterRole_cells {ev : EvWord} {s t : State} (h : masterRole Config.params ev s.ctx.nackp s = .ok t) :
    CellsKept (fun n k => ReceiveCell ev s n k ∧ s.ctx.state = .masterReceiving) s t := by
  unfold masterRole at h
  dsimp only at h
  have h1 : (if evHas ev .sb then issueSendByte .dispatcher s.ctx.pa s else s).buf = s.buf
      ∧ (if evHas ev .sb then issueSendByte .dispatcher s.ctx.pa s else s).ctx = s.ctx := by
    split <;> exact ⟨rfl, rfl⟩
  obtain ⟨hb, hc⟩ := h1
  generalize (if evHas ev .sb then issueSendByte .dispatcher s.ctx.pa s else s) = a at *
  refine CellsKept.trans (.of_buf hb) ?_
  split at h
  · exact .of_buf (mtx_buf h)
  · rename_i hst
    rw [← hc] at h
    refine (mrx_cells h).mono fun n k hk => ⟨?_, hc ▸ hst⟩
    unfold ReceiveCell at hk ⊢
    rwa [hc] at hk
  · obtain rfl := Except.ok.inj h; exact .of_buf rfl
  · obtain rfl := Except.ok.inj h; exact .of_buf rfl
  · obtain rfl := Except.ok.inj h; exact .of_buf rfl
  · exact absurd h (by simp)

/-- CROSS writes no buffer and no TX_LEN. -/
theorem cross_keeps (p : Config.Params) (ev : EvWord) (s : State) :
    (cross p ev s).buf = s.buf ∧ (cross p ev s).ctx.txLen = s.ctx.txLen := by
  have h1 : ∀ (f : Flag) (e : ErrorCode) (s : State),
      (crossLatch ev f e s).buf = s.buf ∧ (crossLatch ev f e s).ctx.txLen = s.ctx.txLen := by
    intro f e s
    unfold crossLatch
    split <;> exact ⟨rfl, rfl⟩
  have h2 : (crossBerr p ev s).buf = s.buf ∧ (crossBerr p ev s).ctx.txLen = s.ctx.txLen := by
    unfold crossBerr errEnds
    split
    · split <;> exact ⟨rfl, rfl⟩
    · exact ⟨rfl, rfl⟩
  have h3 : ∀ s : State, (crossArlo p ev s).buf = s.buf ∧ (crossArlo p ev s).ctx.txLen = s.ctx.txLen := by
    intro s
    unfold crossArlo errEnds
    split
    · split <;> exact ⟨rfl, rfl⟩
    · exact ⟨rfl, rfl⟩
  unfold cross
  simp [h1, h2, h3]

/-- Which cells an invocation may change, by the role its snapshot selects. -/
theorem invoke_cells {s t : State} (h : invoke Config.params s = .ok t) :
    CellsKept (fun n k =>
      if evHas s.eng.ev .msl = true then ReceiveCell s.eng.ev s n k ∧ s.ctx.state = .masterReceiving
      else SlaveCell s.eng.ev s t n k) s t := by
  unfold invoke at h
  obtain ⟨u, hu, h⟩ := andThen_eq_ok h
  obtain rfl := Except.ok.inj h
  obtain ⟨hb, hl⟩ := cross_keeps Config.params s.eng.ev u
  refine CellsKept.trans (t := u) (CellsKept.trans (t := enterHandler s) (.of_buf rfl) ?_) (.of_buf hb)
  unfold roleBranch at hu
  split at hu
  · rename_i hm
    exact (masterRole_cells hu).mono fun n k hk => (if_pos (c := evHas s.eng.ev .msl = true) hm).mpr hk
  · rename_i hm
    refine (slaveRole_cells hu).mono fun n k hk => (if_neg (c := evHas s.eng.ev .msl = true) hm).mpr ?_
    cases n with
    | mbuf => exact hk
    | txbuf => exact ⟨hk.1, hk.2.1, hk.2.2.1, by show k < (cross Config.params s.eng.ev u).ctx.txLen.toNat; rw [hl]; exact hk.2.2.2⟩
    | rxbuf => exact hk

/-! ### The host's micro-steps -/

/-- A host micro-step stores to the cells W3 loads, and to no other. -/
theorem exec_host_cells {i : Instr} {s t : State} (hi : i.isPrimitive = false) (h : exec i s = .next t) :
    CellsKept (fun n k => n = .mbuf ∧ s.host.step = .m3 ∧ ∃ a7 stop wait len, i = .write a7 stop wait len ∧ k < len.toNat)
      s t := by
  cases i with
  | write a7 stop wait len =>
    have h := toOutcome_next h
    unfold writeStep at h
    split at h
    · obtain ⟨-, -, h⟩ := whenAllowed_eq_ok h
      obtain rfl := Except.ok.inj h
      rcases checkCapacity_cases Config.params (lengthOf len) s with ⟨-, h⟩ | ⟨-, h⟩ <;> rw [h] <;> exact .of_buf rfl
    · rcases checkState_eq_ok h with ⟨-, -, rfl⟩ | ⟨-, -, rfl⟩ | ⟨-, rfl⟩ <;> exact .of_buf rfl
    · rename_i hs
      unfold armWrite at h
      obtain ⟨u, hu, h⟩ := andThen_eq_ok h
      obtain rfl := Except.ok.inj h
      obtain ⟨-, -, -, hcell⟩ := memWriteSeq_eq_ok hu
      intro n k hA
      refine (hcell n k).trans (if_neg ?_)
      rintro ⟨rfl, -, hk⟩
      refine hA ⟨rfl, hs, a7, stop, wait, len, rfl, ?_⟩
      rw [List.length_take, lengthOf_toNat] at hk
      omega
    · obtain rfl := Except.ok.inj h; exact .of_buf rfl
    · obtain rfl := Except.ok.inj h
      refine .of_buf ?_
      unfold trigger
      split
      · split <;> rfl
      · rfl
    · unfold finishWrite at h
      split at h
      · rcases withState_eq s fun st => if st = .ready then
            if s.ctx.err = .none then .ok (returnWith .ok s) else .ok (returnWith (.err s.ctx.err) s)
          else .ok s with ⟨v, -, he⟩ | ⟨-, he⟩
        · rw [he] at h; exact absurd h (by simp)
        · rw [he] at h
          split at h
          · split at h <;> obtain rfl := Except.ok.inj h <;> exact .of_buf rfl
          · obtain rfl := Except.ok.inj h; exact .of_buf rfl
      · obtain rfl := Except.ok.inj h; exact .of_buf rfl
    · exact absurd h (by simp)
    · exact absurd h (by simp)
  | read a7 stop len =>
    refine .of_buf ?_
    have h := toOutcome_next h
    unfold readStep at h
    split at h
    · obtain ⟨-, -, h⟩ := whenAllowed_eq_ok h
      obtain rfl := Except.ok.inj h
      rcases checkCapacity_cases Config.params (lengthOf len) s with ⟨-, h⟩ | ⟨-, h⟩ <;> rw [h] <;> rfl
    · rcases checkState_eq_ok h with ⟨-, -, rfl⟩ | ⟨-, -, rfl⟩ | ⟨-, rfl⟩ <;> rfl
    · obtain rfl := Except.ok.inj h; rfl
    · obtain rfl := Except.ok.inj h; rfl
    · obtain rfl := Except.ok.inj h
      unfold triggerRead trigger
      dsimp only
      split
      · split <;> split <;> rfl
      · split <;> rfl
    · rcases poll_eq_ok h with ⟨-, rfl⟩ | ⟨-, rfl⟩ | ⟨-, rfl⟩ <;> rfl
    · unfold finishRead deliver at h
      split at h
      · obtain ⟨bytes, -, h⟩ := andThen_eq_ok h
        obtain rfl := Except.ok.inj h; rfl
      · obtain rfl := Except.ok.inj h; rfl
    · unfold timeoutRead deliver at h
      obtain ⟨bytes, -, h⟩ := andThen_eq_ok h
      obtain rfl := Except.ok.inj h; rfl
  | init a7 =>
    have h := toOutcome_next h
    unfold initStep at h
    split at h
    · exact absurd h (by simp)
    · obtain rfl := Except.ok.inj h; exact .of_buf rfl
  | registerCallbacks => injection h with h; subst h; exact .of_buf rfl
  | status =>
    have h := toOutcome_next h
    rcases withState_eq s fun st => (Except.ok (returnWith (.okStatus st s.ctx.err s.ctx.count) s) : Res State) with
      ⟨v, -, h1⟩ | ⟨-, h1⟩
    · rw [h1] at h; exact absurd h (by simp)
    · rw [h1] at h
      obtain rfl := Except.ok.inj h; exact .of_buf rfl
  | sendByte | recvByte | genStart | genStop | setAck | clearFlag | setNotify | readEvent | setOwnAddr | setEnable =>
    exact absurd hi (by simp [Instr.isPrimitive])

end Sys2Proof.Machine
end

