-- ==== Sys2Proof/Laws/Encoding.lean ====
section
/-! SUPPORT. The fields of the two word formats, of a word written out and of any word. -/

namespace Sys2Proof

theorem word_ext {v w : CmdWord} (h : ∀ i : Fin 32, v.getLsbD i.val = w.getLsbD i.val) : v = w :=
  BitVec.eq_of_getLsbD_eq fun i hi => h ⟨i, hi⟩

/-! ### The fields of a P-format word -/

@[simp] theorem classOf_wordP (op : BitVec 4) (imm : BitVec 8) : classOf (wordP op imm) = 0x0#4 := by
  apply BitVec.eq_of_getLsbD_eq
  intro i hi
  simp only [classOf, wordP, BitVec.getLsbD_extractLsb', BitVec.getLsbD_append]
  have : i = 0 ∨ i = 1 ∨ i = 2 ∨ i = 3 := by omega
  rcases this with rfl | rfl | rfl | rfl <;> simp

@[simp] theorem opOf_wordP (op : BitVec 4) (imm : BitVec 8) : opOf (wordP op imm) = op := by
  apply BitVec.eq_of_getLsbD_eq
  intro i hi
  simp only [opOf, wordP, BitVec.getLsbD_extractLsb', BitVec.getLsbD_append]
  have : i = 0 ∨ i = 1 ∨ i = 2 ∨ i = 3 := by omega
  rcases this with rfl | rfl | rfl | rfl <;> simp

@[simp] theorem zeroOf_wordP (op : BitVec 4) (imm : BitVec 8) : zeroOf (wordP op imm) = 0#16 := by
  apply BitVec.eq_of_getLsbD_eq
  intro i hi
  simp only [zeroOf, wordP, BitVec.getLsbD_extractLsb', BitVec.getLsbD_append]
  have h1 : ¬ 8 + i < 8 := by omega
  simp [h1, hi]

@[simp] theorem immOf_wordP (op : BitVec 4) (imm : BitVec 8) : immOf (wordP op imm) = imm := by
  apply BitVec.eq_of_getLsbD_eq
  intro i hi
  simp only [immOf, wordP, BitVec.getLsbD_extractLsb', BitVec.getLsbD_append]
  simp [hi]

/-! ### The fields of an H-format word -/

section
variable (op : BitVec 4) (a7 : Addr7) (stop wait : Bool) (len : BitVec 15)

@[simp] theorem classOf_wordH : classOf (wordH op a7 stop wait len) = 0x1#4 := by
  apply BitVec.eq_of_getLsbD_eq
  intro i hi
  simp only [classOf, wordH, BitVec.getLsbD_extractLsb', BitVec.getLsbD_append]
  have : i = 0 ∨ i = 1 ∨ i = 2 ∨ i = 3 := by omega
  rcases this with rfl | rfl | rfl | rfl <;> simp

@[simp] theorem opOf_wordH : opOf (wordH op a7 stop wait len) = op := by
  apply BitVec.eq_of_getLsbD_eq
  intro i hi
  simp only [opOf, wordH, BitVec.getLsbD_extractLsb', BitVec.getLsbD_append]
  have : i = 0 ∨ i = 1 ∨ i = 2 ∨ i = 3 := by omega
  rcases this with rfl | rfl | rfl | rfl <;> simp

@[simp] theorem addrOf_wordH : addrOf (wordH op a7 stop wait len) = a7 := by
  apply BitVec.eq_of_getLsbD_eq
  intro i hi
  simp only [addrOf, wordH, BitVec.getLsbD_extractLsb', BitVec.getLsbD_append]
  have h1 : ¬ 17 + i < 15 := by omega
  have h2 : ¬ 17 + i - 15 < 1 := by omega
  have h3 : ¬ 17 + i - 15 - 1 < 1 := by omega
  have h4 : 17 + i - 15 - 1 - 1 = i := by omega
  simp [h1, h2, h3, h4, hi]

@[simp] theorem stopOf_wordH : stopOf (wordH op a7 stop wait len) = stop := by
  simp only [stopOf, wordH, BitVec.getLsbD_append]
  simp

@[simp] theorem waitOf_wordH : waitOf (wordH op a7 stop wait len) = wait := by
  simp only [waitOf, wordH, BitVec.getLsbD_append]
  simp

@[simp] theorem lenOf_wordH : lenOf (wordH op a7 stop wait len) = len := by
  apply BitVec.eq_of_getLsbD_eq
  intro i hi
  simp only [lenOf, wordH, BitVec.getLsbD_extractLsb', BitVec.getLsbD_append]
  simp [hi]

end

/-! ### A word is its fields -/

/-- A P-format word with a zero field is its opcode and operand. -/
theorem eq_wordP {w : CmdWord} (hc : classOf w = 0x0#4) (hz : zeroOf w = 0#16) : w = wordP (opOf w) (immOf w) := by
  have hc' : ∀ i, i < 4 → w.getLsbD (28 + i) = (0x0#4).getLsbD i := fun i hi => by
    rw [← hc]; simp [classOf, hi]
  have hz' : ∀ i, i < 16 → w.getLsbD (8 + i) = false := fun i hi => by
    have := congrArg (BitVec.getLsbD · i) hz
    simpa [zeroOf, hi] using this
  apply BitVec.eq_of_getLsbD_eq
  intro i hi
  simp only [wordP, BitVec.getLsbD_append]
  split
  · simp [immOf, *]
  · split
    · rename_i h1 h2
      have := hz' (i - 8) (by omega)
      rw [show 8 + (i - 8) = i by omega] at this
      simp [this]
    · split
      · rename_i h1 h2 h3
        simp [opOf, h3]
        rw [show 24 + (i - 8 - 16) = i by omega]
      · rename_i h1 h2 h3
        have := hc' (i - 28) (by omega)
        rw [show 28 + (i - 28) = i by omega] at this
        rw [this]
        congr 1

/-- An H-format word is its fields. -/
theorem eq_wordH {w : CmdWord} (hc : classOf w = 0x1#4) :
    w = wordH (opOf w) (addrOf w) (stopOf w) (waitOf w) (lenOf w) := by
  have hc' : ∀ i, i < 4 → w.getLsbD (28 + i) = (0x1#4).getLsbD i := fun i hi => by
    rw [← hc]; simp [classOf, hi]
  apply BitVec.eq_of_getLsbD_eq
  intro i hi
  simp only [wordH, BitVec.getLsbD_append]
  split
  · simp [lenOf, *]
  · split
    · rename_i h1 h2
      obtain rfl : i = 15 := by omega
      simp [waitOf]
    · split
      · rename_i h1 h2 h3
        obtain rfl : i = 16 := by omega
        simp [stopOf]
      · split
        · rename_i h1 h2 h3 h4
          simp [addrOf, h4]
          rw [show 17 + (i - 15 - 1 - 1) = i by omega]
        · split
          · rename_i h1 h2 h3 h4 h5
            simp [opOf, h5]
            rw [show 24 + (i - 15 - 1 - 1 - 7) = i by omega]
          · have := hc' (i - 28) (by omega)
            rw [show 28 + (i - 28) = i by omega] at this
            rw [this]
            congr 1

/-! ### A word under a mask -/

theorem extractLsb'_and (v w : CmdWord) (k n : Nat) :
    (v &&& w).extractLsb' k n = v.extractLsb' k n &&& w.extractLsb' k n := by
  apply BitVec.eq_of_getLsbD_eq
  intro i hi
  simp [hi]

/-- Two words with the same P-format fields are one word. -/
theorem eq_of_fieldsP {v w : CmdWord} (hc : classOf v = classOf w) (ho : opOf v = opOf w) (hz : zeroOf v = zeroOf w)
    (hi : immOf v = immOf w) : v = w := by
  apply BitVec.eq_of_getLsbD_eq
  intro i hi'
  by_cases h1 : i < 8
  · have := congrArg (BitVec.getLsbD · i) hi
    simpa [immOf, h1] using this
  · by_cases h2 : i < 24
    · have := congrArg (BitVec.getLsbD · (i - 8)) hz
      simpa [zeroOf, show i - 8 < 16 by omega, show 8 + (i - 8) = i by omega] using this
    · by_cases h3 : i < 28
      · have := congrArg (BitVec.getLsbD · (i - 24)) ho
        simpa [opOf, show i - 24 < 4 by omega, show 24 + (i - 24) = i by omega] using this
      · have := congrArg (BitVec.getLsbD · (i - 28)) hc
        simpa [classOf, show i - 28 < 4 by omega, show 28 + (i - 28) = i by omega] using this

/-- Two words with the same H-format fields are one word. -/
theorem eq_of_fieldsH {v w : CmdWord} (hc : classOf v = classOf w) (ho : opOf v = opOf w) (ha : addrOf v = addrOf w)
    (hs : stopOf v = stopOf w) (hw : waitOf v = waitOf w) (hl : lenOf v = lenOf w) : v = w := by
  apply BitVec.eq_of_getLsbD_eq
  intro i hi
  by_cases h1 : i < 15
  · have := congrArg (BitVec.getLsbD · i) hl
    simpa [lenOf, h1] using this
  · by_cases h2 : i = 15
    · rw [h2]; exact hw
    · by_cases h3 : i = 16
      · rw [h3]; exact hs
      · by_cases h4 : i < 24
        · have := congrArg (BitVec.getLsbD · (i - 17)) ha
          simpa [addrOf, show i - 17 < 7 by omega, show 17 + (i - 17) = i by omega] using this
        · by_cases h5 : i < 28
          · have := congrArg (BitVec.getLsbD · (i - 24)) ho
            simpa [opOf, show i - 24 < 4 by omega, show 24 + (i - 24) = i by omega] using this
          · have := congrArg (BitVec.getLsbD · (i - 28)) hc
            simpa [classOf, show i - 28 < 4 by omega, show 28 + (i - 28) = i by omega] using this

/-- A mask and pattern of the P-format, field by field. -/
theorem and_eq_iffP (w mask pattern : CmdWord) : w &&& mask = pattern ↔
    classOf w &&& classOf mask = classOf pattern ∧ opOf w &&& opOf mask = opOf pattern
      ∧ zeroOf w &&& zeroOf mask = zeroOf pattern ∧ immOf w &&& immOf mask = immOf pattern := by
  constructor
  · rintro rfl
    simp [classOf, opOf, zeroOf, immOf, extractLsb'_and]
  · rintro ⟨h1, h2, h3, h4⟩
    apply eq_of_fieldsP
    · rw [← h1]; simp [classOf, extractLsb'_and]
    · rw [← h2]; simp [opOf, extractLsb'_and]
    · rw [← h3]; simp [zeroOf, extractLsb'_and]
    · rw [← h4]; simp [immOf, extractLsb'_and]

/-- A mask and pattern of the H-format, field by field. -/
theorem and_eq_iffH (w mask pattern : CmdWord) : w &&& mask = pattern ↔
    classOf w &&& classOf mask = classOf pattern ∧ opOf w &&& opOf mask = opOf pattern
      ∧ addrOf w &&& addrOf mask = addrOf pattern ∧ (stopOf w && stopOf mask) = stopOf pattern
      ∧ (waitOf w && waitOf mask) = waitOf pattern ∧ lenOf w &&& lenOf mask = lenOf pattern := by
  constructor
  · rintro rfl
    simp only [classOf, opOf, addrOf, stopOf, waitOf, lenOf, extractLsb'_and, BitVec.getLsbD_and, and_self]
  · rintro ⟨h1, h2, h3, h4, h5, h6⟩
    apply eq_of_fieldsH
    · rw [← h1]; simp [classOf, extractLsb'_and]
    · rw [← h2]; simp [opOf, extractLsb'_and]
    · rw [← h3]; simp [addrOf, extractLsb'_and]
    · rw [← h4]; simp only [stopOf, BitVec.getLsbD_and]
    · rw [← h5]; simp only [waitOf, BitVec.getLsbD_and]
    · rw [← h6]; simp [lenOf, extractLsb'_and]

/-! ### What the decoder reads -/

/-- A word of class 0 goes to the P-format decoder. -/
theorem decode_wordP (op : BitVec 4) (imm : BitVec 8) : decode (wordP op imm) = decodeP (wordP op imm) := by
  simp [decode]

/-- A word of class 1 goes to the H-format decoder. -/
theorem decode_wordH (op : BitVec 4) (a7 : Addr7) (stop wait : Bool) (len : BitVec 15) :
    decode (wordH op a7 stop wait len) = decodeH (wordH op a7 stop wait len) := by
  simp [decode]

/-- The bits of the operand field are the word's low bits. -/
theorem extractLsb'_immOf (w : CmdWord) (k n : Nat) (h : k + n ≤ 8) : w.extractLsb' k n = (immOf w).extractLsb' k n := by
  apply BitVec.eq_of_getLsbD_eq
  intro i hi
  simp [immOf, hi, show k + i < 8 by omega]

theorem getLsbD_immOf (w : CmdWord) (k : Nat) (h : k < 8) : w.getLsbD k = (immOf w).getLsbD k := by
  simp [immOf, h]

@[simp] theorem whenZero_eq_ok {why : Reserved} {z : Bool} {i j : Instr} :
    whenZero why z i = .ok j ↔ z = true ∧ i = j := by
  unfold whenZero
  cases z <;> simp

@[simp] theorem whenZero_eq_error {why e : Reserved} {z : Bool} {i : Instr} :
    whenZero why z i = .error e ↔ z = false ∧ why = e := by
  unfold whenZero
  cases z <;> simp

end Sys2Proof
end

