-- ==== Sys2Proof/Laws/PerInstr.lean ====
section
/-! SUPPORT. What holds of every command as syntax, one lemma per constructor: the class bits of its word
(30_encoding R110, R114, R115). -/

namespace Sys2Proof.Laws.ClassBits

/-- The class of a command's word says its format: 0x0 for the primitives, 0x1 for the host's commands. -/
def Statement (i : Instr) : Prop := classOf (encode i) = if i.isPrimitive then 0x0#4 else 0x1#4

theorem sendByte (b : Byte) : Statement (.sendByte b) := classOf_wordP _ _
theorem recvByte : Statement .recvByte := classOf_wordP _ _
theorem genStart : Statement .genStart := classOf_wordP _ _
theorem genStop : Statement .genStop := classOf_wordP _ _
theorem setAck (e : Bool) : Statement (.setAck e) := classOf_wordP _ _
theorem clearFlag (k : BitVec 8) : Statement (.clearFlag k) := classOf_wordP _ _
theorem setNotify (m : BitVec 3) : Statement (.setNotify m) := classOf_wordP _ _
theorem readEvent : Statement .readEvent := classOf_wordP _ _
theorem setOwnAddr (a : Addr7) : Statement (.setOwnAddr a) := classOf_wordP _ _
theorem setEnable (e : Bool) : Statement (.setEnable e) := classOf_wordP _ _
theorem init (a7 : Addr7) : Statement (.init a7) := classOf_wordH _ _ _ _ _
theorem write (a7 : Addr7) (stop wait : Bool) (len : BitVec 15) : Statement (.write a7 stop wait len) :=
  classOf_wordH _ _ _ _ _
theorem read (a7 : Addr7) (stop : Bool) (len : BitVec 15) : Statement (.read a7 stop len) := classOf_wordH _ _ _ _ _
theorem registerCallbacks : Statement .registerCallbacks := classOf_wordH _ _ _ _ _
theorem status : Statement .status := classOf_wordH _ _ _ _ _

end Sys2Proof.Laws.ClassBits
end

