-- ==== Sys2Proof/Tests/Slice0.lean ====
section
/-! SUPPORT. The model's own tests: words written out from the encoding of 30_encoding, vectors of 95_test_vectors §2
(their ids in the names), and a witness for the hypotheses of every statement that has some. -/

namespace Sys2Proof.Tests

open Sys2Proof.Machine

/-! ### The decoder, word by word (30_encoding R111–R119, 95 §2.1) -/

theorem test_decode_sendByte : decode 0x01000088#32 = .ok (.sendByte 0x88) := by decide
theorem test_decode_recvByte : decode 0x02000000#32 = .ok .recvByte := by decide
theorem test_decode_genStart : decode 0x03000000#32 = .ok .genStart := by decide
theorem test_decode_genStop : decode 0x04000000#32 = .ok .genStop := by decide
theorem test_decode_setAck : decode 0x05000001#32 = .ok (.setAck true) := by decide
theorem test_decode_clearFlag : decode 0x0600000F#32 = .ok (.clearFlag 15) := by decide
theorem test_decode_setNotify : decode 0x07000005#32 = .ok (.setNotify 5) := by decide
theorem test_decode_readEvent : decode 0x08000000#32 = .ok .readEvent := by decide
theorem test_decode_setOwnAddr : decode 0x0900007F#32 = .ok (.setOwnAddr 0x7F) := by decide
theorem test_decode_setEnable : decode 0x0A000001#32 = .ok (.setEnable true) := by decide
theorem test_decode_init : decode 0x11420000#32 = .ok (.init 0x21) := by decide
theorem test_decode_write : decode 0x12898002#32 = .ok (.write 0x44 true true 2) := by decide
theorem test_decode_write_all_ones : decode 0x12FFFFFF#32 = .ok (.write 0x7F true true 32767) := by decide
theorem test_decode_read : decode 0x13FF7FFF#32 = .ok (.read 0x7F true 32767) := by decide
theorem test_decode_registerCallbacks : decode 0x14000000#32 = .ok .registerCallbacks := by decide
theorem test_decode_status : decode 0x15000000#32 = .ok .status := by decide

/-- DEC3, DEC5, DEC7, DEC10–DEC12, DEC14, DEC17, DEC19, DEC20: reserved P-format words. -/
theorem test_decode_reserved_p :
    decode 0x01000100#32 = .error .zeroField ∧ decode 0x02000001#32 = .error .imm8
      ∧ decode 0x05000002#32 = .error .imm8 ∧ decode 0x06000004#32 = .error .flagIndex
      ∧ decode 0x0600000D#32 = .error .flagIndex ∧ decode 0x06000010#32 = .error .flagIndex
      ∧ decode 0x07000008#32 = .error .imm8 ∧ decode 0x09000080#32 = .error .imm8
      ∧ decode 0x00000000#32 = .error .op ∧ decode 0x0B000000#32 = .error .op := by decide

/-- DEC22, DEC23, DEC29, DEC31, DEC33–DEC36: reserved H-format words and reserved classes. -/
theorem test_decode_reserved_h :
    decode 0x11430000#32 = .error .hField ∧ decode 0x11420001#32 = .error .hField
      ∧ decode 0x13008000#32 = .error .hField ∧ decode 0x14000001#32 = .error .hField
      ∧ decode 0x10000000#32 = .error .op ∧ decode 0x16000000#32 = .error .op
      ∧ decode 0x20000000#32 = .error .cls ∧ decode 0xF0000000#32 = .error .cls := by decide

/-- WellFormed refuses a CLEAR_FLAG of BTF (2), of the reserved bit 13 and of MSL (16), and admits AF (10). -/
theorem test_wf_clearFlag :
    Instr.wf (.clearFlag 2) = false ∧ Instr.wf (.clearFlag 13) = false ∧ Instr.wf (.clearFlag 16) = false
      ∧ Instr.wf (.clearFlag 10) = true := by decide

/-- The host's numbering of a word: bit 0 is bit 0 of the command word. -/
theorem test_decodeTableWord : decodeTableWord 32 0x11420000 = some (.init 0x21)
    ∧ decodeTableWord 32 0x20000000 = none := by decide

/-! ### States for the tests -/

/-- The parameters of 95 §0: BUF_CAP = 8, POLL_MS = 3 (HA16), every injection; a client that answers two bytes. -/
def params : Config.Params where
  bufCapPred := 7
  pollMsPred := 2
  promptDispatch := true
  envInject := [.berr, .arlo, .ovr, .pecerr, .timeout, .smbalert, .afRx]
  errEndsTxn := false
  client := ⟨fun _ cs => .answers 2 [0xA1, 0xA2] cs, fun _ cs _ => .takes cs⟩

/-- The engine of S1 (95 §0) with a phase and an event word. -/
def engine (ph : Phase) (ev : EvWord) : Engine :=
  { ctrl1 := 0x0401, ctrl2 := 0x0700, oaddr := 0x0021, ev := ev, data := 0, shift := 0, shState := .empty, phase := ph }

/-- The block of S1 with STATE, a phase and an event word. -/
def block (st : ControllerState) (ph : Phase) (ev : EvWord) : State :=
  { State.reset with
    ctx := { State.reset.ctx with state := st, inited := true, pa := 0x88, sendStop := true }
    eng := engine ph ev }

/-- The block with the master's length, cursor, pending no-ack and buffer. -/
def master (s : State) (len cur : Half) (nackp : Bool) (cells : Memory) : State :=
  { s with ctx := { s.ctx with mLen := len, mCur := cur, nackp := nackp }, buf := { s.buf with mbuf := cells } }

/-- The block with DATA. -/
def holding (b : Byte) (s : State) : State := { s with eng := { s.eng with data := b } }

/-- The block with a host command in progress at a micro-step. -/
def running (r : Config.Request) (k : MicroStep) (s : State) : State :=
  { s with host := { s.host with cmd := some r, step := k, out := r.out } }

/-- A request with its extra operands. -/
def request (w : CmdWord) (data out : List Byte) (timeoutMs : BitVec 32) : Config.Request :=
  { word := w, data := data, timeoutMs := timeoutMs, out := out, handle := 7 }

/-- The block with the next moves chosen. -/
def scheduled (ms : List Config.Move) (s : State) : State := { s with port := { s.port with moves := ms } }

/-- The next state, where there is one. -/
def nextOf : Host.Outcome State Fault Refusal → Option State
  | .next t => some t
  | .fault _ | .refused _ => none

/-- The state an operation gives, where it gives one. -/
def okOf : Res State → Option State
  | .ok t => some t
  | .error _ => none

/-- What an operation's ACTLOG holds after the two records of the entry. -/
def acts (s : State) : List (Prim × BitVec 8) := (s.log.act.drop 2).map fun r => (r.prim, r.arg)

/-! ### The primitives (95 §2.2) -/

theorem test_PR1_PR2 :
    ((nextOf (exec (.sendByte 0x88) (block .masterTransmitting .mSb 0x00030001))).map fun t =>
        (t.eng.data, t.eng.ev, t.eng.phase)) = some (0x88#8, 0x00030000#32, .mAddr)
      ∧ ((nextOf (exec (.sendByte 0x2C) (block .masterTransmitting .mTx 0x00070084))).map fun t =>
        (t.eng.data, t.eng.ev, t.eng.phase)) = some (0x2C#8, 0x00070000#32, .mTx) := by decide

theorem test_PR3_PR4 :
    ((nextOf (exec (.sendByte 0x55) (block .ready .idle 0))).map fun t => (t.eng.data, t.eng.ev, t.eng.phase))
        = some (0x55#8, 0#32, .idle)
      ∧ ((nextOf (exec (.sendByte 0x55) State.reset)).map fun t => (t.eng.data, t.log.act.length)) = some (0#8, 1) := by
  decide

theorem test_PR5_PR7 :
    ((nextOf (exec .recvByte (holding 0x2C (block .ready .mRx 0x00030040)))).map fun t =>
        (t.port.reply, t.eng.ev)) = some (0x2C#32, 0x00030000#32)
      ∧ ((nextOf (exec .recvByte (holding 0x33 (block .ready .mRx 0x00030000)))).map fun t =>
        (t.port.reply, t.eng.ev)) = some (0x33#32, 0x00030000#32) := by decide

theorem test_PR6 :
    ((nextOf (exec .recvByte { block .ready .mRx 0x00030044 with
        eng := { engine .mRx 0x00030044 with data := 0x11, shift := 0x22, shState := .full } })).map fun t =>
      (t.port.reply, t.eng.data, t.eng.shState, t.eng.ev)) = some (0x11#32, 0x22#8, .empty, 0x00030040#32) := by decide

theorem test_PR8_PR9 :
    ((nextOf (exec .genStart (block .ready .idle 0))).map fun t => t.eng.ctrl1) = some 0x0501#16
      ∧ ((nextOf (exec .genStart State.reset)).map fun t => t.eng.ctrl1) = some 0x0000#16 := by decide

theorem test_PR10_PR12 :
    ((nextOf (exec .genStop (block .masterTransmitting .mTx 0x00030000))).map fun t => (t.eng.ctrl1, t.eng.phase))
        = some (0x0601#16, .mTx)
      ∧ ((nextOf (exec .genStop (block .slaveTransmitting .sTx 0x00060080))).map fun t => (t.eng.ev, t.eng.phase))
        = some (0x00020000#32, .idle) := by decide

theorem test_PR14 :
    ((nextOf (exec (.setAck false) (block .ready .idle 0))).map fun t => t.eng.ctrl1) = some 0x0001#16 := by decide

theorem test_PR15_PR16 :
    ((nextOf (exec (.clearFlag 10) (block .ready .mHold 0x00030400))).map fun t => t.eng.ev) = some 0x00030000#32
      ∧ ((nextOf (exec (.clearFlag 8) (block .ready .idle 0))).map fun t => t.eng.ev) = some 0#32 := by decide

theorem test_PR17_PR19 :
    ((nextOf (exec .readEvent (block .ready .mTx 0x00070082))).map fun t => (t.port.reply, t.eng.ev))
        = some (0x00070082#32, 0x00070080#32)
      ∧ ((nextOf (exec .readEvent (block .ready .sRx 0x00120002))).map fun t => (t.port.reply, t.eng.ev))
        = some (0x00120002#32, 0x00020000#32) := by decide

theorem test_PR21_PR22 :
    ((nextOf (exec (.setNotify 5) State.reset)).map fun t => t.eng.ctrl2) = some 0x0300#16
      ∧ ((nextOf (exec (.setNotify 2) (block .ready .idle 0))).map fun t => t.eng.ctrl2) = some 0x0400#16 := by decide

theorem test_PR23 :
    ((nextOf (exec (.setOwnAddr 0x21) State.reset)).map fun t => t.eng.oaddr) = some 0x0021#16 := by decide

theorem test_PR24_PR26 :
    ((nextOf (exec (.setEnable true) State.reset)).map fun t => (t.eng.ctrl1, t.eng.phase)) = some (0x0001#16, .idle)
      ∧ ((nextOf (exec (.setEnable false) (block .ready .mSb 0x00030001))).map fun t =>
        (t.eng.ctrl1, t.eng.ev, t.eng.phase)) = some (0#16, 0#32, .off) := by decide

/-! ### The deliverable predicate (95 §2.3) -/

theorem test_NT1_NT11 :
    [(0x0700#16, 0x00030000#32), (0x0200, 0x80), (0x0400, 0x40), (0x0100, 0x1), (0x0000, 0x00074F57),
        (0x0700, 0x00100000)].map (fun q => ({ engine .idle q.2 with ctrl2 := q.1 } : Engine).deliverable)
        = [false, false, false, false, false, false]
      ∧ [(0x0700#16, 0x00030001#32), (0x0200, 0x4), (0x0600, 0x40), (0x0100, 0x400), (0x0300, 0x10)].map
        (fun q => ({ engine .idle q.2 with ctrl2 := q.1 } : Engine).deliverable) = [true, true, true, true, true] := by
  decide

/-! ### One invocation (95 §2.4) -/

theorem test_DS1_DS2 :
    ((okOf (invoke params (block .masterTransmitting .mSb 0x00030001))).map fun t => (acts t, t.eng.ev, t.eng.phase))
        = some ([(.sendByte, 0x88#8)], 0x00030000#32, .mAddr)
      ∧ ((okOf (invoke params (master (block .masterTransmitting .mTx 0x00070082) 2 0 false [(0, 0x2C), (1, 0x06)]))).map
        fun t => (acts t, t.ctx.mCur, t.eng.ev)) = some ([(.sendByte, 0x2C#8)], 1#16, 0x00070000#32) := by decide

theorem test_DS4_DS6 :
    ((okOf (invoke params { master (block .masterTransmitting .mTx 0x00070080) 2 2 false [] with
        ctx := { (master (block .masterTransmitting .mTx 0x00070080) 2 2 false []).ctx with sendStop := false } })).map
        fun t => (acts t, t.ctx.state, t.ctx.rsf, t.eng.ctrl2, t.eng.startReq))
        = some ([(.setNotify, 0#8), (.genStart, 0#8)], .ready, true, 0#16, true)
      ∧ ((okOf (invoke params (master (block .masterTransmitting .mHold 0x00070482) 2 0 false [(0, 0x2C)]))).map
        fun t => (acts t, t.ctx.err, t.ctx.state, t.ctx.mCur))
        = some ([(.clearFlag, 10#8), (.genStop, 0#8)], .addressNacked, .ready, 0#16) := by decide

theorem test_DS9_DS10 :
    ((okOf (invoke params (master (block .masterReceiving .mRx 0x00030002) 0 0 false []))).map fun t =>
        (acts t, t.ctx.nackp)) = some ([(.setAck, 0#8)], true)
      ∧ ((okOf (invoke params (holding 0x66 (master (block .masterReceiving .mRx 0x00030040) 2 1 false [])))).map
        fun t => (acts t, t.cell .mbuf 1, t.ctx.mCur, t.ctx.nackp, t.eng.ev))
        = some ([(.recvByte, 0#8), (.setAck, 0#8)], some 0x66#8, 2#16, true, 0x00030000#32) := by decide

theorem test_DS12_DS16 :
    ((okOf (invoke params (holding 0x77 (master (block .masterReceiving .mHold 0x00030040) 2 2 true [])))).map fun t =>
        (acts t, t.cell .mbuf 2, t.ctx.mFinal, t.ctx.nackp, t.ctx.state))
        = some ([(.recvByte, 0#8), (.genStop, 0#8)], some 0x77#8, true, false, .ready)
      ∧ ((okOf (invoke params (holding 0x77 (master (block .masterReceiving .mHold 0x00030440) 2 2 true [])))).map
        fun t => (acts t, t.cell .mbuf 2, t.ctx.state))
        = some ([(.recvByte, 0#8), (.genStop, 0#8), (.clearFlag, 10#8)], some 0x77#8, .ready) := by decide

theorem test_DS17_DS18 :
    ((okOf (invoke params (block .ready .sTx 0x00060082))).map fun t =>
        (acts t, t.ctx.state, t.ctx.txLen, t.log.cb))
        = some ([(.setAck, 1#8), (.sendByte, 0xFF#8)], .slaveTransmitting, 0#16, [])
      ∧ ((okOf (invoke params { block .ready .sTx 0x00060082 with
          ctx := { (block .ready .sTx 0x00060082).ctx with cb := 1 } })).map fun t =>
        (acts t, t.ctx.txLen, t.ctx.txCur, t.log.cb))
        = some ([(.setAck, 1#8), (.sendByte, 0xA1#8)], 2#16, 1#16, [.tx 2 [0xA1, 0xA2]]) := by decide

theorem test_DS22_DS25 :
    ((okOf (invoke params (block .slaveTransmitting .sHold 0x00020400))).map fun t => (acts t, t.ctx.state))
        = some ([(.setAck, 1#8), (.clearFlag, 10#8)], .ready)
      ∧ ((okOf (invoke params (holding 0x33 { block .slaveReceiving .idle 0x00000050 with
          ctx := { (block .slaveReceiving .idle 0x00000050).ctx with rxCur := 2 }
          buf := { mbuf := [], txbuf := [], rxbuf := [(0, 0x10), (1, 0x20)] } }))).map fun t =>
        (acts t, t.cell .rxbuf 2, t.log.cb, t.ctx.rxCur, t.ctx.state))
        = some ([(.recvByte, 0#8), (.setAck, 1#8)], some 0x33#8, [.rx 3 [0x10, 0x20, 0x33]], 0#16, .ready) := by decide

theorem test_DS29_DS32 :
    ((okOf (invoke params (block .masterTransmitting .mTx 0x00034900))).map fun t =>
        (acts t, t.ctx.err, t.eng.stopReq, t.eng.ev, t.ctx.state))
        = some ([(.genStop, 0#8), (.clearFlag, 8#8), (.clearFlag, 11#8), (.clearFlag, 14#8)], .timeout, true,
          0x00030000#32, .masterTransmitting)
      ∧ ((okOf (invoke params (block .slaveReceiving .sRx 0x00020300))).map fun t =>
        (acts t, t.ctx.err, t.eng.phase, t.ctx.state))
        = some ([(.genStop, 0#8), (.clearFlag, 8#8), (.clearFlag, 9#8)], .arbitrationLost, .idle, .slaveReceiving) := by
  decide

/-- DS24, DS30, DS31: a full slave buffer NACKs; ERR_ENDS_TXN ends the transaction. -/
theorem test_DS24_DS31 :
    ((okOf (invoke params (holding 0x44 { block .slaveReceiving .sRx 0x00020040 with
          ctx := { (block .slaveReceiving .sRx 0x00020040).ctx with rxCur := 8 } }))).map fun t =>
        (acts t, t.ctx.rxCur)) = some ([(.recvByte, 0#8), (.setAck, 0#8)], 8#16)
      ∧ ((okOf (invoke params (block .masterTransmitting .idle 0x00020200))).map fun t => (t.ctx.err, t.ctx.state))
        = some (.arbitrationLost, .masterTransmitting)
      ∧ ((okOf (invoke { params with errEndsTxn := true } (block .masterTransmitting .idle 0x00020200))).map fun t =>
        (t.ctx.err, t.ctx.state)) = some (.arbitrationLost, .ready) := by decide

/-! ### The host's micro-steps (95 §2.5) -/

theorem test_HA1_HA3 :
    ((okOf (writeStep params 0x44 true true 9
        (running (request 0x12898009 (List.replicate 9 0x11) [] 0) .m1 (block .ready .idle 0)))).map fun t =>
        (t.host.result, t.log.act, t.log.wire)) = some (some (.err .outOfCapacity), [], [])
      ∧ ((okOf (writeStep params 0x44 true true 0 (running (request 0x12898000 [] [] 0) .m2 (block .ready .idle 0)))).map
        fun t => t.host.result) = some (some .ok) := by decide

theorem test_HA4_W3 :
    ((okOf (writeStep params 0x44 true true 1
        (running (request 0x12898001 [0x55] [] 0) .m2 (block .masterReceiving .mRx 0x00030000)))).map fun t =>
        t.host.result) = some (some (.err .wrongState))
      ∧ ((okOf (writeStep params 0x44 true true 2
        (running (request 0x12898002 [0x2C, 0x06] [] 0) .m3 (block .ready .idle 0)))).map fun t =>
        (t.ctx.pa, t.ctx.mLen, t.cell .mbuf 0, t.cell .mbuf 1, t.ctx.sendStop))
        = some (0x88#8, 2#16, some 0x2C#8, some 0x06#8, true) := by decide

theorem test_HA9_HA16 :
    ((okOf (readStep params 0x44 true 8
        (running (request 0x13890008 [] (List.replicate 8 0) 0) .m3 (block .ready .idle 0)))).map fun t =>
        (t.ctx.mLen, t.ctx.pa)) = some (7#16, 0x89#8)
      ∧ [3, 4].map (fun n =>
          let s := running (request 0x13890001 [] [0] 10) .m6 (block .masterReceiving .mRx 0x00030000)
          (okOf (readStep params 0x44 true 1 { s with host := { s.host with polls := n } })).map fun t => t.host.step)
        = [some .m6, some .m8] := by decide

theorem test_HA10_init :
    nextOf (exec (.init 0x21) (block .ready .idle 0)) = none
      ∧ ((nextOf (exec (.init 0x21) State.reset)).map fun t =>
        (t.eng.ctrl1, t.eng.ctrl2, t.eng.oaddr, t.eng.phase, t.ctx.inited, t.log.act.length))
        = some (0x0401#16, 0x0700#16, 0x0021#16, .idle, true, 4) := by decide

theorem test_HA11_status :
    ((nextOf (exec .status State.reset)).map fun t => t.host.result) = some (some (.okStatus .ready .none 0)) := by
  decide

theorem test_HA12_registerCallbacks :
    ((nextOf (exec .registerCallbacks (running (request 0x14000000 [] [] 0) .m1 State.reset))).map fun t => t.ctx.cb)
      = some 7#32 := by decide

/-- R204: the copy-out writes n cells of the host's array and no more. -/
theorem test_read_copy_out :
    ((okOf (deliver params 1 (running (request 0x13890002 [] [0, 0] 0) .m8
        (master (block .masterReceiving .mRx 0x00030000) 1 1 false [(0, 0x5A)])))).map fun t =>
      (t.host.result, t.host.out)) = some (some (.okCount 1), [0x5A#8, 0#8]) := by decide

/-! ### Engine steps (95 §2.6) -/

/-- The event word, the phase and the symbols an engine step gives. -/
def after (m : Config.EngineMove) (e : Engine) : Option (EvWord × Phase × List WireSym) :=
  (engineStep params m e).map fun r => (r.1.ev, r.1.phase, r.2)

theorem test_EN1_EN5 :
    after .start { engine .idle 0 with ctrl1 := 0x0501 } = some (0x00030001#32, .mSb, [.start])
      ∧ after .start { engine .mTx 0x00070080 with ctrl1 := 0x0501 } = some (0x00030001#32, .mSb, [.restart])
      ∧ after .start { engine .mRx 0x00030040 with ctrl1 := 0x0501 } = some (0x00030041#32, .mSb, [.restart])
      ∧ after .start { engine .idle 0x00020000 with ctrl1 := 0x0501 } = none
      ∧ after .start { engine .mHold 0x00030000 with ctrl1 := 0x0701 } = none
      ∧ after .stop { engine .mHold 0x00030000 with ctrl1 := 0x0701 } = some (0#32, .idle, [.stop]) := by decide

theorem test_EN6_EN9 :
    after (.address false) { engine .mAddr 0x00030000 with data := 0x88 }
        = some (0x00070082#32, .mTx, [.byte .out 0x88 false])
      ∧ after (.address false) { engine .mAddr 0x00030000 with data := 0x89 }
        = some (0x00030002#32, .mRx, [.byte .out 0x89 false])
      ∧ after (.address true) { engine .mAddr 0x00030000 with data := 0x88 }
        = some (0x00070400#32, .mHold, [.byte .out 0x88 true])
      ∧ after (.address true) { engine .mAddr 0x00030000 with data := 0x89 }
        = some (0x00030400#32, .mHold, [.byte .out 0x89 true]) := by decide

theorem test_EN10_EN15 :
    after .load { engine .mTx 0x00070000 with data := 0x2C } = some (0x00070080#32, .mTx, [])
      ∧ after .load { engine .mTx 0x00070000 with ctrl1 := 0x0601 } = none
      ∧ after (.masterByteEnd false) { engine .mTx 0x00070080 with shState := .busy, shift := 0x2C }
        = some (0x00070084#32, .mTx, [.byte .out 0x2C false])
      ∧ after (.masterByteEnd false) { engine .mTx 0x00070080 with shState := .busy, ctrl1 := 0x0601 }
        = some (0x00070080#32, .mTx, [.byte .out 0 false])
      ∧ after (.masterByteEnd true) { engine .mTx 0x00070080 with shState := .busy, shift := 0x2C }
        = some (0x00070400#32, .mHold, [.byte .out 0x2C true]) := by decide

theorem test_EN16_EN17 :
    after .loseArbitration (engine .mAddr 0x00030000) = some (0x00020200#32, .idle, [.lost])
      ∧ after .loseArbitration { engine .mTx 0x00070080 with shState := .busy }
        = some (0x00020200#32, .idle, [.lost]) := by decide

theorem test_EN18_EN23 :
    after (.receive 0x11) (engine .mRx 0x00030000) = some (0x00030040#32, .mRx, [.byte .inn 0x11 false])
      ∧ after (.receive 0x77) { engine .mRx 0x00030000 with ctrl1 := 0x0001 }
        = some (0x00030040#32, .mHold, [.byte .inn 0x77 true])
      ∧ after (.receive 0x11) (engine .mRx 0x00030040) = none
      ∧ after (.receive 0x22) { engine .mRx 0x00030040 with ctrl2 := 0 }
        = some (0x00030044#32, .mRx, [.byte .inn 0x22 false])
      ∧ after (.receive 0x22) { engine .mRx 0x00030044 with ctrl2 := 0, shState := .full } = none
      ∧ after (.receive 0x99) { engine .sRx 0x00020000 with ctrl1 := 0x0001 }
        = some (0x00020040#32, .sRx, [.byte .inn 0x99 true]) := by decide

theorem test_EN24_EN26 :
    after .stop { engine .mHold 0x00030040 with ctrl1 := 0x0201 } = some (0x00000040#32, .idle, [.stop])
      ∧ after .stop { engine .mTx 0x00070080 with ctrl1 := 0x0601, shState := .busy } = none
      ∧ after .remoteStart (engine .idle 0) = some (0x00020000#32, .sAwait, [.remoteStart]) := by decide

theorem test_EN27_EN31 :
    after (.slaveAddress 0x21 false true) (engine .sAwait 0x00020000)
        = some (0x00020002#32, .sRx, [.byte .inn 0x42 false])
      ∧ after (.slaveAddress 0x21 true true) (engine .sAwait 0x00020000)
        = some (0x00060082#32, .sTx, [.byte .inn 0x43 false])
      ∧ after (.slaveAddress 0x21 false true) { engine .sAwait 0x00020000 with ctrl1 := 0x0001 }
        = some (0x00020000#32, .idle, [.byte .inn 0x42 true])
      ∧ after (.slaveAddress 0x50 true false) (engine .sAwait 0x00020000)
        = some (0x00020000#32, .idle, [.byte .inn 0xA1 false])
      ∧ after (.slaveAddress 0 false false) (engine .sAwait 0x00020000)
        = some (0x00020000#32, .idle, [.byte .inn 0 false]) := by decide

theorem test_EN32_EN33_R279_R281 :
    after (.slaveByteEnd false) { engine .sTx 0x00060080 with shState := .busy, shift := 0xA1 }
        = some (0x00060084#32, .sTx, [.byte .out 0xA1 false])
      ∧ after (.slaveByteEnd true) { engine .sTx 0x00060000 with shState := .busy, shift := 0xA2 }
        = some (0x00060400#32, .sHold, [.byte .out 0xA2 true])
      ∧ after .remoteRestart (engine .sRx 0x00020000) = some (0x00020000#32, .sAwait, [.remoteStart])
      ∧ after .remoteStop (engine .sRx 0x00020000) = some (0x00000010#32, .idle, [.remoteStop])
      ∧ after (.inject .berr) (engine .mTx 0x00030000) = some (0x00030100#32, .mTx, [.err .berr]) := by decide

/-! ### A placed word runs at the very next step -/

theorem test_withFetchWord_init :
    ((nextOf (step (State.reset.withFetchWord 32 0x11420000))).map fun t => (t.ctx.inited, t.host.result))
      = some (true, some .ok) := by decide

theorem test_withFetchWord_setAck :
    ((nextOf (step (State.reset.withFetchWord 32 0x05000001))).map fun t => t.eng.ackOn) = some true := by decide

theorem test_withFetchWord_write : step (State.reset.withFetchWord 32 0x12898002) = .refused .notInitialized := rfl

/-! ### Witnesses: for each statement with hypotheses, states and operands that meet them -/

theorem witness_DecodeEncodeRoundTrip : Instr.wf (.clearFlag 15) = true := by decide

theorem witness_EncodeDecodeAgree : decode 0x0600000F#32 = .ok (.clearFlag 15) := by decide

theorem witness_DecoderTotalAndUnambiguous :
    decode 0x15000000#32 = .ok .status ∧ ∃ r ∈ opcodeTable, 0x15000000#32 &&& r.mask = r.pattern := by decide

theorem witness_ReservedClassRefused :
    0x2#4 ≤ classOf (request 0x20000000 [] [] 0).word ∧ 0x2#4 ≤ classOf (request 0xF0000000 [] [] 0).word := by decide

theorem witness_ReservedFormsRefused :
    classOf (request 0x0B000000 [] [] 0).word = 0x0#4 ∧ classOf (request 0x13808001 [] [] 0).word = 0x1#4
      ∧ decode (request 0x13808001 [] [] 0).word = .error .hField := by decide

theorem witness_BarePrimitiveRefused :
    decode (request 0x08000000 [] [] 0).word = .ok .readEvent ∧ Instr.isPrimitive .readEvent = true := by decide

theorem witness_SpecExampleWords : 0x20000000#32 ∈
    [0x0B000000#32, 0x01000100#32, 0x05000002#32, 0x06000004#32, 0x13808001#32, 0x20000000#32]
      ∧ (request 0x20000000 [] [] 0).word = 0x20000000#32 := by decide

/-- A READ of one byte in progress, at a micro-step, with STATE. -/
def readAt (k : MicroStep) (st : ControllerState) : State :=
  running (request 0x13890001 [] [0] 10) k (block st .mRx 0x00030000)

/-- A waiting WRITE of one byte in progress, at a micro-step, with STATE. -/
def writeAt (k : MicroStep) (st : ControllerState) : State :=
  running (request 0x12898001 [0x55] [] 0) k (block st .idle 0)

theorem witness_StepRunsDecodedCommand_bus_issue_host :
    ({ State.reset with port := { State.reset.port with bus := some 0x05000001 } } : State).port.bus = some 0x05000001
      ∧ decode 0x05000001#32 = .ok (.setAck true)
      ∧ (scheduled [.issue (request 0x15000000 [] [] 0)] State.reset).port.moves
        = [.issue (request 0x15000000 [] [] 0)]
      ∧ decode (request 0x15000000 [] [] 0).word = .ok .status ∧ State.reset.host.cmd = none
      ∧ (scheduled [.host] (readAt .m4 .ready)).host.cmd = some (request 0x13890001 [] [0] 10)
      ∧ decode (request 0x13890001 [] [0] 10).word = .ok (.read 0x44 true 1) := by decide

theorem witness_StepRunsDecodedCommand_agents :
    (scheduled [.dispatch] (block .ready .mSb 0x00030001)).eng.deliverable = true
      ∧ (scheduled [.dispatch] (block .ready .mSb 0x00030001)).port.bus = none
      ∧ ∃ t, runEngine Config.params .remoteStart (block .ready .idle 0) = some t := ⟨by decide, rfl, _, rfl⟩

theorem witness_SendByteEffect : decode 0x01000088#32 = .ok (.sendByte 0x88) := by decide

theorem witness_SetAckNotifyEffect :
    decode 0x05000001#32 = .ok (.setAck true) ∧ decode 0x07000007#32 = .ok (.setNotify 7) := by decide

theorem witness_OwnAddrEnableEffect :
    decode 0x09000021#32 = .ok (.setOwnAddr 0x21) ∧ decode 0x0A000001#32 = .ok (.setEnable true) := by decide

theorem witness_PrimitiveFrame :
    Instr.isPrimitive .genStart = true ∧ ∃ t, exec .genStart (block .ready .idle 0) = .next t := ⟨rfl, _, rfl⟩

theorem witness_InitEffect : decode 0x11420000#32 = .ok (.init 0x21) := by decide

/-- WRITE: not initialized; a wrong shape; a command in progress. -/
theorem witness_HostCommandRefusals_write :
    let r := request 0x12898001 [] [] 0
    (scheduled [.issue r] State.reset).port.moves = .issue r :: [] ∧ (scheduled [.issue r] State.reset).port.bus = none
      ∧ decode r.word = .ok (.write 0x44 true true 1) ∧ State.reset.ctx.inited = false
      ∧ r.data.length ≠ (1#15).toNat ∧ (writeAt .m6 .ready).host.cmd ≠ none := by decide

/-- READ: not initialized; an array too short; a command in progress. -/
theorem witness_HostCommandRefusals_read :
    let r := request 0x13890002 [] [0] 0
    (scheduled [.issue r] State.reset).port.moves = .issue r :: [] ∧ decode r.word = .ok (.read 0x44 true 2)
      ∧ State.reset.ctx.inited = false ∧ r.out.length < (2#15).toNat ∧ (readAt .m6 .ready).host.cmd ≠ none := by decide

theorem witness_WritePreconditions :
    (writeAt .m1 .ready).host.step = .m1 ∧ (writeAt .m1 .ready).ctx.inited = true
      ∧ (writeAt .m1 .ready).host.operands.data.length = (1#15).toNat ∧ (writeAt .m2 .ready).host.step = .m2
      ∧ ∀ v, (writeAt .m2 .ready).ctx.state ≠ .unused v := by decide

theorem witness_WriteArming :
    (writeAt .m3 .ready).host.step = .m3 ∧ (writeAt .m3 .ready).host.operands.data.length = (1#15).toNat
      ∧ (1#15).toNat ≤ cap := ⟨rfl, rfl, (bufCap_le _).1⟩

theorem witness_EnterMasterRole :
    (writeAt .m4 .ready).host.step = .m4
      ∧ ∃ t, step (scheduled [.host] (writeAt .m4 .ready)) = .next t
        ∧ (writeAt .m4 .ready).ctx.state ≠ t.ctx.state ∧ t.ctx.state.isMaster = true :=
  ⟨rfl, _, rfl, by decide, rfl⟩

/-- A block whose repeated START is due, in a phase. -/
def due (ph : Phase) (sh : ShState) : State :=
  { block .ready ph 0x00070000 with
    ctx := { (block .ready ph 0).ctx with rsf := true }
    eng := { engine ph 0x00070000 with ctrl1 := 0x0501, ctrl2 := 0, shState := sh } }

theorem due_isDue (ph : Phase) (sh : ShState)
    (h : ph = .mSb ∨ ph = .mAddr ∨ ph = .mTx ∨ ph = .mRx ∨ ph = .mHold) : RepeatedStartDue (due ph sh) :=
  ⟨rfl, rfl, ⟨BitVec.getLsbD_zero, BitVec.getLsbD_zero, BitVec.getLsbD_zero⟩, rfl,
    (by decide : (0x0501#16).getLsbD 0 = true),
    ⟨(by decide : (0x0501#16).getLsbD 8 = true), (by decide : (0x0501#16).getLsbD 9 = false)⟩,
    (by decide : evHas 0x00070000#32 .msl = true), h⟩

/-- The repeated START due with the address or a data byte in progress, and at the byte boundary, where START is enabled. -/
theorem witness_WriteTrigger_hold :
    (∀ ph sh, (ph, sh) ∈ [(Phase.mAddr, ShState.empty), (.mTx, .busy)] →
        RepeatedStartDue (due ph sh) ∧ ¬ AtMasterBoundary (due ph sh).eng)
      ∧ (∀ ph sh, (ph, sh) ∈ [(Phase.mTx, ShState.empty), (.mRx, .full), (.mHold, .empty), (.mSb, .empty)] →
        RepeatedStartDue (due ph sh) ∧ AtMasterBoundary (due ph sh).eng)
      ∧ (after .start (due .mHold .empty).eng) = some (0x00030001#32, .mSb, [.restart]) := by
  refine ⟨fun ph sh h => ?_, fun ph sh h => ?_, by decide⟩ <;>
    simp only [List.mem_cons, Prod.mk.injEq, List.not_mem_nil, or_false] at h
  · rcases h with ⟨rfl, rfl⟩ | ⟨rfl, rfl⟩ <;>
      exact ⟨due_isDue _ _ (by decide), by unfold AtMasterBoundary; decide⟩
  · rcases h with ⟨rfl, rfl⟩ | ⟨rfl, rfl⟩ | ⟨rfl, rfl⟩ | ⟨rfl, rfl⟩ <;>
      exact ⟨due_isDue _ _ (by decide), by unfold AtMasterBoundary; decide⟩

/-- 43 R270, R264: the hold of W5 stays where arbitration is lost, as the request goes; and where a STOP of R175 went first
and a remote master has addressed this block, as START waits for the slave role and with ADDR = 1 no byte moves (log 29). -/
theorem test_hold_stays :
    (engineStep params .loseArbitration (due .mTx .busy).eng).map (fun r => (r.1.startReq, r.1.phase))
        = some (false, .idle)
      ∧ [Config.EngineMove.start, .load, .remoteRestart, .remoteStop, .receive 0].map
          (fun m => after m { engine .sTx 0x00060082 with ctrl1 := 0x0501, ctrl2 := 0 }) = [none, none, none, none, none]
      ∧ trigger (due .idle .empty) = due .idle .empty := by decide

/-- The trigger with RSF = 0; with RSF = 1 and SB = 1; with RSF = 1 and SB = 0. -/
theorem witness_WriteTrigger :
    (writeAt .m5 .masterTransmitting).host.step = .m5 ∧ (writeAt .m5 .masterTransmitting).ctx.rsf = false
      ∧ (∃ s : State, s.host.step = .m5 ∧ s.ctx.rsf = true ∧ s.eng.flag .sb = true)
      ∧ ∃ s : State, s.host.step = .m5 ∧ s.ctx.rsf = true ∧ s.eng.flag .sb = false :=
  ⟨rfl, rfl,
    ⟨{ writeAt .m5 .masterTransmitting with
        ctx := { (writeAt .m5 .masterTransmitting).ctx with rsf := true }, eng := engine .mSb 0x00030001 },
      rfl, rfl, by decide⟩,
    ⟨{ writeAt .m5 .masterTransmitting with
        ctx := { (writeAt .m5 .masterTransmitting).ctx with rsf := true } }, rfl, rfl, by decide⟩⟩

theorem witness_WriteCompletion :
    (writeAt .m6 .masterTransmitting).host.step = .m6
      ∧ (∀ v, (writeAt .m6 .masterTransmitting).ctx.state ≠ .unused v)
      ∧ ∀ v, (writeAt .m6 .ready).ctx.state ≠ .unused v := by decide

theorem witness_ReadPreconditionsAndArming :
    (readAt .m1 .ready).host.step = .m1 ∧ (readAt .m1 .ready).ctx.inited = true
      ∧ (1#15).toNat ≤ (readAt .m1 .ready).host.operands.out.length ∧ (readAt .m2 .ready).host.step = .m2
      ∧ (∀ v, (readAt .m2 .ready).ctx.state ≠ .unused v) ∧ (readAt .m3 .ready).host.step = .m3 ∧ 1 ≤ (1#15).toNat
      ∧ (readAt .m4 .ready).host.step = .m4 ∧ (readAt .m5 .masterReceiving).host.step = .m5
      ∧ ∃ u, exec (.write 0x44 true true 1) (readAt .m5 .masterReceiving) = .next u :=
  ⟨rfl, rfl, by decide, rfl, by decide, rfl, by decide, rfl, rfl, _, rfl⟩

theorem witness_ReadPoll :
    (∃ u, exec (.read 0x44 true 1) (readAt .m5 .masterReceiving) = .next u ∧ u.host.step = .m6)
      ∧ (readAt .m6 .masterReceiving).host.step = .m6 ∧ ∀ v, (readAt .m6 .masterReceiving).ctx.state ≠ .unused v :=
  ⟨⟨_, rfl, rfl⟩, rfl, by decide⟩

/-- R7 with an error; R7 with none, and R8, after one byte. -/
theorem witness_ReadResult :
    (∃ s : State, s.host.step = .m7 ∧ s.ctx.err ≠ .none)
      ∧ (∃ s : State, s.host.step = .m7 ∧ s.ctx.err = .none ∧ 1 = s.ctx.mCur.toNat + s.ctx.mFinal.toNat ∧ 1 ≤ cap
        ∧ Written s .mbuf 1)
      ∧ ∃ s : State, s.host.step = .m8 ∧ 1 = s.ctx.mCur.toNat ∧ 1 ≤ cap ∧ Written s .mbuf 1 := by
  have hw : ∀ k, Written (master (readAt k .ready) 1 1 false [(0, 0x5A)]) .mbuf 1 := by
    intro k i hi
    obtain rfl : i = 0 := by omega
    rfl
  exact ⟨⟨(readAt .m7 .ready).setErr .overrun, rfl, by decide⟩,
    ⟨master (readAt .m7 .ready) 1 1 false [(0, 0x5A)], rfl, rfl, rfl, (bufCap_le _).1, hw .m7⟩,
    ⟨master (readAt .m8 .ready) 1 1 false [(0, 0x5A)], rfl, rfl, (bufCap_le _).1, hw .m8⟩⟩

theorem witness_RegisterAndStatus : ∀ v, State.reset.ctx.state ≠ .unused v := by decide

theorem witness_UnusedStateFaults :
    (State.reset.setState (.unused 2)).ctx.state = .unused 2 ∧ (readAt .m2 (.unused 0)).host.step = .m2
      ∧ (writeAt .m6 (.unused 1)).host.step = .m6 ∧ evHas 0x00030000 .msl = true ∧ evHas 0x00020000 .addr = false := by
  decide

/-- A second command of each other kind while one is in progress. -/
theorem witness_HostCommandRefusals_second :
    let s : State := scheduled [.issue (request 0x15000000 [] [] 0)] (readAt .m6 .ready)
    s.port.bus = none ∧ s.host.cmd ≠ none ∧ decode 0x15000000#32 = .ok .status
      ∧ decode 0x14000000#32 = .ok .registerCallbacks ∧ decode 0x11420000#32 = .ok (.init 0x21) := by decide

/-- HA13: a STATUS issued while a command is in progress. -/
theorem test_second_command_busy :
    step (scheduled [.issue (request 0x15000000 [] [] 0)] (readAt .m6 .ready)) = .refused .hostBusy := rfl

/-- 30 R113: a READ brings its array, and a STATUS leaves the last one. -/
theorem test_latch_array :
    (latch (request 0x13890001 [] [9] 10) (readAt .m6 .ready)).host.out = [9]
      ∧ (latch (request 0x15000000 [] [9] 0) (readAt .m6 .ready)).host.out = [0] := by decide

/-- A micro-step that leaves the buffers alone, and one that loads MBUF. -/
theorem witness_HostMicroStepFrame :
    Instr.isPrimitive .status = false ∧ (∃ t, exec .status State.reset = .next t)
      ∧ Instr.isPrimitive (.write 0x44 true true 1) = false
      ∧ ∃ t, exec (.write 0x44 true true 1) (writeAt .m3 .ready) = .next t
        ∧ t.cell .mbuf 0 ≠ (writeAt .m3 .ready).cell .mbuf 0 :=
  ⟨rfl, ⟨_, rfl⟩, rfl, _, rfl, by decide⟩

/-- The master branch with each kind of STATE, and the slave branch after each outcome of the address match. -/
theorem witness_InvocationOrder :
    evHas 0x00030001 .msl = true ∧ (block .masterTransmitting .mSb 0).ctx.state = .masterTransmitting
      ∧ (block .masterReceiving .mSb 0).ctx.state = .masterReceiving ∧ (block .slaveReceiving .sRx 0).ctx.state.isSlave
      ∧ evHas 0x00020002 .msl = false
      ∧ (∃ u, slaveMatch params 0x00060082 (block .ready .sTx 0) = .ok u ∧ u.ctx.state = .slaveTransmitting)
      ∧ (∃ u, slaveMatch params 0x00020002 (block .ready .sRx 0) = .ok u ∧ u.ctx.state = .slaveReceiving)
      ∧ (block .masterTransmitting .idle 0).ctx.state.isMaster = true :=
  ⟨by decide, rfl, rfl, rfl, by decide, ⟨_, rfl, rfl⟩, ⟨_, rfl, rfl⟩, rfl⟩

/-- AF; a data flag; neither. -/
theorem witness_MasterTransmitHandler :
    evHas 0x00070400 .af = true ∧ evHas 0x00070080 .af = false ∧ evHas 0x00070080 .txe = true
      ∧ evHas 0x00070000 .txe = false := by decide

/-- TX_NEXT below M_LEN and at it. -/
theorem witness_TransmitNextAndTerminate :
    let s := master (block .masterTransmitting .mTx 0x00070080) 2 1 false [(0, 0x2C), (1, 0x06)]
    s.ctx.mCur < s.ctx.mLen ∧ s.ctx.mCur.toNat < params.bufCap ∧ s.cell .mbuf s.ctx.mCur.toNat = some 0x06
      ∧ (master s 2 2 false []).ctx.mLen ≤ (master s 2 2 false []).ctx.mCur := by decide

/-- RX_STORE at M_LEN, and one below it. -/
theorem witness_MasterReceiveStore :
    let s := master (block .masterReceiving .mRx 0x00030040) 2 1 false []
    evHas 0x00030040 .rxne = true ∧ s.ctx.mCur < s.ctx.mLen ∧ s.ctx.mCur.toNat < params.bufCap
      ∧ (master s 2 2 false []).ctx.mLen ≤ (master s 2 2 false []).ctx.mCur := by decide

theorem witness_MasterReceiveFinal :
    let s := master (block .masterReceiving .mHold 0x00030400) 7 7 true []
    s.ctx.mLen.toNat < params.bufCap ∧ evHas 0x00030440 .rxne = true ∧ evHas 0x00030400 .rxne = false
      ∧ (okOf (finalCapture params s)).isSome = true := by decide

/-- Receive; transmit with no client; transmit with an answer that fits, and with one that does not. -/
theorem witness_SlaveAddressMatch :
    evHas 0x00020002 .tra = false ∧ evHas 0x00060082 .tra = true ∧ (block .ready .sTx 0).ctx.cb = 0
      ∧ params.client.tx 1 0 = .answers 2 [0xA1, 0xA2] 0 ∧ [0xA1#8, 0xA2].length = 2 ∧ ¬ params.bufCap < 2
      ∧ ({ params with bufCapPred := 0 } : Config.Params).bufCap < 2 ∧ evHas 0x00060082 .msl = false
      ∧ evHas 0x00060082 .addr = true ∧ ∃ u, slaveMatch params 0x00060082 (block .ready .sTx 0) = .ok u :=
  ⟨by decide, by decide, rfl, rfl, rfl, by decide, by decide, by decide, by decide, _, rfl⟩

/-- An answer of the wrong shape, and a client outside the contract, of on_transmit and of on_receive. -/
theorem witness_SlaveClientRefusals :
    let shape : Config.Params := { params with client := ⟨fun _ cs => .answers 2 [0xA1] cs, fun _ cs _ => .takes cs⟩ }
    let blocks : Config.Params := { params with client := ⟨fun _ _ => .breaksContract, fun _ _ _ => .breaksContract⟩ }
    let s : State := { block .ready .sTx 0 with ctx := { (block .ready .sTx 0).ctx with cb := 1 } }
    evHas 0x00060082 .tra = true ∧ s.ctx.cb ≠ 0 ∧ shape.client.tx s.ctx.cb s.client = .answers 2 [0xA1] 0
      ∧ [0xA1#8].length ≠ 2 ∧ blocks.client.tx s.ctx.cb s.client = .breaksContract
      ∧ blocks.client.rx s.ctx.cb s.client [] = .breaksContract ∧ s.ctx.rxCur.toNat = 0 := by decide

theorem witness_SlaveTransmitHandler :
    let s : State := { block .slaveTransmitting .sTx 0x00060080 with
      ctx := { (block .slaveTransmitting .sTx 0x00060080).ctx with txLen := 2, txCur := 1 }
      buf := { mbuf := [], txbuf := [(0, 0xA1), (1, 0xA2)], rxbuf := [] } }
    evHas 0x00020400 .af = true ∧ evHas 0x00060080 .af = false ∧ evHas 0x00060080 .txe = true
      ∧ s.ctx.txCur < s.ctx.txLen ∧ s.ctx.txCur.toNat < params.bufCap ∧ s.cell .txbuf s.ctx.txCur.toNat = some 0xA2 := by
  decide

/-- One cell left, and none. -/
theorem witness_SlaveReceiveStore :
    (7#16).toNat < params.bufCap ∧ ¬ (8#16).toNat < params.bufCap := by decide

theorem witness_SlaveReceiveEnd :
    (∃ s : State, s.ctx.rxCur.toNat ≤ params.bufCap ∧ [0x10#8].length = s.ctx.rxCur.toNat
        ∧ (∀ k, k < [0x10#8].length → s.cell .rxbuf k = [0x10#8][k]?) ∧ s.ctx.cb ≠ 0
        ∧ params.client.rx s.ctx.cb s.client [0x10] = .takes 0)
      ∧ (∃ s1, srxData params (block .slaveReceiving .sRx 0x00020040) = .ok s1)
      ∧ ∃ s2, srxStop params (block .slaveReceiving .idle 0x00000010) = .ok s2 := by
  refine ⟨⟨{ block .slaveReceiving .idle 0x10 with
    ctx := { (block .slaveReceiving .idle 0x10).ctx with rxCur := 1, cb := 1 }
    buf := { mbuf := [], txbuf := [], rxbuf := [(0, 0x10)] } }, by decide, rfl, ?_, by decide, rfl⟩,
    ⟨_, rfl⟩, ⟨_, rfl⟩⟩
  intro k hk
  obtain rfl : k = 0 := by simpa using hk
  rfl

theorem witness_CrossCuttingErrors :
    evHas 0x00034900 .berr = true ∧ (engine .mTx 0x00034900).pe = true ∧ (engine .mTx 0x00034900).flag .msl = true
      ∧ evHas 0x00030200 .berr = false := by decide

theorem witness_DispatcherFrameHolds : ∃ t, invoke Config.params State.reset = .ok t := ⟨_, rfl⟩

/-- Invocations that store a byte in MBUF, in RXBUF and, with the client of these tests, in TXBUF. -/
theorem witness_DispatcherFrameHolds_stores :
    (∃ t, invoke Config.params (holding 0x5A (master (block .masterReceiving .mHold 0x00030040) 0 0 true [])) = .ok t
        ∧ t.cell .mbuf 0 ≠ (block .ready .idle 0).cell .mbuf 0)
      ∧ (∃ t, invoke Config.params (holding 0x5A (block .slaveReceiving .sRx 0x00020040)) = .ok t
        ∧ t.cell .rxbuf 0 ≠ (block .ready .idle 0).cell .rxbuf 0)
      ∧ ∃ t, slaveMatch params 0x00060082 { block .ready .sTx 0 with
            ctx := { (block .ready .sTx 0).ctx with cb := 1 } } = .ok t
        ∧ t.cell .txbuf 1 ≠ (block .ready .sTx 0).cell .txbuf 1 :=
  ⟨⟨_, rfl, by decide⟩, ⟨_, rfl, by decide⟩, _, rfl, by decide⟩

theorem witness_EngineStepFrame :
    State.reset.eng.pe = false ∧ ∃ t, runEngine params .remoteStart (block .ready .idle 0) = some t := ⟨rfl, _, rfl⟩

/-- The guards of START, repeated START and STOP. -/
theorem witness_EngineStartStop :
    (after .start { engine .idle 0 with ctrl1 := 0x0501 }).isSome
      ∧ AtMasterBoundary (engine .mHold 0x00030000) ∧ (engine .mHold 0x00030000).startReq = false
      ∧ ({ engine .mHold 0x00030000 with ctrl1 := 0x0601 } : Engine).stopReq = true :=
  ⟨by decide, ⟨by decide, .inr (.inr (.inl rfl))⟩, by decide, by decide⟩

/-- The engine registers after a START meet the invariants of the address phase, and so do the reset ones. -/
theorem witness_address_phase :
    (AddressPhaseSound (engine .mSb 0x00030001) ∧ AddressPhaseQuiet (engine .mSb 0x00030001))
      ∧ AddressPhaseSound State.reset.eng ∧ AddressPhaseQuiet State.reset.eng :=
  ⟨⟨⟨by decide, by decide, by decide⟩, fun _ => ⟨rfl, by decide⟩⟩, ⟨by decide, by decide, by decide⟩, fun _ => ⟨rfl, by decide⟩⟩

/-- The guards of the other engine steps hold somewhere: each of these moves is enabled. -/
theorem witness_engine_guards :
    (after (.address false) (engine .mAddr 0x00030000)).isSome ∧ (after .load (engine .sTx 0x00060000)).isSome
      ∧ (after (.masterByteEnd true) { engine .mTx 0x00070080 with shState := .busy }).isSome
      ∧ (after (.slaveByteEnd true) { engine .sTx 0x00060080 with shState := .busy }).isSome
      ∧ (after .loseArbitration (engine .mAddr 0x00030000)).isSome
      ∧ (after (.inject .berr) (engine .mRx 0x00030000)).isSome ∧ (after (.inject .afRx) (engine .mRx 0x00030000)).isSome
      ∧ (after (.inject .smbalert) (engine .idle 0)).isSome ∧ (after (.receive 0) (engine .sRx 0x00020000)).isSome
      ∧ (after .remoteStart (engine .idle 0)).isSome ∧ (after .remoteRestart (engine .sHold 0x00020000)).isSome
      ∧ (after .remoteStop (engine .sRx 0x00020000)).isSome
      ∧ (after (.slaveAddress 0x21 true true) (engine .sAwait 0x00020000)).isSome := by decide

/-- An engine that awaits an address byte. -/
theorem witness_WireFraming :
    (engine .sAwait 0x00020000).pe = true ∧ (engine .sAwait 0x00020000).phase = .sAwait := by decide

theorem witness_ArbitrationDetected :
    [true, true].length = [true, false].length ∧ arbitrationLostAt [true, true] [true, false] = some 1 := by decide

/-- A READ's last byte outstanding, its no-ack pending or, with `nackp` false, its ADDR not handled yet. -/
def receiving (nackp : Bool) (ev : EvWord) : State := master (block .masterReceiving .mRx ev) 0 0 nackp []

/-- The states `receiving` are sound. -/
theorem receiving_sound (nackp : Bool) (ev : EvWord) (ms : List Config.Move) :
    TransactionSound (scheduled ms (receiving nackp ev)) where
  stateNamed v := by simp [scheduled, receiving, master, block]
  bounds := ⟨BitVec.le_refl _, Nat.zero_le _, BitVec.le_refl _, Nat.zero_le _, Nat.zero_le _⟩
  noAckPending _ := rfl
  finalCaptured h := absurd h (by simp [scheduled, receiving, master, block, State.reset])
  transmitLoaded h := absurd h (by simp [scheduled, receiving, master, block])
  receiveFits _ := (bufCap_le Config.params).1
  masterStored _ h := absurd h (Nat.not_lt_zero _)
  txStored _ h := absurd h (Nat.not_lt_zero _)
  rxStored _ h := absurd h (Nat.not_lt_zero _)
  command r h := absurd h (by simp [scheduled, receiving, master, block, State.reset])

theorem witness_StepKeepsTransactionSound :
    (∃ t, TransactionSound (scheduled [.engine .remoteStart] (receiving true 0x00030000))
        ∧ step (scheduled [.engine .remoteStart] (receiving true 0x00030000)) = .next t
        ∧ t.ctx.state = .masterReceiving ∧ ByteArmed (receiving true 0x00030000).ctx)
      ∧ ∃ t, invoke Config.params (receiving false 0x00030002) = .ok t ∧ t.ctx.state = .masterReceiving :=
  ⟨⟨_, receiving_sound _ _ _, rfl, rfl, .inl rfl⟩, _, rfl, rfl⟩

/-- A step from reset; and one from an engine that waits in M_SB, and one that takes it there. -/
theorem witness_StepKeepsBuffers_EngineWord :
    (∃ s t, step s = .next t ∧ BuffersCanonical s ∧ CellsInRange s ∧ ReservedBitsZero s.eng
      ∧ OffExactlyWhenDisabled s.eng ∧ AddressPhaseSound s.eng)
    ∧ (∃ s t, step s = .next t ∧ AddressPhaseSound s.eng ∧ AddressPhaseQuiet s.eng ∧ s.port.bus = none
      ∧ s.eng.phase = .mSb ∧ t.eng.phase = .mAddr)
    ∧ (∃ s t, step s = .next t ∧ AddressPhaseQuiet s.eng ∧ NothingLeft s.eng ∧ s.eng.phase ≠ .mSb
      ∧ t.eng.phase = .mSb)
    ∧ ∃ t, step (scheduled [.engine (.address false)] (block .masterTransmitting .mAddr 0x00030000)) = .next t
      ∧ t.log.wire = [.byte .out 0 false] := by
  refine ⟨⟨scheduled [.host] State.reset, _, rfl, ⟨.nil, .nil, .nil⟩, fun n _ _ => by cases n <;> rfl, ?_, ?_,
      witness_address_phase.2.1⟩,
    ⟨scheduled [.dispatch] (block .masterTransmitting .mSb 0x00030001), _, rfl, witness_address_phase.1.1,
      witness_address_phase.1.2, rfl, rfl, rfl⟩,
    ⟨scheduled [.engine .start] { block .ready .idle 0 with eng := { engine .idle 0 with ctrl1 := 0x0501 } }, _, rfl,
      fun h => absurd h (by decide), ⟨rfl, by decide⟩, by decide, rfl⟩, _, rfl, rfl⟩
  · unfold ReservedBitsZero; decide
  · unfold OffExactlyWhenDisabled; decide

/-- Sound states with a byte to take: the final one, and one from before the READ's ADDR. -/
theorem witness_NoFaultIsReachable :
    TransactionSound (scheduled [.dispatch] (receiving true 0x00030040))
      ∧ TransactionSound (scheduled [.dispatch] (receiving false 0x00030041)) :=
  ⟨receiving_sound _ _ _, receiving_sound _ _ _⟩

/-- A cursor past the armed length, which 40 R179 (d) excludes. -/
def overrun : State := master (block .masterReceiving .mRx 0x00030040) 0 1 false []

/-- 40 R161: a byte with M_CUR past M_LEN faults; 40 R177, 60 R325: an RxNE from before the READ's ADDR stays set. -/
theorem test_cursor_overrun :
    invoke params overrun = .error (.fault .cursorOverrun)
      ∧ (okOf (invoke params (master (block .masterReceiving .mSb 0x00030041) 0 0 false []))).map
          (fun t => (acts t, t.eng.ev, t.ctx.nackp))
        = some ([(.sendByte, 0x88#8)], 0x00030040#32, false)
      ∧ (okOf (invoke params (receiving false 0x00030042))).map (fun t => (acts t, t.eng.ev, t.ctx.nackp))
        = some ([(.setAck, 0#8)], 0x00030040#32, true) := by decide

/-- STATE written by the host and by an invocation; ERR written by the host and by an invocation. -/
theorem witness_StateAndErrWriters :
    (∃ t, step (scheduled [.host] (writeAt .m4 .ready)) = .next t ∧ t.ctx.state ≠ .ready)
      ∧ (∃ t, step (scheduled [.dispatch] (block .masterTransmitting .mHold 0x00070400)) = .next t
        ∧ t.ctx.state ≠ .masterTransmitting ∧ t.ctx.err ≠ .none)
      ∧ ∃ t, step (scheduled [.host] ((readAt .m3 .ready).setErr .overrun)) = .next t ∧ t.ctx.err ≠ .overrun :=
  ⟨⟨_, rfl, by decide⟩, ⟨_, rfl, by decide, by decide⟩, _, rfl, by decide⟩

theorem witness_LogsAppendOnly :
    (∃ t, step (scheduled [.engine .remoteStart] (block .ready .idle 0)) = .next t)
      ∧ (∃ f, step (scheduled [.dispatch] overrun) = .fault f)
      ∧ ∃ f, step (scheduled [.issue (request 0x08000000 [] [] 0)] State.reset) = .refused f :=
  ⟨⟨_, rfl⟩, ⟨_, rfl⟩, _, rfl⟩

/-! ### What an earlier transfer left (logs 27, 28) -/

/-- 43 R264: a START is taken with ADDR = 1, and leaves ADDR, RxNE, DATA and the shift register. -/
theorem test_start_keeps_the_rest :
    (engineStep params .start
        { engine .idle 0x00000042 with ctrl1 := 0x0501, data := 0x5A, shift := 0x77, shState := .full }).map
      (fun r => (r.1.ev, r.1.data, r.1.shift, r.1.shState, r.2))
      = some (0x00030043#32, 0x5A#8, 0x77#8, .full, [.start]) := by decide

/-- 40 R152, R153, R156, R157, 42 R231: with SB and a stale ADDR the first data byte overwrites PA in DATA. -/
theorem test_stale_addr :
    (okOf (invoke params (master (block .masterTransmitting .mSb 0x00030003) 1 0 false [(0, 0x2C)]))).map
        (fun t => (acts t, t.eng.data, t.eng.phase, t.ctx.mCur))
      = some ([(.sendByte, 0x88#8), (.sendByte, 0x2C#8)], 0x2C#8, .mAddr, 1#16) := by decide

/-- 40 R153, R161, R167, R170: an RxNE of an earlier session is stored as the first byte, PA with SB, else DATA. -/
theorem test_stale_rxne :
    (okOf (invoke params (master (block .masterReceiving .mSb 0x00030041) 1 0 false []))).map
        (fun t => (acts t, t.cell .mbuf 0))
      = some ([(.sendByte, 0x88#8), (.recvByte, 0#8), (.setAck, 0#8)], some 0x88#8)
      ∧ (okOf (invoke params (holding 0x5A (block .ready .sRx 0x00020042)))).map (fun t => (t.ctx.state, t.cell .rxbuf 0))
        = some (.slaveReceiving, some 0x5A#8) := by decide

/-! ### The wire -/

/-- 43 R286: 0x88 with a NACK, read back from SDA while SCL is high. -/
theorem test_sampled_frame : readFrame (WireSym.byte .out 0x88 true).lines = some (0x88, true) := by decide

/-- 43 R286: while MSL = 1 this engine clocks a byte it receives, and the remote does not; as a slave the other way. -/
theorem test_master_clocks :
    clockPulses ((engine .mRx 0x00030000).frameDrive .inn 0x77 true).scl = 9
      ∧ clockPulses ((engine .mRx 0x00030000).remoteDrive .inn 0x77 true).scl = 0
      ∧ clockPulses ((engine .sTx 0x00060000).frameDrive .out 0xA1 false).scl = 0 := by decide

/-- 43 R276, R280, R286: of the address bytes 0x42 and 0x44, OADDR = 0x21, this engine drives the ninth bit of the first and
the other devices drive that of the second. -/
theorem test_ninth_bit :
    let e := engine .sAwait 0x00020000
    (e.part .inn 0x42, e.othersPart .inn 0x42) = (Part.receiver, Part.bystander)
      ∧ (e.part .inn 0x44, e.othersPart .inn 0x44) = (Part.bystander, Part.receiver)
      ∧ (e.frameDrive .inn 0x44 false).sda.all id = true ∧ (e.othersDrive .inn 0x44 false).sda.all id = false
      ∧ (engine .sRx 0x00020000).part .inn 0x44 = Part.receiver := by decide

/-- 43 R290: M_HOLD stretches the clock until a STOP request. -/
theorem test_hold_stretches :
    (engine .mHold 0x00030000).stretches = true ∧ (engine .mHold 0x00030000).genStop.stretches = false := by decide

end Sys2Proof.Tests
end

section
/-! Proofs about the encoding (30_encoding): what the decoder answers by the word's fields, and how the rows of the
opcode table and the refusal of an issued word follow from it. -/

namespace Sys2Proof.Encoding

open Sys2Proof.Machine

/-! ### The decoder, class by class (R110, R120) -/

theorem decode_of_classOf_zero {w : CmdWord} (h : classOf w = 0x0#4) : decode w = decodeP w := by
  simp [decode, h]

theorem decode_of_classOf_one {w : CmdWord} (h : classOf w = 0x1#4) : decode w = decodeH w := by
  simp [decode, h]

theorem decode_of_two_le_classOf {w : CmdWord} (h : 0x2#4 ≤ classOf w) : decode w = .error .cls := by
  have h0 : classOf w ≠ 0x0#4 := fun e => absurd (e ▸ h) (by decide)
  have h1 : classOf w ≠ 0x1#4 := fun e => absurd (e ▸ h) (by decide)
  simp [decode, h0, h1]

/-- A reserved word on the command port is refused whatever the state, with the decoder's reason. -/
theorem perform_issue_of_decode_error {r : Config.Request} {why : Reserved} (h : decode r.word = .error why)
    (s : State) : perform (.issue r) s = .refused (.reservedEncoding why) := by
  simp [perform, issueCommand, h]

/-! ### The bits of the P-format operand above those a command uses -/

/-- Bits `k` and up of a value are 0 exactly when it is below `2 ^ k`. -/
theorem extractLsb'_high_eq_zero_iff {m : Nat} (v : BitVec m) (k n : Nat) (hm : m = k + n) :
    v.extractLsb' k n = 0#n ↔ v.toNat < 2 ^ k := by
  have hdiv : v.toNat / 2 ^ k < 2 ^ n := by
    rw [Nat.div_lt_iff_lt_mul (Nat.two_pow_pos k), ← Nat.pow_add, Nat.add_comm n k, ← hm]
    exact v.isLt
  rw [← BitVec.toNat_inj, BitVec.extractLsb'_toNat, Nat.shiftRight_eq_div_pow, Nat.mod_eq_of_lt hdiv]
  simp [Nat.div_eq_zero_iff]

/-- A value whose bits `k` and up are 0 is its low `k` bits, extended. -/
theorem zeroExtend_extractLsb'_low {m : Nat} (v : BitVec m) (k n : Nat) (hm : m = k + n)
    (h : v.extractLsb' k n = 0#n) : (v.extractLsb' 0 k).zeroExtend m = v := by
  rw [extractLsb'_high_eq_zero_iff v k n hm] at h
  apply BitVec.eq_of_toNat_eq
  simp [Nat.mod_eq_of_lt h, Nat.mod_eq_of_lt v.isLt]

theorem ofBool_getLsbD_zero {m : Nat} (v : BitVec m) : BitVec.ofBool (v.getLsbD 0) = v.extractLsb' 0 1 := by
  apply BitVec.eq_of_getLsbD_eq
  intro i hi
  obtain rfl : i = 0 := by omega
  simp

/-- A one-bit operand: with the other seven bits 0, the operand field is bit 0 alone (R116). -/
theorem immOf_eq_ofBool {w : CmdWord} (h : w.extractLsb' 1 7 = 0#7) :
    (BitVec.ofBool (w.getLsbD 0)).zeroExtend 8 = immOf w := by
  rw [extractLsb'_immOf w 1 7 (by omega)] at h
  rw [getLsbD_immOf w 0 (by omega), ofBool_getLsbD_zero]
  exact zeroExtend_extractLsb'_low _ 1 7 rfl h

theorem immOf_eq_low3 {w : CmdWord} (h : w.extractLsb' 3 5 = 0#5) : (w.extractLsb' 0 3).zeroExtend 8 = immOf w := by
  rw [extractLsb'_immOf w 3 5 (by omega)] at h
  rw [extractLsb'_immOf w 0 3 (by omega)]
  exact zeroExtend_extractLsb'_low _ 3 5 rfl h

/-- Bit 7 of the operand field as a field of one bit. -/
theorem getLsbD_seven_eq_false_iff (w : CmdWord) : w.getLsbD 7 = false ↔ (immOf w).extractLsb' 7 1 = 0#1 := by
  rw [getLsbD_immOf w 7 (by omega), ← BitVec.toNat_inj, BitVec.extractLsb'_toNat]
  rw [BitVec.getLsbD, Nat.testBit_eq_decide_div_mod_eq, Nat.shiftRight_eq_div_pow]
  simp

theorem immOf_eq_low7 {w : CmdWord} (h : w.getLsbD 7 = false) : (w.extractLsb' 0 7).zeroExtend 8 = immOf w := by
  rw [extractLsb'_immOf w 0 7 (by omega)]
  exact zeroExtend_extractLsb'_low _ 7 1 rfl ((getLsbD_seven_eq_false_iff w).1 h)

/-! ### The decoder, row by row (R114, R115, R121, R122) -/

section PFormat
variable {w : CmdWord} (hz : zeroOf w = 0#16)
include hz

theorem decodeP_sendByte (ho : opOf w = 0x1#4) : decodeP w = .ok (.sendByte (immOf w)) := by
  simp [decodeP, hz, ho]

theorem decodeP_recvByte (ho : opOf w = 0x2#4) : decodeP w = whenZero .imm8 (immOf w == 0#8) .recvByte := by
  simp [decodeP, hz, ho]

theorem decodeP_genStart (ho : opOf w = 0x3#4) : decodeP w = whenZero .imm8 (immOf w == 0#8) .genStart := by
  simp [decodeP, hz, ho]

theorem decodeP_genStop (ho : opOf w = 0x4#4) : decodeP w = whenZero .imm8 (immOf w == 0#8) .genStop := by
  simp [decodeP, hz, ho]

theorem decodeP_setAck (ho : opOf w = 0x5#4) :
    decodeP w = whenZero .imm8 (w.extractLsb' 1 7 == 0#7) (.setAck (w.getLsbD 0)) := by
  simp [decodeP, hz, ho]

theorem decodeP_clearFlag (ho : opOf w = 0x6#4) :
    decodeP w = whenZero .flagIndex (clearable (immOf w)) (.clearFlag (immOf w)) := by
  simp [decodeP, hz, ho]

theorem decodeP_setNotify (ho : opOf w = 0x7#4) :
    decodeP w = whenZero .imm8 (w.extractLsb' 3 5 == 0#5) (.setNotify (w.extractLsb' 0 3)) := by
  simp [decodeP, hz, ho]

theorem decodeP_readEvent (ho : opOf w = 0x8#4) : decodeP w = whenZero .imm8 (immOf w == 0#8) .readEvent := by
  simp [decodeP, hz, ho]

theorem decodeP_setOwnAddr (ho : opOf w = 0x9#4) :
    decodeP w = whenZero .imm8 (!w.getLsbD 7) (.setOwnAddr (w.extractLsb' 0 7)) := by
  simp [decodeP, hz, ho]

theorem decodeP_setEnable (ho : opOf w = 0xA#4) :
    decodeP w = whenZero .imm8 (w.extractLsb' 1 7 == 0#7) (.setEnable (w.getLsbD 0)) := by
  simp [decodeP, hz, ho]

theorem decodeP_unassigned (ho : opOf w = 0x0#4 ∨ 0xB#4 ≤ opOf w) : decodeP w = .error .op := by
  have hne : ∀ op : BitVec 4, op = 0x0#4 ∨ 0xB#4 ≤ op →
      op ∉ [0x1#4, 0x2#4, 0x3#4, 0x4#4, 0x5#4, 0x6#4, 0x7#4, 0x8#4, 0x9#4, 0xA#4] := by decide
  have h := hne _ ho
  simp only [List.mem_cons, List.not_mem_nil, or_false, not_or] at h
  simp [decodeP, hz, h]

end PFormat

theorem decodeP_zeroField {w : CmdWord} (hz : zeroOf w ≠ 0#16) : decodeP w = .error .zeroField := by
  simp [decodeP, hz]

section HFormat
variable {w : CmdWord}

theorem decodeH_init (ho : opOf w = 0x1#4) :
    decodeH w = whenZero .hField (!stopOf w && !waitOf w && lenOf w == 0#15) (.init (addrOf w)) := by
  simp [decodeH, ho]

theorem decodeH_write (ho : opOf w = 0x2#4) :
    decodeH w = .ok (.write (addrOf w) (stopOf w) (waitOf w) (lenOf w)) := by
  simp [decodeH, ho]

theorem decodeH_read (ho : opOf w = 0x3#4) :
    decodeH w = whenZero .hField (!waitOf w) (.read (addrOf w) (stopOf w) (lenOf w)) := by
  simp [decodeH, ho]

theorem decodeH_registerCallbacks (ho : opOf w = 0x4#4) :
    decodeH w = whenZero .hField (addrOf w == 0#7 && !stopOf w && !waitOf w && lenOf w == 0#15)
      .registerCallbacks := by
  simp [decodeH, ho]

theorem decodeH_status (ho : opOf w = 0x5#4) :
    decodeH w = whenZero .hField (addrOf w == 0#7 && !stopOf w && !waitOf w && lenOf w == 0#15) .status := by
  simp [decodeH, ho]

theorem decodeH_unassigned (ho : opOf w = 0x0#4 ∨ 0x6#4 ≤ opOf w) : decodeH w = .error .op := by
  have hne : ∀ op : BitVec 4, op = 0x0#4 ∨ 0x6#4 ≤ op → op ∉ [0x1#4, 0x2#4, 0x3#4, 0x4#4, 0x5#4] := by decide
  have h := hne _ ho
  simp only [List.mem_cons, List.not_mem_nil, or_false, not_or] at h
  simp [decodeH, h]

end HFormat

/-- The fields of INIT that must be 0. -/
theorem fieldsInit_iff {stop wait : Bool} {len : BitVec 15} :
    (!stop && !wait && len == 0#15) = true ↔ stop = false ∧ wait = false ∧ len = 0#15 := by
  simp [and_assoc]

/-- The fields of REGISTER_CALLBACKS and STATUS, which must all be 0. -/
theorem fieldsH_iff {a7 : Addr7} {stop wait : Bool} {len : BitVec 15} :
    (a7 == 0#7 && !stop && !wait && len == 0#15) = true ↔ a7 = 0#7 ∧ stop = false ∧ wait = false ∧ len = 0#15 := by
  simp [and_assoc]

/-- The opcodes of class 0: the ten of R114 and the unassigned ones. -/
theorem opP_cases : ∀ op : BitVec 4, op = 0x1#4 ∨ op = 0x2#4 ∨ op = 0x3#4 ∨ op = 0x4#4 ∨ op = 0x5#4 ∨ op = 0x6#4
    ∨ op = 0x7#4 ∨ op = 0x8#4 ∨ op = 0x9#4 ∨ op = 0xA#4 ∨ op = 0x0#4 ∨ 0xB#4 ≤ op := by
  decide

/-- The opcodes of class 1: the five of R115 and the unassigned ones. -/
theorem opH_cases : ∀ op : BitVec 4, op = 0x1#4 ∨ op = 0x2#4 ∨ op = 0x3#4 ∨ op = 0x4#4 ∨ op = 0x5#4
    ∨ op = 0x0#4 ∨ 0x6#4 ≤ op := by
  decide

/-! ### A word that decodes is the word of its command -/

theorem wordP_eq {w : CmdWord} {op : BitVec 4} {imm : BitVec 8} (hc : classOf w = 0x0#4) (hz : zeroOf w = 0#16)
    (ho : opOf w = op) (hi : imm = immOf w) : wordP op imm = w := by
  rw [eq_wordP hc hz, ho, hi]

theorem wf_and_encode_of_decodeP {w : CmdWord} {i : Instr} (hc : classOf w = 0x0#4) (h : decodeP w = .ok i) :
    i.wf = true ∧ encode i = w := by
  have hz : zeroOf w = 0#16 := by
    by_contra hz
    simp [decodeP_zeroField hz] at h
  obtain ho | ho | ho | ho | ho | ho | ho | ho | ho | ho | ho := opP_cases (opOf w)
  · obtain rfl := Except.ok.inj (decodeP_sendByte hz ho ▸ h)
    exact ⟨rfl, wordP_eq hc hz ho rfl⟩
  · obtain ⟨himm, rfl⟩ := whenZero_eq_ok.1 (decodeP_recvByte hz ho ▸ h)
    exact ⟨rfl, wordP_eq hc hz ho (eq_of_beq himm).symm⟩
  · obtain ⟨himm, rfl⟩ := whenZero_eq_ok.1 (decodeP_genStart hz ho ▸ h)
    exact ⟨rfl, wordP_eq hc hz ho (eq_of_beq himm).symm⟩
  · obtain ⟨himm, rfl⟩ := whenZero_eq_ok.1 (decodeP_genStop hz ho ▸ h)
    exact ⟨rfl, wordP_eq hc hz ho (eq_of_beq himm).symm⟩
  · obtain ⟨himm, rfl⟩ := whenZero_eq_ok.1 (decodeP_setAck hz ho ▸ h)
    exact ⟨rfl, wordP_eq hc hz ho (immOf_eq_ofBool (eq_of_beq himm))⟩
  · obtain ⟨hk, rfl⟩ := whenZero_eq_ok.1 (decodeP_clearFlag hz ho ▸ h)
    exact ⟨hk, wordP_eq hc hz ho rfl⟩
  · obtain ⟨himm, rfl⟩ := whenZero_eq_ok.1 (decodeP_setNotify hz ho ▸ h)
    exact ⟨rfl, wordP_eq hc hz ho (immOf_eq_low3 (eq_of_beq himm))⟩
  · obtain ⟨himm, rfl⟩ := whenZero_eq_ok.1 (decodeP_readEvent hz ho ▸ h)
    exact ⟨rfl, wordP_eq hc hz ho (eq_of_beq himm).symm⟩
  · obtain ⟨himm, rfl⟩ := whenZero_eq_ok.1 (decodeP_setOwnAddr hz ho ▸ h)
    exact ⟨rfl, wordP_eq hc hz ho (immOf_eq_low7 (by simpa using himm))⟩
  · obtain ⟨himm, rfl⟩ := whenZero_eq_ok.1 (decodeP_setEnable hz ho ▸ h)
    exact ⟨rfl, wordP_eq hc hz ho (immOf_eq_ofBool (eq_of_beq himm))⟩
  · simp [decodeP_unassigned hz ho] at h

theorem wordH_eq {w : CmdWord} {op : BitVec 4} {a7 : Addr7} {stop wait : Bool} {len : BitVec 15}
    (hc : classOf w = 0x1#4) (ho : opOf w = op) (ha : addrOf w = a7) (hs : stopOf w = stop) (hw : waitOf w = wait)
    (hl : lenOf w = len) : wordH op a7 stop wait len = w := by
  rw [eq_wordH hc, ho, ha, hs, hw, hl]

theorem wf_and_encode_of_decodeH {w : CmdWord} {i : Instr} (hc : classOf w = 0x1#4) (h : decodeH w = .ok i) :
    i.wf = true ∧ encode i = w := by
  obtain ho | ho | ho | ho | ho | ho := opH_cases (opOf w)
  · obtain ⟨hf, rfl⟩ := whenZero_eq_ok.1 (decodeH_init ho ▸ h)
    obtain ⟨hs, hw, hl⟩ := fieldsInit_iff.1 hf
    exact ⟨rfl, wordH_eq hc ho rfl hs hw hl⟩
  · obtain rfl := Except.ok.inj (decodeH_write ho ▸ h)
    exact ⟨rfl, wordH_eq hc ho rfl rfl rfl rfl⟩
  · obtain ⟨hw, rfl⟩ := whenZero_eq_ok.1 (decodeH_read ho ▸ h)
    exact ⟨rfl, wordH_eq hc ho rfl rfl (by simpa using hw) rfl⟩
  · obtain ⟨hf, rfl⟩ := whenZero_eq_ok.1 (decodeH_registerCallbacks ho ▸ h)
    obtain ⟨ha, hs, hw, hl⟩ := fieldsH_iff.1 hf
    exact ⟨rfl, wordH_eq hc ho ha hs hw hl⟩
  · obtain ⟨hf, rfl⟩ := whenZero_eq_ok.1 (decodeH_status ho ▸ h)
    obtain ⟨ha, hs, hw, hl⟩ := fieldsH_iff.1 hf
    exact ⟨rfl, wordH_eq hc ho ha hs hw hl⟩
  · simp [decodeH_unassigned ho] at h

theorem wf_and_encode_of_decode {w : CmdWord} {i : Instr} (h : decode w = .ok i) : i.wf = true ∧ encode i = w := by
  by_cases h0 : classOf w = 0x0#4
  · exact wf_and_encode_of_decodeP h0 (decode_of_classOf_zero h0 ▸ h)
  · by_cases h1 : classOf w = 0x1#4
    · exact wf_and_encode_of_decodeH h1 (decode_of_classOf_one h1 ▸ h)
    · simp [decode, h0, h1] at h

/-! ### The rows of the opcode table (R126) -/

/-- A P-format word under a row's mask, which covers class and opcode and the operand's bits `m`. -/
theorem wordP_and_eq {op : BitVec 4} {imm m : BitVec 8} {mask pattern : CmdWord}
    (hrow : classOf mask = BitVec.allOnes 4 ∧ opOf mask = BitVec.allOnes 4 ∧ immOf mask = m ∧ pattern = wordP op 0#8
      := by decide)
    (himm : imm &&& m = 0#8) : wordP op imm &&& mask = pattern := by
  obtain ⟨hc, ho, hm, rfl⟩ := hrow
  simp only [and_eq_iffP, classOf_wordP, opOf_wordP, zeroOf_wordP, immOf_wordP, hc, ho, hm, himm, BitVec.and_allOnes,
    BitVec.zero_and, and_self]

/-- An H-format word under the mask of WRITE or READ, which covers class and opcode and no other field but `wait`. -/
theorem wordH_and_eq {op : BitVec 4} {a7 : Addr7} {stop wait wm : Bool} {len : BitVec 15} {mask pattern : CmdWord}
    (hrow : classOf mask = BitVec.allOnes 4 ∧ opOf mask = BitVec.allOnes 4 ∧ addrOf mask = 0#7 ∧ stopOf mask = false
        ∧ waitOf mask = wm ∧ lenOf mask = 0#15 ∧ pattern = wordH op 0#7 false false 0#15 := by decide)
    (hwait : (wait && wm) = false) : wordH op a7 stop wait len &&& mask = pattern := by
  obtain ⟨hc, ho, ha, hs, hw, hl, rfl⟩ := hrow
  simp only [and_eq_iffH, classOf_wordH, opOf_wordH, addrOf_wordH, stopOf_wordH, waitOf_wordH, lenOf_wordH, hc, ho, ha,
    hs, hw, hl, hwait, BitVec.and_allOnes, BitVec.and_zero, Bool.and_false, and_self]

/-- The words of a row by its place in opcode_table.json. -/
theorem exists_row_of_getElem (k : Nat) {i : Instr} {w : CmdWord} (hk : k < opcodeTable.length := by decide)
    (hm : opcodeTable[k].mnemonic = i.mnemonic := by rfl)
    (hw : w &&& opcodeTable[k].mask = opcodeTable[k].pattern := by decide) :
    ∃ r ∈ opcodeTable, r.mnemonic = i.mnemonic ∧ w &&& r.mask = r.pattern :=
  ⟨opcodeTable[k], List.getElem_mem hk, hm, hw⟩

theorem exists_row_of_encode (i : Instr) :
    ∃ r ∈ opcodeTable, r.mnemonic = i.mnemonic ∧ encode i &&& r.mask = r.pattern := by
  cases i with
  | sendByte b => exact exists_row_of_getElem 0 (hw := wordP_and_eq (himm := BitVec.and_zero))
  | recvByte => exact exists_row_of_getElem 1
  | genStart => exact exists_row_of_getElem 2
  | genStop => exact exists_row_of_getElem 3
  | setAck e => exact exists_row_of_getElem 4 (hw := by revert e; decide)
  | clearFlag k => exact exists_row_of_getElem 5 (hw := wordP_and_eq (himm := BitVec.and_zero))
  | setNotify m => exact exists_row_of_getElem 6 (hw := by revert m; decide)
  | readEvent => exact exists_row_of_getElem 7
  | setOwnAddr a => exact exists_row_of_getElem 8 (hw := by revert a; decide)
  | setEnable e => exact exists_row_of_getElem 9 (hw := by revert e; decide)
  | init a7 => exact exists_row_of_getElem 10 (hw := by revert a7; decide)
  | write a7 stop wait len => exact exists_row_of_getElem 11 (hw := wordH_and_eq (hwait := Bool.and_false _))
  | read a7 stop len => exact exists_row_of_getElem 12 (hw := wordH_and_eq (wm := true) (hwait := rfl))
  | registerCallbacks => exact exists_row_of_getElem 13
  | status => exact exists_row_of_getElem 14

/-- The bits of class and opcode, which every row's mask covers. -/
def headMask : CmdWord := 0xFF000000

theorem mask_and_headMask : ∀ r ∈ opcodeTable, r.mask &&& headMask = headMask := by
  decide

/-- Class and opcode tell the rows apart. -/
theorem row_eq_of_head_eq : ∀ r ∈ opcodeTable, ∀ q ∈ opcodeTable,
    r.pattern &&& headMask = q.pattern &&& headMask → r = q := by
  decide

theorem head_of_match {w : CmdWord} {r : OpRow} (hr : r ∈ opcodeTable) (h : w &&& r.mask = r.pattern) :
    r.pattern &&& headMask = w &&& headMask := by
  rw [← h, BitVec.and_assoc, mask_and_headMask r hr]

theorem row_unique {w : CmdWord} {r q : OpRow} (hr : r ∈ opcodeTable) (hq : q ∈ opcodeTable)
    (hwr : w &&& r.mask = r.pattern) (hwq : w &&& q.mask = q.pattern) : r = q :=
  row_eq_of_head_eq r hr q hq ((head_of_match hr hwr).trans (head_of_match hq hwq).symm)

/-- Settles O3: a decoded word is its command's encoding, which its row's mask and pattern accept; and every row fixes
class and opcode, which no two rows share. -/
theorem decoderTotalAndUnambiguous : Obligations.DecoderTotalAndUnambiguous := by
  refine ⟨fun w => ?_, fun w i h => ?_, fun r hr q hq w => row_unique hr hq⟩
  · cases h : decode w with
    | ok i => exact .inl ⟨i, rfl⟩
    | error why => exact .inr ⟨why, rfl⟩
  · rw [← (wf_and_encode_of_decode h).2]
    exact exists_row_of_encode i

/-! ### Reserved words (R120–R122) -/

/-- Settles O4: a class above 1 goes to neither format's decoder, and the port hands the verdict on. -/
theorem reservedClassRefused : Obligations.ReservedClassRefused := by
  intro r s h
  have hd := decode_of_two_le_classOf h
  exact ⟨hd, perform_issue_of_decode_error hd s⟩

theorem exists_error_whenZero {z : Bool} {why : Reserved} {i : Instr} :
    (∃ e, whenZero why z i = .error e) ↔ z = false := by
  simp

/-- R118: the list of the seven error flags' indices. -/
theorem clearable_iff {k : BitVec 8} : clearable k = true ↔ k ∈ [8#8, 9#8, 10#8, 11#8, 12#8, 14#8, 15#8] := by
  simp [clearable, or_assoc]

/-- An operand field has a bit set at or above `k` exactly when it is `2 ^ k` or more. -/
theorem extractLsb'_immOf_beq_zero_eq_false_iff (w : CmdWord) (k n : Nat) (hkn : 8 = k + n) (v : BitVec 8)
    (hv : v.toNat = 2 ^ k) : (w.extractLsb' k n == 0#n) = false ↔ v ≤ immOf w := by
  rw [beq_eq_false_iff_ne, Ne, extractLsb'_immOf w k n hkn.ge, extractLsb'_high_eq_zero_iff _ k n hkn, not_lt,
    BitVec.le_def, hv]

theorem not_getLsbD_seven_eq_false_iff (w : CmdWord) : (!w.getLsbD 7) = false ↔ 0x80#8 ≤ immOf w := by
  rw [← extractLsb'_immOf_beq_zero_eq_false_iff w 7 1 rfl 0x80#8 rfl, beq_eq_false_iff_ne, Ne,
    extractLsb'_immOf w 7 1 (by omega), ← getLsbD_seven_eq_false_iff]
  simp

/-- R121: the reserved forms of the P-format. -/
theorem exists_decodeP_error_iff (w : CmdWord) :
    (opOf w = 0x0#4 ∨ 0xB#4 ≤ opOf w ∨ zeroOf w ≠ 0#16
        ∨ (opOf w ∈ [0x2#4, 0x3#4, 0x4#4, 0x8#4] ∧ immOf w ≠ 0#8)
        ∨ (opOf w ∈ [0x5#4, 0xA#4] ∧ 0x2#8 ≤ immOf w)
        ∨ (opOf w = 0x7#4 ∧ 0x8#8 ≤ immOf w)
        ∨ (opOf w = 0x9#4 ∧ 0x80#8 ≤ immOf w)
        ∨ (opOf w = 0x6#4 ∧ immOf w ∉ [8#8, 9#8, 10#8, 11#8, 12#8, 14#8, 15#8]))
      ↔ ∃ why, decodeP w = .error why := by
  by_cases hz : zeroOf w = 0#16
  · have low1 := extractLsb'_immOf_beq_zero_eq_false_iff w 1 7 rfl 0x2#8 rfl
    have low3 := extractLsb'_immOf_beq_zero_eq_false_iff w 3 5 rfl 0x8#8 rfl
    obtain ho | ho | ho | ho | ho | ho | ho | ho | ho | ho | ho := opP_cases (opOf w)
    · simp [decodeP_sendByte hz ho, hz, ho]
    · rw [decodeP_recvByte hz ho, exists_error_whenZero]; simp [hz, ho]
    · rw [decodeP_genStart hz ho, exists_error_whenZero]; simp [hz, ho]
    · rw [decodeP_genStop hz ho, exists_error_whenZero]; simp [hz, ho]
    · rw [decodeP_setAck hz ho, exists_error_whenZero, low1]; simp [hz, ho]
    · rw [decodeP_clearFlag hz ho, exists_error_whenZero, ← Bool.not_eq_true, clearable_iff]; simp [hz, ho]
    · rw [decodeP_setNotify hz ho, exists_error_whenZero, low3]; simp [hz, ho]
    · rw [decodeP_readEvent hz ho, exists_error_whenZero]; simp [hz, ho]
    · rw [decodeP_setOwnAddr hz ho, exists_error_whenZero, not_getLsbD_seven_eq_false_iff]; simp [hz, ho]
    · rw [decodeP_setEnable hz ho, exists_error_whenZero, low1]; simp [hz, ho]
    · exact iff_of_true (ho.imp_right .inl) ⟨_, decodeP_unassigned hz ho⟩
  · exact iff_of_true (.inr (.inr (.inl hz))) ⟨_, decodeP_zeroField hz⟩

/-- R122: the reserved forms of the H-format. -/
theorem exists_decodeH_error_iff (w : CmdWord) :
    (opOf w = 0x0#4 ∨ 0x6#4 ≤ opOf w
        ∨ (opOf w = 0x1#4 ∧ (stopOf w = true ∨ waitOf w = true ∨ lenOf w ≠ 0#15))
        ∨ (opOf w = 0x3#4 ∧ waitOf w = true)
        ∨ (opOf w ∈ [0x4#4, 0x5#4] ∧ (addrOf w ≠ 0#7 ∨ stopOf w = true ∨ waitOf w = true ∨ lenOf w ≠ 0#15)))
      ↔ ∃ why, decodeH w = .error why := by
  obtain ho | ho | ho | ho | ho | ho := opH_cases (opOf w)
  · rw [decodeH_init ho, exists_error_whenZero, ← Bool.not_eq_true, fieldsInit_iff, not_and_or, not_and_or]
    simp [ho]
  · simp [decodeH_write ho, ho]
  · rw [decodeH_read ho, exists_error_whenZero]
    simp [ho]
  · rw [decodeH_registerCallbacks ho, exists_error_whenZero, ← Bool.not_eq_true, fieldsH_iff, not_and_or, not_and_or,
      not_and_or]
    simp [ho]
  · rw [decodeH_status ho, exists_error_whenZero, ← Bool.not_eq_true, fieldsH_iff, not_and_or, not_and_or,
      not_and_or]
    simp [ho]
  · exact iff_of_true (ho.imp_right .inl) ⟨_, decodeH_unassigned ho⟩

/-- Settles O5, opcode by opcode in each format. -/
theorem reservedFormsRefused : Obligations.ReservedFormsRefused := by
  intro r s
  refine ⟨fun hc => ?_, fun hc => ?_, fun why h => perform_issue_of_decode_error h s⟩
  · rw [decode_of_classOf_zero hc]
    exact exists_decodeP_error_iff r.word
  · rw [decode_of_classOf_one hc]
    exact exists_decodeH_error_iff r.word

/-! ### CLEAR_FLAG (R118, R236, R237) -/

theorem and_clearFlag_mask_iff (w : CmdWord) :
    w &&& 0xFFFFFF00 = 0x06000000 ↔ classOf w = 0x0#4 ∧ opOf w = 0x6#4 ∧ zeroOf w = 0#16 := by
  have hmask : classOf 0xFFFFFF00 = BitVec.allOnes 4 ∧ opOf 0xFFFFFF00 = BitVec.allOnes 4
      ∧ zeroOf 0xFFFFFF00 = BitVec.allOnes 16 ∧ immOf 0xFFFFFF00 = 0#8 := by decide
  have hpattern : classOf 0x06000000 = 0x0#4 ∧ opOf 0x06000000 = 0x6#4 ∧ zeroOf 0x06000000 = 0#16
      ∧ immOf 0x06000000 = 0#8 := by decide
  simp only [and_eq_iffP, hmask, hpattern, BitVec.and_allOnes, BitVec.and_zero, and_true]

theorem decode_eq_clearFlag_iff (w : CmdWord) (k : BitVec 8) : decode w = .ok (.clearFlag k) ↔
    w &&& 0xFFFFFF00 = 0x06000000 ∧ k = immOf w ∧ clearable k = true := by
  rw [and_clearFlag_mask_iff]
  constructor
  · intro h
    obtain ⟨hk, rfl⟩ := wf_and_encode_of_decode h
    exact ⟨⟨classOf_wordP _ _, opOf_wordP _ _, zeroOf_wordP _ _⟩, (immOf_wordP _ _).symm, hk⟩
  · rintro ⟨⟨hc, ho, hz⟩, rfl, hk⟩
    rw [decode_of_classOf_zero hc, decodeP_clearFlag hz ho, whenZero_eq_ok]
    exact ⟨hk, rfl⟩

theorem exec_clearFlag_of_clearable {k : BitVec 8} (hk : clearable k = true) (s : State) :
    exec (.clearFlag k) s = .next (issueClearFlag s.port.issuer k s) :=
  if_pos hk

theorem exec_clearFlag_of_not_clearable {k : BitVec 8} (hk : ¬ clearable k = true) (s : State) :
    exec (.clearFlag k) s = .refused (.reservedEncoding .flagIndex) :=
  if_neg hk

theorem toNat_lt_of_clearable {k : BitVec 8} (hk : clearable k = true) : k.toNat < 32 := by
  simp only [clearable_iff, List.mem_cons, List.not_mem_nil, or_false] at hk
  obtain rfl | rfl | rfl | rfl | rfl | rfl | rfl := hk <;> decide

theorem getLsbD_ev_clearFlag {k : BitVec 8} (hk : k.toNat < 32) (e : Engine) (j : Nat) :
    (e.clearFlag k).ev.getLsbD j = if j = k.toNat then false else e.ev.getLsbD j :=
  getLsbD_putBit e.ev k.toNat j false hk

/-- Settles O13: the decoder's rule for the row, and the one bit CLEAR_FLAG writes. -/
theorem clearFlagEffect : Obligations.ClearFlagEffect := by
  refine ⟨fun w k => ?_, rfl, fun k s => ?_⟩
  · rw [decode_eq_clearFlag_iff, clearable_iff]
    rfl
  · split
    · next hm =>
      have hk := clearable_iff.2 hm
      have hbit := getLsbD_ev_clearFlag (toNat_lt_of_clearable hk) s.eng
      refine ⟨_, exec_clearFlag_of_clearable hk s, rfl, rfl, rfl, ?_, fun j hj => ?_⟩
      · exact (hbit _).trans (if_pos rfl)
      · exact (hbit j).trans (if_neg hj)
    · next hm => exact ⟨_, exec_clearFlag_of_not_clearable (mt clearable_iff.1 hm) s⟩

/-! ### The examples of R130 and R131 -/

theorem decode_examples :
    decode 0x01000088#32 = .ok (.sendByte 0x88) ∧ decode 0x05000000#32 = .ok (.setAck false)
      ∧ decode 0x0600000A#32 = .ok (.clearFlag 10) ∧ decode 0x07000000#32 = .ok (.setNotify 0)
      ∧ decode 0x11420000#32 = .ok (.init 0x21) ∧ decode 0x12898002#32 = .ok (.write 0x44 true true 2)
      ∧ decode 0x12888002#32 = .ok (.write 0x44 false true 2) ∧ decode 0x13890006#32 = .ok (.read 0x44 true 6)
      ∧ decode 0x13890001#32 = .ok (.read 0x44 true 1) := by
  decide

/-- A reserved word is refused as any request's word, in every state. -/
theorem issue_refused_of_decode_error {w : CmdWord} {why : Reserved} (h : decode w = .error why) :
    ∃ why, decode w = .error why ∧ ∀ (r : Config.Request) (s : State), r.word = w →
      perform (.issue r) s = .refused (.reservedEncoding why) :=
  ⟨why, h, fun _ s hr => perform_issue_of_decode_error (hr ▸ h) s⟩

/-- Settles O7: the decoder's answer to each word, and the refusal of every reserved one. -/
theorem specExampleWords : Obligations.SpecExampleWords := by
  refine ⟨decode_examples, fun w hw => ?_⟩
  simp only [List.mem_cons, List.not_mem_nil, or_false] at hw
  obtain rfl | rfl | rfl | rfl | rfl | rfl := hw
  · exact issue_refused_of_decode_error (why := .op) (by decide)
  · exact issue_refused_of_decode_error (why := .zeroField) (by decide)
  · exact issue_refused_of_decode_error (why := .imm8) (by decide)
  · exact issue_refused_of_decode_error (why := .flagIndex) (by decide)
  · exact issue_refused_of_decode_error (why := .hField) (by decide)
  · exact issue_refused_of_decode_error (why := .cls) (by decide)

end Sys2Proof.Encoding
end

section
/-! Proofs about the Event Dispatcher (40_dispatcher): what each handler of an invocation does, case by case, and the
statements of the dispatcher's family from these. -/

namespace Sys2Proof.Dispatcher

open Sys2Proof.Machine

/-- The log after two records of ACTLOG, one appended after the other. -/
theorem acted_pair_log (s : State) (a b : ActRecord) :
    (s.acted [a, b]).log = { s.log with act := s.log.act ++ [a] ++ [b] } := by
  simp [State.acted]

theorem acted_nil (s : State) : s.acted [] = s := by
  simp [State.acted]

/-! ### The entry and the role branch (R151, R152) -/

theorem invoke_eq (p : Config.Params) (s : State) :
    invoke p s = andThen (roleBranch p s.eng.ev s.ctx.nackp (enterHandler s)) fun u => .ok (cross p s.eng.ev u) := rfl

/-- SET_NOTIFY and READ_EVENT touch CTRL2 and EV alone. -/
theorem enterHandler_eng_eq (s : State) :
    (enterHandler s).eng = { s.eng with ctrl2 := (enterHandler s).eng.ctrl2, ev := (enterHandler s).eng.ev } := rfl

theorem enterHandler_flag (s : State) (f : Flag) :
    (enterHandler s).eng.flag f = (s.eng.flag f && !([.addr, .stopf, .gencall, .dualf] : List Flag).contains f) :=
  Engine.flag_clearFlags _ (s.eng.setNotify 7#3) f

/-- READ_EVENT leaves the enables as SET_NOTIFY(7) set them. -/
theorem enterHandler_enables (s : State) :
    (enterHandler s).eng.itEvtEn = true ∧ (enterHandler s).eng.itBufEn = true
      ∧ (enterHandler s).eng.itErrEn = true := by
  obtain ⟨hevt, hbuf, herr, -⟩ := setNotify_bits s.eng 7#3
  exact ⟨hevt, hbuf, herr⟩

theorem enterHandler_frame_eq (s : State) :
    enterHandler s = { s with
      eng := (enterHandler s).eng
      log := (s.acted [did .setNotify 7, did .readEvent 0]).log } := by
  rw [acted_pair_log]
  rfl

theorem enterHandler_evKept (s : State) :
    EvKeptBut [.addr, .stopf, .gencall, .dualf] s.eng (enterHandler s).eng :=
  EvKeptBut.clearFlags (d := s.eng.setNotify 7#3) (.refl _ _) fun _ hf => hf

/-- Settles O31: the entry's two primitives, field by field. -/
theorem invocationEntry : Obligations.InvocationEntry := by
  intro s
  obtain ⟨hevt, hbuf, herr⟩ := enterHandler_enables s
  refine ⟨enterHandler s, rfl, enterHandler_frame_eq s, enterHandler_eng_eq s, hevt, hbuf, herr, ?_, ?_, ?_, ?_,
    enterHandler_evKept s, entrySnapshot_eq s, fun p => invoke_eq p s⟩ <;> simp [enterHandler_flag]

section RoleBranch

variable {p : Config.Params} {ev : EvWord} {nackp0 : Bool} {s : State}

section Master

variable (hm : evHas ev .msl = true)
include hm

theorem roleBranch_masterTransmitting (hs : s.ctx.state = .masterTransmitting) :
    roleBranch p ev nackp0 s = mtx p ev (afterMasterSb ev s) := by
  cases hsb : evHas ev .sb <;> simp [roleBranch, masterRole, afterMasterSb, hm, hsb, hs]

theorem roleBranch_masterReceiving (hs : s.ctx.state = .masterReceiving) :
    roleBranch p ev nackp0 s = mrx p ev nackp0 (afterMasterSb ev s) := by
  cases hsb : evHas ev .sb <;> simp [roleBranch, masterRole, afterMasterSb, hm, hsb, hs]

/-- R159: in Ready or a slave role the master branch runs no handler. -/
theorem roleBranch_no_master (hs : s.ctx.state = .ready ∨ s.ctx.state.isSlave = true) :
    roleBranch p ev nackp0 s = .ok (afterMasterSb ev s) := by
  cases h : s.ctx.state with
  | ready | slaveTransmitting | slaveReceiving =>
    cases hsb : evHas ev .sb <;> simp [roleBranch, masterRole, afterMasterSb, hm, hsb, h]
  | masterTransmitting | masterReceiving | unused v => simp [h, ControllerState.isSlave] at hs

end Master

/-- SLAVE_MATCH, where the snapshot has ADDR (R152). -/
abbrev afterSlaveMatch (p : Config.Params) (ev : EvWord) (s : State) : Res State :=
  if evHas ev .addr = true then slaveMatch p ev s else .ok s

section Slave

variable {u : State} (hm : evHas ev .msl = false) (hu : afterSlaveMatch p ev s = .ok u)
include hm hu

theorem roleBranch_slaveTransmitting (hs : u.ctx.state = .slaveTransmitting) :
    roleBranch p ev nackp0 s = stx p ev u := by
  simp [roleBranch, hm, slaveRole, hu, hs]

theorem roleBranch_slaveReceiving (hs : u.ctx.state = .slaveReceiving) :
    roleBranch p ev nackp0 s = srx p ev u := by
  simp [roleBranch, hm, slaveRole, hu, hs]

/-- R174: in Ready or a master role the slave branch runs no handler. -/
theorem roleBranch_no_slave (hs : u.ctx.state = .ready ∨ u.ctx.state.isMaster = true) :
    roleBranch p ev nackp0 s = .ok u := by
  cases h : u.ctx.state with
  | ready | masterTransmitting | masterReceiving => simp [roleBranch, hm, slaveRole, hu, h]
  | slaveTransmitting | slaveReceiving | unused v => simp [h, ControllerState.isMaster] at hs

end Slave

end RoleBranch

/-- Settles O32: the branch MSL selects, by the STATE it finds or SLAVE_MATCH leaves. -/
theorem invocationOrder : Obligations.InvocationOrder := by
  intro p s
  refine ⟨invoke_eq p s, fun ev nackp0 => ⟨fun hm => ?_, fun hm u hu => ?_⟩⟩
  · exact ⟨roleBranch_masterTransmitting hm, roleBranch_masterReceiving hm, roleBranch_no_master hm⟩
  · exact ⟨roleBranch_slaveTransmitting hm hu, roleBranch_slaveReceiving hm hu, roleBranch_no_slave hm hu⟩

/-! ### The master's transmit (R154–R158) -/

/-- The end of a master transaction that was not acknowledged (R155, R164). -/
theorem addressNacked_clearFlag (s : State) :
    addressNacked (issueClearFlag .dispatcher (flagOperand .af) s) = { s with
      ctx := { s.ctx with err := .addressNacked, state := .ready }
      eng := (s.eng.clearFlag 10).genStop
      log := (s.acted [did .clearFlag 10, did .genStop 0]).log } := by
  rw [acted_pair_log]
  rfl

/-- Settles O33: AF first, then the data flags. -/
theorem masterTransmitHandler : Obligations.MasterTransmitHandler := by
  intro p ev s
  unfold mtx
  split
  · rw [addressNacked_clearFlag]
  · by_cases hd : evHas ev .addr = true ∨ evHas ev .btf = true ∨ evHas ev .txe = true
    · rw [if_pos hd, if_pos (by simpa [or_assoc] using hd)]
    · rw [if_neg hd, if_neg (by simpa [or_assoc] using hd)]

theorem txNext_sends {p : Config.Params} {s : State} {b : Byte} (hlt : s.ctx.mCur < s.ctx.mLen)
    (hcap : s.ctx.mCur.toNat < p.bufCap) (hb : s.cell .mbuf s.ctx.mCur.toNat = some b) :
    txNext p s = .ok { s with
      ctx := { s.ctx with mCur := s.ctx.mCur + 1 }
      eng := s.eng.sendByte b
      log := (s.acted [did .sendByte b]).log } := by
  rw [txNext, if_pos hlt, memRead_eq_ok.2 ⟨hcap, hb⟩]
  rfl

theorem txNext_terminates {p : Config.Params} {s : State} (hle : s.ctx.mLen ≤ s.ctx.mCur) :
    txNext p s = .ok (terminate s) :=
  if_neg (BitVec.not_lt.2 hle)

theorem terminate_stop {s : State} (h : s.ctx.sendStop = true) :
    terminate s = { s with
      ctx := { s.ctx with state := .ready }
      eng := s.eng.genStop
      log := (s.acted [did .genStop 0]).log } :=
  if_pos h

theorem terminate_restart {s : State} (h : ¬ s.ctx.sendStop = true) :
    terminate s = { s with
      ctx := { s.ctx with rsf := true, state := .ready }
      eng := (s.eng.setNotify 0).genStart
      log := (s.acted [did .setNotify 0, did .genStart 0]).log } := by
  rw [terminate, if_neg h, acted_pair_log]
  rfl

/-- With the three enables 0 nothing is deliverable, whatever the flags (R326). -/
theorem not_deliverable_of_disabled {e : Engine} (hevt : e.itEvtEn = false) (herr : e.itErrEn = false) :
    e.deliverable = false := by
  simp [Engine.deliverable, hevt, herr]

theorem genStart_ctrl2 (e : Engine) : e.genStart.ctrl2 = e.ctrl2 := by
  unfold Engine.genStart
  split <;> rfl

theorem not_deliverable_setNotify_zero_genStart (e : Engine) : (e.setNotify 0).genStart.deliverable = false := by
  obtain ⟨hevt, -, herr, -⟩ := setNotify_bits e 0
  refine not_deliverable_of_disabled ?_ ?_
  · rw [Engine.itEvtEn, genStart_ctrl2]; exact hevt
  · rw [Engine.itErrEn, genStart_ctrl2]; exact herr

/-- Settles O34: the next byte, or the end by SEND_STOP. -/
theorem transmitNextAndTerminate : Obligations.TransmitNextAndTerminate := by
  refine ⟨fun p s b hlt hcap hb => txNext_sends hlt hcap hb, fun p s hle => txNext_terminates hle, fun s => ?_⟩
  split
  · next h => exact terminate_stop h
  · next h =>
    refine ⟨terminate_restart h, ?_⟩
    rw [terminate_restart h]
    exact not_deliverable_setNotify_zero_genStart s.eng

/-! ### The final byte of a master receive (R162–R164) -/

/-- A state whose buffers are another's with one byte stored. -/
theorem oneCellWritten_of_buf {s t : State} {n : BufName} {i : Nat} {v : Byte}
    (h : t.buf = s.buf.put n ((s.buf.get n).write i v)) : OneCellWritten s t n i v := by
  intro k j
  rw [← cell_put_write s n k i j v, State.cell, h]
  rfl

section MasterReceive

variable {p : Config.Params} {ev : EvWord} {nackp0 : Bool} {s : State}

/-- The address test of MRX (R152, R160). -/
abbrev afterMrxAddr (ev : EvWord) (s : State) : State := if evHas ev .addr = true then mrxAddr s else s

theorem mrx_final (hr : evHas ev .rxne = true) :
    mrx p ev true s = andThen (mrxData p true (afterMrxAddr ev s)) fun u =>
      if evHas ev .af = true then mrxNack p ev true u else .ok u := by
  simp [mrx, hr, rxDue]

theorem mrx_without_data (hr : evHas ev .rxne = false) :
    mrx p ev nackp0 s =
      if evHas ev .af = true then mrxNack p ev nackp0 (afterMrxAddr ev s) else .ok (afterMrxAddr ev s) := by
  simp [mrx, hr]

theorem finalCapture_eq (h : s.ctx.mLen.toNat < p.bufCap) :
    finalCapture p s = .ok { s with
      ctx := { s.ctx with mFinal := true, nackp := false }
      eng := s.eng.recvByte
      buf := s.buf.put .mbuf ((s.buf.get .mbuf).write s.ctx.mLen.toNat s.eng.data)
      log := (s.acted [did .recvByte 0]).log } := by
  rw [finalCapture, memWrite_eq_ok.2 ⟨h, rfl⟩]
  rfl

theorem mrxData_final {u : State} (hu : finalCapture p s = .ok u) : mrxData p true s = .ok (terminate u) := by
  simp [mrxData, hu]

/-- The state after CLEAR_FLAG(AF). -/
abbrev afterAfCleared (s : State) : State :=
  { s with eng := s.eng.clearFlag 10, log := (s.acted [did .clearFlag 10]).log }

theorem mrxNack_after_final (hr : evHas ev .rxne = true) : mrxNack p ev true s = .ok (afterAfCleared s) := by
  simp only [mrxNack, hr, if_true]
  rfl

theorem mrxNack_captures {u : State} (hr : evHas ev .rxne = false) (hu : finalCapture p (afterAfCleared s) = .ok u) :
    mrxNack p ev true s = .ok (terminate u) := by
  change finalCapture p (issueClearFlag .dispatcher (flagOperand .af) s) = .ok u at hu
  simp only [mrxNack, hr, hu, if_true, andThen_ok, Bool.false_eq_true, if_false]

/-- Where no no-ack was pending, an unanswered address ends the transaction. -/
theorem mrxNack_not_pending :
    mrxNack p ev false s =
      if evHas ev .rxne = false ∧ evHas ev .addr = false ∧ s.ctx.mCur = 0 then
        .ok (addressNacked (issueClearFlag .dispatcher (flagOperand .af) s))
      else .ok (afterAfCleared s) := by
  by_cases h : evHas ev .rxne = false ∧ evHas ev .addr = false ∧ s.ctx.mCur = 0
  · obtain ⟨hr, ha, hc⟩ := h
    simp [mrxNack, hr, ha, hc]
  · rw [if_neg h, mrxNack, if_neg Bool.false_ne_true]
    exact if_neg fun hk => h (by simpa [and_assoc] using hk)

end MasterReceive

/-- Settles O36: MRX's order, the final byte, and the paths of acknowledge-failure. -/
theorem masterReceiveFinal : Obligations.MasterReceiveFinal := by
  refine ⟨fun p ev s => ⟨mrx_final, fun hr nackp0 => mrx_without_data hr⟩, fun p s h => ?_,
    fun p ev nackp0 s => ?_⟩
  · exact ⟨_, finalCapture_eq h, oneCellWritten_of_buf rfl, rfl, mrxData_final (finalCapture_eq h)⟩
  · cases nackp0 with
    | true => exact ⟨mrxNack_after_final, fun hr u hu => mrxNack_captures hr hu⟩
    | false =>
      dsimp only
      rw [if_neg Bool.false_ne_true, mrxNack_not_pending]
      split
      · rw [addressNacked_clearFlag]
      · rfl

/-! ### The slave's address match (R165–R167, R212, R213) -/

section SlaveMatch

variable {p : Config.Params} {ev : EvWord} {s : State}

theorem slaveMatch_receive (ht : evHas ev .tra = false) : slaveMatch p ev s = .ok (slaveMatchRx s) := by
  simp only [slaveMatch, ht, Bool.false_eq_true, if_false]

/-- The state a slave-transmit match leaves before the client is asked (R166). -/
abbrev matchedTransmit (s : State) : State :=
  { s with ctx := { s.ctx with state := .slaveTransmitting, txCur := 0, txLen := 0 } }

theorem slaveMatch_transmit_unregistered (ht : evHas ev .tra = true) (hcb : s.ctx.cb = 0) :
    slaveMatch p ev s = .ok (matchedTransmit s) := by
  rw [slaveMatch, if_pos ht]
  exact if_pos hcb

theorem slaveMatch_transmit_registered (ht : evHas ev .tra = true) (hcb : s.ctx.cb ≠ 0) :
    slaveMatch p ev s = callOnTransmit p (matchedTransmit s) := by
  rw [slaveMatch, if_pos ht]
  exact if_neg hcb

theorem callOnTransmit_breaksContract (h : p.client.tx s.ctx.cb s.client = .breaksContract) :
    callOnTransmit p s = .error (.refuse .callbackContract) := by
  simp only [callOnTransmit, h]

section Answer

variable {n : Nat} {bytes : List Byte} {cs : Nat} (h : p.client.tx s.ctx.cb s.client = .answers n bytes cs)
include h

theorem callOnTransmit_shape (hlen : bytes.length ≠ n) :
    callOnTransmit p s = .error (.refuse .callbackShape) := by
  simp only [callOnTransmit, h, if_neg hlen]

theorem callOnTransmit_overflow (hlen : bytes.length = n) (hn : p.bufCap < n) :
    callOnTransmit p s = .error (.refuse .callbackOverflow) := by
  simp only [callOnTransmit, h, if_pos hlen, if_neg (Nat.not_le.2 hn)]

/-- An answer that fits is stored from TXBUF[0] on, and nothing else is stored (R166). -/
theorem callOnTransmit_stores (hlen : bytes.length = n) (hn : n ≤ p.bufCap) :
    ∃ t, callOnTransmit p s = .ok t
      ∧ t = { s with
          ctx := { s.ctx with txLen := t.ctx.txLen }
          buf := t.buf
          log := { s.log with cb := s.log.cb ++ [.tx n bytes] }
          client := cs }
      ∧ t.ctx.txLen.toNat = n
      ∧ (∀ k, t.cell .txbuf k = if k < n then bytes[k]? else s.cell .txbuf k)
      ∧ ∀ b k, b ≠ .txbuf → t.cell b k = s.cell b k := by
  obtain ⟨u, hu⟩ := memWriteSeq_fits (p := p) (n := .txbuf) (vs := bytes) (i := 0)
    (s := State.logCb { s with client := cs } (.tx n bytes)) (by omega)
  obtain ⟨-, hframe, -, hcell⟩ := memWriteSeq_eq_ok hu
  have hcap : p.bufCap < 2 ^ 16 := by
    have := p.bufCapPred.isLt
    unfold Config.Params.bufCap
    omega
  refine ⟨{ u with ctx := { u.ctx with txLen := BitVec.ofNat 16 n } }, ?_, ?_, ?_, fun k => ?_, fun b k hb => ?_⟩
  · simp only [callOnTransmit, h, if_pos hlen, if_pos hn, hu, andThen_ok]
  · rw [hframe]
    rfl
  · exact (BitVec.toNat_ofNat n 16).trans (Nat.mod_eq_of_lt (by omega))
  · have hk := hcell .txbuf k
    simp only [true_and, Nat.zero_le, Nat.zero_add, hlen, Nat.sub_zero] at hk
    exact hk
  · exact (hcell b k).trans (if_neg fun hk => hb hk.1)

end Answer

/-- The role SLAVE_MATCH selects has its handler run in the same invocation (R165, R174). -/
theorem roleBranch_matched {nackp0 : Bool} {u : State} (hm : evHas ev .msl = false) (ha : evHas ev .addr = true)
    (hu : slaveMatch p ev s = .ok u) :
    roleBranch p ev nackp0 s = if evHas ev .tra = true then stx p ev u else srx p ev u := by
  have hstate := slaveMatch_state hu
  have hmatch : afterSlaveMatch p ev s = .ok u := (if_pos ha).trans hu
  split at hstate
  · next ht => rw [if_pos ht]; exact roleBranch_slaveTransmitting hm hmatch hstate
  · next ht => rw [if_neg ht]; exact roleBranch_slaveReceiving hm hmatch hstate

end SlaveMatch

/-- Settles O37: the match by TRA, the client's answer by its shape and size, and the handler of the new role. -/
theorem slaveAddressMatch : Obligations.SlaveAddressMatch := by
  intro p ev s
  refine ⟨slaveMatch_receive, slaveMatch_transmit_unregistered, fun ht hcb n bytes cs h hlen => ?_,
    fun ht hcb n bytes cs h hlen => ?_, fun ht hcb h => ?_, fun nackp0 u hm ha hu => roleBranch_matched hm ha hu⟩
  · rw [slaveMatch_transmit_registered ht hcb]
    split
    · next hn => exact callOnTransmit_overflow h hlen hn
    · next hn => exact callOnTransmit_stores (s := matchedTransmit s) h hlen (Nat.not_lt.1 hn)
  · rw [slaveMatch_transmit_registered ht hcb]
    exact ⟨.callbackShape, callOnTransmit_shape h hlen, .inl rfl⟩
  · rw [slaveMatch_transmit_registered ht hcb]
    exact callOnTransmit_breaksContract h

/-! ### The slave's transmit (R168, R169) -/

theorem slaveTxByte_sends {p : Config.Params} {s : State} {b : Byte} (hlt : s.ctx.txCur < s.ctx.txLen)
    (hcap : s.ctx.txCur.toNat < p.bufCap) (hb : s.cell .txbuf s.ctx.txCur.toNat = some b) :
    slaveTxByte p s = .ok { issueSendByte .dispatcher b s with ctx := { s.ctx with txCur := s.ctx.txCur + 1 } } := by
  rw [slaveTxByte, if_pos hlt, memRead_eq_ok.2 ⟨hcap, hb⟩]
  rfl

theorem slaveTxByte_fills {p : Config.Params} {s : State} (hge : ¬ s.ctx.txCur < s.ctx.txLen) :
    slaveTxByte p s = .ok (issueSendByte .dispatcher 0xFF#8 s) :=
  if_neg hge

section SlaveTransmit

variable {p : Config.Params} {ev : EvWord} {s : State}

/-- R168: the NACK of the remote master ends the transmit. -/
theorem stx_ends (haf : evHas ev .af = true) :
    stx p ev s = .ok { s with
      ctx := { s.ctx with state := .ready }
      eng := (s.eng.setAck true).clearFlag 10
      log := (s.acted [did .setAck 1, did .clearFlag 10]).log } := by
  rw [stx, if_pos haf, acted_pair_log]
  rfl

theorem stx_of_not_af (haf : ¬ evHas ev .af = true) :
    stx p ev s =
      if evHas ev .btf = true ∨ evHas ev .txe = true then slaveTxByte p (issueSetAck .dispatcher true s)
      else .ok (issueSetAck .dispatcher true s) := by
  simp only [stx, if_neg haf, Bool.or_eq_true]

end SlaveTransmit

/-- Settles O38: the end by AF, else the next byte or the filler. -/
theorem slaveTransmitHandler : Obligations.SlaveTransmitHandler := by
  intro p ev s
  split
  · next haf => exact stx_ends haf
  · next haf =>
    rw [stx_of_not_af haf]
    split
    · split
      · next hlt =>
        intro b hcap hb
        rw [acted_pair_log]
        exact slaveTxByte_sends (s := issueSetAck .dispatcher true s) hlt hcap hb
      · next hge =>
        rw [acted_pair_log]
        exact slaveTxByte_fills (s := issueSetAck .dispatcher true s) hge
    · rfl

/-! ### The slave's receive (R170–R173) -/

theorem srxData_stores {p : Config.Params} {s : State} (h : s.ctx.rxCur.toNat < p.bufCap) :
    srxData p s = .ok { s with
      ctx := { s.ctx with rxCur := s.ctx.rxCur + 1 }
      eng := s.eng.recvByte.setAck true
      buf := s.buf.put .rxbuf ((s.buf.get .rxbuf).write s.ctx.rxCur.toNat s.eng.data)
      log := (s.acted [did .recvByte 0, did .setAck 1]).log } := by
  rw [srxData, if_pos h, memWrite_eq_ok.2 ⟨h, rfl⟩, acted_pair_log]
  rfl

theorem srxData_discards {p : Config.Params} {s : State} (h : ¬ s.ctx.rxCur.toNat < p.bufCap) :
    srxData p s = .ok { s with
      eng := s.eng.recvByte.setAck false
      log := (s.acted [did .recvByte 0, did .setAck 0]).log } := by
  rw [srxData, if_neg h, acted_pair_log]
  rfl

/-- Settles O39: the byte is read in either case, and stored where there is room. -/
theorem slaveReceiveStore : Obligations.SlaveReceiveStore := by
  intro p s
  split
  · next h => exact ⟨_, srxData_stores h, oneCellWritten_of_buf rfl, rfl⟩
  · next h => exact srxData_discards h

/-- Reading a run of cells answers the bytes they hold. -/
theorem memReadSeq_of_cells {p : Config.Params} {n : BufName} {s : State} {bytes : List Byte}
    (hfit : bytes.length ≤ p.bufCap) (hcell : ∀ k, k < bytes.length → s.cell n k = bytes[k]?) :
    memReadSeq p n 0 bytes.length s = .ok bytes := by
  obtain ⟨bs, hbs⟩ := memReadSeq_written (p := p) (n := n) (k := bytes.length) (i := 0) (s := s) (by omega)
    fun j _ hj => by rw [hcell j (by omega)]; simp; omega
  obtain ⟨-, hlen, hread⟩ := memReadSeq_eq_ok hbs
  have heq : bs = bytes := by
    refine List.ext_getElem? fun k => ?_
    by_cases hk : k < bytes.length
    · rw [← hread k hk, Nat.zero_add, hcell k hk]
    · rw [List.getElem?_eq_none (by omega), List.getElem?_eq_none (by omega)]
  rw [hbs, heq]

section SlaveStop

variable {p : Config.Params} {s : State} {bytes : List Byte}
  (hbytes : memReadSeq p .rxbuf 0 s.ctx.rxCur.toNat s = .ok bytes)
include hbytes

/-- R171, R172: what the end of a slave receive does, by what the client answers. -/
theorem srxStop_eq :
    srxStop p s = andThen (if s.ctx.cb = 0 then .ok s else callOnReceive p bytes s) fun t =>
      .ok { t with
        ctx := { t.ctx with rxCur := 0, state := .ready }
        log := { t.log with cb := t.log.cb ++ [.rx s.ctx.rxCur.toNat bytes] } } := by
  rw [srxStop, onReceive, hbytes, andThen_ok]
  cases (if s.ctx.cb = 0 then .ok s else callOnReceive p bytes s : Res State) <;> rfl

theorem srxStop_unregistered (hcb : s.ctx.cb = 0) :
    srxStop p s = .ok { s with
      ctx := { s.ctx with rxCur := 0, state := .ready }
      log := { s.log with cb := s.log.cb ++ [.rx s.ctx.rxCur.toNat bytes] } } := by
  rw [srxStop_eq hbytes, if_pos hcb, andThen_ok]

theorem srxStop_takes (hcb : s.ctx.cb ≠ 0) {cs : Nat} (h : p.client.rx s.ctx.cb s.client bytes = .takes cs) :
    srxStop p s = .ok { s with
      ctx := { s.ctx with rxCur := 0, state := .ready }
      log := { s.log with cb := s.log.cb ++ [.rx s.ctx.rxCur.toNat bytes] }
      client := cs } := by
  rw [srxStop_eq hbytes, if_neg hcb]
  simp only [callOnReceive, h, andThen_ok]

theorem srxStop_breaksContract (hcb : s.ctx.cb ≠ 0) (h : p.client.rx s.ctx.cb s.client bytes = .breaksContract) :
    srxStop p s = .error (.refuse .callbackContract) := by
  rw [srxStop_eq hbytes, if_neg hcb]
  simp only [callOnReceive, h, andThen_error]

end SlaveStop

theorem srxNack_eq (s : State) :
    srxNack s = { s with
      eng := (s.eng.clearFlag 10).setAck true
      log := (s.acted [did .clearFlag 10, did .setAck 1]).log } := by
  rw [acted_pair_log]
  rfl

/-- Settles O40: the bytes received and what the client answers, then SRX's three parts in their order. -/
theorem slaveReceiveEnd : Obligations.SlaveReceiveEnd := by
  refine ⟨fun p s bytes hfit hlen hcell => ?_, fun p ev s s1 s2 h1 h2 => ?_⟩
  · have hbytes : memReadSeq p .rxbuf 0 s.ctx.rxCur.toNat s = .ok bytes :=
      hlen ▸ memReadSeq_of_cells (hlen ▸ hfit) hcell
    exact ⟨srxStop_unregistered hbytes, fun hcb cs h => srxStop_takes hbytes hcb h,
      fun hcb h => srxStop_breaksContract hbytes hcb h⟩
  · rw [srx, h1, andThen_ok, h2, andThen_ok, srxNack_eq]

/-! ### The cross-cutting errors (R175) -/

/-- Clear each flag listed that the snapshot has. -/
def clearSeen (ev : EvWord) : List Flag → Engine → Engine
  | [], e => e
  | f :: fs, e => clearSeen ev fs (if evHas ev f = true then e.clearFlag (flagOperand f) else e)

theorem clearFlag_eq_setFlag (e : Engine) (f : Flag) : e.clearFlag (flagOperand f) = e.setFlag f false := by
  cases f <;> rfl

theorem clearSeen_flag (ev : EvWord) (fs : List Flag) (e : Engine) (g : Flag) :
    (clearSeen ev fs e).flag g = (e.flag g && !(fs.contains g && evHas ev g)) := by
  induction fs generalizing e with
  | nil => simp [clearSeen]
  | cons f fs ih =>
    rw [clearSeen, ih]
    cases hf : evHas ev f <;> by_cases hg : g = f <;> simp [clearFlag_eq_setFlag, hg, hf]

theorem clearSeen_eq (ev : EvWord) (fs : List Flag) (e : Engine) :
    clearSeen ev fs e = { e with ev := (clearSeen ev fs e).ev } := by
  induction fs generalizing e with
  | nil => rfl
  | cons f fs ih =>
    rw [clearSeen, ih]
    split <;> rfl

theorem clearSeen_evKept (ev : EvWord) {fs gs : List Flag} {e d : Engine} (h : EvKeptBut gs e d)
    (hfs : ∀ f ∈ fs, f ∈ gs) : EvKeptBut gs e (clearSeen ev fs d) := by
  induction fs generalizing d with
  | nil => exact h
  | cons f fs ih =>
    rw [clearSeen]
    refine ih ?_ fun g hg => hfs g (List.mem_cons_of_mem _ hg)
    split
    · rw [clearFlag_eq_setFlag]
      exact h.setFlag (hfs f List.mem_cons_self) false
    · exact h

section Cross

variable (p : Config.Params) (ev : EvWord) (s : State)

theorem crossLatch_eq (f : Flag) (c : ErrorCode) :
    crossLatch ev f c s = { s with
      ctx := { s.ctx with err := if evHas ev f = true then c else s.ctx.err }
      eng := clearSeen ev [f] s.eng
      log := (s.acted (if evHas ev f = true then [did .clearFlag (flagOperand f)] else [])).log } := by
  cases hf : evHas ev f with
  | false => simp only [crossLatch, clearSeen, hf, Bool.false_eq_true, if_false, acted_nil]
  | true => simp only [crossLatch, clearSeen, hf, if_true]; rfl

theorem errEnds_eq : errEnds p s = { s with
    ctx := { s.ctx with state := if p.errEndsTxn = true then .ready else s.ctx.state } } := by
  unfold errEnds
  split <;> rfl

theorem crossArlo_eq :
    crossArlo p ev s = { s with
      ctx := { s.ctx with
        err := if evHas ev .arlo = true then .arbitrationLost else s.ctx.err
        state := if p.errEndsTxn = true ∧ evHas ev .arlo = true then .ready else s.ctx.state }
      eng := clearSeen ev [.arlo] s.eng
      log := (s.acted (if evHas ev .arlo = true then [did .clearFlag 9] else [])).log } := by
  cases hf : evHas ev .arlo with
  | false => simp only [crossArlo, clearSeen, hf, Bool.false_eq_true, and_false, if_false, acted_nil]
  | true => simp only [crossArlo, clearSeen, errEnds_eq, hf, and_true, if_true]; rfl

theorem crossBerr_eq :
    crossBerr p ev s = { s with
      ctx := { s.ctx with
        err := if evHas ev .berr = true then .busError else s.ctx.err
        state := if p.errEndsTxn = true ∧ evHas ev .berr = true then .ready else s.ctx.state }
      eng := clearSeen ev [.berr] (if evHas ev .berr = true then s.eng.genStop else s.eng)
      log := (s.acted (if evHas ev .berr = true then [did .genStop 0, did .clearFlag 8] else [])).log } := by
  cases hf : evHas ev .berr with
  | false => simp only [crossBerr, clearSeen, hf, Bool.false_eq_true, and_false, if_false, acted_nil]
  | true => simp only [crossBerr, clearSeen, errEnds_eq, hf, and_true, if_true, acted_pair_log]; rfl

/-- The six flags of CROSS, in its order (R175). -/
abbrev crossFlags : List Flag := [.berr, .arlo, .ovr, .pecerr, .timeout, .smbalert]

/-- CROSS asks for the STOP where the snapshot has BERR, before it clears any flag. -/
abbrev afterBerrStop (ev : EvWord) (e : Engine) : Engine := if evHas ev .berr = true then e.genStop else e

theorem cross_eng : (cross p ev s).eng = clearSeen ev crossFlags (afterBerrStop ev s.eng) := by
  simp only [cross, crossLatch_eq, crossArlo_eq, crossBerr_eq, clearSeen]

theorem cross_eq :
    cross p ev s = { s with
      ctx := { s.ctx with
        err :=
          if evHas ev .smbalert = true then .alertAsserted
          else if evHas ev .timeout = true then .timeout
          else if evHas ev .pecerr = true then .protocolCheckFailed
          else if evHas ev .ovr = true then .overrun
          else if evHas ev .arlo = true then .arbitrationLost
          else if evHas ev .berr = true then .busError
          else s.ctx.err
        state :=
          if p.errEndsTxn = true ∧ (evHas ev .berr = true ∨ evHas ev .arlo = true) then .ready else s.ctx.state }
      eng := (cross p ev s).eng
      log := (s.acted
        ((if evHas ev .berr = true then [did .genStop 0, did .clearFlag 8] else [])
          ++ (if evHas ev .arlo = true then [did .clearFlag 9] else [])
          ++ (if evHas ev .ovr = true then [did .clearFlag 11] else [])
          ++ (if evHas ev .pecerr = true then [did .clearFlag 12] else [])
          ++ (if evHas ev .timeout = true then [did .clearFlag 14] else [])
          ++ (if evHas ev .smbalert = true then [did .clearFlag 15] else []))).log } := by
  have hstate : (if p.errEndsTxn = true ∧ evHas ev .arlo = true then ControllerState.ready
      else if p.errEndsTxn = true ∧ evHas ev .berr = true then .ready else s.ctx.state)
      = if p.errEndsTxn = true ∧ (evHas ev .berr = true ∨ evHas ev .arlo = true) then .ready else s.ctx.state := by
    rw [← ite_or]
    refine if_congr ?_ rfl rfl
    tauto
  simp only [cross, crossLatch_eq, crossArlo_eq, crossBerr_eq, State.acted, List.append_assoc, hstate]
  rfl

end Cross

theorem afterBerrStop_flag {ev : EvWord} {e : Engine} {f : Flag} (h : f ∈ crossFlags) :
    (afterBerrStop ev e).flag f = e.flag f := by
  unfold afterBerrStop
  split
  · exact genStop_flag (by rintro rfl; exact absurd h (by decide)) (by rintro rfl; exact absurd h (by decide))
      (by rintro rfl; exact absurd h (by decide))
  · rfl

/-- Where this engine is the master, BERR leaves a STOP requested (R175, R234). -/
theorem cross_stopReq {p : Config.Params} {ev : EvWord} {s : State} (hb : evHas ev .berr = true)
    (hpe : s.eng.pe = true) (hm : s.eng.flag .msl = true) : (cross p ev s).eng.stopReq = true := by
  have hstop : s.eng.genStop = s.eng.setStopReq true := by rw [Engine.genStop, if_pos hpe, if_pos hm]
  rw [cross_eng, clearSeen_eq, afterBerrStop, if_pos hb, hstop]
  exact Engine.stopReq_setStopReq s.eng true

/-- Settles O41: the six lines of CROSS one after the other, the engine's part as one list of flags. -/
theorem crossCuttingErrors : Obligations.CrossCuttingErrors := by
  intro p ev s
  refine ⟨cross p ev s, rfl, cross_eq p ev s, fun f hf => ?_, cross_stopReq, ?_, ?_⟩
  · rw [cross_eng, clearSeen_flag, afterBerrStop_flag hf, List.contains_iff_mem.2 hf, Bool.true_and]
  · rw [cross_eng]
    exact clearSeen_eq ev crossFlags _
  · rw [cross_eng]
    exact clearSeen_evKept ev (.refl _ _) fun _ hf => hf

end Sys2Proof.Dispatcher
end

section
/-! Proofs about the Master Transaction API (41_master_api): what each micro-step of a host command answers, and the
statements of its family from these. -/

namespace Sys2Proof.HostApi

open Sys2Proof.Machine Sys2Proof.Encoding

/-! ### The rows of the host commands (30_encoding R115) -/

theorem row_eq_of_mnemonic_eq : ∀ r ∈ opcodeTable, ∀ q ∈ opcodeTable, r.mnemonic = q.mnemonic → r = q := by
  decide

/-- A word that decodes to a row's command is one the row accepts; so a row is its words once each of them decodes. -/
theorem rowOf_of_decode {r : OpRow} (hr : r ∈ opcodeTable)
    (h : ∀ w, w &&& r.mask = r.pattern → ∃ i, decode w = .ok i ∧ i.mnemonic = r.mnemonic) :
    RowOf r.mnemonic r.mask r.pattern := by
  refine fun w => ⟨?_, h w⟩
  rintro ⟨i, hd, hi⟩
  obtain ⟨q, hq, hm, hw⟩ := exists_row_of_encode i
  obtain rfl := row_eq_of_mnemonic_eq q hq r hr (hm.trans hi)
  rwa [← (wf_and_encode_of_decode hd).2]

/-- A row with no operand holds one word. -/
theorem rowOf_of_single_word {m : String} {pattern : CmdWord} {i : Instr} (hd : decode pattern = .ok i)
    (hi : i.mnemonic = m) (hr : ⟨m, pattern, 0xFFFFFFFF⟩ ∈ opcodeTable) : RowOf m 0xFFFFFFFF pattern := by
  refine rowOf_of_decode hr fun w hw => ⟨i, ?_, hi⟩
  obtain rfl : w = pattern := BitVec.and_allOnes.symm.trans hw
  exact hd

theorem fields_of_and_init_mask {w : CmdWord} (h : w &&& 0xFF01FFFF = 0x11000000) :
    classOf w = 0x1#4 ∧ opOf w = 0x1#4 ∧ stopOf w = false ∧ waitOf w = false ∧ lenOf w = 0#15 := by
  have hmask : classOf 0xFF01FFFF = BitVec.allOnes 4 ∧ opOf 0xFF01FFFF = BitVec.allOnes 4
      ∧ stopOf 0xFF01FFFF = true ∧ waitOf 0xFF01FFFF = true ∧ lenOf 0xFF01FFFF = BitVec.allOnes 15 := by decide
  have hpattern : classOf 0x11000000 = 0x1#4 ∧ opOf 0x11000000 = 0x1#4 ∧ stopOf 0x11000000 = false
      ∧ waitOf 0x11000000 = false ∧ lenOf 0x11000000 = 0#15 := by decide
  obtain ⟨hc, ho, -, hs, hw, hl⟩ := (and_eq_iffH _ _ _).1 h
  simp only [hmask, hpattern, BitVec.and_allOnes, Bool.and_true] at hc ho hs hw hl
  exact ⟨hc, ho, hs, hw, hl⟩

theorem rowOf_init : RowOf "INIT" 0xFF01FFFF 0x11000000 := by
  refine rowOf_of_decode (r := ⟨"INIT", 0x11000000, 0xFF01FFFF⟩) (by decide) fun w h => ⟨.init (addrOf w), ?_, rfl⟩
  obtain ⟨hc, ho, hfields⟩ := fields_of_and_init_mask h
  rw [decode_of_classOf_one hc, decodeH_init ho, whenZero_eq_ok]
  exact ⟨fieldsInit_iff.2 hfields, rfl⟩

theorem init_operand {w : CmdWord} {a7 : Addr7} (h : decode w = .ok (.init a7)) : a7 = addrOf w := by
  rw [← (wf_and_encode_of_decode h).2]
  exact (addrOf_wordH _ _ _ _ _).symm

/-! ### Returning and going on -/

theorem returnedOnly_returnWith (r : HostResult) (s : State) : ReturnedOnly s (returnWith r s) r := rfl

/-- A micro-step that returns `r` has the one effect a return has. -/
theorem exists_returnedOnly {o : Host.Outcome State Fault Refusal} {s : State} {r : HostResult}
    (h : o = .next (returnWith r s)) : ∃ t, o = .next t ∧ ReturnedOnly s t r :=
  ⟨_, h, returnedOnly_returnWith r s⟩

/-! ### INIT (R190) -/

/-- What INIT's four primitives do to the engine, in their order. -/
def initEngine (a7 : Addr7) (e : Engine) : Engine := (((e.setEnable true).setOwnAddr a7).setAck true).setNotify 7#3

theorem exec_init_of_inited {s : State} (h : s.ctx.inited = true) (a7 : Addr7) :
    exec (.init a7) s = .refused .alreadyInitialized := by
  simp [exec, execInit, initStep, h]

theorem exec_init_of_not_inited {s : State} (h : ¬ s.ctx.inited = true) (a7 : Addr7) :
    exec (.init a7) s = .next (returnWith .ok { s with
      ctx := { s.ctx with inited := true }
      eng := initEngine a7 s.eng
      log := { s.log with act := s.log.act ++
        [⟨.host, .setEnable, 1⟩, ⟨.host, .setOwnAddr, a7.zeroExtend 8⟩, ⟨.host, .setAck, 1⟩,
          ⟨.host, .setNotify, 7⟩] } }) := by
  simp only [exec, execInit, initStep, if_neg h, toOutcome_ok, issueSetNotify_eq, issueSetAck_eq, issueSetOwnAddr_eq,
    issueSetEnable_eq, issue, List.append_assoc]
  rfl

theorem setEnable_of_pe {e : Engine} (h : e.pe = true) : e.setEnable true = e := by
  simp [Engine.setEnable, h]

theorem setEnable_of_not_pe {e : Engine} (h : e.pe = false) :
    e.setEnable true = { (e.setPe true).setFlag .busy false with phase := .idle } := by
  simp [Engine.setEnable, h]

/-- SET_ENABLE(1) writes CTRL1, EV and PHASE alone. -/
theorem setEnable_true_eq (e : Engine) :
    e.setEnable true = { e with
      ctrl1 := (e.setEnable true).ctrl1, ev := (e.setEnable true).ev
      phase := if e.pe then e.phase else .idle } := by
  cases h : e.pe with
  | true => rw [setEnable_of_pe h]; rfl
  | false => rw [setEnable_of_not_pe h]; rfl

theorem setEnable_true_pe (e : Engine) : (e.setEnable true).pe = true := by
  cases h : e.pe with
  | true => rw [setEnable_of_pe h, h]
  | false => rw [setEnable_of_not_pe h]; exact Engine.pe_setPe e true

theorem setEnable_true_ctrl1Kept {bits : List Nat} (hpe : 0 ∈ bits) (e : Engine) :
    Ctrl1KeptBut bits e (e.setEnable true) := by
  cases h : e.pe with
  | true => rw [setEnable_of_pe h]; exact .refl _ _
  | false => rw [setEnable_of_not_pe h]; exact (Ctrl1KeptBut.refl _ e).putBit (b := true) hpe (by decide) rfl

section InitEngine

variable (a7 : Addr7) {e : Engine}

theorem initEngine_eq (e : Engine) :
    initEngine a7 e = { e with
      ctrl1 := (initEngine a7 e).ctrl1, ctrl2 := (initEngine a7 e).ctrl2, ev := (initEngine a7 e).ev
      oaddr := a7.zeroExtend 16, phase := if e.pe then e.phase else .idle } := by
  unfold initEngine
  rw [setEnable_true_eq]
  rfl

theorem initEngine_pe (e : Engine) : (initEngine a7 e).pe = true :=
  (Engine.pe_setAckOn ((e.setEnable true).setOwnAddr a7) true).trans (setEnable_true_pe e)

theorem initEngine_ackOn (e : Engine) : (initEngine a7 e).ackOn = true :=
  Engine.ackOn_setAckOn ((e.setEnable true).setOwnAddr a7) true

theorem initEngine_ctrl1Kept (e : Engine) : Ctrl1KeptBut [0, 10] e (initEngine a7 e) :=
  (setEnable_true_ctrl1Kept (by simp) e).putBit (i := 10) (b := true) (by simp) (by decide) rfl

theorem initEngine_enables (e : Engine) :
    (initEngine a7 e).itEvtEn = true ∧ (initEngine a7 e).itBufEn = true ∧ (initEngine a7 e).itErrEn = true
      ∧ Ctrl2KeptButEnables e (initEngine a7 e) := by
  have hctrl2 : (e.setEnable true).ctrl2 = e.ctrl2 := by rw [setEnable_true_eq]
  obtain ⟨hevt, hbuf, herr, hkept⟩ := setNotify_bits (((e.setEnable true).setOwnAddr a7).setAck true) 7#3
  exact ⟨hevt, hbuf, herr, fun k hk => (hkept k hk).trans (congrArg (BitVec.getLsbD · k) hctrl2)⟩

/-- SET_ENABLE alone of the four touches EV. -/
theorem initEngine_ev (e : Engine) : (initEngine a7 e).ev = (e.setEnable true).ev := rfl

theorem initEngine_ev_of_pe (h : e.pe = true) : (initEngine a7 e).ev = e.ev := by
  rw [initEngine_ev, setEnable_of_pe h]

/-- Only BUSY of EV is cleared as the engine is enabled. -/
theorem initEngine_ev_of_not_pe (h : e.pe = false) :
    (initEngine a7 e).flag .busy = false ∧ EvKeptBut [.busy] e (initEngine a7 e) := by
  have hev : (initEngine a7 e).ev = (e.setFlag .busy false).ev := by
    rw [initEngine_ev, setEnable_of_not_pe h]
    rfl
  refine ⟨?_, ((EvKeptBut.refl [.busy] e).setFlag List.mem_cons_self false).of_ev hev⟩
  rw [Engine.flag_of_ev hev, Engine.flag_setFlag, if_pos rfl]

end InitEngine

/-- Settles O17: the row's words, the refusal by INITED, and the engine after INIT's four primitives. -/
theorem initEffect : Obligations.InitEffect := by
  refine ⟨rowOf_init, fun w a7 h => init_operand h, fun a7 s => ?_⟩
  split
  · next h => exact exec_init_of_inited h a7
  · next h =>
    obtain ⟨hevt, hbuf, herr, hctrl2⟩ := initEngine_enables a7 s.eng
    exact ⟨_, exec_init_of_not_inited h a7, rfl, initEngine_eq a7 s.eng, initEngine_pe a7 s.eng,
      initEngine_ackOn a7 s.eng, initEngine_ctrl1Kept a7 s.eng, hevt, hbuf, herr, hctrl2, initEngine_ev_of_pe a7,
      initEngine_ev_of_not_pe a7⟩

/-! ### The micro-steps of WRITE and READ, each by its index (R191, R200) -/

section MicroSteps

variable {s : State} (a7 : Addr7) (stop wait : Bool) (len : BitVec 15)

theorem exec_write_m1 (h : s.host.step = .m1) :
    exec (.write a7 stop wait len) s = toOutcome (whenAllowed (s.host.operands.data.length == (lengthOf len).toNat) s
      (.ok (checkCapacity Config.params (lengthOf len) s))) := by
  simp only [exec, execWrite, writeStep, h]

theorem exec_write_m2 (h : s.host.step = .m2) :
    exec (.write a7 stop wait len) s = toOutcome (checkState (lengthOf len) .ok s) := by
  simp only [exec, execWrite, writeStep, h]

theorem exec_write_m3 (h : s.host.step = .m3) :
    exec (.write a7 stop wait len) s = toOutcome (armWrite Config.params a7 (lengthOf len) stop s) := by
  simp only [exec, execWrite, writeStep, h]

theorem exec_write_m4 (h : s.host.step = .m4) :
    exec (.write a7 stop wait len) s = .next (enterRole .masterTransmitting s) := by
  simp only [exec, execWrite, writeStep, h, toOutcome_ok]

theorem exec_write_m5 (h : s.host.step = .m5) : exec (.write a7 stop wait len) s = .next (trigger s) := by
  simp only [exec, execWrite, writeStep, h, toOutcome_ok]

theorem exec_read_m1 (h : s.host.step = .m1) :
    exec (.read a7 stop len) s = toOutcome (whenAllowed
      (decide ((lengthOf len).toNat ≤ s.host.operands.out.length)) s
      (.ok (checkCapacity Config.params (lengthOf len) s))) := by
  simp only [exec, execRead, readStep, h]

theorem exec_read_m2 (h : s.host.step = .m2) :
    exec (.read a7 stop len) s = toOutcome (checkState (lengthOf len) (.okCount 0) s) := by
  simp only [exec, execRead, readStep, h]

theorem exec_read_m3 (h : s.host.step = .m3) :
    exec (.read a7 stop len) s = .next (armRead a7 (lengthOf len) stop s) := by
  simp only [exec, execRead, readStep, h, toOutcome_ok]

theorem exec_read_m4 (h : s.host.step = .m4) :
    exec (.read a7 stop len) s = .next (enterRole .masterReceiving s) := by
  simp only [exec, execRead, readStep, h, toOutcome_ok]

theorem exec_read_m5 (h : s.host.step = .m5) : exec (.read a7 stop len) s = .next (triggerRead s) := by
  simp only [exec, execRead, readStep, h, toOutcome_ok]

theorem exec_read_m6 (h : s.host.step = .m6) :
    exec (.read a7 stop len) s = toOutcome (poll Config.params s) := by
  simp only [exec, execRead, readStep, h]

end MicroSteps

/-! ### The precondition checks, shared by WRITE and READ (R193, R194, R201) -/

theorem whenAllowed_of_allowed {shapeOk : Bool} {s : State} (hi : s.ctx.inited = true) (hs : shapeOk = true)
    (k : Res State) : whenAllowed shapeOk s k = k := by
  rw [whenAllowed, if_pos hi, if_pos hs]

theorem checkCapacity_outcome (len : BitVec 15) (s : State) :
    let o := toOutcome (.ok (checkCapacity Config.params (lengthOf len) s))
    if cap < len.toNat then ∃ t, o = .next t ∧ ReturnedOnly s t (.err .outOfCapacity)
    else o = .next { s with host := { s.host with step := .m2 } } := by
  rw [checkCapacity, lengthOf_toNat]
  split
  · exact exists_returnedOnly rfl
  · rfl

theorem checkState_outcome (len : BitVec 15) (zero : HostResult) {s : State} (hs : ∀ v, s.ctx.state ≠ .unused v) :
    let o := toOutcome (checkState (lengthOf len) zero s)
    if s.ctx.state ≠ .ready then ∃ t, o = .next t ∧ ReturnedOnly s t (.err .wrongState)
    else if len.toNat = 0 then ∃ t, o = .next t ∧ ReturnedOnly s t zero
    else o = .next { s with host := { s.host with step := .m3 } } := by
  rw [checkState, withState_named _ hs, ite_not]
  simp only [lengthOf_eq_zero]
  split
  · split
    · exact exists_returnedOnly rfl
    · rfl
  · exact exists_returnedOnly rfl

/-- Settles O19: the checks of W1 and W2, once the command is admitted. -/
theorem writePreconditions : Obligations.WritePreconditions := by
  intro a7 stop wait len s
  refine ⟨fun h hi hlen => ?_, fun h hs => ?_⟩
  · rw [exec_write_m1 a7 stop wait len h, whenAllowed_of_allowed hi (by simp [hlen])]
    exact checkCapacity_outcome len s
  · rw [exec_write_m2 a7 stop wait len h]
    exact checkState_outcome len .ok hs

/-! ### Arming (R195, R201) -/

/-- W3's load of MBUF: the data fit, so the cells up to the length hold them and no other cell changes. -/
theorem memWriteSeq_loads {p : Config.Params} {n : BufName} {bytes : List Byte} {s : State}
    (h : bytes.length ≤ p.bufCap) :
    ∃ t, memWriteSeq p n 0 bytes s = .ok t ∧ t = { s with buf := t.buf }
      ∧ (∀ k, t.cell n k = if k < bytes.length then bytes[k]? else s.cell n k)
      ∧ ∀ m k, m ≠ n → t.cell m k = s.cell m k := by
  obtain ⟨t, ht⟩ := memWriteSeq_fits (p := p) (n := n) (vs := bytes) (i := 0) (s := s) (by omega)
  obtain ⟨-, hframe, -, hcell⟩ := memWriteSeq_eq_ok ht
  refine ⟨t, ht, hframe, fun k => ?_, fun m k hm => (hcell m k).trans (if_neg fun hk => hm hk.1)⟩
  simpa using hcell n k

/-- Settles O20: the data loaded, then the registers armed. -/
theorem writeArming : Obligations.WriteArming := by
  intro a7 stop wait len s h hlen hcap
  obtain ⟨t, ht, hframe, hload, hother⟩ :=
    memWriteSeq_loads (p := Config.params) (n := .mbuf) (s := s) (hlen.trans_le hcap)
  have hexec : exec (.write a7 stop wait len) s
      = .next (goTo .m4 (arm (pendingAddress a7 false) (lengthOf len) stop t)) := by
    rw [exec_write_m3 a7 stop wait len h, armWrite, lengthOf_toNat, ← hlen, List.take_length, ht]
    rfl
  refine ⟨_, hexec, ?_, pendingAddress_toNat a7 false, lengthOf_toNat len, hlen ▸ hload, hother⟩
  rw [hframe]
  rfl

theorem lengthOf_sub_one_toNat {len : BitVec 15} (h : 1 ≤ len.toNat) :
    (lengthOf len - 1#16).toNat + 1 = len.toNat := by
  have hlen := lengthOf_toNat len
  bv_omega

/-- Settles O24: READ's micro-steps R1 to R5, the checks and the trigger shared with WRITE. -/
theorem readPreconditionsAndArming : Obligations.ReadPreconditionsAndArming := by
  intro a7 stop len s
  refine ⟨fun h hi hlen => ?_, fun h hs => ?_, fun h hpos => ?_, exec_read_m4 a7 stop len, fun h wait u hu => ?_⟩
  · rw [exec_read_m1 a7 stop len h, whenAllowed_of_allowed hi (by simpa using hlen)]
    exact checkCapacity_outcome len s
  · rw [exec_read_m2 a7 stop len h]
    exact checkState_outcome len (.okCount 0) hs
  · exact ⟨_, exec_read_m3 a7 stop len h, rfl, pendingAddress_toNat a7 true, lengthOf_sub_one_toNat hpos⟩
  · obtain rfl := Host.Outcome.next.inj ((exec_write_m5 a7 stop wait len h).symm.trans hu)
    exact exec_read_m5 a7 stop len h

/-! ### Entering the master role (R196) -/

/-- A host command that changes STATE is a WRITE at W4 or a READ at R4. -/
theorem exec_host_enters_role {i : Instr} {s t : State} (hi : i.isPrimitive = false) (h : exec i s = .next t)
    (hne : s.ctx.state ≠ t.ctx.state) :
    s.host.step = .m4
      ∧ ((t.ctx.state = .masterTransmitting ∧ ∃ a7 stop wait len, i = .write a7 stop wait len)
        ∨ (t.ctx.state = .masterReceiving ∧ ∃ a7 stop len, i = .read a7 stop len)) := by
  obtain ⟨hm4, -⟩ := (exec_host_frame hi h).state.resolve_left hne.symm
  refine ⟨hm4, ?_⟩
  cases i with
  | write a7 stop wait len =>
    obtain rfl := Host.Outcome.next.inj ((exec_write_m4 a7 stop wait len hm4).symm.trans h)
    exact .inl ⟨rfl, a7, stop, wait, len, rfl⟩
  | read a7 stop len =>
    obtain rfl := Host.Outcome.next.inj ((exec_read_m4 a7 stop len hm4).symm.trans h)
    exact .inr ⟨rfl, a7, stop, len, rfl⟩
  | init a7 =>
    obtain ⟨-, -, hctx, -⟩ := initStep_eq_ok (toOutcome_next h)
    exact absurd (congrArg Context.state hctx).symm hne
  | registerCallbacks =>
    obtain rfl := Host.Outcome.next.inj h
    exact absurd rfl hne
  | status =>
    obtain ⟨v, -, hstop⟩ | ⟨-, hreturn⟩ := withState_eq s fun st =>
      (Except.ok (returnWith (.okStatus st s.ctx.err s.ctx.count) s) : Res State)
    · exact absurd ((toOutcome_next h).symm.trans hstop) (by simp)
    · obtain rfl := Except.ok.inj ((toOutcome_next h).symm.trans hreturn)
      exact absurd rfl hne
  | sendByte | recvByte | genStart | genStop | setAck | clearFlag | setNotify | readEvent | setOwnAddr | setEnable =>
    exact absurd hi (by simp [Instr.isPrimitive])

theorem isMaster_of_isSlave {st : ControllerState} (h : st.isSlave = true) : st.isMaster = false := by
  cases st with
  | slaveTransmitting | slaveReceiving => rfl
  | ready | masterTransmitting | masterReceiving | unused v => exact absurd h (by simp [ControllerState.isSlave])

/-- An invocation ends a role or takes a slave's: it enters no master role. -/
theorem invoke_enters_no_master_role {s t : State} (h : invoke Config.params s = .ok t)
    (hne : s.ctx.state ≠ t.ctx.state) : t.ctx.state.isMaster = false := by
  obtain hsame | hready | hslave := (invoke_frame h).state
  · exact absurd hsame.symm hne
  · rw [hready]; rfl
  · exact isMaster_of_isSlave hslave

/-- Settles O21: W4 and R4, then every agent's step: no other one takes STATE to a master role. -/
theorem enterMasterRole : Obligations.EnterMasterRole := by
  refine ⟨fun a7 stop wait len s => exec_write_m4 a7 stop wait len, fun a7 stop len s => exec_read_m4 a7 stop len,
    fun s t h hne hmaster => ?_⟩
  obtain ⟨u, hframe, -, hstep⟩ := step_next h
  have hctx : u.ctx = s.ctx := by rw [hframe]
  have hhost : u.host = s.host := by rw [hframe]
  rw [← hctx] at hne
  rw [← hhost]
  obtain rfl | ⟨i, hi, -, hexec⟩ | ⟨r, i, -, hi, -, hexec⟩ | ⟨r, i, hr, hd, hi, hexec⟩ | ⟨-, hinv⟩ | ⟨m, hm⟩ := hstep
  · exact absurd rfl hne
  · obtain ⟨p, arg, f, v, rfl⟩ := exec_primitive_eq hi hexec
    exact absurd rfl hne
  · exact absurd (exec_host_enters_role hi hexec hne).1 (by simp [latch])
  · obtain ⟨hm4, hrole⟩ := exec_host_enters_role hi hexec hne
    refine ⟨hm4, r, hr, hrole.imp ?_ ?_⟩
    · rintro ⟨hst, a7, stop, wait, len, rfl⟩
      exact ⟨hst, a7, stop, wait, len, hd⟩
    · rintro ⟨hst, a7, stop, len, rfl⟩
      exact ⟨hst, a7, stop, len, hd⟩
  · exact absurd (hmaster.symm.trans (invoke_enters_no_master_role hinv hne)) (by decide)
  · obtain ⟨r, -, rfl⟩ := runEngine_eq_some hm
    exact absurd rfl hne

/-! ### The poll of READ (R202) -/

/-- `⌈timeout_ms / POLL_MS⌉` polls have been made exactly when they cover the timeout. -/
theorem pollLimit_le_iff (p : Config.Params) (timeoutMs : BitVec 32) (n : Nat) :
    pollLimit p timeoutMs ≤ n ↔ timeoutMs.toNat ≤ n * p.pollMs := by
  have hpos : 0 < p.pollMs := Nat.succ_pos _
  rw [pollLimit, Nat.div_le_iff_le_mul_add_pred hpos, Nat.mul_comm]
  omega

theorem poll_named {p : Config.Params} {s : State} (h : ∀ v, s.ctx.state ≠ .unused v) :
    poll p s =
      if s.ctx.state = .ready then .ok (goTo .m7 s)
      else if s.host.operands.timeoutMs ≠ 0xFFFFFFFF#32
          ∧ s.host.operands.timeoutMs.toNat ≤ s.host.polls * p.pollMs then .ok (goTo .m8 s)
      else .ok { s with host := { s.host with polls := s.host.polls + 1 } } := by
  simp only [poll, withState_named _ h, pollLimit_le_iff, Config.timeoutInf]

/-- R6 is entered with no poll made. -/
theorem triggerRead_polls {s : State} (h : (triggerRead s).host.step = .m6) : (triggerRead s).host.polls = 0 := by
  unfold triggerRead at h ⊢
  dsimp only at h ⊢
  split at h
  · next hm6 => rw [if_pos hm6]
  · next hm6 => exact absurd h hm6

/-- Settles O25: the polls at R6's entry, and R6's three ways. -/
theorem readPoll : Obligations.ReadPoll := by
  refine ⟨fun a7 stop len s u h hu hm6 => ?_, fun a7 stop len s h hs => ?_⟩
  · obtain rfl := Host.Outcome.next.inj ((exec_read_m5 a7 stop len h).symm.trans hu)
    exact triggerRead_polls hm6
  · rw [exec_read_m6 a7 stop len h, poll_named hs]
    split
    · rfl
    · split <;> rfl

/-! ### REGISTER_CALLBACKS and STATUS (R205, R206) -/

theorem exec_status_named {s : State} (h : ∀ v, s.ctx.state ≠ .unused v) :
    exec .status s = .next (returnWith (.okStatus s.ctx.state s.ctx.err s.ctx.count) s) := by
  rw [exec, execStatus, withState_named _ h, toOutcome_ok]

/-- Settles O27: the two rows, each one word, and the effect of each command. -/
theorem registerAndStatus : Obligations.RegisterAndStatus := by
  refine ⟨?_, ?_, fun s => ?_, fun s hs => ?_⟩
  · exact rowOf_of_single_word (i := .registerCallbacks) (by decide) rfl (by decide)
  · exact rowOf_of_single_word (i := .status) (by decide) rfl (by decide)
  · exact ⟨_, rfl, rfl⟩
  · exact exists_returnedOnly (exec_status_named hs)

end Sys2Proof.HostApi
end

section
/-! Proofs about the engine primitives (42_primitives) as the internal command bus runs them: the words of each row, the
operand they carry, and what each primitive does to the engine registers, case by case. -/

namespace Sys2Proof.Primitives

open Sys2Proof.Machine Sys2Proof.Encoding Sys2Proof.HostApi

/-! ### The rows of the primitives (30_encoding R114, R116) -/

/-- A row of the P-format is its words once each word of its opcode, with the operand bits under the mask 0, decodes. -/
theorem rowOf_primitive {name : String} {mask pattern : CmdWord} {op : BitVec 4} {m : BitVec 8}
    (h : ∀ w, zeroOf w = 0#16 → opOf w = op → immOf w &&& m = 0#8 → ∃ i, decodeP w = .ok i ∧ i.mnemonic = name)
    (hr : ⟨name, pattern, mask⟩ ∈ opcodeTable := by decide)
    (hmask : classOf mask = BitVec.allOnes 4 ∧ opOf mask = BitVec.allOnes 4 ∧ zeroOf mask = BitVec.allOnes 16
      ∧ immOf mask = m := by decide)
    (hpattern : pattern = wordP op 0#8 := by decide) : RowOf name mask pattern := by
  refine rowOf_of_decode hr fun w hw => ?_
  obtain ⟨hc, ho, hz, himm⟩ := (and_eq_iffP _ _ _).1 hw
  simp only [hmask, hpattern, classOf_wordP, opOf_wordP, zeroOf_wordP, immOf_wordP, BitVec.and_allOnes]
    at hc ho hz himm
  rw [decode_of_classOf_zero hc]
  exact h w hz ho himm

theorem rowOf_sendByte : RowOf "SEND_BYTE" 0xFFFFFF00 0x01000000 :=
  rowOf_primitive (m := 0x00#8) fun _ hz ho _ => ⟨_, decodeP_sendByte hz ho, rfl⟩

/-- The operand bits above bit 0, under the mask of SET_ACK and SET_ENABLE. -/
theorem extractLsb'_one_beq_zero {w : CmdWord} (h : immOf w &&& 0xFE#8 = 0#8) : (w.extractLsb' 1 7 == 0#7) = true := by
  have hbits : ∀ v : BitVec 8, v &&& 0xFE#8 = 0#8 → v.extractLsb' 1 7 = 0#7 := by decide
  rw [extractLsb'_immOf w 1 7 (by omega), hbits _ h]
  rfl

/-- The operand bits above bit 2, under the mask of SET_NOTIFY. -/
theorem extractLsb'_three_beq_zero {w : CmdWord} (h : immOf w &&& 0xF8#8 = 0#8) :
    (w.extractLsb' 3 5 == 0#5) = true := by
  have hbits : ∀ v : BitVec 8, v &&& 0xF8#8 = 0#8 → v.extractLsb' 3 5 = 0#5 := by decide
  rw [extractLsb'_immOf w 3 5 (by omega), hbits _ h]
  rfl

/-- The operand's bit 7, under the mask of SET_OWN_ADDR. -/
theorem not_getLsbD_seven {w : CmdWord} (h : immOf w &&& 0x80#8 = 0#8) : (!w.getLsbD 7) = true := by
  have hbits : ∀ v : BitVec 8, v &&& 0x80#8 = 0#8 → v.getLsbD 7 = false := by decide
  rw [getLsbD_immOf w 7 (by omega), hbits _ h]
  rfl

theorem rowOf_setAck : RowOf "SET_ACK" 0xFFFFFFFE 0x05000000 :=
  rowOf_primitive fun w hz ho himm =>
    ⟨_, (decodeP_setAck hz ho).trans (whenZero_eq_ok.2 ⟨extractLsb'_one_beq_zero himm, rfl⟩), rfl⟩

theorem rowOf_setNotify : RowOf "SET_NOTIFY" 0xFFFFFFF8 0x07000000 :=
  rowOf_primitive fun w hz ho himm =>
    ⟨_, (decodeP_setNotify hz ho).trans (whenZero_eq_ok.2 ⟨extractLsb'_three_beq_zero himm, rfl⟩), rfl⟩

theorem rowOf_setOwnAddr : RowOf "SET_OWN_ADDR" 0xFFFFFF80 0x09000000 :=
  rowOf_primitive fun w hz ho himm =>
    ⟨_, (decodeP_setOwnAddr hz ho).trans (whenZero_eq_ok.2 ⟨not_getLsbD_seven himm, rfl⟩), rfl⟩

theorem rowOf_setEnable : RowOf "SET_ENABLE" 0xFFFFFFFE 0x0A000000 :=
  rowOf_primitive fun w hz ho himm =>
    ⟨_, (decodeP_setEnable hz ho).trans (whenZero_eq_ok.2 ⟨extractLsb'_one_beq_zero himm, rfl⟩), rfl⟩

/-! ### The operand a word carries (R116) -/

/-- The operand field of a word is the operand its command is encoded with. -/
theorem immOf_of_decode {w : CmdWord} {i : Instr} {op : BitVec 4} {imm : BitVec 8} (h : decode w = .ok i)
    (he : encode i = wordP op imm) : immOf w = imm := by
  rw [← (wf_and_encode_of_decode h).2, he, immOf_wordP]

theorem operand_eq_getLsbD_zero {w : CmdWord} {e : Bool} (h : immOf w = (BitVec.ofBool e).zeroExtend 8) :
    e = w.getLsbD 0 := by
  rw [getLsbD_immOf w 0 (by omega), h]
  cases e <;> rfl

/-- An operand of `n` bits is the word's low `n` bits. -/
theorem operand_eq_extractLsb' {w : CmdWord} {n : Nat} (hn : n ≤ 8) {a : BitVec n} (h : immOf w = a.zeroExtend 8) :
    a = w.extractLsb' 0 n := by
  rw [extractLsb'_immOf w 0 n (by omega), h]
  apply BitVec.eq_of_getLsbD_eq
  intro i hi
  simp [hi, hi.trans_le hn]

/-! ### A primitive that runs alone (R230) -/

theorem issuedAlone_issue (p : Prim) (arg : BitVec 8) (f : Engine → Engine) (s : State) :
    IssuedAlone s (issue s.port.issuer p arg f s) p arg := rfl

theorem issuedAlone_withReply (v : BitVec 32) (p : Prim) (arg : BitVec 8) (f : Engine → Engine) (s : State) :
    IssuedAlone s (withReply v (issue s.port.issuer p arg f s)) p arg := rfl

/-! ### Flags cleared in EV, a bit written in CTRL1 -/

section Cleared

variable {fs : List Flag} {e d : Engine} (h : d.ev = (e.clearFlags fs).ev)
include h

theorem flag_eq_false_of_cleared {f : Flag} (hf : f ∈ fs) : d.flag f = false := by
  rw [Engine.flag_of_ev h, Engine.flag_clearFlags]
  simp [hf]

theorem evKeptBut_of_cleared : EvKeptBut fs e d :=
  ((EvKeptBut.refl fs e).clearFlags fun _ hf => hf).of_ev h

end Cleared

/-- One bit of CTRL1 written. -/
theorem ctrl1KeptBut_putBit {e d : Engine} {i : Nat} {b : Bool} (hd : d.ctrl1 = putBit e.ctrl1 i b)
    (hi : i < 16 := by decide) : Ctrl1KeptBut [i] e d :=
  (Ctrl1KeptBut.refl _ e).putBit List.mem_cons_self hi hd

/-! ### SEND_BYTE (R231) -/

/-- Settles O9: the row and its operand, then PE and the three groups of phases. -/
theorem sendByteEffect : Obligations.SendByteEffect := by
  refine ⟨rowOf_sendByte, fun w b h => (immOf_of_decode h rfl).symm,
    fun b s => ⟨_, rfl, issuedAlone_issue _ _ _ s, rfl, ?_⟩⟩
  rw [issueSendByte_eq, issue_eng]
  split
  · next hoff => exact sendByte_disabled hoff b
  · next hon =>
    have hpe : s.eng.pe = true := by simpa using hon
    split
    · next haddr =>
      rw [sendByte_address hpe haddr b]
      exact ⟨rfl, flag_eq_false_of_cleared (fs := [.sb]) rfl (by simp), evKeptBut_of_cleared rfl⟩
    · next haddr =>
      split
      · next htx =>
        rw [sendByte_transmit hpe htx b]
        refine ⟨rfl, ?_, ?_, evKeptBut_of_cleared rfl⟩ <;>
        · exact flag_eq_false_of_cleared (fs := [.txe, .btf]) rfl (by simp)
      · next htx => exact sendByte_other hpe haddr htx b

/-! ### RECV_BYTE (R232) -/

theorem recvByte_of_not_rxne {e : Engine} (h : e.flag .rxne = false) : e.recvByte = e := by
  simp [Engine.recvByte, h]

theorem recvByte_of_full {e : Engine} (h : e.flag .rxne = true) (hsh : e.shState = .full) :
    e.recvByte = { e.setFlag .btf false with data := e.shift, shState := .empty } := by
  simp [Engine.recvByte, h, hsh]

theorem recvByte_of_not_full {e : Engine} (h : e.flag .rxne = true) (hsh : e.shState ≠ .full) :
    e.recvByte = e.setFlag .rxne false := by
  unfold Engine.recvByte
  rw [if_pos h]
  cases hs : e.shState with
  | full => exact absurd hs hsh
  | empty | busy => rfl

/-- Settles O10: the row's one word, then RxNE and the shifter. -/
theorem recvByteEffect : Obligations.RecvByteEffect := by
  refine ⟨rowOf_of_single_word (i := .recvByte) (by decide) rfl (by decide),
    fun s => ⟨_, rfl, issuedAlone_withReply _ _ _ _ s, rfl, ?_⟩⟩
  rw [withReply_eng, issueRecvByte_eq, issue_eng]
  split
  · next hempty => exact recvByte_of_not_rxne hempty
  · next hdata =>
    have hrxne : s.eng.flag .rxne = true := by simpa using hdata
    split
    · next hfull =>
      rw [recvByte_of_full hrxne hfull]
      exact ⟨rfl, flag_eq_false_of_cleared (fs := [.btf]) rfl (by simp), evKeptBut_of_cleared rfl⟩
    · next hfull =>
      rw [recvByte_of_not_full hrxne hfull]
      exact ⟨rfl, flag_eq_false_of_cleared (fs := [.rxne]) rfl (by simp), evKeptBut_of_cleared rfl⟩

/-! ### GEN_START and GEN_STOP (R233, R234) -/

theorem genStart_of_not_pe {e : Engine} (h : e.pe = false) : e.genStart = e := by
  simp [Engine.genStart, h]

theorem genStart_of_pe {e : Engine} (h : e.pe = true) : e.genStart = e.setStartReq true := by
  simp [Engine.genStart, h]

theorem genStop_of_not_pe {e : Engine} (h : e.pe = false) : e.genStop = e := by
  simp [Engine.genStop, h]

theorem genStop_of_msl {e : Engine} (h : e.pe = true) (hm : e.flag .msl = true) : e.genStop = e.setStopReq true := by
  simp [Engine.genStop, h, hm]

/-- Settles O11: each row's one word, then PE, and for GEN_STOP the role and the phase. -/
theorem genStartStopEffect : Obligations.GenStartStopEffect := by
  refine ⟨rowOf_of_single_word (i := .genStart) (by decide) rfl (by decide),
    rowOf_of_single_word (i := .genStop) (by decide) rfl (by decide),
    fun s => ⟨_, rfl, issuedAlone_issue _ _ _ s, rfl, ?_⟩, fun s => ⟨_, rfl, issuedAlone_issue _ _ _ s, rfl, ?_⟩⟩
  · rw [issueGenStart_eq, issue_eng]
    split
    · next hoff => exact genStart_of_not_pe hoff
    · next hon =>
      rw [genStart_of_pe (by simpa using hon)]
      exact ⟨rfl, Engine.startReq_setStartReq _ _, ctrl1KeptBut_putBit (b := true) rfl⟩
  · rw [issueGenStop_eq, issue_eng]
    split
    · next hoff => exact genStop_of_not_pe hoff
    · next hon =>
      have hpe : s.eng.pe = true := by simpa using hon
      split
      · next hmaster =>
        rw [genStop_of_msl hpe hmaster]
        exact ⟨rfl, Engine.stopReq_setStopReq _ _, ctrl1KeptBut_putBit (b := true) rfl⟩
      · next hmaster =>
        have hmsl : s.eng.flag .msl = false := by simpa using hmaster
        split
        · next hslave =>
          rw [genStop_release hpe hmsl hslave]
          refine ⟨rfl, ?_, ?_, ?_, evKeptBut_of_cleared rfl⟩ <;>
          · exact flag_eq_false_of_cleared (fs := [.tra, .txe, .btf]) rfl (by simp)
        · next hslave => exact genStop_other hpe hmsl hslave

/-! ### SET_ACK and SET_NOTIFY (R235, R239, R119) -/

/-- Settles O12: the rows and their operands, and the bits of CTRL1 and CTRL2 they write. -/
theorem setAckNotifyEffect : Obligations.SetAckNotifyEffect := by
  refine ⟨rowOf_setAck, rowOf_setNotify, fun w e h => operand_eq_getLsbD_zero (immOf_of_decode h rfl),
    fun w m h => operand_eq_extractLsb' (by decide) (immOf_of_decode h rfl), fun e s => ?_, fun m s => ?_⟩
  · exact ⟨_, rfl, issuedAlone_issue _ _ _ s, rfl, rfl, Engine.ackOn_setAckOn s.eng e,
      ctrl1KeptBut_putBit (b := e) rfl⟩
  · exact ⟨_, rfl, issuedAlone_issue _ _ _ s, rfl, rfl, setNotify_bits s.eng m⟩

/-! ### READ_EVENT (R238) -/

/-- Settles O14: the row's one word, the EV returned, and the four flags cleared. -/
theorem readEventEffect : Obligations.ReadEventEffect := by
  refine ⟨rowOf_of_single_word (i := .readEvent) (by decide) rfl (by decide),
    fun s => ⟨_, rfl, issuedAlone_withReply _ _ _ _ s, rfl, rfl, ?_, ?_, ?_, ?_, evKeptBut_of_cleared (e := s.eng) rfl⟩⟩
    <;> exact flag_eq_false_of_cleared (fs := [.addr, .stopf, .gencall, .dualf]) (e := s.eng) rfl (by simp)

/-! ### SET_OWN_ADDR and SET_ENABLE (R240, R241) -/

theorem setOwnAddr_oaddr_toNat (a : Addr7) (e : Engine) : (e.setOwnAddr a).oaddr.toNat = a.toNat :=
  BitVec.toNat_setWidth_of_le (by decide)

theorem setEnable_false (e : Engine) :
    e.setEnable false = { e with ctrl1 := 0, ev := 0, shState := .empty, phase := .off } := rfl

/-- Settles O15: the rows and their operands, the address written, and SET_ENABLE by its operand and PE. -/
theorem ownAddrEnableEffect : Obligations.OwnAddrEnableEffect := by
  refine ⟨rowOf_setOwnAddr, rowOf_setEnable, fun w a h => operand_eq_extractLsb' (by decide) (immOf_of_decode h rfl),
    fun w e h => operand_eq_getLsbD_zero (immOf_of_decode h rfl),
    fun a s => ⟨_, rfl, issuedAlone_issue _ _ _ s, rfl, rfl, setOwnAddr_oaddr_toNat a s.eng⟩,
    fun e s => ⟨_, rfl, issuedAlone_issue _ _ _ s, rfl, ?_⟩⟩
  rw [issueSetEnable_eq, issue_eng]
  cases e with
  | false => exact setEnable_false s.eng
  | true =>
    rw [if_neg (by decide)]
    split
    · next hon => exact setEnable_of_pe hon
    · next hoff =>
      have hpe : s.eng.pe = false := by simpa using hoff
      rw [setEnable_of_not_pe hpe]
      exact ⟨rfl, Engine.pe_setPe s.eng true, ctrl1KeptBut_putBit (b := true) rfl,
        flag_eq_false_of_cleared (fs := [.busy]) (e := s.eng) rfl (by simp), evKeptBut_of_cleared rfl⟩

end Sys2Proof.Primitives
end

section
/-! Proofs about the bus engine (43_bus_engine): the guard of each step, the flags it writes in EV with the frame around
them, and the statements of the engine's family from these. -/

namespace Sys2Proof.BusEngine

open Sys2Proof.Machine Sys2Proof.Primitives

/-! ### The flags a step writes in EV -/

/-- `EV.f <- b` for each pair listed, in order. -/
def writeFlags (e : Engine) : List (Flag × Bool) → Engine
  | [] => e
  | q :: l => writeFlags (e.setFlag q.1 q.2) l

theorem writeFlags_evKept {fs : List Flag} {l : List (Flag × Bool)} {e d : Engine} (h : EvKeptBut fs e d)
    (hl : ∀ q ∈ l, q.1 ∈ fs) : EvKeptBut fs e (writeFlags d l) := by
  induction l generalizing d with
  | nil => exact h
  | cons q l ih =>
    exact ih (h.setFlag (hl q List.mem_cons_self) q.2) fun r hr => hl r (List.mem_cons_of_mem _ hr)

/-- A flag that is not listed keeps its value. -/
theorem evKeptBut_flag {fs : List Flag} {e d : Engine} (h : EvKeptBut fs e d) {f : Flag} (hf : f ∉ fs) :
    d.flag f = e.flag f :=
  h f.idx fun _ hg he => hf (Flag.idx_inj he ▸ hg)

theorem evKeptBut_mono {fs gs : List Flag} {e d : Engine} (h : EvKeptBut fs e d) (hs : fs ⊆ gs) : EvKeptBut gs e d :=
  fun k hk => h k fun f hf => hk f (hs hf)

/-- The EV of `d` is that of `e` with the flags listed written, each once. -/
structure EvWritten (l : List (Flag × Bool)) (e d : Engine) : Prop where
  flags : ∀ q ∈ l, d.flag q.1 = q.2
  kept : EvKeptBut (l.map Prod.fst) e d

theorem writeFlags_flag {l : List (Flag × Bool)} (hl : (l.map Prod.fst).Nodup) (e : Engine) :
    ∀ q ∈ l, (writeFlags e l).flag q.1 = q.2 := by
  induction l generalizing e with
  | nil => simp
  | cons q l ih =>
    obtain ⟨hq, hl⟩ := List.nodup_cons.1 hl
    rintro r (_ | ⟨_, hr⟩)
    · have hkept : EvKeptBut (l.map Prod.fst) (e.setFlag q.1 q.2) (writeFlags (e.setFlag q.1 q.2) l) :=
        writeFlags_evKept (.refl _ _) fun r hr => List.mem_map_of_mem hr
      rw [writeFlags, evKeptBut_flag hkept hq, Engine.flag_setFlag, if_pos rfl]
    · exact ih hl _ r hr

/-- What `d` holds beside EV is left open. -/
theorem evWritten {l : List (Flag × Bool)} {e d : Engine} (h : d.ev = (writeFlags e l).ev)
    (hl : (l.map Prod.fst).Nodup := by simp) : EvWritten l e d where
  flags q hq := (Engine.flag_of_ev h q.1).trans (writeFlags_flag hl e q hq)
  kept := (writeFlags_evKept (.refl _ e) fun _ hq => List.mem_map_of_mem hq).of_ev h

theorem EvWritten.flag {l : List (Flag × Bool)} {e d : Engine} (h : EvWritten l e d) {f : Flag} {b : Bool}
    (hf : (f, b) ∈ l := by simp) : d.flag f = b :=
  h.flags (f, b) hf

/-! ### A step as one guarded effect -/

theorem stepIs_of_ite {p : Config.Params} {m : Config.EngineMove} {e : Engine} {guard c : Prop} [Decidable c]
    {effect : Engine → List WireSym → Prop} {d' : Engine} {syms : List WireSym}
    (hf : e.pe = true → engineStep p m e = if c then some (d', syms) else none) (hc : c ↔ guard)
    (he : ∀ d, d = d' → effect d syms) : StepIs p m e guard effect :=
  stepIs_of _ hf (fun hg => ⟨d', syms, if_pos (hc.2 hg), he d' rfl⟩) fun hg => if_neg (mt hc.1 hg)

/-! ### START and STOP (R263, R264, R273) -/

theorem busFree_iff (e : Engine) : e.busFree = true ↔ e.flag .busy = false ∧ e.phase = .idle := by
  simp [Engine.busFree]

theorem startGuard_iff (e : Engine) :
    (e.startReq && !e.stopReq && (e.busFree || e.mb)) = true ↔
      e.startReq = true ∧ e.stopReq = false ∧ ((e.flag .busy = false ∧ e.phase = .idle) ∨ AtMasterBoundary e) := by
  simp only [Bool.and_eq_true, Bool.or_eq_true, Bool.not_eq_true', busFree_iff, Engine.mb_iff, and_assoc]

theorem stopGuard_iff (e : Engine) : (e.stopReq && e.mb) = true ↔ e.stopReq = true ∧ AtMasterBoundary e := by
  rw [Bool.and_eq_true, Engine.mb_iff]

/-- Settles O44: each step's guard, then the flags and the request it writes. -/
theorem engineStartStop : Obligations.EngineStartStop := by
  intro p e
  constructor
  · refine stepIs_of_ite (fun hp => if_pos hp) (startGuard_iff e) fun d hd => ?_
    have hev : EvWritten [(.sb, true), (.msl, true), (.busy, true), (.tra, false), (.txe, false), (.btf, false)] e d :=
      evWritten (hd ▸ rfl)
    have hctrl1 : d.ctrl1 = putBit e.ctrl1 8 false := hd ▸ rfl
    have hreq : d.startReq = false := hd ▸ Engine.startReq_setStartReq e false
    have hsb : d.flag .sb = true := hev.flag
    have hstretch : d.stretches = true := by simp [Engine.stretches, hsb]
    exact ⟨hd ▸ rfl, hreq, ctrl1KeptBut_putBit hctrl1, hsb, hev.flag, hev.flag, hev.flag, hev.flag, hev.flag,
      hev.kept, hstretch, by simp only [busFree_iff]⟩
  · refine stepIs_of_ite (fun hp => if_pos hp) (stopGuard_iff e) fun d hd => ?_
    have hev : EvWritten [(.msl, false), (.busy, false), (.tra, false), (.txe, false), (.btf, false),
      (.sb, false)] e d := evWritten (hd ▸ rfl)
    have hctrl1 : d.ctrl1 = putBit e.ctrl1 9 false := hd ▸ rfl
    have hreq : d.stopReq = false := hd ▸ Engine.stopReq_setStopReq e false
    exact ⟨hd ▸ rfl, hreq, ctrl1KeptBut_putBit hctrl1, hev.flag, hev.flag, hev.flag, hev.flag, hev.flag, hev.flag,
      hev.kept, rfl⟩

/-! ### The address byte (R266, R267) -/

/-- Settles O45: the acknowledge bit, then the direction. -/
theorem engineAddressPhase : Obligations.EngineAddressPhase := by
  intro p e nack
  refine stepIs_of_ite (fun hp => if_pos hp) Iff.rfl fun d hd => ⟨rfl, ?_⟩
  split
  · next hnack =>
    replace hd := hd.trans (if_pos hnack)
    have hev : EvWritten [(.af, true), (.tra, !e.data.getLsbD 0)] e d := evWritten (hd ▸ rfl)
    exact ⟨hd ▸ rfl, hev.flag, hev.flag, hev.kept⟩
  · next hack =>
    replace hd := hd.trans (if_neg hack)
    split
    · next hwrite =>
      replace hd := hd.trans (if_neg (by rw [hwrite]; decide))
      have hev : EvWritten [(.addr, true), (.tra, true), (.txe, true)] e d := evWritten (hd ▸ rfl)
      exact ⟨hd ▸ rfl, hev.flag, hev.flag, hev.flag, hev.kept⟩
    · next hread =>
      replace hd := hd.trans (if_pos (by simpa using hread))
      have hev : EvWritten [(.addr, true), (.tra, false)] e d := evWritten (hd ▸ rfl)
      exact ⟨hd ▸ rfl, hev.flag, hev.flag, hev.kept⟩

/-! ### Transmit (R268, R269, R277) -/

theorem loadGuard_iff (e : Engine) :
    (((e.phase == .mTx && !e.startReq && !e.stopReq) || e.phase == .sTx)
        && !e.flag .addr && !e.flag .txe && e.shState == .empty) = true ↔
      ((e.phase = .mTx ∧ e.startReq = false ∧ e.stopReq = false) ∨ e.phase = .sTx) ∧ e.flag .addr = false
        ∧ e.flag .txe = false ∧ e.shState = .empty := by
  simp only [Bool.and_eq_true, Bool.or_eq_true, Bool.not_eq_true', beq_iff_eq, and_assoc]

/-- The registers at the end of a byte: on a NACK the engine waits in `hold`; on an ACK BTF says that nothing is left to
send. -/
def byteEndEngine (nack drained : Bool) (hold : Phase) (e : Engine) : Engine :=
  if nack then
    { ({ e with shState := .empty }.setFlag .af true).clearFlags [.txe, .btf] with phase := hold }
  else if drained then { e with shState := .empty }.setFlag .btf true
  else { e with shState := .empty }

theorem stepMasterByteEnd_eq (nack : Bool) (e : Engine) :
    stepMasterByteEnd nack e = if e.phase = .mTx ∧ e.shState = .busy then
      some (byteEndEngine nack (e.flag .txe && !e.startReq && !e.stopReq) .mHold e, [.byte .out e.shift nack])
    else none := rfl

theorem stepSlaveByteEnd_eq (nack : Bool) (e : Engine) :
    stepSlaveByteEnd nack e = if e.phase = .sTx ∧ e.shState = .busy then
      some (byteEndEngine nack (e.flag .txe) .sHold e, [.byte .out e.shift nack]) else none := rfl

/-- The end of a byte in the role whose phases are `tx` and `hold`. -/
theorem byteEnd_is {p : Config.Params} {m : Config.EngineMove} {e : Engine} {nack drained : Bool} {tx hold : Phase}
    {nothingLeft : Prop} [Decidable nothingLeft]
    (hf : e.pe = true → engineStep p m e = if e.phase = tx ∧ e.shState = .busy then
      some (byteEndEngine nack drained hold e, [.byte .out e.shift nack]) else none)
    (hn : drained = true ↔ nothingLeft) :
    StepIs p m e (e.phase = tx ∧ e.shState = .busy) (fun d syms =>
      syms = [.byte .out e.shift nack]
      ∧ if nack = true then
          d = { e with ev := d.ev, shState := .empty, phase := hold } ∧ d.flag .af = true ∧ d.flag .txe = false
            ∧ d.flag .btf = false ∧ EvKeptBut [.af, .txe, .btf] e d
        else if nothingLeft then
          d = { e with ev := d.ev, shState := .empty } ∧ d.flag .btf = true ∧ EvKeptBut [.btf] e d
        else d = { e with shState := .empty }) := by
  refine stepIs_of_ite hf Iff.rfl fun d hd => ⟨rfl, ?_⟩
  split
  · next hnack =>
    replace hd := hd.trans (if_pos hnack)
    have hev : EvWritten [(.af, true), (.txe, false), (.btf, false)] e d := evWritten (hd ▸ rfl)
    exact ⟨hd ▸ rfl, hev.flag, hev.flag, hev.flag, hev.kept⟩
  · next hack =>
    replace hd := hd.trans (if_neg hack)
    split
    · next hnone =>
      replace hd := hd.trans (if_pos (hn.2 hnone))
      have hev : EvWritten [(.btf, true)] e d := evWritten (hd ▸ rfl)
      exact ⟨hd ▸ rfl, hev.flag, hev.kept⟩
    · next hsome => exact hd.trans (if_neg (mt hn.1 hsome))

/-- Settles O46: the load, and one argument for the end of a byte in both roles. -/
theorem engineTransmit : Obligations.EngineTransmit := by
  refine fun p e => ⟨?_, fun nack => ⟨?_, ?_⟩⟩
  · refine stepIs_of_ite (fun hp => if_pos hp) (loadGuard_iff e) fun d hd => ?_
    have hev : EvWritten [(.txe, true), (.btf, false)] e d := evWritten (hd ▸ rfl)
    exact ⟨hd ▸ rfl, hev.flag, hev.flag, hev.kept, rfl⟩
  · exact byteEnd_is (fun hp => (if_pos hp).trans (stepMasterByteEnd_eq nack e))
      (by simp only [Bool.and_eq_true, Bool.not_eq_true', and_assoc])
  · exact byteEnd_is (fun hp => (if_pos hp).trans (stepSlaveByteEnd_eq nack e)) Iff.rfl

/-! ### Arbitration loss and error injection (R270, R281, R282) -/

theorem arbitrationGuard_iff (p : Config.Params) (e : Engine) :
    (p.injects .arlo && (e.phase == .mAddr || (e.phase == .mTx && e.shState == .busy))) = true ↔
      p.injects .arlo = true ∧ (e.phase = .mAddr ∨ (e.phase = .mTx ∧ e.shState = .busy)) := by
  simp only [Bool.and_eq_true, Bool.or_eq_true, beq_iff_eq]

/-- CTRL1 with both requests cleared. -/
theorem requestsCleared {e d : Engine} (h : d.ctrl1 = ((e.setStartReq false).setStopReq false).ctrl1) :
    d.startReq = false ∧ d.stopReq = false ∧ Ctrl1KeptBut [8, 9] e d := by
  have hkept : Ctrl1KeptBut [8, 9] e (e.setStartReq false) :=
    (Ctrl1KeptBut.refl _ e).putBit (i := 8) (b := false) (by simp) (by decide) rfl
  refine ⟨?_, ?_, hkept.putBit (i := 9) (b := false) (by simp) (by decide) h⟩
  · rw [Engine.startReq, h]
    exact (Engine.startReq_setStopReq _ false).trans (Engine.startReq_setStartReq e false)
  · rw [Engine.stopReq, h]
    exact Engine.stopReq_setStopReq _ false

/-- An injection sets one flag and touches nothing else. -/
theorem injection_is {p : Config.Params} {i : Config.Injection} {e : Engine} {f : Flag} {guard : Prop} [Decidable guard]
    (hf : e.pe = true → engineStep p (.inject i) e = if guard then some (e.setFlag f true, [.err i]) else none) :
    StepIs p (.inject i) e guard
      (fun d syms => d = { e with ev := d.ev } ∧ d.flag f = true ∧ EvKeptBut [f] e d ∧ syms = [.err i]) := by
  refine stepIs_of_ite hf Iff.rfl fun d hd => ?_
  have hev : EvWritten [(f, true)] e d := evWritten (hd ▸ rfl)
  exact ⟨hd ▸ rfl, hev.flag, hev.kept, rfl⟩

/-- Settles O47: the arbitration loss, and one flag for each injection. -/
theorem engineErrors : Obligations.EngineErrors := by
  refine fun p e => ⟨?_, injection_is fun hp => ?_, injection_is fun hp => ?_, fun q hq => ?_⟩
  · refine stepIs_of_ite (fun hp => if_pos hp) (arbitrationGuard_iff p e) fun d hd => ?_
    rw [Engine.clearFlags_eq] at hd
    have hev : EvWritten [(.arlo, true), (.msl, false), (.tra, false), (.sb, false), (.txe, false),
      (.btf, false)] e d := evWritten (hd ▸ rfl)
    obtain ⟨hstart, hstop, hkept⟩ := requestsCleared (e := e) (d := d) (hd ▸ rfl)
    exact ⟨hd ▸ rfl, hev.flag, hev.flag, hev.flag, hev.flag, hev.flag, hev.flag, hev.kept, hstart, hstop, hkept, rfl⟩
  · rw [ite_and]
    exact if_pos hp
  · rw [ite_and]
    exact if_pos hp
  · simp only [List.mem_cons, List.not_mem_nil, or_false] at hq
    rcases hq with rfl | rfl | rfl | rfl <;> exact injection_is fun hp => if_pos hp

/-! ### Receive (R271, R272) -/

theorem receiveEnabled_iff (p : Config.Params) (e : Engine) :
    receiveEnabled p e = true ↔
      ((e.phase = .mRx ∧ e.startReq = false ∧ e.stopReq = false) ∨ e.phase = .sRx) ∧ e.flag .addr = false
        ∧ e.shState ≠ .full
        ∧ (p.promptDispatch = true → ¬ (e.flag .rxne = true ∧ e.itEvtEn = true ∧ e.itBufEn = true)) := by
  simp only [receiveEnabled, Bool.and_eq_true, Bool.or_eq_true, Bool.not_eq_true', beq_iff_eq, bne_iff_ne, and_assoc,
    Bool.eq_false_iff, not_and, ne_eq]

/-- A master that does not acknowledge holds after the byte. -/
theorem held_eq (e d : Engine) (h : d.phase = e.phase) :
    (if (!e.ackOn && e.phase == .mRx) = true then { d with phase := .mHold } else d)
      = { d with phase := if e.ackOn = false ∧ e.phase = .mRx then .mHold else e.phase } := by
  simp only [Bool.and_eq_true, Bool.not_eq_true', beq_iff_eq]
  split
  · rfl
  · rw [← h]

/-- Settles O48: the guard, then where the byte goes by RxNE, and the phase by the acknowledge bit. -/
theorem engineReceive : Obligations.EngineReceive := by
  intro p e b
  refine stepIs_of_ite (fun hp => if_pos hp) (receiveEnabled_iff p e) fun d hd => ⟨rfl, ?_⟩
  split
  · next hempty =>
    have hrxne : ¬ e.flag .rxne = true := by simp [hempty]
    rw [if_neg hrxne] at hd
    replace hd := hd.trans (held_eq e _ (by rfl))
    have hev : EvWritten [(.rxne, true)] e d := evWritten (hd ▸ rfl)
    exact ⟨hd ▸ rfl, hev.flag, hev.kept⟩
  · next hdata =>
    have hrxne : e.flag .rxne = true := by simpa using hdata
    rw [if_pos hrxne] at hd
    replace hd := hd.trans (held_eq e _ (by rfl))
    have hev : EvWritten [(.btf, true)] e d := evWritten (hd ▸ rfl)
    exact ⟨hd ▸ rfl, hev.flag, hev.kept⟩

/-! ### The remote master's conditions (R275, R278, R279) -/

theorem remoteMayEnd_iff (e : Engine) :
    e.remoteMayEnd = true ↔
      e.flag .busy = true ∧ e.flag .msl = false ∧ (e.phase = .idle ∨ e.phase = .sRx ∨ e.phase = .sHold) := by
  simp only [Engine.remoteMayEnd, Bool.and_eq_true, Bool.or_eq_true, Bool.not_eq_true', beq_iff_eq, and_assoc, or_assoc]

/-- Settles O49: the three conditions; STOPF is written by the STOP in S_RX alone. -/
theorem engineRemoteConditions : Obligations.EngineRemoteConditions := by
  refine fun p e => ⟨?_, ?_, ?_⟩
  · refine stepIs_of_ite (fun hp => if_pos hp) Iff.rfl fun d hd => ?_
    have hev : EvWritten [(.busy, true)] e d := evWritten (hd ▸ rfl)
    exact ⟨hd ▸ rfl, hev.flag, hev.kept, rfl⟩
  · refine stepIs_of_ite (fun hp => if_pos hp) (remoteMayEnd_iff e) fun d hd => ?_
    have hev : EvWritten [(.tra, false), (.txe, false), (.btf, false)] e d := evWritten (hd ▸ rfl)
    exact ⟨hd ▸ rfl, hev.flag, hev.flag, hev.flag, hev.kept, rfl⟩
  · refine stepIs_of_ite (fun hp => if_pos hp) (remoteMayEnd_iff e) fun d hd => ?_
    by_cases hrx : e.phase = .sRx
    · rw [if_pos hrx, Engine.clearFlags_eq] at hd
      have hev : EvWritten [(.stopf, true), (.busy, false), (.tra, false), (.txe, false), (.btf, false),
        (.gencall, false), (.dualf, false)] e d := evWritten (hd ▸ rfl)
      have hstopf : d.flag .stopf = (e.flag .stopf || e.phase == .sRx) := by
        rw [hrx, hev.flag (b := true), beq_self_eq_true, Bool.or_true]
      exact ⟨hd ▸ rfl, hstopf, hev.flag, hev.flag, hev.flag, hev.flag, hev.flag, hev.flag, hev.kept, rfl⟩
    · rw [if_neg hrx, Engine.clearFlags_eq] at hd
      have hev : EvWritten [(.busy, false), (.tra, false), (.txe, false), (.btf, false), (.gencall, false),
        (.dualf, false)] e d := evWritten (hd ▸ rfl)
      have hstopf : d.flag .stopf = (e.flag .stopf || e.phase == .sRx) := by
        rw [evKeptBut_flag hev.kept (by simp), beq_eq_false_iff_ne.2 hrx, Bool.or_false]
      exact ⟨hd ▸ rfl, hstopf, hev.flag, hev.flag, hev.flag, hev.flag, hev.flag, hev.flag,
        evKeptBut_mono hev.kept (List.subset_cons_self _ _), rfl⟩

/-! ### The remote master's address byte (R276, R280) -/

/-- The address is the byte's upper seven bits, the direction its lowest. -/
theorem addressByte_toNat (a7 : Addr7) (rw : Bool) : (a7 ++ BitVec.ofBool rw).toNat = a7.toNat * 2 + rw.toNat := by
  rw [BitVec.toNat_append, BitVec.toNat_ofBool, ← Nat.shiftLeft_add_eq_or_of_lt (Bool.toNat_lt rw),
    Nat.shiftLeft_eq, pow_one]

theorem selected_iff (e : Engine) (a7 : Addr7) (rw : Bool) :
    e.selected a7 rw = true ↔
      (a7 == e.oaddr.extractLsb' 0 7 || (Config.gcEnable && a7 == 0#7 && !rw) || Config.oa2 == some a7) = true
        ∧ e.ackOn = true :=
  Bool.and_eq_true_iff

/-- Settles O50: whether the address selects this engine, then the direction. -/
theorem engineSlaveAddress : Obligations.EngineSlaveAddress := by
  intro p e a7 rw otherNack
  by_cases hsel : e.selected a7 rw = true
  · refine stepIs_of_ite (fun hp => (if_pos hp).trans (if_congr Iff.rfl (if_pos hsel) rfl)) Iff.rfl fun d hd =>
      ⟨_, _, rfl, addressByte_toNat a7 rw, ?_⟩
    rw [if_pos ((selected_iff e a7 rw).1 hsel)]
    cases rw with
    | false =>
      have hev : EvWritten [(.addr, true), (.gencall, generalMatch a7 false),
        (.dualf, dualMatch a7 && !e.ownMatch a7), (.tra, false)] e d := evWritten (hd ▸ rfl)
      exact ⟨rfl, hev.flag, hev.flag (b := generalMatch a7 false), hev.flag (b := dualMatch a7 && !e.ownMatch a7),
        hev.flag, hd ▸ rfl, hev.kept⟩
    | true =>
      have hev : EvWritten [(.addr, true), (.gencall, generalMatch a7 true),
        (.dualf, dualMatch a7 && !e.ownMatch a7), (.tra, true), (.txe, true)] e d := evWritten (hd ▸ rfl)
      exact ⟨rfl, hev.flag, hev.flag (b := generalMatch a7 true), hev.flag (b := dualMatch a7 && !e.ownMatch a7),
        hev.flag, hd ▸ rfl, hev.flag, hev.kept⟩
  · refine stepIs_of_ite (fun hp => (if_pos hp).trans (if_congr Iff.rfl (if_neg hsel) rfl)) Iff.rfl fun d hd =>
      ⟨_, _, rfl, addressByte_toNat a7 rw, ?_⟩
    rw [if_neg (mt (selected_iff e a7 rw).2 hsel)]
    exact ⟨rfl, hd⟩

end Sys2Proof.BusEngine
end

section
/-! Proofs about exceptions (60_exceptions): when a notification is deliverable, and the dispatcher's step while it is
(R326). -/

namespace Sys2Proof.Exceptions

open Sys2Proof.Machine

/-! ### The deliverable predicate (R326) -/

/-- The event flags, the buffer flags, the error flags, each group under its enables. -/
theorem deliverable_iff (e : Engine) : e.deliverable = true ↔
    (e.itEvtEn = true ∧ (e.flag .sb = true ∨ e.flag .addr = true ∨ e.flag .btf = true ∨ e.flag .stopf = true))
      ∨ (e.itEvtEn = true ∧ e.itBufEn = true ∧ (e.flag .rxne = true ∨ e.flag .txe = true))
      ∨ (e.itErrEn = true ∧ (e.flag .berr = true ∨ e.flag .arlo = true ∨ e.flag .af = true ∨ e.flag .ovr = true
          ∨ e.flag .pecerr = true ∨ e.flag .timeout = true ∨ e.flag .smbalert = true)) := by
  simp only [Engine.deliverable, Bool.or_eq_true, Bool.and_eq_true, or_assoc, and_assoc]

/-! ### The dispatcher's step (R150, R326) -/

/-- While a notification is deliverable, the dispatcher's step is enabled: it is one invocation. -/
theorem dispatchMove_of_deliverable {s : State} (h : s.eng.deliverable = true) :
    dispatchMove s = toOutcome (invoke Config.params s) :=
  if_pos h

/-- Settles O30: the flags and enables are the bits of EV and CTRL2 that the statement numbers. -/
theorem notificationDeliverable : Obligations.NotificationDeliverable :=
  ⟨fun e => deliverable_iff e, fun _ h => dispatchMove_of_deliverable h⟩

end Sys2Proof.Exceptions
end

section
/-! Proofs about the whole machine: the encoder and the decoder, what every step keeps, that no fault is reachable,
where the hold of W5 ends, the frame of each agent's step, reset, and the wire beneath the byte steps. -/

namespace Sys2Proof.WholeMachine

open Sys2Proof.Machine Sys2Proof.Encoding Sys2Proof.Dispatcher Sys2Proof.HostApi Sys2Proof.Primitives
  Sys2Proof.BusEngine Sys2Proof.Exceptions

/-! ### The encoder and the decoder (30_encoding §1–§3) -/

/-- The bits of the operand above those an operand of `k` bits uses. -/
theorem extractLsb'_wordP_high (op : BitVec 4) {k n : Nat} (hk : 8 = k + n) (a : BitVec k) :
    (wordP op (a.zeroExtend 8)).extractLsb' k n = 0#n := by
  rw [extractLsb'_immOf _ _ _ hk.ge, immOf_wordP, extractLsb'_high_eq_zero_iff _ _ _ hk]
  exact (BitVec.toNat_setWidth 8 a).trans_le (Nat.mod_le _ _) |>.trans_lt a.isLt

theorem extractLsb'_wordP_low (op : BitVec 4) {n : Nat} (hn : n ≤ 8) (a : BitVec n) :
    (wordP op (a.zeroExtend 8)).extractLsb' 0 n = a :=
  (operand_eq_extractLsb' hn (immOf_wordP op _)).symm

theorem getLsbD_zero_wordP (op : BitVec 4) (b : Bool) :
    (wordP op ((BitVec.ofBool b).zeroExtend 8)).getLsbD 0 = b :=
  (operand_eq_getLsbD_zero (immOf_wordP op _)).symm

theorem getLsbD_seven_wordP (op : BitVec 4) (a : Addr7) : (wordP op (a.zeroExtend 8)).getLsbD 7 = false := by
  rw [getLsbD_seven_eq_false_iff, ← extractLsb'_immOf _ 7 1 le_rfl]
  exact extractLsb'_wordP_high op rfl a

/-- The P-format decoder reads the opcode and the operand of the word the encoder writes. -/
theorem decode_wordP_eq_ok {op : BitVec 4} {imm : BitVec 8} {i : Instr} (h : decodeP (wordP op imm) = .ok i) :
    decode (wordP op imm) = .ok i :=
  (decode_wordP op imm).trans h

theorem decode_wordH_eq_ok {op : BitVec 4} {a7 : Addr7} {stop wait : Bool} {len : BitVec 15} {i : Instr}
    (h : decodeH (wordH op a7 stop wait len) = .ok i) : decode (wordH op a7 stop wait len) = .ok i :=
  (decode_wordH op a7 stop wait len).trans h

/-- Each command's word carries its opcode and operands in the fields its row's decoder reads. -/
theorem decode_encode {i : Instr} (hw : i.wf = true) : decode (encode i) = .ok i := by
  have hz := zeroOf_wordP
  have ho := opOf_wordP
  cases i with
  | sendByte b => exact decode_wordP_eq_ok (by rw [decodeP_sendByte (hz ..) (ho ..), immOf_wordP])
  | recvByte => exact decode_wordP_eq_ok (by simp [decodeP_recvByte (hz ..) (ho ..)])
  | genStart => exact decode_wordP_eq_ok (by simp [decodeP_genStart (hz ..) (ho ..)])
  | genStop => exact decode_wordP_eq_ok (by simp [decodeP_genStop (hz ..) (ho ..)])
  | setAck e =>
    refine decode_wordP_eq_ok ?_
    rw [decodeP_setAck (hz ..) (ho ..), extractLsb'_wordP_high _ rfl, getLsbD_zero_wordP]
    rfl
  | clearFlag k =>
    refine decode_wordP_eq_ok ?_
    rw [decodeP_clearFlag (hz ..) (ho ..), immOf_wordP]
    exact whenZero_eq_ok.2 ⟨hw, rfl⟩
  | setNotify m =>
    refine decode_wordP_eq_ok ?_
    rw [decodeP_setNotify (hz ..) (ho ..), extractLsb'_wordP_high _ rfl, extractLsb'_wordP_low _ (by decide)]
    rfl
  | readEvent => exact decode_wordP_eq_ok (by simp [decodeP_readEvent (hz ..) (ho ..)])
  | setOwnAddr a =>
    refine decode_wordP_eq_ok ?_
    rw [decodeP_setOwnAddr (hz ..) (ho ..), getLsbD_seven_wordP, extractLsb'_wordP_low _ (by decide)]
    rfl
  | setEnable e =>
    refine decode_wordP_eq_ok ?_
    rw [decodeP_setEnable (hz ..) (ho ..), extractLsb'_wordP_high _ rfl, getLsbD_zero_wordP]
    rfl
  | init a7 => exact decode_wordH_eq_ok (by simp [decodeH_init (opOf_wordH ..)])
  | write a7 stop wait len => exact decode_wordH_eq_ok (by simp [decodeH_write (opOf_wordH ..)])
  | read a7 stop len => exact decode_wordH_eq_ok (by simp [decodeH_read (opOf_wordH ..)])
  | registerCallbacks => exact decode_wordH_eq_ok (by simp [decodeH_registerCallbacks (opOf_wordH ..)])
  | status => exact decode_wordH_eq_ok (by simp [decodeH_status (opOf_wordH ..)])

/-- Settles O1: command by command, the word of each row. -/
theorem decodeEncodeRoundTrip : Obligations.DecodeEncodeRoundTrip := fun _ hw => decode_encode hw

/-- Settles O2: a word that decodes is its fields. -/
theorem encodeDecodeAgree : Obligations.EncodeDecodeAgree := fun _ _ h => wf_and_encode_of_decode h

/-- Settles O6: the command port tests for a primitive first. -/
theorem barePrimitiveRefused : Obligations.BarePrimitiveRefused := by
  intro r i s hd hi
  simp [perform, issueCommand, hd, hi]

/-! ### A step, by the agent that takes it -/

/-- A command just issued and one in progress run alike, on the state whose host holds the command; so a step is one of
five things, on a state that differs from the first by its port and, where a command was just issued, its host. -/
theorem step_by_agent {s t : State} (h : step s = .next t) :
    ∃ (host : HostLocal) (port : Port), port.bus = none ∧
      ((host = s.host ∧ t = { s with host := host, port := port })
        ∨ (host = s.host ∧ s.port.bus ≠ none
            ∧ ∃ i, i.isPrimitive = true ∧ exec i { s with host := host, port := port } = .next t)
        ∨ ((host.step = .m1 ∨ host = s.host)
            ∧ ∃ r i, host.cmd = some r ∧ decode r.word = .ok i ∧ i.isPrimitive = false
              ∧ exec i { s with host := host, port := port } = .next t)
        ∨ (host = s.host ∧ s.eng.deliverable = true
            ∧ invoke Config.params { s with host := host, port := port } = .ok t)
        ∨ (host = s.host ∧ ∃ m, runEngine Config.params m { s with host := host, port := port } = some t)) := by
  obtain ⟨u, hframe, hbus, hstep⟩ := step_next h
  obtain ⟨port, rfl⟩ : ∃ port, u = { s with port := port } := ⟨_, hframe⟩
  obtain rfl | ⟨i, hi, hb, hexec⟩ | ⟨r, i, hd, hi, -, hexec⟩ | ⟨r, i, hr, hd, hi, hexec⟩ | ⟨hdel, hinv⟩ | ⟨m, hm⟩ :=
    hstep
  · exact ⟨s.host, port, hbus, .inl ⟨rfl, rfl⟩⟩
  · exact ⟨s.host, port, hbus, .inr (.inl ⟨rfl, hb, i, hi, hexec⟩)⟩
  · exact ⟨_, port, hbus, .inr (.inr (.inl ⟨.inl rfl, r, i, rfl, hd, hi, hexec⟩))⟩
  · exact ⟨s.host, port, hbus, .inr (.inr (.inl ⟨.inr rfl, r, i, hr, hd, hi, hexec⟩))⟩
  · exact ⟨s.host, port, hbus, .inr (.inr (.inr (.inl ⟨rfl, hdel, hinv⟩)))⟩
  · exact ⟨s.host, port, hbus, .inr (.inr (.inr (.inr ⟨rfl, m, hm⟩)))⟩

/-! ### What every step keeps -/

/-- What every step keeps of the engine word; a START alone can bring the address phase something of an earlier
transfer. -/
abbrev EngineWordKept (e d : Engine) : Prop :=
  (ReservedBitsZero e → ReservedBitsZero d) ∧ (OffExactlyWhenDisabled e → OffExactlyWhenDisabled d)
    ∧ (AddressPhaseSound e → AddressPhaseSound d)
    ∧ (AddressPhaseQuiet e → (d.phase = .mSb → e.phase = .mSb ∨ NothingLeft e) → AddressPhaseQuiet d)

theorem engineWordKept_of_kept {e d : Engine} (h : EngineKept e d) : EngineWordKept e d :=
  ⟨h.reserved, h.off, h.address, fun hq _ => h.quiet hq⟩

/-- What every step keeps, whichever agent takes it: the logs only grow, the marks stay, the buffers keep their form and
bound, the engine word stays sound. -/
structure StepKept (s t : State) : Prop where
  act : ∃ l, t.log.act = s.log.act ++ l
  wire : ∃ l, t.log.wire = s.log.wire ++ l
  cbLog : ∃ l, t.log.cb = s.log.cb ++ l
  marks : t.marks = s.marks
  canonical : BuffersCanonical s → BuffersCanonical t
  inRange : CellsInRange s → CellsInRange t
  eng : EngineWordKept s.eng t.eng

/-- None of it is about the host or the port. -/
theorem StepKept.of_agent {s t : State} {host : HostLocal} {port : Port}
    (h : StepKept { s with host := host, port := port } t) : StepKept s t :=
  ⟨h.act, h.wire, h.cbLog, h.marks, h.canonical, h.inRange, h.eng⟩

theorem StepKept.refl (s : State) : StepKept s s :=
  ⟨⟨[], by simp⟩, ⟨[], by simp⟩, ⟨[], by simp⟩, rfl, id, id, engineWordKept_of_kept (.refl _)⟩

theorem stepKept_of_primitive {i : Instr} {s t : State} (hi : i.isPrimitive = true) (h : exec i s = .next t) :
    StepKept s t := by
  have hkept := exec_primitive_kept hi h
  obtain ⟨p, arg, f, v, rfl⟩ := exec_primitive_eq hi h
  exact ⟨⟨_, rfl⟩, ⟨[], by simp [issue]⟩, ⟨[], by simp [issue]⟩, rfl, id, id, engineWordKept_of_kept hkept⟩

theorem stepKept_of_host {s t : State} (h : HostFrame s t) : StepKept s t := by
  obtain ⟨l, hl, -⟩ := h.act
  exact ⟨⟨l, hl⟩, ⟨[], by simp [h.wire]⟩, ⟨[], by simp [h.cbLog]⟩, h.marks, h.canonical, h.inRange,
    engineWordKept_of_kept h.eng⟩

theorem stepKept_of_invocation {s t : State} (h : DispatcherFrame s t) : StepKept s t := by
  obtain ⟨l, hl, -⟩ := h.act
  exact ⟨⟨l, hl⟩, ⟨[], by simp [h.wire]⟩, h.cbLog, h.marks, h.canonical, h.inRange, engineWordKept_of_kept h.eng.kept⟩

theorem stepKept_of_engine {p : Config.Params} {m : Config.EngineMove} {s t : State} (h : runEngine p m s = some t) :
    StepKept s t := by
  have hkept := runEngine_kept h
  obtain ⟨r, -, rfl⟩ := runEngine_eq_some h
  exact ⟨⟨[], by simp⟩, ⟨_, rfl⟩, ⟨[], by simp⟩, rfl, id, id, hkept⟩

theorem step_kept {s t : State} (h : step s = .next t) : StepKept s t := by
  obtain ⟨host, port, -, hstep⟩ := step_by_agent h
  refine .of_agent (host := host) (port := port) ?_
  obtain ⟨-, rfl⟩ | ⟨-, -, i, hi, hexec⟩ | ⟨-, r, i, -, -, hi, hexec⟩ | ⟨-, -, hinv⟩ | ⟨-, m, hm⟩ := hstep
  · exact .refl _
  · exact stepKept_of_primitive hi hexec
  · exact stepKept_of_host (exec_host_frame hi hexec)
  · exact stepKept_of_invocation (invoke_frame hinv)
  · exact stepKept_of_engine hm

/-- Settles O54: the buffers' part of what every step keeps. -/
theorem stepKeepsBuffers : Obligations.StepKeepsBuffers := fun _ _ h => ⟨(step_kept h).canonical, (step_kept h).inRange⟩

/-! ### The address byte, step by step (20_memory R81, 43_bus_engine R264–R267) -/

/-- An engine step never places the address byte, and keeps the one on its way. -/
theorem runEngine_address {p : Config.Params} {m : Config.EngineMove} {s t : State} (h : runEngine p m s = some t) :
    PaPlacedFirst s t ∧ AddressByteIsPa s t := by
  obtain ⟨r, hr, rfl⟩ := runEngine_eq_some h
  have hkeeps := (engineStep_address hr).2.2
  refine ⟨fun hsb haddr => ?_, fun haddr => .inl (hkeeps haddr)⟩
  exact absurd (hsb.symm.trans (hkeeps haddr).1) (by decide)

/-- With no word on the internal bus, the step that places a byte as the engine waits in M_SB places PA. -/
theorem step_address {s t : State} (h : step s = .next t) (hsound : AddressPhaseSound s.eng)
    (hbus : s.port.bus = none) : PaPlacedFirst s t ∧ (AddressPhaseQuiet s.eng → AddressByteIsPa s t) := by
  obtain ⟨host, port, -, hstep⟩ := step_by_agent h
  obtain ⟨-, rfl⟩ | ⟨-, hb, -⟩ | ⟨-, r, i, -, -, hi, hexec⟩ | ⟨-, -, hinv⟩ | ⟨-, m, hm⟩ := hstep
  · exact ⟨.kept rfl, fun _ => .same rfl⟩
  · exact absurd hbus hb
  · exact ⟨(exec_host_frame hi hexec).placed, fun _ => (exec_host_frame hi hexec).address hsound⟩
  · have hplaced := invoke_placed (s := { s with host := host, port := port }) hsound hinv
    have haddress hquiet := invoke_address (s := { s with host := host, port := port }) hsound hquiet hinv
    exact ⟨hplaced, haddress⟩
  · exact ⟨(runEngine_address hm).1, fun _ => (runEngine_address hm).2⟩

/-- An injection sets one flag and logs its symbol. -/
theorem stepInject_eq_some {p : Config.Params} {i : Config.Injection} {e : Engine} {r : EngineStep}
    (h : stepInject p i e = some r) : ∃ f, r = (e.setFlag f true, [.err i]) := by
  simp only [stepInject, Option.ite_none_right_eq_some] at h
  obtain ⟨-, h⟩ := h
  cases i with
  | berr | afRx =>
    simp only [Option.ite_none_right_eq_some, Option.some.injEq] at h
    exact ⟨_, h.2.symm⟩
  | arlo => exact absurd h (by simp)
  | ovr | pecerr | timeout | smbalert => exact ⟨_, (Option.some.inj h).symm⟩

/-- Until the address byte has gone out, the one byte an engine step puts on the wire is that byte, which is DATA. -/
theorem engineStep_addressByte {p : Config.Params} {m : Config.EngineMove} {e : Engine} {r : EngineStep}
    (hr : engineStep p m e = some r) (hp : e.phase = .mSb ∨ e.phase = .mAddr) {d : Dir} {b : Byte} {n : Bool}
    (hmem : WireSym.byte d b n ∈ r.2) : e.phase = .mAddr ∧ d = .out ∧ b = e.data := by
  simp only [engineStep, Option.ite_none_right_eq_some] at hr
  obtain ⟨-, hr⟩ := hr
  cases m with
  | address nack =>
    simp only [stepAddress, Option.ite_none_right_eq_some, Option.some.injEq] at hr
    obtain ⟨haddr, rfl⟩ := hr
    simp only [List.mem_singleton, WireSym.byte.injEq] at hmem
    exact ⟨haddr, hmem.1, hmem.2.1⟩
  | start =>
    simp only [stepStart, Option.ite_none_right_eq_some, Option.some.injEq] at hr
    obtain ⟨-, rfl⟩ := hr
    by_cases hf : e.busFree = true <;> simp [hf] at hmem
  | load | loseArbitration | stop | remoteStart | remoteRestart | remoteStop =>
    simp only [stepLoad, stepLoseArbitration, stepStop, stepRemoteStart, stepRemoteRestart, stepRemoteStop,
      Option.ite_none_right_eq_some, Option.some.injEq] at hr
    obtain ⟨-, rfl⟩ := hr
    simp at hmem
  | inject i =>
    obtain ⟨f, rfl⟩ := stepInject_eq_some hr
    simp at hmem
  | masterByteEnd | receive | slaveAddress | slaveByteEnd =>
    simp only [stepMasterByteEnd, stepReceive, stepSlaveAddress, stepSlaveByteEnd, receiveEnabled] at hr
    rcases hp with hp | hp <;> simp [hp] at hr

theorem step_addressByte {s t : State} (h : step s = .next t) (hp : s.eng.phase = .mSb ∨ s.eng.phase = .mAddr) :
    ∃ l, t.log.wire = s.log.wire ++ l ∧ ∀ d b n, WireSym.byte d b n ∈ l →
      s.eng.phase = .mAddr ∧ d = .out ∧ b = s.eng.data := by
  have silent (hw : t.log.wire = s.log.wire) : ∃ l, t.log.wire = s.log.wire ++ l ∧ ∀ d b n, WireSym.byte d b n ∈ l →
      s.eng.phase = .mAddr ∧ d = .out ∧ b = s.eng.data := ⟨[], by simp [hw], by simp⟩
  obtain ⟨host, port, -, hstep⟩ := step_by_agent h
  obtain ⟨-, rfl⟩ | ⟨-, -, i, hi, hexec⟩ | ⟨-, r, i, -, -, hi, hexec⟩ | ⟨-, -, hinv⟩ | ⟨-, m, hm⟩ := hstep
  · exact silent rfl
  · obtain ⟨p, arg, f, v, rfl⟩ := exec_primitive_eq hi hexec
    exact silent rfl
  · exact silent (exec_host_frame hi hexec).wire
  · exact silent (invoke_frame hinv).wire
  · obtain ⟨r, hr, rfl⟩ := runEngine_eq_some hm
    exact ⟨r.2, rfl, fun d b n hmem => engineStep_addressByte hr hp hmem⟩

/-- Settles O55: the engine word from what every step keeps, then the address byte. -/
theorem stepKeepsEngineWord : Obligations.StepKeepsEngineWord := fun _ _ h =>
  ⟨(step_kept h).eng, step_address h, step_addressByte h⟩

/-! ### The transaction invariant (40_dispatcher R179) -/

/-- While a command arms, STATE is no master role. -/
theorem isMaster_of_arming {s : State} {r : Config.Request} (h : CommandSound s r) (hm3 : s.host.step = .m3) :
    s.ctx.state.isMaster = false := by
  unfold CommandSound at h
  split at h
  · obtain ⟨-, -, -, harm, -⟩ := h
    exact harm (.inl hm3)
  · obtain ⟨-, -, -, harm, -⟩ := h
    exact harm (.inl hm3)
  · exact h.elim

theorem step_sound {s t : State} (h : step s = .next t) (hs : TransactionSound s) : TransactionSound t := by
  obtain ⟨u, hframe, -, hstep⟩ := step_next h
  obtain ⟨hctx, -, hbuf, -, hhost, -, -⟩ := port_only hframe
  have hu : TransactionSound u := hs.congr hctx hbuf hhost
  obtain rfl | ⟨i, hi, -, hexec⟩ | ⟨r, i, hd, hi, -, hexec⟩ | ⟨r, i, hr, hd, hi, hexec⟩ | ⟨-, hinv⟩ | ⟨m, hm⟩ := hstep
  · exact hu
  · obtain ⟨p, arg, f, v, rfl⟩ := exec_primitive_eq hi hexec
    exact hu.congr rfl rfl rfl
  · exact exec_host_sound hi rfl hd (latch_base hu r) (.inl rfl) hexec
  · exact exec_host_sound hi hr hd hu.base (.inr hu) hexec
  · exact invoke_sound hu hinv
  · obtain ⟨r, -, rfl⟩ := runEngine_eq_some hm
    exact hu.congr rfl rfl rfl

/-- A byte armed in MasterReceiving stays armed: no command arms there. -/
theorem step_byteArmed {s t : State} (h : step s = .next t) (hs : TransactionSound s)
    (hst : s.ctx.state = .masterReceiving) (htt : t.ctx.state = .masterReceiving) (ha : ByteArmed s.ctx) :
    ByteArmed t.ctx := by
  obtain ⟨host, port, -, hstep⟩ := step_by_agent h
  obtain ⟨-, rfl⟩ | ⟨-, -, i, hi, hexec⟩ | ⟨hhost, r, i, hr, -, hi, hexec⟩ | ⟨-, -, hinv⟩ | ⟨-, m, hm⟩ := hstep
  · exact ha
  · obtain ⟨p, arg, f, v, rfl⟩ := exec_primitive_eq hi hexec
    exact ha
  · obtain hm3 | hiff := (exec_host_frame hi hexec).armed
    · obtain hm1 | rfl := hhost
      · exact absurd (hm1.symm.trans hm3) (by decide)
      · exact absurd (isMaster_of_arming (hs.command r hr) hm3) (by simp [hst, ControllerState.isMaster])
    · exact hiff.2 ha
  · exact invoke_byteArmed hinv hst htt (.inr ha)
  · obtain ⟨r, -, rfl⟩ := runEngine_eq_some hm
    exact ha

/-- Settles O53: the invariant and the byte armed through every step, then the invocation that handles ADDR. -/
theorem stepKeepsTransactionSound : Obligations.StepKeepsTransactionSound :=
  ⟨fun _ _ hs h => ⟨step_sound h hs, step_byteArmed h hs⟩,
    fun _ _ hst hmsl haddr hinv htt => invoke_byteArmed hinv hst htt (.inl ⟨hmsl, haddr⟩)⟩

/-! ### The run's record of a stop (10_state R65) -/

theorem consume_eq (s : State) : consume s = { s with port := (consume s).port } := by
  unfold consume
  split
  · rfl
  · exact nextMove_frame s

theorem runStep_next {s t : State} (h : step s = .next t) : runStep s = t := by rw [runStep, h, settle]

theorem runStep_fault {s : State} {f : Fault} (h : step s = .fault f) :
    runStep s = { s with
      port := (consume s).port, marks := ⟨s.marks.faults ++ [f], s.marks.refusals⟩ } := by
  rw [runStep, h, settle, consume_eq]
  rfl

theorem runStep_of_refused {s : State} {f : Refusal} (h : step s = .refused f) :
    runStep s = { s with
      port := (consume s).port, marks := ⟨s.marks.faults, s.marks.refusals ++ [f]⟩ } := by
  rw [runStep, h, settle, consume_eq]
  rfl

/-- Settles O58: the logs and marks of a step that runs, then the mark of each stop. -/
theorem logsAppendOnly : Obligations.LogsAppendOnly := by
  refine fun s => ⟨fun t h => ?_, fun t h => runStep_next h, fun f h => ?_, fun f h => ?_⟩
  · have hkept := step_kept h
    exact ⟨hkept.act, hkept.wire, hkept.cbLog, hkept.marks⟩
  · rw [runStep_fault h]
    exact ⟨rfl, rfl⟩
  · rw [runStep_of_refused h]
    exact ⟨rfl, rfl⟩

/-! ### No fault is reachable (60_exceptions R325) -/

/-- An invocation of a sound state stops at the client alone. -/
theorem invoke_not_fault {s : State} (hs : TransactionSound s) :
    (∀ f, invoke Config.params s ≠ .error (.fault f)) ∧ invoke Config.params s ≠ .error (.refuse .bufferBound) := by
  have hstop e := invoke_stops (s := s) (e := e) hs
  exact ⟨fun f h => by simpa [ClientStop] using hstop _ h, fun h => by simpa [ClientStop] using hstop _ h⟩

theorem exec_primitive_not_fault {i : Instr} (hi : i.isPrimitive = true) (s : State) :
    (∀ f, exec i s ≠ .fault f) ∧ exec i s ≠ .refused .bufferBound :=
  ⟨(exec_primitive_stops hi).1, fun h => by simpa using (exec_primitive_stops hi).2 _ h⟩

theorem exec_host_not_fault {i : Instr} {r : Config.Request} {s : State} (hi : i.isPrimitive = false)
    (hr : s.host.cmd = some r) (hd : decode r.word = .ok i) (hb : BaseSound s)
    (h : s.host.step = .m1 ∨ TransactionSound s) :
    (∀ f, exec i s ≠ .fault f) ∧ exec i s ≠ .refused .bufferBound := by
  obtain ⟨hfault, hrefused⟩ := exec_host_stops hi hr hd hb h
  exact ⟨hfault, fun h => by simpa using hrefused _ h⟩

theorem step_not_fault {s : State} (hs : TransactionSound s) (f : Fault) : step s ≠ .fault f := by
  intro h
  obtain ⟨u, hframe, hstep⟩ := step_fault h
  obtain ⟨hctx, -, hbuf, -, hhost, -, -⟩ := port_only hframe
  have hu : TransactionSound u := hs.congr hctx hbuf hhost
  obtain ⟨i, hi, hexec⟩ | ⟨r, i, hd, hi, -, hexec⟩ | ⟨r, i, hr, hd, hi, hexec⟩ | ⟨-, hinv⟩ := hstep
  · exact (exec_primitive_not_fault hi u).1 f hexec
  · exact (exec_host_not_fault hi rfl hd (latch_base hu r) (.inl rfl)).1 f hexec
  · exact (exec_host_not_fault hi hr hd hu.base (.inr hu)).1 f hexec
  · exact (invoke_not_fault hu).1 f hinv

theorem step_not_bufferBound {s : State} (hs : TransactionSound s) : step s ≠ .refused .bufferBound := by
  intro h
  obtain ⟨u, hframe, hstep⟩ := step_refused h
  obtain ⟨hctx, -, hbuf, -, hhost, -, -⟩ := port_only hframe
  have hu : TransactionSound u := hs.congr hctx hbuf hhost
  obtain ⟨why, hw⟩ | hp | hp | hp | ⟨i, hi, hexec⟩ | ⟨r, i, hd, hi, -, hexec⟩ | ⟨r, i, hr, hd, hi, hexec⟩ | ⟨-, hinv⟩ :=
    hstep
  · exact Refusal.noConfusion hw
  · exact Refusal.noConfusion hp
  · exact Refusal.noConfusion hp
  · exact Refusal.noConfusion hp
  · exact (exec_primitive_not_fault hi u).2 hexec
  · exact (exec_host_not_fault hi rfl hd (latch_base hu r) (.inl rfl)).2 hexec
  · exact (exec_host_not_fault hi hr hd hu.base (.inr hu)).2 hexec
  · exact (invoke_not_fault hu).2 hinv

/-- What a run keeps: the state is sound and no fault is recorded. -/
def SoundRun (s : State) : Prop := TransactionSound s ∧ s.marks.faults = []

theorem runStep_soundRun {s : State} (h : SoundRun s) : SoundRun (runStep s) := by
  obtain ⟨hs, hmarks⟩ := h
  cases hstep : step s with
  | next t =>
    rw [runStep_next hstep]
    exact ⟨step_sound hstep hs, (congrArg Marks.faults (step_kept hstep).marks).trans hmarks⟩
  | fault f => exact absurd hstep (step_not_fault hs f)
  | refused f =>
    rw [runStep_of_refused hstep]
    exact ⟨hs.congr rfl rfl rfl, hmarks⟩

theorem runFor_soundRun {s : State} (n : Nat) (h : SoundRun s) : SoundRun (runFor n s) := by
  induction n generalizing s with
  | zero => exact h
  | succ n ih => exact ih (runStep_soundRun h)

/-- The reset state holds no cell, no length and no command, so nothing is asked of it. -/
theorem transactionSound_reset : TransactionSound State.reset where
  stateNamed _ h := ControllerState.noConfusion h
  bounds := ⟨by decide, Nat.zero_le _, by decide, Nat.zero_le _, Nat.zero_le _⟩
  noAckPending h := Bool.noConfusion h
  finalCaptured h := Bool.noConfusion h
  transmitLoaded h := ControllerState.noConfusion h
  receiveFits h := ControllerState.noConfusion h
  masterStored i hi := absurd hi (Nat.not_lt_zero i)
  txStored i hi := absurd hi (Nat.not_lt_zero i)
  rxStored i hi := absurd hi (Nat.not_lt_zero i)
  command _ h := absurd h (by simp [State.reset])

/-- Settles O56: no step of a sound state faults, and a run from reset stays sound. -/
theorem noFaultIsReachable : Obligations.NoFaultIsReachable := by
  refine ⟨fun s hs => ⟨step_not_fault hs, step_not_bufferBound hs⟩, fun ms n => ?_⟩
  have hreset : SoundRun { State.reset with port := { State.reset.port with moves := ms } } :=
    ⟨transactionSound_reset.congr rfl rfl rfl, rfl⟩
  exact (runFor_soundRun n hreset).2

/-! ### Who writes STATE and ERR (20_memory R93, 60_exceptions R321) -/

/-- Settles O57: the micro-step W4 or R4 and W3 or R3 of the host, an invocation, and no other step. -/
theorem stateAndErrWriters : Obligations.StateAndErrWriters := by
  intro s t h
  obtain ⟨host, port, -, hstep⟩ := step_by_agent h
  obtain ⟨-, rfl⟩ | ⟨-, -, i, hi, hexec⟩ | ⟨hhost, r, i, hr, -, hi, hexec⟩ | ⟨rfl, hdel, hinv⟩ | ⟨-, m, hm⟩ := hstep
  · exact ⟨fun hne => absurd rfl hne, fun hne => absurd rfl hne⟩
  · obtain ⟨p, arg, f, v, rfl⟩ := exec_primitive_eq hi hexec
    exact ⟨fun hne => absurd rfl hne, fun hne => absurd rfl hne⟩
  · have hframe := exec_host_frame hi hexec
    have inProgress {k : MicroStep} (hk : host.step = k) (hne : k ≠ .m1) :
        s.host.step = k ∧ s.host.cmd.isSome = true := by
      obtain hm1 | rfl := hhost
      · exact absurd (hk.symm.trans hm1) hne
      · exact ⟨hk, hr ▸ rfl⟩
    refine ⟨fun hne => .inl ?_, fun hne => .inl ?_⟩
    · obtain ⟨hm4, hmaster⟩ := hframe.state.resolve_left hne.symm
      exact ⟨hmaster, inProgress hm4 (by decide)⟩
    · obtain ⟨hm3, hnone⟩ := hframe.err.resolve_left hne.symm
      exact ⟨hnone, inProgress hm3 (by decide)⟩
  · have hframe := invoke_frame hinv
    exact ⟨fun hne => .inr ⟨hframe.state.resolve_left hne.symm, hdel, hframe.host⟩,
      fun hne => .inr ⟨hframe.err.resolve_left hne.symm, hdel, hframe.host⟩⟩
  · obtain ⟨r, -, rfl⟩ := runEngine_eq_some hm
    exact ⟨fun hne => absurd rfl hne, fun hne => absurd rfl hne⟩

/-! ### The hold of W5 (41_master_api R197, 43_bus_engine R274) -/

/-- What a due repeated START asks of the engine is in CTRL1, CTRL2, MSL and PHASE. -/
theorem repeatedStartDue_of_kept {s t : State} (h : RepeatedStartDue s) (hinited : t.ctx.inited = s.ctx.inited)
    (hrsf : t.ctx.rsf = s.ctx.rsf) (hbus : t.port.bus = none) (hctrl1 : t.eng.ctrl1 = s.eng.ctrl1)
    (hctrl2 : t.eng.ctrl2 = s.eng.ctrl2) (hmsl : t.eng.flag .msl = s.eng.flag .msl)
    (hphase : t.eng.phase = .mSb ∨ t.eng.phase = .mAddr ∨ t.eng.phase = .mTx ∨ t.eng.phase = .mRx
      ∨ t.eng.phase = .mHold) : RepeatedStartDue t where
  inited := hinited.trans h.inited
  rsf := hrsf.trans h.rsf
  masked := by
    simp only [Engine.itEvtEn, Engine.itBufEn, Engine.itErrEn, hctrl2]
    exact h.masked
  noWord := hbus
  enabled := (Engine.pe_of_ctrl1 hctrl1).trans h.enabled
  requested := by
    simp only [Engine.startReq, Engine.stopReq, hctrl1]
    exact h.requested
  master := hmsl.trans h.master
  phase := hphase

theorem masterPhase_of_boundary {e : Engine} (h : AtMasterBoundary e) :
    e.phase = .mSb ∨ e.phase = .mAddr ∨ e.phase = .mTx ∨ e.phase = .mRx ∨ e.phase = .mHold := by
  obtain ⟨-, hp | hp | hp | ⟨hp, -⟩⟩ := h <;> simp [hp]

/-- Off the boundary a master's byte is on the wire: the address byte or a data byte. -/
theorem byteInProgress {s : State} (h : RepeatedStartDue s) (hb : ¬ AtMasterBoundary s.eng) :
    s.eng.phase = .mAddr ∨ (s.eng.phase = .mTx ∧ s.eng.shState = .busy) := by
  have hmsl := h.master
  obtain hp | hp | hp | hp | hp := h.phase
  · exact absurd ⟨hmsl, .inl hp⟩ hb
  · exact .inl hp
  · exact .inr ⟨hp, by_contra fun hsh => hb ⟨hmsl, .inr (.inr (.inr ⟨hp, hsh⟩))⟩⟩
  · exact absurd ⟨hmsl, .inr (.inl hp)⟩ hb
  · exact absurd ⟨hmsl, .inr (.inr (.inl hp))⟩ hb

/-- `d` is `e` with its byte in progress ended: the control registers and MSL as they were, and the boundary reached. -/
structure EndsByte (e d : Engine) : Prop where
  ctrl1 : d.ctrl1 = e.ctrl1
  ctrl2 : d.ctrl2 = e.ctrl2
  msl : d.flag .msl = e.flag .msl
  boundary : AtMasterBoundary d

/-- M_HOLD on a NACK, else M_RX or M_TX with an empty shift register: by the answer and the direction. -/
theorem stepAddress_endsByte {e : Engine} (hmsl : e.flag .msl = true) (hp : e.phase = .mAddr) (nack : Bool) :
    ∃ r, stepAddress nack e = some r ∧ EndsByte e r.1 := by
  refine ⟨_, if_pos hp, ?_⟩
  cases nack <;> cases e.data.getLsbD 0 <;>
    exact ⟨by simp, by simp, by simp [Engine.flag_mk, Engine.evHas_ev],
      by simp [AtMasterBoundary, Engine.flag_mk, Engine.evHas_ev, hmsl]⟩

/-- M_HOLD on a NACK, else M_TX with an empty shift register. -/
theorem stepMasterByteEnd_endsByte {e : Engine} (hmsl : e.flag .msl = true) (hp : e.phase = .mTx)
    (hsh : e.shState = .busy) (nack : Bool) : ∃ r, stepMasterByteEnd nack e = some r ∧ EndsByte e r.1 := by
  refine ⟨_, (stepMasterByteEnd_eq nack e).trans (if_pos ⟨hp, hsh⟩), ?_⟩
  cases nack <;> cases (e.flag .txe && !e.startReq && !e.stopReq) <;>
    exact ⟨by simp [byteEndEngine], by simp [byteEndEngine], by simp [byteEndEngine, Engine.flag_mk, Engine.evHas_ev],
      by simp [AtMasterBoundary, byteEndEngine, Engine.flag_mk, Engine.evHas_ev, hmsl, hp]⟩

/-- The byte in progress can end with either answer, and leaves the START due at the boundary. -/
theorem runEngine_endsByte {s : State} (h : RepeatedStartDue s) (hb : ¬ AtMasterBoundary s.eng) (nack : Bool) :
    ∃ t, runEngine Config.params (if s.eng.phase = .mAddr then .address nack else .masterByteEnd nack) s = some t
      ∧ RepeatedStartDue t ∧ AtMasterBoundary t.eng := by
  obtain ⟨r, hr, hends⟩ : ∃ r, engineStep Config.params
      (if s.eng.phase = .mAddr then .address nack else .masterByteEnd nack) s.eng = some r ∧ EndsByte s.eng r.1 := by
    obtain hp | ⟨hp, hsh⟩ := byteInProgress h hb
    · obtain ⟨r, hr, hends⟩ := stepAddress_endsByte h.master hp nack
      exact ⟨r, by rw [if_pos hp]; exact (if_pos h.enabled).trans hr, hends⟩
    · obtain ⟨r, hr, hends⟩ := stepMasterByteEnd_endsByte h.master hp hsh nack
      exact ⟨r, by rw [if_neg (by simp [hp])]; exact (if_pos h.enabled).trans hr, hends⟩
  refine ⟨{ s with eng := r.1, log := { s.log with wire := s.log.wire ++ r.2 } }, by rw [runEngine, hr], ?_,
    hends.boundary⟩
  exact repeatedStartDue_of_kept h rfl rfl h.noWord hends.ctrl1 hends.ctrl2 hends.msl
    (masterPhase_of_boundary hends.boundary)

/-- The repeated START is due and the engine stands at the byte boundary. -/
structure DueAtBoundary (s : State) : Prop where
  due : RepeatedStartDue s
  boundary : AtMasterBoundary s.eng

theorem startEnabled_of_due {s : State} (h : DueAtBoundary s) : startEnabled s = true := by
  obtain ⟨hstart, hstop⟩ := h.due.requested
  have hmb : s.eng.mb = true := (Engine.mb_iff _).2 h.boundary
  simp [startEnabled, engineStep, h.due.enabled, stepStart, hstart, hstop, hmb]

/-- What a step must leave for the START to stay due. -/
theorem dueAtBoundary_of_kept {s t : State} (h : DueAtBoundary s) (hinited : t.ctx.inited = s.ctx.inited)
    (hrsf : t.ctx.rsf = s.ctx.rsf) (hbus : t.port.bus = none) (hctrl1 : t.eng.ctrl1 = s.eng.ctrl1)
    (hctrl2 : t.eng.ctrl2 = s.eng.ctrl2) (hphase : t.eng.phase = s.eng.phase) (hsh : t.eng.shState = s.eng.shState)
    (hmsl : t.eng.flag .msl = s.eng.flag .msl) : DueAtBoundary t := by
  have hb : AtMasterBoundary t.eng := by
    rw [AtMasterBoundary, hphase, hsh, hmsl]
    exact h.boundary
  exact ⟨repeatedStartDue_of_kept h.due hinited hrsf hbus hctrl1 hctrl2 hmsl (masterPhase_of_boundary hb), hb⟩

theorem dueAtBoundary_of_eng {s t : State} (h : DueAtBoundary s) (hinited : t.ctx.inited = s.ctx.inited)
    (hrsf : t.ctx.rsf = s.ctx.rsf) (hbus : t.port.bus = none) (heng : t.eng = s.eng) : DueAtBoundary t :=
  dueAtBoundary_of_kept h hinited hrsf hbus (heng ▸ rfl) (heng ▸ rfl) (heng ▸ rfl) (heng ▸ rfl) (heng ▸ rfl)

theorem consume_bus (s : State) : (consume s).port.bus = none := by
  unfold consume
  split
  · rfl
  · next hb => exact (nextMove_bus s).trans hb

/-- SB has come, and W5 has not been left. -/
def StartTaken (s : State) : Prop := s.eng.flag .sb = true ∧ s.ctx.rsf = true

/-- While SB = 0 the host holds, no notification is deliverable and no word is on the bus, so an engine step alone can
change anything: it performs the START or leaves it due. -/
theorem step_holds {s t : State} (hd : DueAtBoundary s) (hsb : s.eng.flag .sb = false) (h : step s = .next t) :
    DueAtBoundary t ∨ StartTaken t := by
  obtain ⟨host, port, hbus, hstep⟩ := step_by_agent h
  obtain ⟨hevt, -, herr⟩ := hd.due.masked
  obtain ⟨-, rfl⟩ | ⟨-, hword, -⟩ | ⟨-, r, i, -, -, hi, hexec⟩ | ⟨-, hdel, -⟩ | ⟨-, m, hm⟩ := hstep
  · exact .inl (dueAtBoundary_of_eng hd rfl rfl hbus rfl)
  · exact absurd hd.due.noWord hword
  · obtain ⟨heng, hrsf, hinited⟩ := exec_host_held hi hexec hd.due.inited hd.due.rsf hsb
    have hport : t.port = port := (exec_host_frame hi hexec).port
    exact .inl (dueAtBoundary_of_eng hd hinited hrsf (hport ▸ hbus) heng)
  · exact absurd hdel (by simp [not_deliverable_of_disabled hevt herr])
  · obtain ⟨r, hr, rfl⟩ := runEngine_eq_some hm
    obtain ⟨hstart, hstop⟩ := hd.due.requested
    obtain htaken | ⟨hctrl1, hctrl2, hphase, hsh, hmsl⟩ :=
      engineStep_held hr hstart hstop ((Engine.mb_iff _).2 hd.boundary)
    · exact .inr ⟨htaken, hd.due.rsf⟩
    · exact .inl (dueAtBoundary_of_kept hd rfl rfl hbus hctrl1 hctrl2 hphase hsh hmsl)

/-- A step that stops leaves all but the port and the marks. -/
theorem runStep_holds {s : State} (hd : DueAtBoundary s) (hsb : s.eng.flag .sb = false) :
    DueAtBoundary (runStep s) ∨ StartTaken (runStep s) := by
  cases h : step s with
  | next t =>
    rw [runStep_next h]
    exact step_holds hd hsb h
  | fault f =>
    rw [runStep_fault h]
    exact .inl (dueAtBoundary_of_eng hd rfl rfl (consume_bus s) rfl)
  | refused f =>
    rw [runStep_of_refused h]
    exact .inl (dueAtBoundary_of_eng hd rfl rfl (consume_bus s) rfl)

/-- In every run SB comes, or the START step is enabled and RSF = 1. -/
theorem runFor_holds {s : State} (hd : DueAtBoundary s) (n : Nat) :
    (∃ k, k ≤ n ∧ StartTaken (runFor k s)) ∨ DueAtBoundary (runFor n s) := by
  induction n generalizing s with
  | zero => exact .inr hd
  | succ n ih =>
    cases hsb : s.eng.flag .sb with
    | true => exact .inl ⟨0, Nat.zero_le _, hsb, hd.due.rsf⟩
    | false =>
      obtain hdue | htaken := runStep_holds hd hsb
      · exact (ih hdue).imp_left fun ⟨k, hk, ht⟩ => ⟨k + 1, Nat.succ_le_succ hk, ht⟩
      · exact .inl ⟨1, Nat.le_add_left 1 n, htaken⟩

/-- So a run in which SB never comes keeps the START step enabled for ever. -/
theorem startTaken_or_unfair {s : State} (hd : DueAtBoundary s) :
    (∃ k, StartTaken (runFor k s)) ∨ ¬ WeaklyFair fun n => runFor n s := by
  by_contra hcon
  obtain ⟨hnever, hfair⟩ := not_or.1 hcon
  obtain ⟨k, -, hdisabled⟩ := (not_not.1 hfair).1 0
  obtain ⟨j, -, ht⟩ | hdue := runFor_holds hd k
  · exact hnever ⟨j, ht⟩
  · exact absurd (startEnabled_of_due hdue) (by simpa using hdisabled)

/-- Settles O22: the byte in progress ends, the START stays due until SB comes, and the three cases of W5. -/
theorem writeTrigger : Obligations.WriteTrigger := by
  refine ⟨fun s h hb nack => runEngine_endsByte h hb nack, fun s h hb => ⟨fun n => ?_, ?_⟩,
    fun a7 stop wait len s h5 => ?_⟩
  · exact (runFor_holds ⟨h, hb⟩ n).imp_right fun hd => ⟨startEnabled_of_due hd, hd.due.rsf⟩
  · exact startTaken_or_unfair ⟨h, hb⟩
  · rw [exec_write_m5 a7 stop wait len h5]
    cases hrsf : s.ctx.rsf with
    | false => simp [trigger, hrsf, goTo, issueGenStart, issue]
    | true =>
      cases hsb : s.eng.flag .sb with
      | false => simp [trigger_held hrsf hsb]
      | true => simp [trigger, hrsf, hsb, goTo, issueSendByte, issueSetNotify, issue]

/-! ### The frames of a primitive, a host micro-step, an invocation and an engine step -/

/-- Settles O16: a primitive that runs alone is one issue, with its reply. -/
theorem primitiveFrame : Obligations.PrimitiveFrame := by
  refine fun i s hi => ⟨(exec_primitive_stops hi).1, fun t h => ?_⟩
  obtain ⟨p, arg, f, v, rfl⟩ := exec_primitive_eq hi h
  exact ⟨⟨p, arg, issuedAlone_withReply v p arg f s⟩, rfl, rfl, rfl, rfl, fun _ _ => rfl⟩

/-- Only a cell the relation allows can change. -/
theorem allowed_of_cell_ne {A : BufName → Nat → Prop} {s t : State} (h : CellsKept A s t) {n : BufName} {k : Nat}
    (hne : t.cell n k ≠ s.cell n k) : A n k :=
  by_contra fun hA => hne (h n k hA)

/-- Settles O29: the host's frame and the cells W3 loads. -/
theorem hostMicroStepFrame : Obligations.HostMicroStepFrame := by
  intro i s t hi h
  have hframe := exec_host_frame hi h
  have hcells := exec_host_cells hi h
  exact ⟨hframe.wire, hframe.cbLog, hframe.marks, hframe.client, hframe.port, hframe.txLen, hframe.txCur, hframe.rxCur,
    fun n k hn => hcells n k fun hA => hn hA.1, fun k hne => (allowed_of_cell_ne hcells hne).2, hframe.act⟩

/-- Settles O42: the dispatcher's frame and the cells an invocation may change. -/
theorem dispatcherFrameHolds : Obligations.DispatcherFrameHolds := by
  intro s t h
  have hframe := invoke_frame h
  have hcells {n k} (hne : t.cell n k ≠ s.cell n k) := allowed_of_cell_ne (invoke_cells h) hne
  refine ⟨hframe.host, hframe.marks, hframe.port, hframe.wire, hframe.pa, hframe.sendStop, hframe.mLen, hframe.cb,
    hframe.inited, hframe.eng.pe, hframe.eng.oaddr, hframe.state, hframe.rsf, hframe.err, hframe.act, hframe.cbLog,
    fun k hne => ?_, fun k hne => ?_, fun k hne => ?_⟩
  · have hA := hcells hne
    split at hA
    · next hmsl => exact ⟨hmsl, hA.2, hA.1.2⟩
    · exact hA.elim
  · have hA := hcells hne
    split at hA
    · exact absurd hA.1.1 (by decide)
    · next hmsl => exact ⟨Bool.eq_false_of_not_eq_true hmsl, hA⟩
  · have hA := hcells hne
    split at hA
    · exact absurd hA.1.1 (by decide)
    · next hmsl => exact ⟨Bool.eq_false_of_not_eq_true hmsl, hA⟩

theorem getLsbD_of_putBit_false {w : Nat} {v : BitVec w} {i k : Nat} (hi : i < w)
    (h : (putBit v i false).getLsbD k = true) : v.getLsbD k = true := by
  rw [getLsbD_putBit v i k false hi] at h
  split at h
  · exact absurd h (by simp)
  · exact h

theorem ctrl1_of_startCleared {e : Engine} {k : Nat} (h : (e.setStartReq false).ctrl1.getLsbD k = true) :
    e.ctrl1.getLsbD k = true :=
  getLsbD_of_putBit_false (by decide) h

theorem ctrl1_of_stopCleared {e : Engine} {k : Nat} (h : (e.setStopReq false).ctrl1.getLsbD k = true) :
    e.ctrl1.getLsbD k = true :=
  getLsbD_of_putBit_false (by decide) h

@[simp] theorem setStartReq_oaddr (e : Engine) (b : Bool) : (e.setStartReq b).oaddr = e.oaddr := rfl
@[simp] theorem setStartReq_ctrl2 (e : Engine) (b : Bool) : (e.setStartReq b).ctrl2 = e.ctrl2 := rfl
@[simp] theorem setStopReq_oaddr (e : Engine) (b : Bool) : (e.setStopReq b).oaddr = e.oaddr := rfl
@[simp] theorem setStopReq_ctrl2 (e : Engine) (b : Bool) : (e.setStopReq b).ctrl2 = e.ctrl2 := rfl

/-- What an engine step leaves of the registers beside EV, and how much it says on the wire: it clears requests in CTRL1
and sets none. -/
structure EngineStepKept (e : Engine) (r : EngineStep) : Prop where
  oaddr : r.1.oaddr = e.oaddr
  ctrl2 : r.1.ctrl2 = e.ctrl2
  ctrl1 : ∀ k, r.1.ctrl1.getLsbD k = true → e.ctrl1.getLsbD k = true
  oneSymbol : r.2.length ≤ 1

theorem EngineStepKept.of_eq {e : Engine} {r : EngineStep} (h1 : r.1.oaddr = e.oaddr) (h2 : r.1.ctrl2 = e.ctrl2)
    (h3 : r.1.ctrl1 = e.ctrl1) (h4 : r.2.length ≤ 1) : EngineStepKept e r :=
  ⟨h1, h2, fun _ hk => h3 ▸ hk, h4⟩

theorem byteEndEngine_kept (nack drained : Bool) (hold : Phase) (e : Engine) (sym : WireSym) :
    EngineStepKept e (byteEndEngine nack drained hold e, [sym]) := by
  cases nack <;> cases drained <;>
    exact .of_eq (by simp [byteEndEngine]) (by simp [byteEndEngine]) (by simp [byteEndEngine]) le_rfl

theorem engineStep_kept {p : Config.Params} {m : Config.EngineMove} {e : Engine} {r : EngineStep}
    (hr : engineStep p m e = some r) : EngineStepKept e r := by
  simp only [engineStep, Option.ite_none_right_eq_some] at hr
  obtain ⟨-, hr⟩ := hr
  cases m with
  | start =>
    simp only [stepStart, Option.ite_none_right_eq_some, Option.some.injEq] at hr
    obtain ⟨-, rfl⟩ := hr
    exact ⟨by simp, by simp, fun _ hk => ctrl1_of_startCleared (by simpa using hk), le_rfl⟩
  | stop =>
    simp only [stepStop, Option.ite_none_right_eq_some, Option.some.injEq] at hr
    obtain ⟨-, rfl⟩ := hr
    exact ⟨by simp, by simp, fun _ hk => ctrl1_of_stopCleared (by simpa using hk), le_rfl⟩
  | loseArbitration =>
    simp only [stepLoseArbitration, Option.ite_none_right_eq_some, Option.some.injEq] at hr
    obtain ⟨-, rfl⟩ := hr
    refine ⟨by simp, by simp, fun k hk => ?_, le_rfl⟩
    have hcleared := ctrl1_of_startCleared (ctrl1_of_stopCleared hk)
    simpa using hcleared
  | inject i =>
    obtain ⟨f, rfl⟩ := stepInject_eq_some hr
    exact .of_eq rfl rfl rfl le_rfl
  | load | remoteStart | remoteRestart =>
    simp only [stepLoad, stepRemoteStart, stepRemoteRestart, Option.ite_none_right_eq_some, Option.some.injEq] at hr
    obtain ⟨-, rfl⟩ := hr
    exact .of_eq (by simp) (by simp) (by simp) (by simp)
  | remoteStop =>
    simp only [stepRemoteStop, Option.ite_none_right_eq_some, Option.some.injEq] at hr
    obtain ⟨-, rfl⟩ := hr
    by_cases hp : e.phase = .sRx <;> simp only [hp, if_true, if_false] <;>
      exact .of_eq (by simp) (by simp) (by simp) le_rfl
  | address nack =>
    simp only [stepAddress, Option.ite_none_right_eq_some, Option.some.injEq] at hr
    obtain ⟨-, rfl⟩ := hr
    cases nack <;> cases e.data.getLsbD 0 <;> exact .of_eq (by simp) (by simp) (by simp) le_rfl
  | masterByteEnd nack =>
    simp only [stepMasterByteEnd_eq, Option.ite_none_right_eq_some, Option.some.injEq] at hr
    obtain ⟨-, rfl⟩ := hr
    exact byteEndEngine_kept nack _ .mHold e _
  | slaveByteEnd nack =>
    simp only [stepSlaveByteEnd_eq, Option.ite_none_right_eq_some, Option.some.injEq] at hr
    obtain ⟨-, rfl⟩ := hr
    exact byteEndEngine_kept nack _ .sHold e _
  | receive b =>
    simp only [stepReceive, Option.ite_none_right_eq_some, Option.some.injEq] at hr
    obtain ⟨-, rfl⟩ := hr
    cases e.flag .rxne <;> cases (!e.ackOn && e.phase == .mRx) <;> exact .of_eq (by simp) (by simp) (by simp) le_rfl
  | slaveAddress a7 rw otherNack =>
    simp only [stepSlaveAddress, Option.ite_none_right_eq_some] at hr
    obtain ⟨-, hr⟩ := hr
    split at hr
    · obtain rfl := Option.some.inj hr
      cases rw <;> exact .of_eq (by simp) (by simp) (by simp) le_rfl
    · obtain rfl := Option.some.inj hr
      exact .of_eq (by simp) (by simp) (by simp) le_rfl

/-- Settles O43: with PE = 0 no step, and what each step that runs leaves. -/
theorem engineStepFrame : Obligations.EngineStepFrame := by
  refine fun p m s => ⟨fun hpe => by rw [runEngine, engineStep_disabled hpe], fun t h => ?_⟩
  obtain ⟨r, hr, rfl⟩ := runEngine_eq_some h
  have hkept := engineStep_kept hr
  exact ⟨⟨r.2, hkept.oneSymbol, rfl⟩, hkept.oaddr, hkept.ctrl2, hkept.ctrl1⟩

/-! ### What the command port refuses (41_master_api R192, R200, R207) -/

theorem issueCommand_busy {r : Config.Request} {i : Instr} {s : State} (hd : decode r.word = .ok i)
    (hi : i.isPrimitive = false) (hc : s.host.cmd ≠ none) : issueCommand r s = .refused .hostBusy := by
  simp [issueCommand, hd, hi, Option.isSome_iff_ne_none.2 hc]

theorem issueCommand_idle {r : Config.Request} {i : Instr} {s : State} (hd : decode r.word = .ok i)
    (hi : i.isPrimitive = false) (hc : s.host.cmd = none) : issueCommand r s = exec i (latch r s) := by
  simp [issueCommand, hd, hi, hc]

theorem whenAllowed_not_inited {b : Bool} {s : State} (hi : ¬ s.ctx.inited = true) (k : Res State) :
    whenAllowed b s k = .error (.refuse .notInitialized) :=
  if_neg hi

theorem whenAllowed_shape {b : Bool} {s : State} (hi : s.ctx.inited = true) (hb : ¬ b = true) (k : Res State) :
    whenAllowed b s k = .error (.refuse .operandShape) := by
  rw [whenAllowed, if_pos hi, if_neg hb]

/-- A WRITE or READ put on the port is refused for a reason that holds: the port's, or one its first micro-step
checks. -/
theorem step_issue_refused {r : Config.Request} {ms : List Config.Move} {s : State} {i : Instr} {b : Bool}
    {k : State → Res State} (hbus : s.port.bus = none) (hm : s.port.moves = .issue r :: ms)
    (hd : decode r.word = .ok i) (hi : i.isPrimitive = false)
    (hexec : ∀ u, exec i (latch r u) = toOutcome (whenAllowed b (latch r u) (k u)))
    (h : s.ctx.inited = false ∨ b = false ∨ s.host.cmd ≠ none) :
    ∃ f, step s = .refused f ∧ ((f = .notInitialized ∧ s.ctx.inited = false) ∨ (f = .operandShape ∧ b = false)
      ∨ (f = .hostBusy ∧ s.host.cmd ≠ none)) := by
  obtain ⟨u, hstep, hhost, hctx⟩ : ∃ u : State, step s = issueCommand r u ∧ u.host = s.host ∧ u.ctx = s.ctx :=
    ⟨_, step_issue hbus hm, rfl, rfl⟩
  rw [← hhost, ← hctx] at h ⊢
  rw [hstep]
  by_cases hc : u.host.cmd = none
  · rw [issueCommand_idle hd hi hc, hexec]
    by_cases hinit : u.ctx.inited = true
    · obtain hb : b = false := by simpa [hinit, hc] using h
      rw [whenAllowed_shape (s := latch r u) hinit (by simp [hb])]
      exact ⟨_, rfl, .inr (.inl ⟨rfl, hb⟩)⟩
    · rw [whenAllowed_not_inited (s := latch r u) hinit]
      exact ⟨_, rfl, .inl ⟨rfl, Bool.eq_false_of_not_eq_true hinit⟩⟩
  · exact ⟨_, issueCommand_busy hd hi hc, .inr (.inr ⟨rfl, hc⟩)⟩

/-- Settles O18: WRITE, READ, then the other commands while one is in progress. -/
theorem hostCommandRefusals : Obligations.HostCommandRefusals := by
  refine fun r ms s hbus hm => ⟨fun a7 stop wait len hd h => ?_, fun a7 stop len hd h => ?_, fun i hd hi hc => ?_⟩
  · obtain ⟨f, hf, hwhy⟩ := step_issue_refused (b := r.data.length == (lengthOf len).toNat) hbus hm hd rfl
      (fun u => exec_write_m1 a7 stop wait len (s := latch r u) rfl) (by simpa using h)
    exact ⟨f, hf, by simpa using hwhy, runStep_refused hbus hm hf⟩
  · have hout u : (latch r u).host.operands.out = r.out := rfl
    obtain ⟨f, hf, hwhy⟩ := step_issue_refused (b := decide ((lengthOf len).toNat ≤ r.out.length)) hbus hm hd rfl
      (fun u => exec_read_m1 a7 stop len (s := latch r u) rfl) (by simpa using h)
    exact ⟨f, hf, by simpa using hwhy, runStep_refused hbus hm hf⟩
  · have hprim : i.isPrimitive = false := by
      obtain rfl | rfl | ⟨a7, rfl⟩ := hi <;> rfl
    have hf : step s = .refused .hostBusy := (step_issue hbus hm).trans (issueCommand_busy hd hprim hc)
    exact ⟨_, hf, .inl rfl, runStep_refused hbus hm hf⟩

/-! ### The completion of a WRITE and the result of a READ (R198, R204) -/

section
variable {s : State} (a7 : Addr7) (stop wait : Bool) (len : BitVec 15)

theorem exec_write_m6 (h : s.host.step = .m6) :
    exec (.write a7 stop wait len) s = toOutcome (finishWrite wait s) := by
  simp only [exec, execWrite, writeStep, h]

theorem exec_read_m7 (h : s.host.step = .m7) :
    exec (.read a7 stop len) s = toOutcome (finishRead Config.params s) := by
  simp only [exec, execRead, readStep, h]

theorem exec_read_m8 (h : s.host.step = .m8) :
    exec (.read a7 stop len) s = toOutcome (timeoutRead Config.params s) := by
  simp only [exec, execRead, readStep, h]

end

theorem finishWrite_named {s : State} (hs : ∀ v, s.ctx.state ≠ .unused v) :
    finishWrite true s =
      if s.ctx.state = .ready then
        if s.ctx.err = .none then .ok (returnWith .ok s) else .ok (returnWith (.err s.ctx.err) s)
      else .ok s := by
  simp only [finishWrite, if_true, withState_named _ hs]

/-- Settles O23: with no wait at once, else by STATE and then ERR. -/
theorem writeCompletion : Obligations.WriteCompletion := by
  intro a7 stop wait len s h hs
  rw [exec_write_m6 a7 stop wait len h]
  cases wait with
  | false => exact exists_returnedOnly rfl
  | true =>
    rw [if_neg (by simp), finishWrite_named hs]
    by_cases hready : s.ctx.state = .ready
    · rw [if_neg (not_not.2 hready), if_pos hready]
      by_cases herr : s.ctx.err = .none
      · rw [if_neg (not_not.2 herr), if_pos herr]
        exact exists_returnedOnly rfl
      · rw [if_pos herr, if_neg herr]
        exact exists_returnedOnly rfl
    · rw [if_pos hready, if_neg hready]
      rfl

/-- The copy-out of `n` written cells to the front of the host's array. -/
theorem deliver_written {n : Nat} {s : State} (hn : n ≤ cap) (hw : Written s .mbuf n) :
    ∃ out, deliver Config.params n s = .ok (returnWith (.okCount n) { s with host := { s.host with out := out } })
      ∧ out.length = s.host.out.length
      ∧ ∀ k, k < s.host.out.length → out[k]? = if k < n then s.cell .mbuf k else s.host.out[k]? := by
  obtain ⟨bytes, hbytes⟩ := memReadSeq_written (p := Config.params) (n := .mbuf) (i := 0) (k := n) (s := s)
    (by simpa using hn) fun j _ hj => hw j (by simpa using hj)
  obtain ⟨-, hlen, hcell⟩ := memReadSeq_eq_ok hbytes
  refine ⟨copyOut bytes s.host.out, by rw [deliver, hbytes, andThen_ok], copyOut_length .., fun k hk => ?_⟩
  rw [copyOut_getElem? _ _ hk, hlen]
  refine ite_congr rfl (fun hkn => ?_) fun _ => rfl
  simpa using (hcell k hkn).symm

/-- Settles O26: the error at R7, then the copy-out R7 and R8 share. -/
theorem readResult : Obligations.ReadResult := by
  refine fun a7 stop len s => ⟨fun h herr => ?_, fun n hcase hn hw => ?_⟩
  · rw [exec_read_m7 a7 stop len h, finishRead, if_neg herr]
    exact exists_returnedOnly rfl
  · obtain ⟨out, hdeliver, hlen, hout⟩ := deliver_written hn hw
    have hexec : exec (.read a7 stop len) s = toOutcome (deliver Config.params n s) := by
      obtain ⟨h, herr, rfl⟩ | ⟨h, rfl⟩ := hcase
      · rw [exec_read_m7 a7 stop len h, finishRead, if_pos herr]
        rfl
      · exact exec_read_m8 a7 stop len h
    exact ⟨_, by rw [hexec, hdeliver, toOutcome_ok], rfl, hlen, hout⟩

/-! ### A STATE code the spec leaves unused (10_state R33) -/

theorem withState_unused {α : Type} {s : State} {v : Fin 3} (h : s.ctx.state = .unused v)
    (f : ControllerState → Res α) : withState s f = .error (.fault .badState) := by
  rw [withState, h]

theorem roleBranch_unused {p : Config.Params} {ev : EvWord} {nackp0 : Bool} {s : State} {v : Fin 3}
    (hs : s.ctx.state = .unused v) (h : evHas ev .msl = true ∨ evHas ev .addr = false) :
    roleBranch p ev nackp0 s = .error (.fault .badState) := by
  by_cases hm : evHas ev .msl = true
  · have hctx : (afterMasterSb ev s).ctx.state = .unused v := by
      rw [afterMasterSb]
      split <;> exact hs
    rw [roleBranch, if_pos hm, masterRole]
    simp only [hctx]
  · have ha : evHas ev .addr = false := h.resolve_left hm
    simp [roleBranch, hm, slaveRole, ha, hs]

/-- Settles O28: each place that tests or reports STATE. -/
theorem unusedStateFaults : Obligations.UnusedStateFaults := by
  refine fun v s hs => ⟨?_, fun a7 stop wait len h => ?_, fun a7 stop len h => ?_,
    fun p ev nackp0 h => roleBranch_unused hs h⟩
  · rw [exec, execStatus, withState_unused hs, toOutcome_fault]
  · obtain h | ⟨h, rfl⟩ := h
    · rw [exec_write_m2 a7 stop wait len h, checkState, withState_unused hs, toOutcome_fault]
    · rw [exec_write_m6 a7 stop true len h, finishWrite, if_pos rfl, withState_unused hs, toOutcome_fault]
  · obtain h | h := h
    · rw [exec_read_m2 a7 stop len h, checkState, withState_unused hs, toOutcome_fault]
    · rw [exec_read_m6 a7 stop len h, poll, withState_unused hs, toOutcome_fault]

/-! ### MRX and RX_STORE (40_dispatcher R160, R161) -/

theorem mrxAddr_eq (s : State) :
    mrxAddr s =
      if s.ctx.mCur.toNat < s.ctx.mLen.toNat then
        { s with eng := s.eng.setAck true, log := (s.acted [did .setAck 1]).log }
      else
        { s with
          ctx := { s.ctx with nackp := true }, eng := s.eng.setAck false, log := (s.acted [did .setAck 0]).log } := by
  rw [mrxAddr]
  exact if_congr BitVec.lt_def rfl rfl

/-- A byte is due exactly while M_CUR has not reached M_LEN, and then it is RX_STORE's. -/
theorem mrx_store {p : Config.Params} {ev : EvWord} {s : State} (hr : evHas ev .rxne = true) :
    mrx p ev false s = andThen
      (if s.ctx.mCur = s.ctx.mLen then .ok (afterMrxAddr ev s) else rxStore p (afterMrxAddr ev s))
      fun u => if evHas ev .af = true then mrxNack p ev false u else .ok u := by
  by_cases hm : s.ctx.mCur = s.ctx.mLen
  · simp [mrx, hr, rxDue, hm]
  · simp [mrx, hr, rxDue, hm, mrxData]

theorem rxStore_overrun {p : Config.Params} {s : State} (h : s.ctx.mLen ≤ s.ctx.mCur) :
    rxStore p s = .error (.fault .cursorOverrun) :=
  if_pos h

/-- The cursor reaches the length with this byte exactly where one byte was left. -/
theorem add_one_eq_iff {c l : Half} (h : c < l) : c + 1 = l ↔ c.toNat + 1 = l.toNat := by
  rw [BitVec.lt_def] at h
  rw [← BitVec.toNat_inj]
  constructor <;> intro h' <;> bv_omega

/-- RX_STORE of an armed byte: the byte is stored, then ACK by whether a further one is armed. -/
theorem rxStore_armed {p : Config.Params} {s : State} (h : s.ctx.mCur < s.ctx.mLen)
    (hcap : s.ctx.mCur.toNat < p.bufCap) :
    rxStore p s = .ok
      (if s.ctx.mCur.toNat + 1 = s.ctx.mLen.toNat then { s with
          ctx := { s.ctx with mCur := s.ctx.mCur + 1, nackp := true }
          eng := s.eng.recvByte.setAck false
          buf := s.buf.put .mbuf ((s.buf.get .mbuf).write s.ctx.mCur.toNat s.eng.data)
          log := (s.acted [did .recvByte 0, did .setAck 0]).log }
        else { s with
          ctx := { s.ctx with mCur := s.ctx.mCur + 1 }
          eng := s.eng.recvByte.setAck true
          buf := s.buf.put .mbuf ((s.buf.get .mbuf).write s.ctx.mCur.toNat s.eng.data)
          log := (s.acted [did .recvByte 0, did .setAck 1]).log }) := by
  rw [rxStore, if_neg (BitVec.not_le.2 h), memWrite_eq_ok.2 ⟨hcap, rfl⟩, andThen_ok]
  simp only [← add_one_eq_iff h]
  by_cases hlast : s.ctx.mCur + 1 = s.ctx.mLen
  · rw [if_pos hlast]
    refine (if_pos hlast).trans ?_
    simp only [acted_pair_log]
    rfl
  · rw [if_neg hlast]
    refine (if_neg hlast).trans ?_
    simp only [acted_pair_log]
    rfl

/-- Settles O35: MRX on ADDR, on RxNE, and RX_STORE past and below M_LEN. -/
theorem masterReceiveStore : Obligations.MasterReceiveStore := by
  refine ⟨mrxAddr_eq, fun p ev s hr => mrx_store hr, fun p s h => rxStore_overrun h, fun p s h hcap => ?_⟩
  refine ⟨_, rxStore_armed h hcap, ?_⟩
  by_cases hlast : s.ctx.mCur.toNat + 1 = s.ctx.mLen.toNat
  · simp only [if_pos hlast, and_true]
    exact oneCellWritten_of_buf rfl
  · simp only [if_neg hlast, and_true]
    exact oneCellWritten_of_buf rfl

/-! ### Arbitration (43_bus_engine R289) -/

theorem arbitrationLostAt_cons (m o : Bool) (ms os : List Bool) :
    arbitrationLostAt (m :: ms) (o :: os) =
      if m = true ∧ o = false then some 0 else (arbitrationLostAt ms os).map (· + 1) := by
  cases m <;> cases o <;> simp [arbitrationLostAt, wiredAnd]

/-- Settles O52, by induction on the bits: the first pair decides, or the rest does one place later. -/
theorem arbitrationDetected : Obligations.ArbitrationDetected := by
  intro mine
  induction mine with
  | nil => intro others k _; simp [arbitrationLostAt]
  | cons m ms ih =>
    intro others k hlen
    cases others with
    | nil => exact absurd hlen (by simp)
    | cons o os =>
      have hlen : ms.length = os.length := by simpa using hlen
      rw [arbitrationLostAt_cons]
      by_cases hlost : m = true ∧ o = false
      · obtain ⟨rfl, rfl⟩ := hlost
        cases k with
        | zero => simp
        | succ k =>
          simp only [and_self, if_true, Option.some.injEq]
          refine iff_of_false (by simp) fun h => h.2.2 0 (Nat.succ_pos k) ⟨rfl, rfl⟩
      · rw [if_neg hlost]
        cases k with
        | zero => simp [hlost]
        | succ k =>
          have hrest := ih os k hlen
          simp only [Option.map_eq_some_iff, Nat.add_right_cancel_iff, exists_eq_right, hrest, List.getElem?_cons_succ]
          refine and_congr_right fun _ => and_congr_right fun _ => ⟨fun h j hj => ?_, fun h j hj => ?_⟩
          · cases j with
            | zero => simpa using hlost
            | succ j => simpa using h j (by omega)
          · simpa using h (j + 1) (by omega)

/-! ### The step of each move, and of a word placed for it -/

/-- The step that takes the move at the front of the schedule. -/
theorem step_of_move {s : State} {m : Config.Move} {ms : List Config.Move} (hb : s.port.bus = none)
    (hm : s.port.moves = m :: ms) : step s = perform m { s with port := { s.port with moves := ms } } := by
  simp [step, advance, hb, nextMove, hm]

theorem step_of_word {s : State} {w : CmdWord} (hb : s.port.bus = some w) :
    step s = runBus w { s with port := { s.port with bus := none } } := by
  simp [step, advance, hb]

theorem runBus_primitive {w : CmdWord} {i : Instr} (hd : decode w = .ok i) (hi : i.isPrimitive = true) (s : State) :
    runBus w s = exec i s := by
  simp [runBus, hd, hi]

theorem hostMove_next {r : Config.Request} {i : Instr} {s : State} (hc : s.host.cmd = some r)
    (hd : decode r.word = .ok i) (hi : i.isPrimitive = false) : hostMove s = exec i s := by
  simp [hostMove, hc, hd, hi]

theorem engineMove_eq (m : Config.EngineMove) (s : State) :
    engineMove m s = .next ((runEngine Config.params m s).getD s) := by
  rw [engineMove]
  cases runEngine Config.params m s <;> rfl

theorem withFetchWord_toNat (s : State) (w : CmdWord) : s.withFetchWord 32 w.toNat = placeWord w s := by
  rw [State.withFetchWord, Nat.mod_eq_of_lt w.isLt, BitVec.ofNat_toNat, BitVec.setWidth_eq]

/-- The class of a word that decodes says whether it is a primitive's (R110). -/
theorem classOf_of_decode {w : CmdWord} {i : Instr} (h : decode w = .ok i) :
    classOf w = if i.isPrimitive then 0x0#4 else 0x1#4 := by
  rw [← (wf_and_encode_of_decode h).2]
  cases i with
  | sendByte | recvByte | genStart | genStop | setAck | clearFlag | setNotify | readEvent | setOwnAddr | setEnable =>
    exact classOf_wordP _ _
  | init | write | read | registerCallbacks | status => exact classOf_wordH _ _ _ _ _

/-- Settles O8: each kind of move, and the word placed for the very next step. -/
theorem stepRunsDecodedCommand : Obligations.StepRunsDecodedCommand := by
  refine ⟨fun s w i hb hd hi => ?_, fun s r ms i hb hm hd hi hc => ?_, fun s r ms i hb hm hc hd hi => ?_,
    fun s ms hb hm => ?_, fun s m ms hb hm => ?_, fun s w i hd => ?_⟩
  · rw [step_of_word hb, runBus_primitive hd hi]
  · exact (step_of_move hb hm).trans (issueCommand_idle hd hi hc)
  · exact (step_of_move hb hm).trans (hostMove_next hc hd hi)
  · exact step_of_move hb hm
  · exact (step_of_move hb hm).trans (engineMove_eq m _)
  · have hclass := classOf_of_decode hd
    rw [withFetchWord_toNat, placeWord, hclass]
    cases hi : i.isPrimitive with
    | true =>
      simp only [if_true]
      rw [step_of_word (w := w) rfl, runBus_primitive hd hi]
    | false =>
      rw [if_neg (by simp), if_neg (by simp), step_of_move rfl rfl]
      exact issueCommand_idle hd hi rfl

/-! ### Reset (70_reset R350, R351) -/

theorem readReg_unnamed (s : State) (k : Nat) : readReg s (k + 24) = .error .noSuchRegister := rfl

theorem readReg_reset (k : Nat) :
    readReg State.reset k = if k ≤ 13 ∨ (16 ≤ k ∧ k ≤ 23) then .ok 0 else .error .noSuchRegister := by
  by_cases h : k < 24
  · revert k
    decide
  · obtain ⟨j, rfl⟩ := Nat.exists_eq_add_of_le' (not_lt.1 h)
    rw [readReg_unnamed, if_neg (by omega)]

theorem cell_reset (n : BufName) (k : Nat) : State.reset.cell n k = none := by
  cases n <;> rfl

/-- Settles O59: the registers by number, then every other part of the state. -/
theorem resetValues : Obligations.ResetValues :=
  ⟨readReg_reset, cell_reset, rfl, rfl, rfl, rfl, rfl, by decide,
    fun p m => by rw [runEngine, engineStep_disabled (by decide)]⟩

/-- Settles O60: at reset the buffers are empty and the engine is off with every bit clear. -/
theorem resetMeetsInvariants : Obligations.ResetMeetsInvariants :=
  ⟨transactionSound_reset, ⟨Memory.wf_nil, Memory.wf_nil, Memory.wf_nil⟩, fun n i _ => cell_reset n i,
    ⟨by decide, by decide, by decide, by decide⟩, ⟨fun _ => rfl, fun _ => rfl⟩,
    ⟨fun h => Phase.noConfusion h, fun h => absurd h (by decide), fun h => absurd h (by decide)⟩,
    fun h => absurd h (by decide), rfl, rfl⟩

/-! ### The wire beneath the byte steps (43_bus_engine R284–R290) -/

/-- A moment with SCL low ends a bit: before the next bit's clock the sampler and the edge counters see nothing. -/
theorem lowClock_bitsOnLines (b : Bool) (bits : List Bool) :
    sampleBits (⟨b, false⟩ :: bitsOnLines bits) = sampleBits (bitsOnLines bits)
      ∧ sdaStable (⟨b, false⟩ :: bitsOnLines bits) = sdaStable (bitsOnLines bits)
      ∧ startEdges (⟨b, false⟩ :: bitsOnLines bits) = startEdges (bitsOnLines bits)
      ∧ stopEdges (⟨b, false⟩ :: bitsOnLines bits) = stopEdges (bitsOnLines bits) := by
  cases bits with
  | nil => exact ⟨rfl, rfl, rfl, rfl⟩
  | cons c bits => simp [bitsOnLines, bitClock, sampleBits, sdaStable, startEdges, stopEdges, isStartEdge, isStopEdge]

/-- Bits on the lines give the sampler the bits back, and hold SDA still while SCL is high, so they show no edge. -/
theorem bitsOnLines_read (bits : List Bool) :
    sampleBits (bitsOnLines bits) = bits ∧ sdaStable (bitsOnLines bits) = true
      ∧ startEdges (bitsOnLines bits) = 0 ∧ stopEdges (bitsOnLines bits) = 0 := by
  induction bits with
  | nil => exact ⟨rfl, rfl, rfl, rfl⟩
  | cons b bits ih =>
    obtain ⟨h1, h2, h3, h4⟩ := lowClock_bitsOnLines b bits
    simp [bitsOnLines, bitClock, sampleBits, sdaStable, startEdges, stopEdges, isStartEdge, isStopEdge, h1, h2, h3,
      h4, ih]

theorem assembleFrame_frameBits (b : Byte) (nack : Bool) : assembleFrame (frameBits b nack) = some (b, nack) := by
  simp only [frameBits, dataBits, List.cons_append, List.nil_append, assembleFrame, Option.some.injEq, Prod.mk.injEq,
    and_true]
  apply BitVec.eq_of_getLsbD_eq
  intro i hi
  interval_cases i <;> simp only [BitVec.getLsbD_append] <;> simp

theorem readFrame_byte (d : Dir) (b : Byte) (nack : Bool) :
    readFrame (WireSym.byte d b nack).lines = some (b, nack) := by
  rw [readFrame, WireSym.lines, (bitsOnLines_read _).1, assembleFrame_frameBits]

/-- The SDA bits a part drives. -/
def partBits (part : Part) (b : Byte) (nack : Bool) : List Bool :=
  match part with
  | .transmitter => transmitterDrive b
  | .receiver => receiverDrive nack
  | .bystander => releasedBits

/-- A device's drive over a frame: its part's bits, each held over its clock, and the clocks if it is the master. -/
theorem frameDrive_eq (isMaster : Bool) (part : Part) (b : Byte) (nack : Bool) :
    frameDrive isMaster part b nack
      = ⟨heldBits (partBits part b nack), if isMaster = true then masterClock 9 else List.replicate 27 true⟩ := by
  cases isMaster <;> cases part <;> rfl

theorem clockPulses_frameDrive (isMaster : Bool) (part : Part) (b : Byte) (nack : Bool) :
    clockPulses (frameDrive isMaster part b nack).scl = if isMaster = true then 9 else 0 := by
  rw [frameDrive_eq]
  cases isMaster <;> rfl

theorem wiredBits_held (as bs : List Bool) : wiredBits (heldBits as) (heldBits bs) = heldBits (wiredBits as bs) := by
  induction as generalizing bs with
  | nil => rfl
  | cons a as ih =>
    cases bs with
    | nil => rfl
    | cons b bs => simp [heldBits, wiredBits, ih]

/-- Bits held over the clocks of a master are the bits on the lines. -/
theorem lines_masterDrive (bits : List Bool) : (masterDrive bits).lines = bitsOnLines bits := by
  induction bits with
  | nil => rfl
  | cons b bits ih => simpa [masterDrive, Drive.lines, heldBits, masterClock, bitsOnLines, bitClock] using ih

/-- Three devices on the bus, one of them the master: the lines are those of the wired-AND of their bits. -/
theorem lines_wired {m1 m2 : Bool} {p1 p2 p3 : Part} {b : Byte} {nack : Bool} (hm : m2 = !m1)
    (hbits : wiredBits (wiredBits (partBits p1 b nack) (partBits p2 b nack)) (partBits p3 b nack) = frameBits b nack) :
    (((frameDrive m1 p1 b nack).wired (frameDrive m2 p2 b nack)).wired (frameDrive false p3 b nack)).lines
      = bitsOnLines (frameBits b nack) := by
  have hscl : wiredBits (wiredBits (if m1 = true then masterClock 9 else List.replicate 27 true)
      (if m2 = true then masterClock 9 else List.replicate 27 true)) (List.replicate 27 true) = masterClock 9 := by
    subst hm
    cases m1 <;> decide
  simp only [frameDrive_eq, Drive.wired, wiredBits_held, hbits, Bool.false_eq_true, if_false, hscl]
  exact lines_masterDrive (frameBits b nack)

theorem passedOver_iff (e : Engine) (b : Byte) :
    e.passedOver b = true ↔ e.phase = .sAwait ∧ e.selected (b.extractLsb' 1 7) (b.getLsbD 0) = false := by
  simp [Engine.passedOver]

/-- The address and the direction an address byte carries. -/
theorem fields_addressByte (a7 : Addr7) (rw : Bool) :
    (a7 ++ BitVec.ofBool rw).extractLsb' 1 7 = a7 ∧ (a7 ++ BitVec.ofBool rw).getLsbD 0 = rw := by
  refine ⟨BitVec.eq_of_getLsbD_eq fun i hi => ?_, ?_⟩
  · rw [BitVec.getLsbD_extractLsb', BitVec.getLsbD_append]
    simp [hi]
  · rw [BitVec.getLsbD_append]
    simp

/-- The wired-AND of what the three devices drive over a byte is its frame, whichever of them receives. -/
theorem wiredBits_parts (e : Engine) (d : Dir) (b : Byte) (nack : Bool) :
    wiredBits (wiredBits (partBits (e.part d b) b nack) (partBits (remotePart d) b nack))
      (partBits (e.othersPart d b) b nack) = frameBits b nack := by
  obtain ⟨h1, h2, h3⟩ :
      wiredBits (wiredBits (transmitterDrive b) (receiverDrive nack)) releasedBits = frameBits b nack
        ∧ wiredBits (wiredBits (receiverDrive nack) (transmitterDrive b)) releasedBits = frameBits b nack
        ∧ wiredBits (wiredBits releasedBits (transmitterDrive b)) (receiverDrive nack) = frameBits b nack := by
    simp [transmitterDrive, receiverDrive, releasedBits, frameBits, dataBits, wiredBits, wiredAnd]
  cases d with
  | out => exact h1
  | inn =>
    cases hp : e.passedOver b with
    | false => simpa [Engine.part, Engine.othersPart, remotePart, partBits, hp] using h2
    | true => simpa [Engine.part, Engine.othersPart, remotePart, partBits, hp] using h3

theorem busLines_eq (e : Engine) (d : Dir) (b : Byte) (nack : Bool) :
    e.busLines d b nack = (WireSym.byte d b nack).lines :=
  lines_wired rfl (wiredBits_parts e d b nack)

/-- What each device drives on SDA over a byte that comes in, and over one that goes out. -/
theorem sda_incoming (e : Engine) (b : Byte) (nack : Bool) :
    (e.frameDrive .inn b nack).sda = heldBits (if e.passedOver b = true then releasedBits else receiverDrive nack)
      ∧ (e.remoteDrive .inn b nack).sda = heldBits (transmitterDrive b)
      ∧ (e.othersDrive .inn b nack).sda
        = heldBits (if e.passedOver b = true then receiverDrive nack else releasedBits) := by
  simp only [Engine.frameDrive, Engine.remoteDrive, Engine.othersDrive, frameDrive_eq]
  cases hp : e.passedOver b <;> simp [Engine.part, Engine.othersPart, remotePart, hp, partBits]

theorem sda_outgoing (e : Engine) (b : Byte) (nack : Bool) :
    (e.frameDrive .out b nack).sda = heldBits (transmitterDrive b)
      ∧ (e.remoteDrive .out b nack).sda = heldBits (receiverDrive nack)
      ∧ (e.othersDrive .out b nack).sda = heldBits releasedBits := by
  simp only [Engine.frameDrive, Engine.remoteDrive, Engine.othersDrive, frameDrive_eq]
  exact ⟨rfl, rfl, rfl⟩

/-- The master of the bus makes the nine clocks: this engine while MSL = 1, else the remote. -/
theorem clockPulses_byte (e : Engine) (d : Dir) (b : Byte) (nack : Bool) :
    clockPulses (e.frameDrive d b nack).scl = (if e.flag .msl = true then 9 else 0)
      ∧ clockPulses (e.remoteDrive d b nack).scl = (if e.flag .msl = true then 0 else 9)
      ∧ clockPulses (e.othersDrive d b nack).scl = 0 := by
  simp only [Engine.frameDrive, Engine.remoteDrive, Engine.othersDrive, clockPulses_frameDrive]
  cases e.flag .msl <;> simp

/-- R276: an address byte that selects this engine is acknowledged by it; over any other it releases SDA. -/
theorem slaveAddress_drive (p : Config.Params) {e : Engine} (a7 : Addr7) (rw otherNack : Bool) (hpe : e.pe = true)
    (hp : e.phase = .sAwait) :
    ∃ d b nack, engineStep p (.slaveAddress a7 rw otherNack) e = some (d, [.byte .inn b nack])
      ∧ (e.frameDrive .inn b nack).sda = heldBits (if d.phase = .idle then releasedBits else receiverDrive false) := by
  have hstep : engineStep p (.slaveAddress a7 rw otherNack) e = stepSlaveAddress a7 rw otherNack e := if_pos hpe
  have hpass : e.passedOver (a7 ++ BitVec.ofBool rw) = !e.selected a7 rw := by
    obtain ⟨haddr, hrw⟩ := fields_addressByte a7 rw
    rw [Engine.passedOver, haddr, hrw, hp]
    rfl
  cases hsel : e.selected a7 rw with
  | false =>
    refine ⟨{ e with phase := .idle }, _, otherNack,
      hstep.trans ((if_pos hp).trans (if_neg (by simp [hsel]))), ?_⟩
    rw [(sda_incoming e _ _).1, hpass, hsel]
    rfl
  | true =>
    refine ⟨_, _, false, hstep.trans ((if_pos hp).trans (if_pos hsel)), ?_⟩
    rw [(sda_incoming e _ _).1, hpass, hsel]
    cases rw <;> rfl

/-- Settles O51: the frame, its drivers and the slave's answer, then bits, stretching and edges. -/
theorem wireFraming : Obligations.WireFraming := by
  refine ⟨fun b nack => ⟨rfl, assembleFrame_frameBits b nack, ?_, fun d => ?_⟩, fun e d b nack => ?_,
    fun p e a7 rw otherNack => slaveAddress_drive p a7 rw otherNack,
    fun bits => ⟨(bitsOnLines_read bits).1, (bitsOnLines_read bits).2.1⟩, fun e => ?_, by decide, by decide⟩
  · simp [transmitterDrive, receiverDrive, frameBits, dataBits, wiredBits, wiredAnd]
  · obtain ⟨hsample, hstable, hstart, hstop⟩ := bitsOnLines_read (frameBits b nack)
    exact ⟨hsample, readFrame_byte d b nack, hstable, hstart, hstop⟩
  · refine ⟨busLines_eq e d b nack, ?_⟩
    cases d with
    | out =>
      obtain ⟨hthis, hremote, hothers⟩ := sda_outgoing e b nack
      exact ⟨hthis, hremote, by rw [hothers, if_neg (by simp)], clockPulses_byte e .out b nack⟩
    | inn =>
      obtain ⟨hthis, hremote, hothers⟩ := sda_incoming e b nack
      simp only [passedOver_iff] at hthis hothers
      exact ⟨by simpa using hthis, hremote, by simpa using hothers, clockPulses_byte e .inn b nack⟩
  · simp [Engine.stretches, or_assoc, and_assoc]

end Sys2Proof.WholeMachine
end
